-- ==== Sys2Proof/Word.lean ====
section
/-! DEFINITION. The word types of the part: bytes, 32-bit words and addresses, station numbers, and the saturating count. -/

namespace Sys2Proof

abbrev Byte := BitVec 8

/-- A 32-bit register word. -/
abbrev Word := BitVec 32

/-- A host memory address (00_scope, Conventions): a 32-bit byte address. -/
abbrev Addr := BitVec 32

/-- A station number, 0 to 63. -/
abbrev Stn := Fin 64

/-- A count that saturates: one more, stopping at `top` (00_scope, Conventions). -/
def bump (top n : Nat) : Nat := min (n + 1) top

end Sys2Proof
end

