-- ==== Sys2Proof/Syntax.lean ====
section
/-! DEFINITION. The commands of the part: one constructor for each row of spec/opcode_table.json, with its operands. -/

namespace Sys2Proof

/-- How far the system bus got with a request that ended in error or was abandoned (R172, R176): `full`
transactions completed, and of the next one the bytes of its aligned 8-byte unit whose bit is set in `part`
reached memory ("in whole, in part, or not at all"). -/
structure Cut where
  full : Nat
  part : BitVec 8
  deriving DecidableEq, Repr

/-- The header fields of a packet on the line (R71, section 12.7). -/
structure PacketHeader where
  kind    : BitVec 4
  address : BitVec 7
  parity  : Bool
  length  : BitVec 9
  check   : BitVec 8
  deriving DecidableEq, Repr

/-- A packet on the line: header, payload, payload CRC (R71). -/
structure Packet where
  header  : PacketHeader
  payload : List Byte
  crc     : BitVec 16
  deriving DecidableEq, Repr

/-- How a reception ends (R77): well framed, or by a framing error with the header fields received by then,
if they were. -/
inductive Reception
  | framed (p : Packet)
  | broken (header : Option PacketHeader)
  deriving DecidableEq, Repr

/-- The commands: register accesses, applications of the head attention entry, ends of memory requests, events of
the line, and ends of intervals. A `quiet` operand says whether the line is quiet when LP looks at it before a send
that the command may bring about (R75). -/
inductive Instr
  /-- POWER_ON_RESET (R183). -/
  | powerOnReset (cut : Cut)
  /-- DEVICE_RESET (R183). -/
  | deviceReset (cut : Cut)
  /-- RUN_START (R180): RUN written as 1. -/
  | runStart
  /-- RUN_STOP (R181): RUN written as 0. -/
  | runStop
  /-- LINK_RESTART (R182): LINK_RESTART written as 1. -/
  | linkRestart
  /-- NOTICE_EN (R179): NOTICE_EN written as `v`. -/
  | noticeEn (v : Bool)
  /-- FAULT_EN (R179): FAULT_EN written as `v`. -/
  | faultEn (v : Bool)
  /-- STATUS_WRITE_CLEAR (R184): the word written to STATUS. -/
  | statusWriteClear (w : Word)
  /-- DIRBASE_WRITE (R178): the word written to DIRBASE. -/
  | dirbaseWrite (w : Word)
  /-- ATTENTION_WRITE (R52): the word written to ATTENTION. -/
  | attentionWrite (w : Word)
  /-- NOTICE_READ (R66). -/
  | noticeRead
  /-- REGISTER_WRITE_IGNORED (R177): window offset, byte enables and word of a write that is ignored. -/
  | registerWriteIgnored (offset : Nat) (enables : BitVec 4) (w : Word)
  /-- BRING_UP (R56). -/
  | bringUp
  /-- WAKE (R57). -/
  | wake
  /-- PAUSE (R58). -/
  | pause
  /-- RESUME (R59). -/
  | resume
  /-- WITHDRAW (R60). -/
  | withdraw
  /-- REVIVE (R63). -/
  | revive
  /-- TAKE_DOWN (R64). -/
  | takeDown
  /-- HEADER_READ (R29): the 64 bytes the read returned. -/
  | headerRead (data : List Byte)
  /-- CONFIGURATION_READ (R32): the 32 bytes the read returned. -/
  | configurationRead (data : List Byte)
  /-- CHAIN_HEAD_READ (R10): the 4 bytes the read returned. -/
  | chainHeadRead (data : List Byte)
  /-- LINK_READ (R9): the 4 bytes the read returned. -/
  | linkRead (data : List Byte)
  /-- BLOCK_READ (R11): the 64 bytes the read returned. -/
  | blockRead (data : List Byte)
  /-- TAKEN_WRITE (R12). -/
  | takenWrite
  /-- RESULT_WRITE (R20). -/
  | resultWrite
  /-- DONE_WRITE (R20). -/
  | doneWrite
  /-- STATUS_WRITE (R35). -/
  | statusWrite
  /-- PUT_READ (R102): the bytes the read returned. -/
  | putRead (data : List Byte) (quiet : Bool)
  /-- DRAIN (R106). -/
  | drain
  /-- SLOT_WRITE (R165). -/
  | slotWrite
  /-- BUS_ERROR (R172): the transaction `cut.full` of the request in progress fails. -/
  | busError (cut : Cut)
  /-- GRANT (R136). -/
  | grant (quiet : Bool)
  /-- LINE_QUIET (R75). -/
  | lineQuiet
  /-- LINE_BUSY_LIMIT (R75). -/
  | lineBusyLimit
  /-- PACKET_SENT (R76). -/
  | packetSent
  /-- START_DELIMITER (R76). -/
  | startDelimiter
  /-- RESPONSE_TIMEOUT (R76). -/
  | responseTimeout (quiet : Bool)
  /-- RECEPTION_END (R77). -/
  | receptionEnd (r : Reception) (quiet : Bool)
  /-- MILLISECOND_EXPIRY (R143). -/
  | millisecondExpiry
  /-- HOLD_DELAY_EXPIRY (R43). -/
  | holdDelayExpiry (n : Stn)
  /-- REREAD_EXPIRY (R19). -/
  | rereadExpiry (n : Stn)
  /-- INTERVAL_END (R159). -/
  | intervalEnd (n : Stn)
  /-- RESTART_BREAK (R86). -/
  | restartBreak
  /-- BREAK_END (R86). -/
  | breakEnd
  /-- SETTLING_END (R86). -/
  | settlingEnd
  /-- FRAMING_ERROR (R77). -/
  | framingError
  deriving DecidableEq, Repr

end Sys2Proof
end

