-- ==== Sys2Proof/Decode.lean ====
section
/-! DEFINITION. From what reaches the part to its commands: no row of the table gives bits, so `decodeTableWord` answers none; `commandsOfWrite`, `commandsOfRead` and their 64-bit forms map slave port accesses to commands. -/

namespace Sys2Proof

/-- A packet as a receiver frames it: the payload has the length its header gives (R77). -/
def Packet.framedRight (p : Packet) : Bool := p.payload.length == p.header.length.toNat

/-- The writes that R177 says have no effect: fewer than four byte enables, or an offset of IDENT, NOTICE,
FAULT_ADDR or no register. `offset` is a multiple of 4 in the 32-byte window (section 12.2). -/
def ignoredWrite (offset : Nat) (enables : BitVec 4) : Bool :=
  offset < 32 && offset % 4 == 0 &&
    (enables != 15#4 || offset == 0x00 || offset == 0x14 || offset == 0x18 || offset == 0x1C)

/-- No row of spec/opcode_table.json gives bits: no word spells a command (log 22). -/
def decodeTableWord (_nbits _w : Nat) : Option Instr := none

/-- A CONTROL write of `w` as the rows of the table, in the order of R179: with DEVICE_RESET 1 the other controls
of the write are discarded; otherwise the two enables, then LINK_RESTART, then RUN (positions of section 12.2). The
commands of one write stand together in the queue, since the write is taken as one event (log 1). -/
def controlCommands (cut : Cut) (w : Word) : List Instr :=
  if w.getLsbD 31 then [.deviceReset cut]
  else
    [.noticeEn (w.getLsbD 1), .faultEn (w.getLsbD 2)]
      ++ (if w.getLsbD 8 then [.linkRestart] else [])
      ++ [if w.getLsbD 0 then .runStart else .runStop]

/-- A 32-bit write on the slave port at a window offset (R177, section 12.2). `cut` is what a device reset finds of
a request in progress. -/
def commandsOfWrite (cut : Cut) (offset : Nat) (enables : BitVec 4) (w : Word) : List Instr :=
  if ignoredWrite offset enables then [.registerWriteIgnored offset enables w]
  else if offset = 0x04 then controlCommands cut w
  else if offset = 0x08 then [.statusWriteClear w]
  else if offset = 0x0C then [.dirbaseWrite w]
  else if offset = 0x10 then [.attentionWrite w]
  else []

/-- A 64-bit write: two 32-bit writes, to the lower and then the upper half of its aligned 8-byte unit, each with
the byte enables of that half (R177). -/
def commandsOfWrite64 (cut : Cut) (offset : Nat) (enables : BitVec 8) (w : BitVec 64) : List Instr :=
  commandsOfWrite cut (offset / 8 * 8) (enables.setWidth 4) (w.setWidth 32)
    ++ commandsOfWrite cut (offset / 8 * 8 + 4) ((enables >>> 4).setWidth 4) ((w >>> 32).setWidth 32)

/-- A read of up to 32 bits: only NOTICE has a read effect, a take even when one of its bytes is read (R177). A half
of a 64-bit read with no byte enabled reads nothing (log 31). -/
def commandsOfRead (offset : Nat) (enables : BitVec 4) : List Instr :=
  if offset = 0x14 ∧ enables ≠ 0#4 then [.noticeRead] else []

/-- A 64-bit read: two 32-bit reads, of the lower and then the upper half of its aligned 8-byte unit (R177). -/
def commandsOfRead64 (offset : Nat) (enables : BitVec 8) : List Instr :=
  commandsOfRead (offset / 8 * 8) (enables.setWidth 4)
    ++ commandsOfRead (offset / 8 * 8 + 4) ((enables >>> 4).setWidth 4)

end Sys2Proof
end

