-- ==== Sys2Proof/Config.lean ====
section
/-! DEFINITION. What the part fixes for good (identity, LP's own time limits) and the one free value of the model. -/

namespace Sys2Proof.Config

/-- The free value of R167: which of SM's operations hands its request to MP next, "in whichever order its
operations reach them". Applied to `State.choices`; nothing constrains it (log 4). -/
opaque smPick : Nat → Nat

/-- IDENT (R178, R185). -/
def ident : Word := 0x4B560001#32

/-- Capacity of the attention queue (R53). -/
def queueCapacity : Nat := 16

/-- LP's line-busy limit in microseconds (R75). -/
def busyLimit : Nat := 4000

/-- The restart break in milliseconds (R85). -/
def breakTime : Nat := 2

/-- The settling interval in milliseconds (R85). -/
def settleTime : Nat := 5

/-- The mark of a directory header (R28). -/
def headerMark : Nat := 0x4B4C4449

/-- The mark of a report record (R110). -/
def reportMark : Nat := 0xA55A

end Sys2Proof.Config
end

