-- ==== Sys2Proof/Machine/State.lean ====
section
/-! DEFINITION. The state of the part, block by block, its stops, and the state after power-on reset. -/

namespace Sys2Proof.Machine

/-! ### Named values -/

/-- The part state (R184). -/
inductive PartState
  | stopped | starting | running | stopping | faulted
  deriving DecidableEq, Repr

/-- The eight station states (section 2.7). -/
inductive StationState
  | absent | idle | ready | engaged | holding | paused | halted | lost
  deriving DecidableEq, Repr

/-- The seven actions of an attention entry (R52). -/
inductive Action
  | bringUp | wake | pause | resume | withdraw | revive | takeDown
  deriving DecidableEq, Repr

/-- Last attention result (R34). -/
inductive AttentionResult
  | applied | refused | configFault | readFault
  deriving DecidableEq, Repr

/-- Chain code (R34). -/
inductive ChainCode
  | clear | draftSeen | chainFault | chainReadFault
  deriving DecidableEq, Repr

/-- Phase of the in-flight block (R93); `nothing` is NONE. -/
inductive Phase
  | nothing | order | data | report | complete
  deriving DecidableEq, Repr

/-- The twelve conditions (R113). -/
inductive Condition
  | clean | short | stationFailed | rejected | refused | overrun | lineFault | reportFault | holdLimit
  | memoryFault | abandoned | malformed
  deriving DecidableEq, Repr

/-- Direction of the data phase (R2); `nothing` is NONE. -/
inductive Direction
  | nothing | toStation | fromStation
  deriving DecidableEq, Repr

/-- Kind of an exchange block (R3). -/
inductive BlockKind
  | exchange | resync | mark | stoppoint
  deriving DecidableEq, Repr

/-- Status of a watch slot (R156); `nothing` is NONE. -/
inductive SlotStatus
  | nothing | valid | stale | refused
  deriving DecidableEq, Repr

/-- The fourteen packet kinds (R72). -/
inductive PacketKind
  | order | put | fetch | ask | peek | opening | sync | accept | hold | refuse | data | finish | report | state
  deriving DecidableEq, Repr

/-- Turn kinds (R89). -/
inductive TurnKind
  | order | put | fetch | ask | sync | peek
  deriving DecidableEq, Repr

/-- States of the Link Port (R87); `breaking` is BREAK. -/
inductive LinkState
  | idle | sending | awaiting | receiving | breaking | settling
  deriving DecidableEq, Repr

/-- The requesters of the Memory Port (R167). -/
inductive Requester
  | sm | xe | wu
  deriving DecidableEq, Repr

/-- The request kinds of R168. -/
inductive RequestKind
  | headerRead | configurationRead | chainHeadRead | blockRead | linkRead | takenWrite | resultWrite | doneWrite
  | statusWrite | putRead | drain | slotWrite
  deriving DecidableEq, Repr

/-! ### Records -/

/-- A route (R31): DIRECT, or a port of a branch. -/
inductive Route
  | direct
  | branch (index port : Fin 8)
  deriving DecidableEq, Repr

/-- State of a route table entry (R146), with the open port where it has a meaning. -/
inductive RouteEntry
  | unknown
  | opened (port : Fin 8)
  | faulty
  deriving DecidableEq, Repr

/-- The cached configuration of a station (R31, R33): every field but the chain head. -/
structure StationConfig where
  linkAddress    : Nat
  route          : Route
  maxPacketCode  : Nat
  attemptLimit   : Nat
  holdLimit      : Nat
  rereadInterval : Nat
  watchInterval  : Nat
  watchLength    : Nat
  watchNotify    : Bool
  deriving DecidableEq, Repr

/-- DIRBASE and the header values latched at the last successful start (R28, R29, R178). -/
structure Latched where
  dirbase         : Addr
  linkRate        : Nat
  lapseLimit      : Nat
  holdDelay       : Nat
  responseTimeout : Nat
  branchCount     : Nat
  watchPage       : Addr
  branchAddresses : List Nat
  deriving DecidableEq, Repr

/-- The host part of a block as its block read returned it (R2, R5). `kind` is none for a code outside 1 to 4. -/
structure HostPart where
  link        : Addr
  kind        : Option BlockKind
  notify      : Bool
  haltOnError : Bool
  acceptShort : Bool
  direction   : Direction
  orderLength : Nat
  tag         : BitVec 16
  dataAddress : Addr
  dataLength  : Nat
  orderBytes  : List Byte
  deriving DecidableEq, Repr

/-- The in-flight block (R6). -/
structure InFlight where
  address  : Addr
  host     : HostPart
  phase    : Phase
  moved    : Nat
  attempts : Nat
  holds    : Nat
  cursor   : Addr
  deriving DecidableEq, Repr

/-- How a retirement goes on after step 6 of R20 (R21). -/
inductive After
  | turn | following | stoppoint | walk | withdraw | takeDown | lost | restart
  deriving DecidableEq, Repr

/-- What a retirement under way needs of the block (R20, R21). -/
structure Retirement where
  block       : Addr
  inFlight    : Bool
  notify      : Bool
  haltOnError : Bool
  condition   : Condition
  after       : After
  deriving DecidableEq, Repr

/-- Why SM has an operation under way for a station: the application of the head attention entry (R53), the
station's turn (R135), a following of SM's own (R9: re-read expiry, settling end, start), restart changes (R50), an
entry into LOST outside the station's own turn (R152; `owed` for one of R153), a status half write of its own (R35:
the end of a following, turn or hold delay), whose end SM waits for (R170, log 28). -/
inductive Job
  | application
  | turn
  | own
  | restart
  | lost (owed : Bool)
  | report
  deriving DecidableEq, Repr

/-- What SM waits for in an operation. -/
inductive Stage
  /-- the configuration read of a BRING_UP (R32) -/
  | configuration
  /-- a link read or chain head read (R9, R10) -/
  | candidate
  /-- the block read of a candidate (R11) -/
  | block (address : Addr)
  /-- the TAKEN write of a candidate (R12) -/
  | taken (address : Addr) (host : HostPart)
  /-- step 1 of a retirement (R20) -/
  | result (r : Retirement)
  /-- step 3 of a retirement -/
  | done (r : Retirement)
  /-- step 5 of a retirement -/
  | status (r : Retirement)
  /-- the slot write of a BRING_UP whose following has ended (R56) -/
  | slotAtBringUp
  /-- the slot write of a TAKE_DOWN (R64) -/
  | slotAtTakeDown
  /-- the last status write of an application, restart change or entry into LOST, or a report -/
  | final
  deriving DecidableEq, Repr

/-- What a following compares at its end (R16). -/
structure Snapshot where
  state    : StationState
  inFlight : Option Addr
  parked   : Option Addr
  code     : ChainCode
  deriving DecidableEq, Repr

/-- An operation of SM on one station (R16, R20, R53, R61). -/
structure Operation where
  job         : Job
  stage       : Stage
  /-- the predecessor of the candidate, or none for the chain head (R9) -/
  predecessor : Option Addr
  /-- a WITHDRAW walk rather than a following (R61) -/
  walk        : Bool
  /-- a BRING_UP's slot write is not complete (R56) -/
  slotDue     : Bool
  began       : Snapshot
  deriving DecidableEq, Repr

/-- A station context (R37). -/
structure Station where
  state          : StationState
  config         : Option StationConfig
  inFlight       : Option InFlight
  parked         : Option Addr
  code           : ChainCode
  wakePending    : Bool
  resyncPending  : Bool
  restartFollow  : Bool
  putParity      : Bool
  getParity      : Bool
  retireCount    : BitVec 16
  lapses         : Nat
  lastCondition  : Condition
  lastResult     : AttentionResult
  hold           : Option Nat
  reread         : Option Nat
  totalHolds     : Nat
  totalFailed    : Nat
  /-- a hold delay that expired during a watch turn (R41) -/
  holdExpired    : Bool
  /-- a re-read expiry met during a watch turn (R41) -/
  rereadOwed     : Bool
  /-- an owed entry into LOST (R153) -/
  owedLost       : Bool
  /-- the status half write of a hold delay's end, asked for beside the operation under way, has not ended (R43, R35,
  log 28) -/
  holdReport     : Bool
  /-- restart changes still to be made (R50) -/
  restartOwed    : Bool
  /-- the last status half written (R35) -/
  lastStatus     : Option (List Byte)
  op             : Option Operation
  deriving DecidableEq, Repr

/-- An attention entry (R53). -/
structure Entry where
  station : Stn
  action  : Action
  deriving DecidableEq, Repr

/-- A request of the Memory Port (R168). -/
structure Request where
  kind    : RequestKind
  station : Option Stn
  address : Addr
  length  : Nat
  data    : List Byte
  /-- the status half of a hold delay that ended during another operation on the station: no step of that operation
  waits for it (R43, log 28) -/
  beside  : Bool
  deriving DecidableEq, Repr

/-- What a part's ACCEPT acknowledges (R82, R99, R109). -/
inductive Acknowledged
  | data | report | badReport | duplicate
  deriving DecidableEq, Repr

/-- The outcome XE hands SM (R114), with what it carries: of RETIRE the condition, resync pending to set or not, the
station residue and the report copy; of EXHAUSTED the request that was exhausted. -/
inductive Outcome
  | cont
  | hold
  | retire (condition : Condition) (resync : Bool) (residue : Nat) (report : List Byte)
  | exhausted (request : PacketKind)
  deriving DecidableEq, Repr

/-- How XE marks the turn with its outcome (R114). -/
inductive TurnMark
  | answered | unanswered | neither
  deriving DecidableEq, Repr

/-- Where the turn stands (R91, R135). -/
inductive TurnStage
  /-- the PUT read is with MP (R102) -/
  | putRead
  /-- the request in hand is with LP (R98) -/
  | request
  /-- a part's ACCEPT is with LP (R82) -/
  | accept (what : Acknowledged)
  /-- the drain is with MP (R106) -/
  | drain
  /-- a slot write is with WU (R161, R163, R164); `notify` when a notice follows it -/
  | slot (notify : Bool)
  /-- the outcome is with SM, with the turn's mark (R114) -/
  | handed (o : Outcome) (mark : TurnMark)
  deriving DecidableEq, Repr

/-- XE's working state of the turn in progress (R89). -/
structure Turn where
  station     : Stn
  kind        : TurnKind
  /-- the request in hand is the OPEN (R149) -/
  opening     : Bool
  /-- an OPEN of this turn was accepted (R154) -/
  opened      : Bool
  attempts    : Nat
  size        : Nat
  grantedFrom : StationState
  stage       : TurnStage
  /-- the station's request was exhausted in this turn (R132) -/
  lapsed      : Bool
  deriving DecidableEq, Repr

/-- A send XE has asked LP for (R75, R89). -/
structure Send where
  kind    : PacketKind
  address : BitVec 7
  parity  : Bool
  short   : List Byte
  deriving DecidableEq, Repr

/-- A watch record (R156). -/
structure WatchRecord where
  active    : Bool
  countdown : Nat
  due       : Bool
  last      : Option (List Byte)
  changes   : BitVec 32
  missed    : Nat
  status    : SlotStatus
  held      : Bool
  deriving DecidableEq, Repr

/-- An entry of the due list (R134). -/
structure DueEntry where
  station  : Stn
  deferred : Bool
  deriving DecidableEq, Repr

/-! ### Blocks -/

/-- Register Window (section 11). -/
structure RegisterWindow where
  part           : PartState
  run            : Bool
  noticeEn       : Bool
  faultEn        : Bool
  attnLost       : Bool
  attnBad        : Bool
  headerFault    : Bool
  portFault      : Bool
  dirbase        : Addr
  faultAddr      : Addr
  restartRequest : Bool
  /-- the restart requested or waiting was requested while an application was under way (R54) -/
  restartHolds   : Bool
  headerPassed   : Bool
  deriving DecidableEq, Repr

/-- Notice Unit (R65). -/
structure NoticeUnit where
  flags    : Vector Bool 64
  position : Stn
  deriving DecidableEq, Repr

/-- Station Manager, beside its contexts (R50, R167). -/
structure StationManager where
  queue          : List Request
  restartPending : Bool
  followDue      : Bool
  deriving DecidableEq, Repr

/-- Link Scheduler (R134). -/
structure Scheduler where
  rotation : Stn
  due      : List DueEntry
  deriving DecidableEq, Repr

/-- Exchange Engine (R89, R90). -/
structure Exchange where
  turn    : Option Turn
  staging : List Byte
  deriving DecidableEq, Repr

/-- Watch Unit (R156, R165). -/
structure WatchUnit where
  records : Vector WatchRecord 64
  queue   : List Request
  deriving DecidableEq, Repr

/-- Link Port (R87). -/
structure LinkPort where
  state         : LinkState
  send          : Option Send
  responseTimer : Option Nat
  busyTimer     : Option Nat
  breakTimer    : Option Nat
  settleTimer   : Option Nat
  rx            : Option PacketHeader
  broken        : Bool
  deriving DecidableEq, Repr

/-- Memory Port (R167). -/
structure MemoryPort where
  sm         : Option Request
  xe         : Option Request
  wu         : Option Request
  inProgress : Option Requester
  last       : Requester
  deriving DecidableEq, Repr

/-- Host memory as the part has written it: cells of (address, byte), addresses strictly rising (log 3). -/
abbrev Memory := List Host.Cell

/-- The whole part, host memory as the part has written it, and the queue of commands. -/
structure State where
  rw        : RegisterWindow
  au        : List Entry
  ctx       : Vector Station 64
  sm        : StationManager
  nu        : NoticeUnit
  ls        : Scheduler
  xe        : Exchange
  rm        : Vector RouteEntry 8
  wu        : WatchUnit
  lp        : LinkPort
  mp        : MemoryPort
  itElapsed : Nat
  latched   : Option Latched
  mem       : Memory
  readData  : Word
  choices   : Nat
  pending   : List Instr
  deriving DecidableEq, Repr

/-! ### Stops -/

/-- A command that finds the part in a state that no run reaches. Safe: the model stops (log 15). -/
inductive Fault
  /-- A request of SM, XE or WU ended that no operation waits for. Raised by the ends of memory requests. Safe. -/
  | noOperation
  /-- LP has a finding and no turn is in progress. Raised by the events of the line. Safe. -/
  | noTurn
  deriving DecidableEq, Repr

/-- A command that, by the spec, cannot arise in the state it meets (log 14). All are safe: the model stops. -/
inductive Refusal
  /-- A constructor with no meaning yet. Raised by no arm once all are written. Safe. -/
  | notModelled (mnemonic : String)
  /-- The bytes are not as many as the read asked for (R168). Raised by the ends of reads. Safe. -/
  | readLength
  /-- The request has no transaction of that number (R168). Raised by BUS_ERROR. Safe. -/
  | noSuchTransaction
  /-- The payload is not of the length the header gives: the packet is not well framed (R77). Raised by
  RECEPTION_END. Safe. -/
  | notFramed
  /-- The Interval Timer stands still (R143). Raised by MILLISECOND_EXPIRY. Safe. -/
  | timerHalted
  /-- An interval that ended at the last expiry has not been taken (R158). Raised by MILLISECOND_EXPIRY. Safe. -/
  | intervalEndOwed
  /-- The countdown does not stand at 0 (R19, R43, R158). Raised by the expiries. Safe. -/
  | countdownRunning
  /-- A station of lower number fell due at the same expiry and joins first (R138). Raised by INTERVAL_END. Safe. -/
  | lowerStationFirst
  /-- The attention queue has no entry of that action at its head (R53). Raised by the seven actions. Safe. -/
  | noSuchHead
  deriving DecidableEq, Repr

/-- What a meaning answers. -/
abbrev Answer := Host.Outcome State Fault Refusal

/-! ### Reset -/

/-- A station context after reset (R48). -/
def Station.reset : Station where
  state := .absent
  config := none
  inFlight := none
  parked := none
  code := .clear
  wakePending := false
  resyncPending := false
  restartFollow := false
  putParity := false
  getParity := false
  retireCount := 0#16
  lapses := 0
  lastCondition := .clean
  lastResult := .applied
  hold := none
  reread := none
  totalHolds := 0
  totalFailed := 0
  holdExpired := false
  rereadOwed := false
  owedLost := false
  holdReport := false
  restartOwed := false
  lastStatus := none
  op := none

/-- An inactive watch record, every field cleared (R157). -/
def WatchRecord.reset : WatchRecord where
  active := false
  countdown := 0
  due := false
  last := none
  changes := 0#32
  missed := 0
  status := .nothing
  held := false

/-- The register window after reset, DIRBASE apart (R183). -/
def RegisterWindow.reset (dirbase : Addr) : RegisterWindow where
  part := .stopped
  run := false
  noticeEn := false
  faultEn := false
  attnLost := false
  attnBad := false
  headerFault := false
  portFault := false
  dirbase := dirbase
  faultAddr := 0#32
  restartRequest := false
  restartHolds := false
  headerPassed := false

/-- The Link Port after reset (R87). -/
def LinkPort.reset : LinkPort where
  state := .idle
  send := none
  responseTimer := none
  busyTimer := none
  breakTimer := none
  settleTimer := none
  rx := none
  broken := false

/-- The Memory Port after reset (R167). -/
def MemoryPort.reset : MemoryPort where
  sm := none
  xe := none
  wu := none
  inProgress := none
  last := .wu

/-- Every block at its reset values, with what a reset does not touch given: DIRBASE, host memory, the data of the
last NOTICE read, the count of free choices drawn, the queue of commands (R183). -/
def State.resetWith (dirbase : Addr) (mem : Memory) (readData : Word) (choices : Nat) (pending : List Instr) :
    State where
  rw := .reset dirbase
  au := []
  ctx := .replicate 64 .reset
  sm := ⟨[], false, false⟩
  nu := ⟨.replicate 64 false, 0⟩
  ls := ⟨63, []⟩
  xe := ⟨none, []⟩
  rm := .replicate 8 .unknown
  wu := ⟨.replicate 64 .reset, []⟩
  lp := .reset
  mp := .reset
  itElapsed := 0
  latched := none
  mem := mem
  readData := readData
  choices := choices
  pending := pending

/-- The part right after power-on reset (R183), with no command waiting. -/
def State.reset : State := .resetWith 0#32 [] 0#32 0 []

end Sys2Proof.Machine
end

