-- ==== Sys2Proof/Machine/Operands.lean ====
section
/-! DEFINITION. Formats (chapter 12): every record the part reads or writes, field by field, and the codes of its fields. -/

namespace Sys2Proof.Machine

/-! ### Little-endian fields (R185) -/

/-- Byte `i` of a record. -/
def byteAt (d : List Byte) (i : Nat) : Byte := d.getD i 0#8

/-- The `k`-byte little-endian field at offset `i`. -/
def leField (d : List Byte) (i : Nat) : Nat → Nat
  | 0 => 0
  | k + 1 => (byteAt d i).toNat + 256 * leField d (i + 1) k

/-- A 32-bit field. -/
def leWord (d : List Byte) (i : Nat) : Word := BitVec.ofNat 32 (leField d i 4)

/-- `n` as `k` little-endian bytes. -/
def leBytes (n : Nat) : Nat → List Byte
  | 0 => []
  | k + 1 => BitVec.ofNat 8 n :: leBytes (n / 256) k

/-- `k` reserved bytes, written as 0 (R185). -/
def zeroBytes (k : Nat) : List Byte := List.replicate k 0#8

/-- `addr` is a multiple of `k`. -/
def alignedTo (addr : Addr) (k : Nat) : Bool := addr.toNat % k == 0

/-! ### Codes -/

def PartState.code : PartState → Nat
  | .stopped => 0 | .starting => 1 | .running => 2 | .stopping => 3 | .faulted => 4

def StationState.code : StationState → Nat
  | .absent => 0 | .idle => 1 | .ready => 2 | .engaged => 3 | .holding => 4 | .paused => 5 | .halted => 6 | .lost => 7

def AttentionResult.code : AttentionResult → Nat
  | .applied => 0 | .refused => 1 | .configFault => 2 | .readFault => 3

def ChainCode.code : ChainCode → Nat
  | .clear => 0 | .draftSeen => 1 | .chainFault => 2 | .chainReadFault => 3

def Phase.code : Phase → Nat
  | .nothing => 0 | .order => 1 | .data => 2 | .report => 3 | .complete => 4

/-- R113. -/
def Condition.code : Condition → Nat
  | .clean => 0 | .short => 1 | .stationFailed => 2 | .rejected => 3 | .refused => 4 | .overrun => 5 | .lineFault => 6
  | .reportFault => 7 | .holdLimit => 8 | .memoryFault => 9 | .abandoned => 10 | .malformed => 11

def Direction.code : Direction → Nat
  | .nothing => 0 | .toStation => 1 | .fromStation => 2

def SlotStatus.code : SlotStatus → Nat
  | .nothing => 0 | .valid => 1 | .stale => 2 | .refused => 3

/-- R52: action code 0 names no action. -/
def Action.ofCode : Nat → Option Action
  | 1 => some .bringUp | 2 => some .wake | 3 => some .pause | 4 => some .resume | 5 => some .withdraw
  | 6 => some .revive | 7 => some .takeDown | _ => none

/-- A kind code outside 1 to 4 makes the block malformed (R185). -/
def BlockKind.ofCode : Nat → Option BlockKind
  | 1 => some .exchange | 2 => some .resync | 3 => some .mark | 4 => some .stoppoint | _ => none

/-- A direction code of 3 to 255 is read as NONE (R185). -/
def Direction.ofCode : Nat → Direction
  | 1 => .toStation | 2 => .fromStation | _ => .nothing

/-- Largest data payload by max packet code (R31). -/
def maxPacketSize (code : Nat) : Nat := 16 * 2 ^ code

/-! ### Exchange block (section 12.3) -/

/-- The state word, judged as a whole 32-bit value (R185). -/
inductive StateWord
  | draft | posted | taken | done
  deriving DecidableEq, Repr

/-- Any value outside 0 to 3 is treated as DRAFT (R4). -/
def StateWord.ofBlock (d : List Byte) : StateWord :=
  match leField d 0x04 4 with
  | 1 => .posted | 2 => .taken | 3 => .done | _ => .draft

def stateWordTaken : Nat := 2

def stateWordDone : Nat := 3

/-- The host part of the 64 bytes of a block read. -/
def HostPart.ofBlock (d : List Byte) : HostPart where
  link := leWord d 0x00
  kind := BlockKind.ofCode (byteAt d 0x08).toNat
  notify := (byteAt d 0x09).getLsbD 0
  haltOnError := (byteAt d 0x09).getLsbD 1
  acceptShort := (byteAt d 0x09).getLsbD 2
  direction := .ofCode (byteAt d 0x0A).toNat
  orderLength := (byteAt d 0x0B).toNat
  tag := BitVec.ofNat 16 (leField d 0x0C 2)
  dataAddress := leWord d 0x10
  dataLength := leField d 0x14 3
  orderBytes := (d.drop 0x20).take 32

/-- R11: what makes a POSTED block malformed. -/
def HostPart.malformed (h : HostPart) : Bool :=
  h.kind.isNone
    || (h.kind == some .exchange && (h.orderLength == 0 || 32 < h.orderLength))
    || (h.direction == .nothing && h.dataLength != 0)
    || (h.direction != .nothing && h.dataLength == 0)
    || 2 ^ 32 < h.dataAddress.toNat + h.dataLength

/-- The result section, 0x40 to 0x6F (R7, R8). Part residue is data length minus moved. -/
def resultSection (condition : Condition) (phase : Phase) (attempts holds moved dataLength stationResidue : Nat)
    (retireNumber : BitVec 16) (reportCopy : List Byte) : List Byte :=
  leBytes condition.code 1 ++ leBytes phase.code 1 ++ leBytes attempts 1 ++ leBytes holds 1
    ++ leBytes moved 4 ++ leBytes (dataLength - moved) 4 ++ leBytes stationResidue 4
    ++ leBytes retireNumber.toNat 2 ++ zeroBytes 14 ++ reportCopy

/-- An all-zero report copy (R7). -/
def noReport : List Byte := zeroBytes 16

/-! ### Station directory (section 12.4) -/

def Addr.plus (a : Addr) (k : Nat) : Addr := a + BitVec.ofNat 32 k

/-- Station entry `n` (R27). -/
def stationEntry (dirbase : Addr) (n : Stn) : Addr := Addr.plus dirbase (64 + 64 * n.val)

def chainHeadField (dirbase : Addr) (n : Stn) : Addr := Addr.plus (stationEntry dirbase n) 0x0C

def statusHalfAddr (dirbase : Addr) (n : Stn) : Addr := Addr.plus (stationEntry dirbase n) 0x20

/-- The header's values with the directory base they are latched with (R29). -/
def Latched.ofHeader (dirbase : Addr) (d : List Byte) : Latched where
  dirbase := dirbase
  linkRate := (byteAt d 0x04).toNat
  lapseLimit := (byteAt d 0x05).toNat
  holdDelay := (byteAt d 0x06).toNat
  responseTimeout := (byteAt d 0x07).toNat
  branchCount := (byteAt d 0x08).toNat
  watchPage := leWord d 0x0C
  branchAddresses := ((d.drop 0x10).take 8).map BitVec.toNat

/-- The branch addresses in use: those of the indexes below the branch count (R28). -/
def Latched.branchesInUse (l : Latched) : List Nat := l.branchAddresses.take l.branchCount

/-- Check 1 of R29. -/
def dirbaseLegal (dirbase : Addr) : Bool := alignedTo dirbase 64 && dirbase.toNat + 4160 ≤ 2 ^ 32

/-- Checks 3 to 6 of R29. -/
def headerLegal (d : List Byte) (l : Latched) : Bool :=
  leField d 0x00 4 == Config.headerMark
    && l.linkRate ≤ 3 && 8 ≤ l.responseTimeout && 1 ≤ l.holdDelay && 1 ≤ l.lapseLimit && l.lapseLimit ≤ 15
    && l.branchCount ≤ 8 && l.branchesInUse.all (fun a => 1 ≤ a && a ≤ 119) && decide l.branchesInUse.Nodup
    && (l.watchPage == 0#32 || (alignedTo l.watchPage 16 && l.watchPage.toNat + 1024 ≤ 2 ^ 32))

/-- Check 7 of R29 for one station that is not ABSENT. -/
def headerFits (l : Latched) (c : StationConfig) : Bool :=
  (match c.route with
    | .direct => true
    | .branch b _ => b.val < l.branchCount)
    && !l.branchesInUse.contains c.linkAddress
    && (c.watchInterval == 0 || l.watchPage != 0#32)

/-- The route of a configuration half; none where it fails check 4 of R32. -/
def decodeRoute (d : List Byte) (branchCount : Nat) : Option Route :=
  match (byteAt d 0x01).toNat with
  | 0 => some .direct
  | 1 =>
    if (byteAt d 0x02).toNat < branchCount then
      some (.branch (Fin.ofNat 8 (byteAt d 0x02).toNat) (Fin.ofNat 8 (byteAt d 0x03).toNat))
    else none
  | _ => none

/-- The cached configuration of a configuration half with that route (R33). -/
def StationConfig.ofHalf (d : List Byte) (route : Route) : StationConfig where
  linkAddress := (byteAt d 0x00).toNat
  route := route
  maxPacketCode := (byteAt d 0x04).toNat
  attemptLimit := (byteAt d 0x05).toNat
  holdLimit := (byteAt d 0x06).toNat
  rereadInterval := (byteAt d 0x07).toNat
  watchInterval := leField d 0x08 2
  watchLength := (byteAt d 0x0A).toNat
  watchNotify := (byteAt d 0x0B).getLsbD 0

/-- Checks 2, 3 and 6 to 10 of R32; checks 4 and 5 are made by `decodeRoute` and the other stations' caches. -/
def StationConfig.legal (l : Latched) (c : StationConfig) (chainHead : Addr) : Bool :=
  1 ≤ c.linkAddress && c.linkAddress ≤ 119
    && !l.branchesInUse.contains c.linkAddress
    && c.maxPacketCode ≤ 4 && 1 ≤ c.attemptLimit && c.attemptLimit ≤ 15 && c.watchInterval ≤ 4095
    && (c.watchInterval == 0 || (1 ≤ c.watchLength && c.watchLength ≤ 8 && l.watchPage != 0#32))
    && (chainHead == 0#32 || alignedTo chainHead 128)

def bit (b : Bool) (k : Nat) : Nat := if b then 2 ^ k else 0

/-- The status half of a station context (R34). -/
def Station.statusHalf (st : Station) : List Byte :=
  leBytes st.state.code 1 ++ leBytes st.lastResult.code 1 ++ leBytes st.code.code 1 ++ leBytes st.lastCondition.code 1
    ++ leBytes ((st.inFlight.map (·.address.toNat)).getD 0) 4 ++ leBytes ((st.parked.map BitVec.toNat).getD 0) 4
    ++ leBytes st.retireCount.toNat 2 ++ leBytes st.lapses 1
    ++ leBytes (bit st.putParity 0 + bit st.getParity 1 + bit st.resyncPending 2) 1
    ++ leBytes st.totalHolds 2 ++ leBytes st.totalFailed 2 ++ zeroBytes 12

/-! ### Watch slot (section 12.5) -/

def slotAddr (watchPage : Addr) (n : Stn) : Addr := Addr.plus watchPage (16 * n.val)

/-- The slot of a watch record with its length field (R165). -/
def WatchRecord.slot (r : WatchRecord) (length : Nat) : List Byte :=
  ((r.last.getD []).take 8 ++ zeroBytes (8 - (r.last.getD []).length))
    ++ leBytes r.changes.toNat 4 ++ leBytes r.missed 2 ++ leBytes r.status.code 1 ++ leBytes length 1

/-! ### Payloads (section 12.6) -/

/-- The ORDER payload (R100). -/
def HostPart.orderPayload (h : HostPart) : List Byte :=
  leBytes h.tag.toNat 2 ++ leBytes h.direction.code 1 ++ leBytes h.dataLength 3 ++ h.orderBytes.take h.orderLength

/-- The station residue of a report record (R110). -/
def reportResidue (d : List Byte) : Nat := leField d 0x04 4

/-- Checks 2 to 5 of R111, against the in-flight block's copy. -/
def reportLegal (h : HostPart) (d : List Byte) : Bool :=
  leField d 0x00 2 == Config.reportMark && leField d 0x02 2 == h.tag.toNat
    && (byteAt d 0x08).toNat ≤ 2 && reportResidue d ≤ h.dataLength

/-- The condition of a valid report (R112). -/
def reportCondition (h : HostPart) (moved : Nat) (d : List Byte) : Condition :=
  if (byteAt d 0x08).toNat = 2 then .rejected
  else if (byteAt d 0x08).toNat = 1 then .stationFailed
  else if moved < h.dataLength ∧ h.acceptShort = false then .short
  else .clean

end Sys2Proof.Machine
end

