-- ==== Sys2Proof/Machine/Packets.lean ====
section
/-! DEFINITION. Packets on the line: kinds, header check and payload CRC, the packet the part forms, and the checks of a received one (chapter 4). -/

namespace Sys2Proof.Machine

/-! ### Kinds (R72, R74) -/

def PacketKind.code : PacketKind → Nat
  | .order => 1 | .put => 2 | .fetch => 3 | .ask => 4 | .peek => 5 | .opening => 6 | .sync => 7 | .accept => 8
  | .hold => 9 | .refuse => 10 | .data => 11 | .finish => 12 | .report => 13 | .state => 14

/-- Codes 0 and 15 are not used. -/
def PacketKind.ofCode : Nat → Option PacketKind
  | 1 => some .order | 2 => some .put | 3 => some .fetch | 4 => some .ask | 5 => some .peek | 6 => some .opening
  | 7 => some .sync | 8 => some .accept | 9 => some .hold | 10 => some .refuse | 11 => some .data | 12 => some .finish
  | 13 => some .report | 14 => some .state | _ => none

/-- The request a turn of that kind sends (R92, R122, R160). -/
def TurnKind.request : TurnKind → PacketKind
  | .order => .order | .put => .put | .fetch => .fetch | .ask => .ask | .sync => .sync | .peek => .peek

/-- The answers each request admits (R74). -/
def admits : PacketKind → PacketKind → Bool
  | .order, .accept | .order, .hold | .order, .refuse => true
  | .put, .accept | .put, .hold | .put, .refuse | .put, .finish => true
  | .fetch, .data | .fetch, .finish | .fetch, .hold | .fetch, .refuse => true
  | .ask, .report | .ask, .hold | .ask, .refuse => true
  | .peek, .state | .peek, .hold | .peek, .refuse => true
  | .opening, .accept => true
  | .sync, .accept => true
  | _, _ => false

/-! ### Bit order and checks (R186) -/

/-- The bits of a field, most significant first. -/
def bitsHighFirst {w : Nat} (x : BitVec w) : List Bool := (List.range w).map fun i => x.getMsbD i

/-- The bits of a payload byte, least significant first. -/
def byteBits (b : Byte) : List Bool := (List.range 8).map fun i => b.getLsbD i

/-- One bit through a check register of width `w` (log 8). -/
def checkStep {w : Nat} (poly reg : BitVec w) (b : Bool) : BitVec w :=
  if reg.msb ^^ b then (reg <<< 1) ^^^ poly else reg <<< 1

/-- The 21 header bits in the order sent. -/
def headerBits (h : PacketHeader) : List Bool :=
  bitsHighFirst h.kind ++ bitsHighFirst h.address ++ [h.parity] ++ bitsHighFirst h.length

/-- The header check: generator x^8 + x^2 + x + 1, from 0. -/
def headerCheck (h : PacketHeader) : BitVec 8 := (headerBits h).foldl (checkStep 0x07#8) 0#8

/-- The payload CRC: generator x^16 + x^12 + x^5 + 1, from all ones, no final inversion. -/
def payloadCrc (payload : List Byte) : BitVec 16 := (payload.flatMap byteBits).foldl (checkStep 0x1021#16) 0xFFFF#16

/-- A packet with its check fields formed (R186). -/
def formPacket (kind : PacketKind) (address : BitVec 7) (parity : Bool) (payload : List Byte) : Packet :=
  let h : PacketHeader :=
    { kind := BitVec.ofNat 4 kind.code, address, parity, length := BitVec.ofNat 9 payload.length, check := 0#8 }
  { header := { h with check := headerCheck h }, payload, crc := payloadCrc payload }

/-- The bits of a packet between its delimiters, in the order LP sends them and a receiver takes them. -/
def lineBits (p : Packet) : List Bool :=
  headerBits p.header ++ bitsHighFirst p.header.check ++ p.payload.flatMap byteBits ++ bitsHighFirst p.crc

/-- The number whose bits are given least significant first. -/
def natOfBits : List Bool → Nat
  | [] => 0
  | b :: rest => b.toNat + 2 * natOfBits rest

/-- A field of width `w` from its bits, most significant first. -/
def ofHighFirst (w : Nat) (bits : List Bool) : BitVec w := BitVec.ofNat w (natOfBits bits.reverse)

/-- `k` payload bytes from their bits, each least significant first. -/
def bytesOfBits : Nat → List Bool → List Byte
  | 0, _ => []
  | k + 1, bits => BitVec.ofNat 8 (natOfBits (bits.take 8)) :: bytesOfBits k (bits.drop 8)

/-- The packet a receiver takes from the bits between the delimiters: the payload as long as the header gives, then
the CRC. -/
def receiveBits (bits : List Bool) : Packet :=
  let length : BitVec 9 := ofHighFirst 9 ((bits.drop 12).take 9)
  { header :=
      { kind := ofHighFirst 4 (bits.take 4)
        address := ofHighFirst 7 ((bits.drop 4).take 7)
        parity := (bits.drop 11).headD false
        length
        check := ofHighFirst 8 ((bits.drop 21).take 8) }
    payload := bytesOfBits length.toNat (bits.drop 29)
    crc := ofHighFirst 16 ((bits.drop (29 + 8 * length.toNat)).take 16) }

/-- Length of a packet in bit periods (R71): preamble, start delimiter, the bits of `lineBits`, end delimiter. -/
def packetPeriods (p : Packet) : Nat := 16 + 8 + (lineBits p).length + 8

/-- The bit period in nanoseconds by link rate code (R70). -/
def bitPeriod (linkRate : Nat) : Nat := 400 / 2 ^ linkRate

/-! ### Findings (R81) -/

/-- What LP hands XE. `answer` carries kind, parity and payload; `duplicate` kind, parity and payload length (R78);
`reportFault` the parity to acknowledge. -/
inductive Finding
  | answer (kind : PacketKind) (parity : Bool) (payload : List Byte)
  | sent
  | duplicate (kind : PacketKind) (parity : Bool) (length : Nat)
  | noAnswer
  | garbled
  | stray
  | wrongKind
  | sequence
  | overrun
  | reportFault (parity : Bool)
  deriving DecidableEq, Repr

/-- The findings that are attempt failures (R81). -/
def Finding.isFailure : Finding → Bool
  | .noAnswer | .garbled | .stray | .wrongKind | .sequence => true
  | _ => false

/-- What the checks compare with: the pending request, its target and parity, the bytes asked for (FETCH, PEEK),
and the station's get parity. -/
structure Expected where
  request   : PacketKind
  address   : BitVec 7
  parity    : Bool
  size      : Nat
  getParity : Bool
  deriving DecidableEq, Repr

/-- Check 6 (R80). -/
def checkLength (e : Expected) (kind : PacketKind) (parity : Bool) (payload : List Byte) : Finding :=
  match kind with
  | .data => if payload.length ≤ e.size then .answer kind parity payload else .overrun
  | .report => if payload.length = 16 then .answer kind parity payload else .reportFault parity
  | .state => if payload.length = e.size then .answer kind parity payload else .wrongKind
  | _ => if payload.length = 0 then .answer kind parity payload else .wrongKind

/-- Check 5 (R79), then check 6. -/
def checkParity (e : Expected) (kind : PacketKind) (parity : Bool) (payload : List Byte) : Finding :=
  match kind with
  | .accept =>
    if (e.request = .order ∨ e.request = .put) ∧ parity ≠ e.parity then .sequence
    else checkLength e kind parity payload
  | .data | .report =>
    if parity = e.getParity then checkLength e kind parity payload else .duplicate kind parity payload.length
  | _ => checkLength e kind parity payload

/-- The six checks of a packet that ends well framed, in their order (R78). -/
def checkPacket (e : Expected) (p : Packet) : Finding :=
  if p.header.check ≠ headerCheck p.header then .garbled
  else if p.crc ≠ payloadCrc p.payload then .garbled
  else if p.header.address ≠ e.address then .stray
  else
    match PacketKind.ofCode p.header.kind.toNat with
    | none => .wrongKind
    | some kind => if admits e.request kind then checkParity e kind p.header.parity p.payload else .wrongKind

end Sys2Proof.Machine
end

