-- ==== Sys2Proof/Machine/Ops.lean ====
section
/-! DEFINITION. The named operations over the state: block updates, host memory, the Memory Port and its requests, notices, the due list, station states, status halves, entry into FAULTED. -/

namespace Sys2Proof.Machine

/-! ### Block updates -/

namespace State

def modRw (f : RegisterWindow → RegisterWindow) (s : State) : State := { s with rw := f s.rw }
def setAu (q : List Entry) (s : State) : State := { s with au := q }
def modSm (f : StationManager → StationManager) (s : State) : State := { s with sm := f s.sm }
def modNu (f : NoticeUnit → NoticeUnit) (s : State) : State := { s with nu := f s.nu }
def modLs (f : Scheduler → Scheduler) (s : State) : State := { s with ls := f s.ls }
def modXe (f : Exchange → Exchange) (s : State) : State := { s with xe := f s.xe }
def setRm (r : Vector RouteEntry 8) (s : State) : State := { s with rm := r }
def modWu (f : WatchUnit → WatchUnit) (s : State) : State := { s with wu := f s.wu }
def modLp (f : LinkPort → LinkPort) (s : State) : State := { s with lp := f s.lp }
def modMp (f : MemoryPort → MemoryPort) (s : State) : State := { s with mp := f s.mp }
def setElapsed (t : Nat) (s : State) : State := { s with itElapsed := t }
def setLatched (l : Option Latched) (s : State) : State := { s with latched := l }
def setMem (m : Memory) (s : State) : State := { s with mem := m }
def setReadData (w : Word) (s : State) : State := { s with readData := w }
def setChoices (k : Nat) (s : State) : State := { s with choices := k }
def setPending (q : List Instr) (s : State) : State := { s with pending := q }

/-- The context of station `n`. -/
def st (s : State) (n : Stn) : Station := s.ctx.get n

/-- Change the context of station `n`. -/
def modSt (n : Stn) (f : Station → Station) (s : State) : State :=
  { s with ctx := s.ctx.set n.val (f (s.ctx.get n)) n.isLt }

/-- The watch record of station `n`. -/
def watch (s : State) (n : Stn) : WatchRecord := s.wu.records.get n

/-- Change the watch record of station `n`. -/
def modWatch (n : Stn) (f : WatchRecord → WatchRecord) (s : State) : State :=
  s.modWu fun w => { w with records := w.records.set n.val (f (w.records.get n)) n.isLt }

/-- The route table entry of branch `b`. -/
def route (s : State) (b : Fin 8) : RouteEntry := s.rm.get b

def setRoute (b : Fin 8) (e : RouteEntry) (s : State) : State := s.setRm (s.rm.set b.val e b.isLt)

/-- Every route table entry UNKNOWN (R147). -/
def forgetRoutes (s : State) : State := s.setRm (.replicate 8 .unknown)

end State

/-- Every station number, rising. -/
def allStations : List Stn := List.finRange 64

/-- Do `f` for every station in rising order. -/
def forStations (f : Stn → State → State) (s : State) : State := allStations.foldl (fun s n => f n s) s

/-! ### Host memory (R168, R171) -/

/-- Write one byte, keeping the cells in rising order of address. -/
def Memory.put (a : Nat) (b : Byte) : Memory → Memory
  | [] => [(a, b)]
  | (c, v) :: rest =>
    if a < c then (a, b) :: (c, v) :: rest
    else if a = c then (a, b) :: rest
    else (c, v) :: Memory.put a b rest

/-- The byte the part last wrote at `a`; none where it has written nothing and memory holds what the host left. -/
def Memory.peek (m : Memory) (a : Nat) : Option Byte := (m.find? fun cell => cell.1 == a).map (·.2)

/-- The canonical form: addresses strictly rising. -/
def Memory.wf : Memory → Bool
  | [] => true
  | [_] => true
  | (a, _) :: (c, v) :: rest => decide (a < c) && Memory.wf ((c, v) :: rest)

/-- Write the bytes of `data` from `a` upwards at the addresses that `keep` admits. -/
def Memory.storeIf (keep : Nat → Bool) : Nat → List Byte → Memory → Memory
  | _, [], m => m
  | a, b :: rest, m => Memory.storeIf keep (a + 1) rest (if keep a then m.put a b else m)

/-- Write all bytes of `data` from `a` upwards. -/
def Memory.store (a : Nat) (data : List Byte) (m : Memory) : Memory := Memory.storeIf (fun _ => true) a data m

/-! ### Outcomes (R114) -/

/-- The exhausted OPEN is with SM, which makes the entries into LOST of a branch cascade (R151). -/
abbrev TurnStage.cascade : TurnStage := .handed (.exhausted .opening) .unanswered

/-! ### Requests (R168) -/

def RequestKind.requester : RequestKind → Requester
  | .putRead | .drain => .xe
  | .slotWrite => .wu
  | _ => .sm

def RequestKind.isWrite : RequestKind → Bool
  | .takenWrite | .resultWrite | .doneWrite | .statusWrite | .drain | .slotWrite => true
  | _ => false

/-- The part's own records, whose failed write is a port fault (R174). -/
def RequestKind.isRecord : RequestKind → Bool
  | .takenWrite | .resultWrite | .doneWrite | .statusWrite | .slotWrite => true
  | _ => false

/-- How many aligned 8-byte units the span touches: one transaction each. -/
def Request.transactions (r : Request) : Nat :=
  if r.length = 0 then 0 else (r.address.toNat + r.length - 1) / 8 - r.address.toNat / 8 + 1

/-- First byte of transaction `k` of the request (R172). -/
def Request.transactionAddr (r : Request) (k : Nat) : Addr :=
  if k = 0 then r.address else BitVec.ofNat 32 (8 * (r.address.toNat / 8 + k))

/-- Whether the byte at `a` reached memory when the request was cut (R172). -/
def Request.landed (r : Request) (cut : Cut) (a : Nat) : Bool :=
  let unit := a / 8 - r.address.toNat / 8
  unit < cut.full || (unit == cut.full && cut.part.getLsbD (a % 8))

/-- Host memory after a cut write; a read leaves it alone (R172, R176). -/
def Request.land (r : Request) (cut : Cut) (m : Memory) : Memory :=
  if r.kind.isWrite then m.storeIf (r.landed cut) r.address.toNat r.data else m

namespace MemoryPort

def slot (m : MemoryPort) : Requester → Option Request
  | .sm => m.sm
  | .xe => m.xe
  | .wu => m.wu

def setSlot (q : Requester) (r : Option Request) (m : MemoryPort) : MemoryPort :=
  match q with
  | .sm => { m with sm := r }
  | .xe => { m with xe := r }
  | .wu => { m with wu := r }

/-- The request in progress. -/
def current (m : MemoryPort) : Option Request := m.inProgress.bind m.slot

/-- The rotation of R169 after the last served requester. -/
def preference : Requester → List Requester
  | .sm => [.xe, .wu, .sm]
  | .xe => [.wu, .sm, .xe]
  | .wu => [.sm, .xe, .wu]

/-- Begin a waiting request when none is in progress (R169). -/
def arbitrate (m : MemoryPort) : MemoryPort :=
  match m.inProgress with
  | some _ => m
  | none =>
    match (preference m.last).find? fun q => (m.slot q).isSome with
    | some q => { m with inProgress := some q, last := q }
    | none => m

/-- The request in progress has ended. -/
def release (m : MemoryPort) : MemoryPort :=
  match m.inProgress with
  | some q => { m.setSlot q none with inProgress := none }
  | none => m

end MemoryPort

/-- Which of SM's requests is handed over next: the first of the station the free value picks, so that requests of
one station stay in order (R167, log 4). Answers the request and whether a free choice was drawn. -/
def pickRequest (k : Nat) : List Request → Option (Request × Bool)
  | [] => none
  | r :: rest =>
    if rest.all (fun x => x.station == r.station) then some (r, false)
    else
      let picked := (r :: rest).getD (Config.smPick k % (rest.length + 1)) r
      some (((r :: rest).find? fun x => x.station == picked.station).getD r, true)

namespace State

/-- SM hands MP its next request when it has none there (R167). -/
def handSm (s : State) : State :=
  match s.mp.sm with
  | some _ => s
  | none =>
    match pickRequest s.choices s.sm.queue with
    | none => s
    | some (r, drawn) =>
      ((s.modSm fun m => { m with queue := m.queue.erase r }).modMp fun m => { m with sm := some r }).setChoices
        (if drawn then s.choices + 1 else s.choices)

/-- WU hands MP its next slot write when it has none there, in the order WU came to them (log 5). -/
def handWu (s : State) : State :=
  match s.mp.wu, s.wu.queue with
  | none, r :: rest => (s.modWu fun w => { w with queue := rest }).modMp fun m => { m with wu := some r }
  | _, _ => s

/-- Requests go on to MP and the bus, unless the part is FAULTED (R167, R169, R174). A request that is made on the
report of an end competes with those already waiting at that end: DESIGN CHOICE, R169 is silent (log 34). -/
def serveMemory (s : State) : State :=
  if s.rw.part = .faulted then s else (s.handSm.handWu).modMp MemoryPort.arbitrate

/-- The request in progress ends complete (R170): a write is in memory. -/
def completeRequest (r : Request) (s : State) : State :=
  (if r.kind.isWrite then s.setMem (Memory.store r.address.toNat r.data s.mem) else s).modMp MemoryPort.release

/-- The request in progress ends in error (R172). -/
def failRequest (r : Request) (cut : Cut) (s : State) : State :=
  (s.setMem (r.land cut s.mem)).modMp MemoryPort.release

/-- The values latched at the last successful start; all zero before one, when no operation reads them. -/
def header (s : State) : Latched := s.latched.getD ⟨0#32, 0, 0, 0, 0, 0, 0#32, []⟩

/-- SM asks for a request. -/
def askSm (kind : RequestKind) (station : Option Stn) (address : Addr) (length : Nat) (data : List Byte)
    (s : State) : State :=
  s.modSm fun m => { m with queue := m.queue ++ [⟨kind, station, address, length, data, false⟩] }

def askChainHead (n : Stn) (s : State) : State :=
  s.askSm .chainHeadRead (some n) (chainHeadField s.header.dirbase n) 4 []

def askConfiguration (n : Stn) (s : State) : State :=
  s.askSm .configurationRead (some n) (stationEntry s.header.dirbase n) 32 []

def askLink (n : Stn) (block : Addr) (s : State) : State := s.askSm .linkRead (some n) block 4 []

def askBlock (n : Stn) (block : Addr) (s : State) : State := s.askSm .blockRead (some n) block 64 []

/-- The TAKEN and DONE writes: the whole state word (R185). -/
def askStateWord (kind : RequestKind) (n : Stn) (block : Addr) (value : Nat) (s : State) : State :=
  s.askSm kind (some n) (Addr.plus block 0x04) 4 (leBytes value 4)

def askResult (n : Stn) (block : Addr) (section_ : List Byte) (s : State) : State :=
  s.askSm .resultWrite (some n) (Addr.plus block 0x40) 48 section_

/-- SM writes the status half of station `n` with the context's values at this moment (R34, R35). -/
def askStatus (n : Stn) (s : State) : State :=
  (s.askSm .statusWrite (some n) (statusHalfAddr s.header.dirbase n) 32 (s.st n).statusHalf).modSt n
    fun st => { st with lastStatus := some st.statusHalf }

/-- SM writes the status half of station `n` at the end of a hold delay, with the values of this moment, while another
operation on the station is under way and goes on (R43, R35, log 28). -/
def askBeside (n : Stn) (s : State) : State :=
  (s.modSm fun m =>
    { m with queue := m.queue ++
      [⟨.statusWrite, some n, statusHalfAddr s.header.dirbase n, 32, (s.st n).statusHalf, true⟩] }).modSt n
    fun st => { st with lastStatus := some st.statusHalf, holdReport := true }

/-- XE asks for its PUT read or drain (R102, R106). -/
def askXe (kind : RequestKind) (n : Stn) (address : Addr) (length : Nat) (data : List Byte) (s : State) : State :=
  s.modMp fun m => { m with xe := some ⟨kind, some n, address, length, data, false⟩ }

/-- WU asks for a slot write with the record's values at this moment (R165). It joins WU's writes that MP has not yet
been handed (log 5, log 35). -/
def askSlot (n : Stn) (length : Nat) (s : State) : State :=
  s.modWu fun w =>
    { w with queue := w.queue ++
      [⟨.slotWrite, some n, slotAddr s.header.watchPage n, 16, (s.watch n).slot length, false⟩] }

/-! ### Notices (R65, R66) -/

/-- Set the notice flag of station `n` (R65). -/
def setNotice (n : Stn) (s : State) : State := s.modNu fun u => { u with flags := u.flags.set n.val true n.isLt }

/-- The first flagged station from the take position, wrapping (R66). -/
def nextNotice (s : State) : Option Stn :=
  (allStations.map fun k => s.nu.position + k).find? fun n => s.nu.flags.get n

def noticeCount (s : State) : Nat := allStations.countP fun n => s.nu.flags.get n

/-! ### Due list (R138) -/

/-- Join the tail without the deferred mark. -/
def joinDue (n : Stn) (s : State) : State :=
  (s.modWatch n fun r => { r with due := true }).modLs fun l => { l with due := l.due ++ [⟨n, false⟩] }

/-- The due flag clears and the station leaves the list. -/
def leaveDue (n : Stn) (s : State) : State :=
  (s.modWatch n fun r => { r with due := false }).modLs fun l => { l with due := l.due.filter fun e => e.station != n }

/-- To the tail with the deferred mark (HOLD to PEEK). -/
def deferDue (n : Stn) (s : State) : State :=
  s.modLs fun l => { l with due := (l.due.filter fun e => e.station != n) ++ [⟨n, true⟩] }

/-- The end of a watch interval meets the record outside the station's own PEEK turn (R159). -/
def endInterval (n : Stn) (s : State) : State :=
  if (s.watch n).due then s.modWatch n fun r => { r with missed := bump 65535 r.missed } else s.joinDue n

end State

/-! ### Station states -/

/-- A re-read countdown as a station entering IDLE loads it (R18). -/
def Station.loadReread (st : Station) : Option Nat :=
  match st.config with
  | some c => if c.rereadInterval = 0 then none else some c.rereadInterval
  | none => none

/-- Enter a state, with what that does to the countdowns: the re-read countdown is loaded in IDLE and cleared
elsewhere (R18), the hold countdown is loaded in HOLDING with the latched hold delay and cleared elsewhere (R43). -/
def Station.enter (new : StationState) (holdDelay : Nat) (st : Station) : Station :=
  { st with
    state := new
    reread := if new = .idle then st.loadReread else none
    hold := if new = .holding then some holdDelay else none
    holdExpired := false
    rereadOwed := false }

/-- Countdowns and what they left recorded, cleared (R46, R60, R64). -/
def Station.clearCountdowns (st : Station) : Station :=
  { st with hold := none, reread := none, holdExpired := false, rereadOwed := false }

/-- Work of SM for the station that comes after the operation under way: an owed entry into LOST, a recorded re-read
expiry, a restart following (R153, R19, R50). -/
def Station.owesWork (st : Station) : Bool := st.owedLost || st.rereadOwed || st.restartFollow

namespace State

def enterState (n : Stn) (new : StationState) (s : State) : State := s.modSt n (Station.enter new s.header.holdDelay)

/-- Change the in-flight record of station `n`, if it has one. -/
def modInFlight (n : Stn) (f : InFlight → InFlight) (s : State) : State :=
  s.modSt n fun st => { st with inFlight := st.inFlight.map f }

/-- The operation under way for station `n` moves on. -/
def modOp (n : Stn) (f : Operation → Operation) (s : State) : State :=
  s.modSt n fun st => { st with op := st.op.map f }

def setStage (n : Stn) (g : Stage) (s : State) : State := s.modOp n fun o => { o with stage := g }

def endOp (n : Stn) (s : State) : State := s.modSt n fun st => { st with op := none }

end State

/-- What a following compares at its end (R16). -/
def Station.snapshot (st : Station) : Snapshot := ⟨st.state, st.inFlight.map (·.address), st.parked, st.code⟩

namespace State

/-- SM begins an operation on station `n`. -/
def startOp (n : Stn) (job : Job) (stage : Stage) (s : State) : State :=
  s.modSt n fun st => { st with op := some ⟨job, stage, st.parked, false, false, st.snapshot⟩ }

/-- SM writes the status half of station `n` and waits for the write (R35, R170, log 28). -/
def reportStatus (n : Stn) (s : State) : State := (s.startOp n .report .final).askStatus n

def hasOp (s : State) (n : Stn) : Bool := (s.st n).op.isSome

/-- Some station has an operation with a job that `p` admits. -/
def anyJob (s : State) (p : Job → Bool) : Bool :=
  allStations.any fun n => ((s.st n).op.map fun o => p o.job).getD false

/-- The head attention entry is under application (R53). -/
def applying (s : State) : Bool := s.anyJob (· == .application)

/-- SM is making, or waits to make, the context changes of a link restart (R50, R54). -/
def restartBusy (s : State) : Bool :=
  s.sm.restartPending || (allStations.any fun n => (s.st n).restartOwed) || s.anyJob (· == .restart)

/-- SM has no operation under way. -/
def noOps (s : State) : Bool := !s.anyJob fun _ => true

/-! ### Faults of the whole part -/

/-- A header fault (R29, R180). -/
def headerFault (addr : Addr) (s : State) : State :=
  s.modRw fun r =>
    { r with part := .stopped, run := false, headerFault := true, headerPassed := false, faultAddr := addr }

end State

/-- LP at the entry into FAULTED: the packet or break it drives runs on, all else ends (R88). -/
def LinkPort.faulted (p : LinkPort) : LinkPort :=
  match p.state with
  | .sending | .breaking => p
  | .idle | .awaiting | .receiving | .settling => .reset

/-- The payload of the send is the staging buffer (R87, R90). -/
def Send.staged (p : Send) : Bool := p.kind == .order || p.kind == .put

/-- LP is sending the staging buffer's bytes. -/
def State.sendsStaging (s : State) : Bool := s.lp.state == .sending && (s.lp.send.map Send.staged).getD false

/-- A port fault (R174, R182). The staging buffer is emptied (R117), once LP has sent the packet it holds (R88,
log 30). -/
def State.portFault (addr : Addr) (s : State) : State :=
  (((s.modRw fun r =>
    { r with
      part := .faulted, portFault := true, faultAddr := addr, restartRequest := false, restartHolds := false }).modLp
      LinkPort.faulted).modXe fun x => { x with staging := if s.sendsStaging then x.staging else [] })

end Sys2Proof.Machine
end

