-- ==== Sys2Proof/Machine/Chains.lean ====
section
/-! DEFINITION. What SM does with a station: following, retirement, the WITHDRAW walk, TAKE_DOWN, entry into LOST, restart changes, and the end of a turn (chapters 1, 2, 3). -/

namespace Sys2Proof.Machine

/-! ### Following (R9 to R16) -/

namespace State

/-- Obtain the candidate's address: a link read of the predecessor, or the chain head read (R9, R10, R61). -/
def obtain (n : Stn) (s : State) : State :=
  match (s.st n).op with
  | none => s
  | some o =>
    match o.predecessor with
    | some p => (s.setStage n .candidate).askLink n p
    | none => (s.setStage n .candidate).askChainHead n

/-- SM follows the station from its parked tail, or from the chain head when there is none (R9). Following clears
the restart follow flag (R50). -/
def follow (n : Stn) (job : Job) (s : State) : State :=
  ((s.startOp n job .candidate).modSt n fun st => { st with restartFollow := false, rereadOwed := false }).obtain n

/-! ### The end of a turn (R42, R135) -/

/-- A PEEK turn ends with the held expiry set: the interval end is applied to the record as it now stands (R159). -/
def releaseHeld (n : Stn) (s : State) : State :=
  if (s.watch n).held then (s.modWatch n fun r => { r with held := false }).endInterval n else s

/-- A re-read expiry met during the watch turn (R19): followed now, or reloaded while STOPPING. -/
def takeReread (n : Stn) (s : State) : State :=
  if (s.st n).rereadOwed ∧ (s.st n).state = .idle then
    if s.rw.part = .running then s.follow n .own
    else s.modSt n fun st => { st with rereadOwed := false, reread := st.loadReread }
  else s

/-- The turn station takes the state `result`. On its return from a watch turn its countdowns run on (R18, R43). -/
def leaveTurn (t : Turn) (result : StationState) (s : State) : State :=
  if t.kind = .peek ∧ result = t.grantedFrom then
    s.modSt t.station fun st => { st with state := result, holdExpired := false }
  else s.enterState t.station result

/-- What follows the state change: the held interval end, and the status half if some field differs from the last
one written (R35); then, or once that is written (R170), the recorded re-read expiry. -/
def afterTurn (t : Turn) (s : State) : State :=
  let s := if t.kind = .peek then s.releaseHeld t.station else s
  if (s.st t.station).lastStatus = some (s.st t.station).statusHalf then s.takeReread t.station
  else s.reportStatus t.station

/-- The turn ends and the station takes the state `result` (R42, R89, R90). -/
def finishTurn (result : StationState) (s : State) : State :=
  match s.xe.turn with
  | none => s
  | some t => ((s.modXe fun _ => ⟨none, []⟩).leaveTurn t result).afterTurn t

end State

/-- The state a turn leaves its station in when it goes on (R42): of a watch turn the state it was granted from, but
READY for a HOLDING station whose hold delay expired; else READY, or HOLDING after a HOLD. -/
def Turn.stateAfter (t : Turn) (held : Bool) (st : Station) : StationState :=
  if t.kind = .peek then if t.grantedFrom = .holding ∧ st.holdExpired then .ready else t.grantedFrom
  else if held then .holding else .ready

namespace State

def modTurn (f : Turn → Turn) (s : State) : State := s.modXe fun x => { x with turn := x.turn.map f }

/-! ### Retirement (R20) -/

/-- Step 1 of R20. -/
def beginRetirement (n : Stn) (r : Retirement) (section_ : List Byte) (s : State) : State :=
  (s.setStage n (.result r)).askResult n r.block section_

/-- Retire the in-flight block with the values its record holds (R8). -/
def retireInFlight (n : Stn) (condition : Condition) (residue : Nat) (report : List Byte) (after : After)
    (s : State) : State :=
  match (s.st n).inFlight with
  | none => s
  | some f =>
    s.beginRetirement n ⟨f.address, true, f.host.notify, f.host.haltOnError, condition, after⟩
      (resultSection condition f.phase f.attempts f.holds f.moved f.host.dataLength residue (s.st n).retireCount
        report)

/-- Retire a block never taken (R8, R13, R61). -/
def retireFound (n : Stn) (block : Addr) (h : HostPart) (condition : Condition) (after : After) (s : State) : State :=
  s.beginRetirement n ⟨block, false, h.notify, h.haltOnError, condition, after⟩
    (resultSection condition .nothing 0 0 0 h.dataLength 0 (s.st n).retireCount noReport)

/-- Step 4 of R20. -/
def settleRetirement (n : Stn) (r : Retirement) (s : State) : State :=
  s.modSt n fun st =>
    { st with
      retireCount := st.retireCount + 1
      lastCondition := r.condition
      inFlight := if r.inFlight then none else st.inFlight
      parked := some r.block }

end State

/-- The halt rule (R21). -/
def Retirement.halts (r : Retirement) : Bool := r.condition != .clean && (r.haltOnError || r.condition == .refused)

namespace State

/-! ### Entry into LOST (R46) and the ends of operations -/

/-- Steps 3 to 5 of R46. In the station's own turn the turn's end writes the status half and makes it LOST; the
turn of a cascade waits for the other entries (R151). -/
def lostTail (n : Stn) (s : State) : State :=
  let s := (s.modSt n fun st => { st with resyncPending := true }).setNotice n
  match (s.st n).op.map Operation.job with
  | some Job.turn =>
    if s.xe.turn.map Turn.stage = some TurnStage.cascade then s.endOp n else (s.endOp n).finishTurn .lost
  | _ => ((s.enterState n .lost).setStage n .final).askStatus n

/-- Entry into LOST (R46). -/
def enterLost (n : Stn) (job : Job) (s : State) : State :=
  let s := (s.startOp n job .final).modSt n Station.clearCountdowns
  match (s.st n).inFlight with
  | some _ => s.retireInFlight n .abandoned 0 noReport .lost
  | none => s.lostTail n

/-- An operation has ended. SM's next step for the station waits for the status half of a hold delay that is still
being written (R170, log 28); then an owed entry into LOST is made, if the station is neither ABSENT nor LOST
(R153). -/
def finishOp (n : Stn) (s : State) : State :=
  if (s.st n).holdReport then (s.startOp n .report .final).modSt n fun st => { st with holdReport := false }
  else
    let s' := (s.endOp n).modSt n fun st => { st with owedLost := false }
    if (s.st n).owedLost ∧ (s.st n).state ≠ .absent ∧ (s.st n).state ≠ .lost then s'.enterLost n (.lost true)
    else s'

/-- The last step of an application: the result and the status write (R55). -/
def finalApplication (n : Stn) (result : AttentionResult) (s : State) : State :=
  ((s.modSt n fun st => { st with lastResult := result }).setStage n .final).askStatus n

/-- The application is complete: the head entry leaves the queue (R53). -/
def finishApplication (n : Stn) (s : State) : State := (s.setAu s.au.tail).finishOp n

/-- A following ends and the station takes the state `new` (R16). -/
def endFollowing (n : Stn) (new : StationState) (s : State) : State :=
  match (s.st n).op with
  | none => s
  | some o =>
    let s := if new = .halted then s.setNotice n else s
    match o.job with
    | .turn => (s.endOp n).finishTurn new
    | .application =>
      let s := s.enterState n new
      if o.slotDue then s.setStage n .slotAtBringUp else s.finalApplication n .applied
    | _ =>
      let s := s.enterState n new
      if (s.st n).snapshot = o.began then s.finishOp n else s.reportStatus n

/-- The outcome is to park (R14). -/
def park (n : Stn) (code : ChainCode) (s : State) : State :=
  if (s.st n).wakePending then (s.modSt n fun st => { st with wakePending := false }).obtain n
  else
    (s.modSt n fun st => { st with code := code, parked := st.op.bind (·.predecessor) }).endFollowing n
      (if (s.st n).resyncPending then .ready else .idle)

/-- A chain fault or chain read fault ends the following (R15). -/
def faultFollowing (n : Stn) (code : ChainCode) (s : State) : State :=
  (s.modSt n fun st => { st with code := code, parked := st.op.bind (·.predecessor) }).endFollowing n .halted

/-- The walk ends (R61, R62). -/
def endWalk (n : Stn) (code : ChainCode) (s : State) : State :=
  let s := s.modSt n fun st => { st with code := code }
  let s :=
    if (s.st n).state = .lost then s
    else s.enterState n (if (s.st n).resyncPending then .ready else .idle)
  s.finalApplication n .applied

/-- A candidate address: rows 1 and 2 of R11 or R61, else its block read. -/
def examineAddress (n : Stn) (candidate : Addr) (s : State) : State :=
  match (s.st n).op with
  | none => s
  | some o =>
    if candidate = 0#32 then if o.walk then s.endWalk n .clear else s.park n .clear
    else if alignedTo candidate 128 = false then
      if o.walk then s.endWalk n .chainFault else s.faultFollowing n .chainFault
    else (s.setStage n (.block candidate)).askBlock n candidate

/-- A bus error on a read of a following or walk (R15, R61). -/
def failCandidate (n : Stn) (s : State) : State :=
  match (s.st n).op with
  | none => s
  | some o => if o.walk then s.endWalk n .chainReadFault else s.faultFollowing n .chainReadFault

/-- The block read of a candidate in a walk: rows 4 to 6 of R61. -/
def examineInWalk (n : Stn) (block : Addr) (data : List Byte) (s : State) : State :=
  match StateWord.ofBlock data with
  | .draft => s.endWalk n .draftSeen
  | .taken | .done => s.endWalk n .chainFault
  | .posted => s.retireFound n block (.ofBlock data) .abandoned .walk

/-- A POSTED block in a following: rows 6 to 8 of R11. -/
def meetPosted (n : Stn) (block : Addr) (h : HostPart) (s : State) : State :=
  if h.malformed then s.retireFound n block h .malformed .following
  else
    match h.kind with
    | some .mark => s.retireFound n block h .clean .following
    | some .stoppoint => s.retireFound n block h .clean .stoppoint
    | _ => (s.setStage n (.taken block h)).askStateWord .takenWrite n block stateWordTaken

/-- The block read of a candidate in a following: rows 4 to 8 of R11. -/
def examineInFollowing (n : Stn) (block : Addr) (data : List Byte) (s : State) : State :=
  match StateWord.ofBlock data with
  | .draft => s.park n .draftSeen
  | .taken | .done => s.faultFollowing n .chainFault
  | .posted => s.meetPosted n block (.ofBlock data)

/-- The TAKEN write is complete: the block is in flight (R12). -/
def takeBlock (n : Stn) (block : Addr) (h : HostPart) (s : State) : State :=
  (s.modSt n fun st =>
    { st with inFlight := some ⟨block, h, .nothing, 0, 0, 0, h.dataAddress⟩, parked := none, code := .clear }).endFollowing
    n .ready

/-! ### WITHDRAW and TAKE_DOWN (R60 to R64) -/

/-- Step 4 of R60. -/
def startWalk (n : Stn) (s : State) : State :=
  (s.modSt n fun st =>
    { st with op := st.op.map fun o => { o with walk := true, predecessor := st.parked } }).obtain n

/-- Steps 4 to 6 of R64. -/
def endTakeDown (n : Stn) (s : State) : State :=
  ((s.modSt n fun st =>
    { st with parked := none, wakePending := false, restartFollow := false, code := .clear, config := none }).enterState
    n .absent).finalApplication n .applied

/-- Step 3 of R64 (R166). -/
def takeDownWatch (n : Stn) (s : State) : State :=
  if ((s.st n).config.map (·.watchInterval)).getD 0 = 0 then s.endTakeDown n
  else
    (((s.leaveDue n).modWatch n fun _ => .reset).askSlot n 0).setStage n .slotAtTakeDown

/-! ### Restart changes (R50) -/

/-- Steps 3 to 8 of R50; `retired` when step 1 retired the in-flight block. -/
def endRestart (n : Stn) (retired : Bool) (s : State) : State :=
  let s := s.modSt n fun st =>
    { st with putParity := false, getParity := false, resyncPending := false, hold := none, holdExpired := false }
  let s :=
    if (s.st n).state = .ready ∨ (s.st n).state = .holding then
      if (s.st n).inFlight.isSome then s.enterState n .ready
      else (s.enterState n .idle).modSt n fun st => { st with restartFollow := retired || st.restartFollow }
    else s
  (s.setStage n .final).askStatus n

/-- The restart changes of one station. Changes owed from here on are those of a later restart (log 13). -/
def beginRestart (n : Stn) (s : State) : State :=
  let s := (s.startOp n .restart .final).modSt n fun st => { st with restartOwed := false }
  match (s.st n).inFlight with
  | some f => if f.phase = .nothing then s.endRestart n false else s.retireInFlight n .abandoned 0 noReport .restart
  | none => s.endRestart n false

/-! ### The continuation of a retirement (R21) -/

/-- The station's turn raised its lapse count to the latched lapse limit (R132). -/
def lapsedOut (s : State) (n : Stn) : Bool :=
  ((s.xe.turn.map Turn.lapsed).getD false) && s.header.lapseLimit ≤ (s.st n).lapses

/-- The retirement that a turn's outcome made goes on. -/
def afterTurnRetirement (n : Stn) (r : Retirement) (s : State) : State :=
  if s.lapsedOut n then s.enterLost n .turn
  else if r.halts then ((s.setNotice n).endOp n).finishTurn .halted
  else s.follow n .turn

/-- The following or walk goes on from the block just retired. -/
def goOnFrom (n : Stn) (block : Addr) (s : State) : State :=
  (s.modOp n fun o => { o with predecessor := some block }).obtain n

/-- Steps 6 and 7 of R20, once the status write of step 5 is complete. -/
def afterRetirement (n : Stn) (r : Retirement) (s : State) : State :=
  let s := if r.notify then s.setNotice n else s
  match r.after with
  | .turn => s.afterTurnRetirement n r
  | .following => if r.halts then s.endFollowing n .halted else s.goOnFrom n r.block
  | .stoppoint => s.endFollowing n .paused
  | .walk => s.goOnFrom n r.block
  | .withdraw => s.startWalk n
  | .takeDown => s.takeDownWatch n
  | .lost => s.lostTail n
  | .restart => s.endRestart n true

/-! ### Taking an outcome (R114) -/

/-- The turn's attempts count in the in-flight block (R123, R125). -/
def countsInBlock (s : State) (t : Turn) : Bool :=
  match t.kind with
  | .order | .put | .fetch | .ask => true
  | .sync => ((s.st t.station).inFlight.map fun f => f.host.kind == some .resync).getD false
  | .peek => false

/-- Resync pending is set where the outcome says so, and the in-flight block retires within the turn (R20). -/
def retireInTurn (n : Stn) (condition : Condition) (resync : Bool) (residue : Nat) (report : List Byte)
    (s : State) : State :=
  ((s.modSt n fun st => { st with resyncPending := resync || st.resyncPending }).startOp n .turn .final).retireInFlight
    n condition residue report .turn

/-- What SM does on the outcome of turn `t` (R114, R42, R124, R127, R128, R132, R151). A PEEK turn that ends on a HOLD
moves its station to the tail of the due list (R138, R162). -/
def actOn (t : Turn) (o : Outcome) (s : State) : State :=
  match o with
  | .cont =>
    if t.kind = .sync ∧ (s.st t.station).inFlight = none then s.follow t.station .turn
    else s.finishTurn (t.stateAfter false (s.st t.station))
  | .hold => (if t.kind = .peek then s.deferDue t.station else s).finishTurn (t.stateAfter true (s.st t.station))
  | .retire condition resync residue report => s.retireInTurn t.station condition resync residue report
  | .exhausted request =>
    if request = .opening then s.enterLost t.station .turn
    else if s.countsInBlock t then s.retireInTurn t.station .lineFault true 0 noReport
    else if s.lapsedOut t.station then s.enterLost t.station .turn
    else s.finishTurn (t.stateAfter false (s.st t.station))

/-- SM takes the outcome with it, once no status half write for the station is under way (R170, log 28). -/
def takeOutcome (s : State) : State :=
  match s.xe.turn with
  | none => s
  | some t =>
    if s.hasOp t.station then s
    else
      match t.stage with
      | .handed o _ => s.actOn t o
      | _ => s

/-- A status half that SM wrote of its own is in memory: a recorded re-read expiry is taken, and an outcome that has
waited (R170). -/
def finishReport (n : Stn) (s : State) : State :=
  let s := s.finishOp n
  if s.hasOp n then s
  else
    let s := s.takeReread n
    if s.xe.turn.map Turn.station = some n then s.takeOutcome else s

/-- The last status write of an operation is complete. -/
def afterFinal (n : Stn) (job : Job) (s : State) : State :=
  match job with
  | .application => s.finishApplication n
  | .report => s.finishReport n
  | _ => s.finishOp n

/-! ### What the ends of operations let the part do -/

/-- The turn of a cascade ends when every entry into LOST that could be made at once is made (R151). -/
def endCascade (s : State) : State :=
  match s.xe.turn with
  | none => s
  | some t =>
    if t.stage = .cascade ∧ s.hasOp t.station = false ∧ s.anyJob (· == .lost false) = false then s.finishTurn .lost
    else s

/-- The changes of a restart requested while an application was under way wait until it is complete (R54). -/
def restartHeld (s : State) : Bool := s.sm.restartPending && s.rw.restartHolds && s.applying

/-- Restart changes are owed to every station that is not ABSENT (R50). -/
def oweRestarts (s : State) : State :=
  if s.sm.restartPending then
    ((forStations (fun n s =>
      if (s.st n).state = .absent then s else s.modSt n fun st => { st with restartOwed := true }) s).modSm
      fun m => { m with restartPending := false }).modRw fun r => { r with restartHolds := false }
  else s

/-- The owed changes of one station, once SM has no operation on it under way (R50). A station that a TAKE_DOWN has
made ABSENT meanwhile gets none (log 32). -/
def takeRestart (n : Stn) (s : State) : State :=
  if (s.st n).restartOwed ∧ s.hasOp n = false ∧ (s.st n).state ≠ .engaged then
    if (s.st n).state = .absent then s.modSt n fun st => { st with restartOwed := false } else s.beginRestart n
  else s

/-- Begin the restart changes of every station that has no operation under way (R50). Only an application under way at
the request holds them all (R54); one begun after it, while the turn in progress ran on, holds those of its own
station alone, as any operation does (log 32). -/
def beginRestarts (s : State) : State :=
  if s.restartHeld then s else forStations takeRestart s.oweRestarts

/-- The following of one station whose restart follow flag is set (R50). -/
def restartFollow (n : Stn) (s : State) : State :=
  if (s.st n).restartFollow ∧ s.hasOp n = false ∧ (s.st n).state ≠ .engaged then
    if (s.st n).state = .idle then s.follow n .own else s.modSt n fun st => { st with restartFollow := false }
  else s

/-- The restart followings, when they are due: at the end of settling with the part RUNNING, or at a start, once the
context changes are complete (R49, R50, log 12). They stay due for a flagged station that SM has another operation
under way for, which is followed when that operation ends: DESIGN CHOICE, R144 and R50 are silent (log 29). -/
def restartFollows (s : State) : State :=
  if s.sm.followDue = false ∨ s.restartBusy then s
  else if s.rw.part = .running ∨ s.rw.part = .starting then
    let s := forStations restartFollow s
    s.modSm fun m => { m with followDue := allStations.any fun n => (s.st n).restartFollow }
  else s.modSm fun m => { m with followDue := false }

/-- The part enters STARTING (R180): check 1 of R29, then the header read. -/
def startPart (s : State) : State :=
  let s := s.modRw fun r => { r with part := .starting, headerPassed := false }
  if dirbaseLegal s.rw.dirbase then s.askSm .headerRead none s.rw.dirbase 64 []
  else s.headerFault s.rw.dirbase

/-- No turn, operation of SM or restart holds a STOPPING part (R181). -/
def atRest (s : State) : Bool :=
  s.xe.turn.isNone && s.noOps && !s.rw.restartRequest && !s.restartBusy

/-- The changes of the part state that the end of operations brings about (R180, R181). -/
def partStep (s : State) : State :=
  match s.rw.part with
  | .starting =>
    if s.rw.headerPassed && s.noOps && !s.sm.followDue then
      s.modRw fun r => { r with part := if r.run then .running else .stopped, headerPassed := false }
    else s
  | .stopping =>
    if s.atRest then
      let s := s.modRw fun r => { r with part := .stopped }
      if s.rw.run then s.startPart else s
    else s
  | .stopped => if s.rw.run && !s.restartBusy then s.startPart else s
  | .running | .faulted => s

/-- What the part does of itself after a command, before requests go on to the bus. Nothing in FAULTED (R51, R174). -/
def settle (s : State) : State :=
  if s.rw.part = .faulted then s else (partStep (restartFollows (beginRestarts (endCascade s)))).serveMemory

/-! ### Carrying out a link restart (R86, R144, R182) -/

/-- LP starts the break, the routes are forgotten, and the context changes are called for. Restart followings of an
earlier restart that are still due wait for the end of the new settling interval (R144). -/
def carryOutRestart (s : State) : State :=
  (((s.modRw fun r => { r with restartRequest := false }).forgetRoutes).modLp fun p =>
    { p with state := .breaking, breakTimer := some Config.breakTime }).modSm fun m =>
      { m with restartPending := true, followDue := false }

end State

end Sys2Proof.Machine
end

