-- ==== Sys2Proof/Machine/Turns.lean ====
section
/-! DEFINITION. What LS, XE, RM and WU do in a turn: the grant, the OPEN, the request and its attempts, and what each finding brings about (chapters 5 to 9). -/

namespace Sys2Proof.Machine

/-! ### The line -/

namespace State

/-- XE asks LP to send (R75). -/
def askLp (p : Send) (quiet : Bool) (s : State) : State :=
  s.modLp fun l =>
    if quiet then { l with state := .sending, send := some p, busyTimer := none }
    else { l with send := some p, busyTimer := some Config.busyLimit }

/-- The cached configuration of a station; of a station that has none, nothing is read. -/
def config (s : State) (n : Stn) : StationConfig := ((s.st n).config).getD ⟨0, .direct, 0, 0, 0, 0, 0, 0, false⟩

def linkAddress (s : State) (n : Stn) : BitVec 7 := BitVec.ofNat 7 (s.config n).linkAddress

/-- Link address of branch index `b` (R146). -/
def branchAddress (s : State) (b : Fin 8) : BitVec 7 := BitVec.ofNat 7 (s.header.branchAddresses.getD b.val 0)

/-- RM's answer (R148): the branch and port an OPEN must go to first. -/
def openNeeded (s : State) (n : Stn) : Option (Fin 8 × Fin 8) :=
  match (s.config n).route with
  | .direct => none
  | .branch b p => if s.route b = .opened p then none else some (b, p)

/-- The send of the request in hand (R100, R103, R104, R109, R122, R149, R160): the same at every attempt (R126). -/
def inHand (s : State) (t : Turn) : Send :=
  if t.opening then
    match (s.config t.station).route with
    | .branch b p => ⟨.opening, s.branchAddress b, false, leBytes p.val 1⟩
    | .direct => ⟨.opening, 0#7, false, []⟩
  else
    match t.kind with
    | .order => ⟨.order, s.linkAddress t.station, (s.st t.station).putParity, []⟩
    | .put => ⟨.put, s.linkAddress t.station, (s.st t.station).putParity, []⟩
    | .fetch => ⟨.fetch, s.linkAddress t.station, false, leBytes t.size 2⟩
    | .ask => ⟨.ask, s.linkAddress t.station, false, []⟩
    | .sync => ⟨.sync, s.linkAddress t.station, false, []⟩
    | .peek => ⟨.peek, s.linkAddress t.station, false, leBytes t.size 1⟩

/-- The payload LP sends: the staging buffer for ORDER and PUT, else the short payload (R87, R89). -/
def payloadOf (s : State) (p : Send) : List Byte :=
  if p.staged then s.xe.staging else p.short

/-- The packet on the line while LP is SENDING (R71, R186). -/
def packetOnLine (s : State) : Option Packet :=
  if s.lp.state = .sending then s.lp.send.map fun p => formPacket p.kind p.address p.parity (s.payloadOf p) else none

/-- The bits on the line for it, between its delimiters (R186). -/
def bitsOnLine (s : State) : Option (List Bool) := s.packetOnLine.map lineBits

/-- Drive enable (R70). -/
def driveEnable (s : State) : Bool := s.lp.state == .sending || s.lp.state == .breaking

/-- What the checks of an answer compare with (R78). -/
def expected (s : State) (t : Turn) : Expected :=
  ⟨(s.inHand t).kind, (s.inHand t).address, (s.inHand t).parity, t.size, (s.st t.station).getParity⟩

/-- XE asks LP to send the request in hand. The first send asked for an ORDER makes the phase ORDER (R93). -/
def sendRequest (quiet : Bool) (s : State) : State :=
  match s.xe.turn with
  | none => s
  | some t =>
    let s := s.modTurn fun t => { t with stage := .request }
    let s :=
      if t.kind = .order ∧ t.opening = false then
        s.modInFlight t.station fun f => if f.phase = .nothing then { f with phase := .order } else f
      else s
    s.askLp (s.inHand t) quiet

/-- Step 3 of R91: the OPEN if RM answers that one is needed, else the turn's request. -/
def beginSending (quiet : Bool) (s : State) : State :=
  match s.xe.turn with
  | none => s
  | some t => (s.modTurn fun t' => { t' with opening := (s.openNeeded t.station).isSome, attempts := 0 }).sendRequest quiet

/-! ### The grant (R136 to R141) -/

/-- The kind of an exchange or SYNC turn (R141). -/
def exchangeKind (st : Station) : Option TurnKind :=
  if st.resyncPending then some .sync
  else
    match st.inFlight with
    | none => none
    | some f =>
      if f.host.kind = some .resync then some .sync
      else
        match f.phase, f.host.direction with
        | .nothing, _ | .order, _ => some .order
        | .data, .toStation => some .put
        | .data, .fromStation => some .fetch
        | .report, _ => some .ask
        | _, _ => none

/-- Nothing SM does for the station holds it back (R137, log 11): no operation is under way but a status half write
after which SM has nothing to do for the station (log 28). -/
def free (s : State) (n : Stn) : Bool :=
  match (s.st n).op with
  | none => true
  | some o => o.job == .report && !(s.st n).owesWork

/-- Eligible for a watch turn (R137). -/
def watchEligible (s : State) (e : DueEntry) : Bool :=
  !e.deferred && s.free e.station &&
    match (s.st e.station).state with
    | .idle | .ready | .holding | .paused | .halted => true
    | .absent | .engaged | .lost => false

/-- Eligible for an exchange or SYNC turn (R137). -/
def exchangeEligible (s : State) (n : Stn) : Bool := (s.st n).state == .ready && s.free n

/-- The choice of R139 and R140. -/
def chooseGrant (s : State) : Option (Stn × TurnKind) :=
  match s.ls.due.find? s.watchEligible with
  | some e => some (e.station, .peek)
  | none =>
    match (allStations.map fun k => s.ls.rotation + 1 + k).find? s.exchangeEligible with
    | some n => (exchangeKind (s.st n)).map fun k => (n, k)
    | none => none

/-- The conditions of R136 but the last. -/
def grantOpen (s : State) : Bool :=
  s.rw.part == .running && s.xe.turn.isNone && s.lp.state == .idle && !s.rw.restartRequest && !s.restartBusy

/-- Request size of a turn (R102, R104), or the value length of a PEEK. -/
def turnSize (s : State) (n : Stn) (k : TurnKind) : Nat :=
  match k, (s.st n).inFlight with
  | .put, some f | .fetch, some f => min (maxPacketSize (s.config n).maxPacketCode) (f.host.dataLength - f.moved)
  | .peek, _ => (s.config n).watchLength
  | _, _ => 0

/-- The turn as a grant sets it up (R89). -/
def newTurn (s : State) (n : Stn) (k : TurnKind) : Turn :=
  { station := n, kind := k, opening := false, opened := false, attempts := 0, size := s.turnSize n k,
    grantedFrom := (s.st n).state, stage := if k = .put then .putRead else .request, lapsed := false }

/-- What the staging buffer holds at the start of the turn (R90). -/
def firstStaging (s : State) (n : Stn) (k : TurnKind) : List Byte :=
  match k, (s.st n).inFlight with
  | .order, some f => f.host.orderPayload
  | _, _ => []

/-- LS grants station `n` a turn of kind `k`, and XE begins it (R91, R135, R140). -/
def grantTurn (n : Stn) (k : TurnKind) (quiet : Bool) (s : State) : State :=
  let s' :=
    ((s.modXe fun _ => ⟨some (s.newTurn n k), s.firstStaging n k⟩).modLs fun l =>
      if k = .peek then l else { l with rotation := n }).modSt n fun st => { st with state := .engaged }
  if k = .put then
    s'.askXe .putRead n (((s.st n).inFlight.map (·.cursor)).getD 0#32) (s.turnSize n k) []
  else s'.beginSending quiet

/-! ### Outcomes (R114) -/

/-- XE hands SM the outcome and marks the turn; the staging buffer is empty. -/
def setOutcome (o : Outcome) (mark : TurnMark) (s : State) : State :=
  (s.modTurn fun t => { t with stage := .handed o mark }).modXe fun x => { x with staging := [] }

/-- XE hands SM the outcome, and SM takes it. -/
def handOver (o : Outcome) (mark : TurnMark) (s : State) : State := (s.setOutcome o mark).takeOutcome

/-- The end of a PEEK turn: EXHAUSTED when its PEEK was exhausted (R164), else the turn goes on (R161, R163). -/
def finishWatch (t : Turn) (s : State) : State :=
  if t.lapsed then s.handOver (.exhausted .peek) .unanswered else s.handOver .cont .answered

/-- WU writes the slot with a new status, and the turn waits for it (R161, R163, R164); WU waits for its writes
station by station (log 35). -/
def writeSlot (t : Turn) (status : SlotStatus) (notify : Bool) (s : State) : State :=
  ((s.modWatch t.station fun r => { r with status := status }).askSlot t.station (s.config t.station).watchLength).modTurn
    fun t => { t with stage := .slot notify }

/-- The slot write of a PEEK turn is complete (R161, R163, R164). -/
def slotWritten (t : Turn) (notify : Bool) (s : State) : State :=
  ((if notify then s.setNotice t.station else s).leaveDue t.station).finishWatch t

/-! ### Attempts (R98, R125 to R128, R151, R154) -/

/-- A cascade for branch `b` reaches another station than the turn's (R152, R153). -/
def cascadeTo (b : Fin 8) (turnStation m : Stn) (s : State) : State :=
  match (s.config m).route with
  | .branch c _ =>
    if c = b ∧ m ≠ turnStation ∧ (s.st m).state ≠ .absent ∧ (s.st m).state ≠ .lost then
      if s.hasOp m then s.modSt m fun st => { st with owedLost := true } else s.enterLost m (.lost false)
    else s
  | .direct => s

/-- The OPEN is exhausted (R151): the outcome is handed over, and SM makes the entries into LOST of the stations
behind the branch, then that of the turn's station. -/
def exhaustOpen (t : Turn) (s : State) : State :=
  match (s.config t.station).route with
  | .direct => s
  | .branch b _ =>
    (forStations (cascadeTo b t.station)
      ((s.setRoute b .faulty).setOutcome (.exhausted .opening) .unanswered)).takeOutcome

/-- Doubt about an open entry (R154). -/
def doubtRoute (t : Turn) (s : State) : State :=
  match (s.config t.station).route with
  | .direct => s
  | .branch b _ =>
    match t.opened, s.route b with
    | false, .opened _ => s.setRoute b .unknown
    | _, _ => s

/-- The station's own request is exhausted (R127, R128, R131, R164). -/
def exhaustRequest (t : Turn) (s : State) : State :=
  let s :=
    ((s.doubtRoute t).modSt t.station fun st => { st with lapses := bump 15 st.lapses }).modTurn fun t =>
      { t with lapsed := true }
  match t.kind with
  | .peek => s.writeSlot t .stale false
  | .order | .put | .fetch | .ask | .sync => s.handOver (.exhausted t.kind.request) .unanswered

/-- The counts an attempt failure raises (R98, R125). -/
def countFailure (t : Turn) (s : State) : State :=
  let s :=
    (s.modSt t.station fun st => { st with totalFailed := bump 65535 st.totalFailed }).modTurn fun t =>
      { t with attempts := t.attempts + 1 }
  if s.countsInBlock t then s.modInFlight t.station fun f => { f with attempts := bump 255 f.attempts } else s

/-- An attempt failure: resend at once below the attempt limit, else exhaustion (R125). -/
def attemptFailure (t : Turn) (quiet : Bool) (s : State) : State :=
  let s' := s.countFailure t
  if t.attempts + 1 < (s.config t.station).attemptLimit then s'.sendRequest quiet
  else if t.opening then s'.exhaustOpen t
  else s'.exhaustRequest t

/-! ### Answers (chapters 5, 6, 8, 9) -/

/-- XE asks for a part's ACCEPT with that parity (R82, R99). -/
def sendAccept (t : Turn) (what : Acknowledged) (parity quiet : Bool) (s : State) : State :=
  (s.modTurn fun t => { t with stage := .accept what }).askLp ⟨.accept, s.linkAddress t.station, parity, []⟩ quiet

/-- The branch unit's ACCEPT (R150). -/
def openAccepted (t : Turn) (quiet : Bool) (s : State) : State :=
  match (s.config t.station).route with
  | .direct => s
  | .branch b p =>
    ((s.setRoute b (.opened p)).modTurn fun t =>
      { t with opening := false, opened := true, attempts := 0 }).sendRequest quiet

/-- HOLD to an exchange request (R95, R96). -/
def heldExchange (t : Turn) (s : State) : State :=
  let s :=
    (s.modInFlight t.station fun f => { f with holds := bump 255 f.holds }).modSt t.station fun st =>
      { st with totalHolds := bump 65535 st.totalHolds }
  if (s.config t.station).holdLimit ≠ 0 ∧
      (s.st t.station).inFlight.map (·.holds) = some (s.config t.station).holdLimit then
    s.handOver (.retire .holdLimit true 0 noReport) .answered
  else s.handOver .hold .answered

/-- ACCEPT to ORDER (R101). -/
def orderAccepted (t : Turn) (s : State) : State :=
  ((s.modSt t.station fun st => { st with putParity := !st.putParity }).modInFlight t.station fun f =>
    { f with phase := if f.host.direction = .nothing then .report else .data }).handOver .cont .answered

end State

/-- `k` more bytes of the data phase taken (R94); the phase becomes REPORT when `ended` or when moved is full. -/
def InFlight.advance (k : Nat) (ended : Bool) (f : InFlight) : InFlight :=
  { f with
    moved := f.moved + k
    cursor := f.cursor + BitVec.ofNat 32 k
    phase := if ended = true ∨ f.moved + k = f.host.dataLength then .report else f.phase }

namespace State

/-- ACCEPT to PUT (R103). -/
def putAccepted (t : Turn) (s : State) : State :=
  ((s.modSt t.station fun st => { st with putParity := !st.putParity }).modInFlight t.station
    (InFlight.advance t.size false)).handOver .cont .answered

/-- FINISH to PUT or FETCH (R103, R108). -/
def dataFinished (t : Turn) (s : State) : State :=
  (s.modInFlight t.station fun f => { f with phase := .report }).handOver .cont .answered

/-- `k` bytes of a DATA are in host memory (R105, steps 4 to 6). -/
def dataTaken (t : Turn) (k : Nat) (s : State) : State :=
  (s.modInFlight t.station (InFlight.advance k (decide (k < t.size)))).handOver .cont .answered

/-- ACCEPT to SYNC (R124). -/
def syncAccepted (t : Turn) (s : State) : State :=
  let s := s.modSt t.station fun st =>
    { st with putParity := false, getParity := false, resyncPending := false, lapses := 0 }
  if (s.st t.station).inFlight.map (·.host.kind) = some (some .resync) then
    s.handOver (.retire .clean false 0 noReport) .answered
  else s.handOver .cont .answered

/-- STATE to PEEK (R161), taken at once even while WU's slot write for another station is outstanding: DESIGN CHOICE,
R165 and R170 leave open whether that wait is WU's or the station's (log 35). -/
def stateTaken (t : Turn) (value : List Byte) (s : State) : State :=
  let s := s.modXe fun x => { x with staging := value }
  if (s.watch t.station).last = some value then
    if (s.watch t.station).status = .valid then (s.leaveDue t.station).finishWatch t else s.writeSlot t .valid false
  else
    (s.modWatch t.station fun r => { r with last := some value, changes := r.changes + 1 }).writeSlot t .valid
      (s.config t.station).watchNotify

/-- HOLD to PEEK (R162). The station moves in the due list at the turn's end (R138). -/
def heldPeek (t : Turn) (s : State) : State :=
  (s.modSt t.station fun st => { st with totalHolds := bump 65535 st.totalHolds }).handOver .hold .answered

/-- An ANSWER to the station's own request. -/
def answered (t : Turn) (kind : PacketKind) (parity : Bool) (payload : List Byte) (quiet : Bool) (s : State) : State :=
  let s := s.modSt t.station fun st => { st with lapses := 0 }
  match t.kind, kind with
  | .order, .accept => s.orderAccepted t
  | .put, .accept => s.putAccepted t
  | .put, .finish | .fetch, .finish => s.dataFinished t
  | .fetch, .data => (s.modXe fun x => { x with staging := payload }).sendAccept t .data parity quiet
  | .ask, .report => (s.modXe fun x => { x with staging := payload }).sendAccept t .report parity quiet
  | .sync, .accept => s.syncAccepted t
  | .peek, .state => s.stateTaken t payload
  | .peek, .hold => s.heldPeek t
  | .peek, .refuse => s.writeSlot t .refused false
  | .order, .hold | .put, .hold | .fetch, .hold | .ask, .hold => s.heldExchange t
  | .order, .refuse | .put, .refuse | .fetch, .refuse | .ask, .refuse =>
    s.handOver (.retire .refused false 0 noReport) .answered
  | _, _ => s

/-- A taken REPORT of length 16 (R111, R112). -/
def checkReport (t : Turn) (report : List Byte) (s : State) : State :=
  match (s.st t.station).inFlight with
  | none => s
  | some f =>
    if reportLegal f.host report then
      (s.modInFlight t.station fun f => { f with phase := .complete }).handOver
        (.retire (reportCondition f.host f.moved report) false (reportResidue report) report) .answered
    else s.handOver (.retire .reportFault true 0 report) .answered

/-- The part's ACCEPT is SENT (R82, R99, R105, R109, R118). -/
def acceptSent (t : Turn) (what : Acknowledged) (s : State) : State :=
  let flipped := s.modSt t.station fun st => { st with getParity := !st.getParity }
  match what with
  | .duplicate => s.handOver .cont .answered
  | .data =>
    if s.xe.staging.length = 0 then flipped.dataTaken t 0
    else
      (flipped.modTurn fun t => { t with stage := .drain }).askXe .drain t.station
        (((s.st t.station).inFlight.map (·.cursor)).getD 0#32) s.xe.staging.length s.xe.staging
  | .report => flipped.checkReport t s.xe.staging
  | .badReport => flipped.handOver (.retire .reportFault true 0 noReport) .answered

/-- The part's ACCEPT was abandoned at the line-busy limit (R82, R99). -/
def acceptAbandoned (t : Turn) (what : Acknowledged) (quiet : Bool) (s : State) : State :=
  match what with
  | .duplicate => s.handOver .cont .answered
  | .data | .report | .badReport => (s.modXe fun x => { x with staging := [] }).attemptFailure t quiet

/-- A finding on the request in hand (R98, R107, R109). -/
def requestFinding (t : Turn) (f : Finding) (quiet : Bool) (s : State) : State :=
  match f with
  | .answer kind parity payload =>
    if t.opening then s.openAccepted t quiet else s.answered t kind parity payload quiet
  | .duplicate _ parity _ =>
    (s.modSt t.station fun st => { st with lapses := 0 }).sendAccept t .duplicate parity quiet
  | .overrun =>
    (s.modSt t.station fun st => { st with lapses := 0 }).handOver (.retire .overrun true 0 noReport) .answered
  | .reportFault parity =>
    (s.modSt t.station fun st => { st with lapses := 0 }).sendAccept t .badReport parity quiet
  | .sent => s
  | .noAnswer | .garbled | .stray | .wrongKind | .sequence => s.attemptFailure t quiet

/-- XE takes a finding (R81). -/
def takeFinding (t : Turn) (f : Finding) (quiet : Bool) (s : State) : State :=
  match t.stage with
  | .request => s.requestFinding t f quiet
  | .accept what => if f = .sent then s.acceptSent t what else s.acceptAbandoned t what quiet
  | _ => s

end State

end Sys2Proof.Machine
end

