-- ==== Sys2Proof/Machine/Attention.lean ====
section
/-! DEFINITION. Meanings of the seven actions: SM applies the head attention entry (chapter 3). -/

namespace Sys2Proof.Machine

namespace State

/-- A requested restart makes the head entry wait (R54): one requested while an application was under way, and one
that no turn delays, which is carried out at once (R144, log 25). -/
def restartAwaited (s : State) : Bool := s.rw.restartRequest && (s.rw.restartHolds || s.xe.turn.isNone)

/-- SM may begin the application of an entry for station `n` (R53, R54, log 11). -/
def mayApply (s : State) (n : Stn) : Bool :=
  s.rw.part == .running && !s.hasOp n && (s.st n).state != .engaged && !s.restartBusy && !s.restartAwaited

/-- The refusal of an entry (R55). -/
def refuseEntry (n : Stn) (s : State) : State := s.finalApplication n .refused

/-- SM takes the head entry of action `a`: `apply` makes its effect on the station's context, with the application
begun. The entry waits where R54 says so. -/
def takeHead (a : Action) (apply : Stn → State → State) (s : State) : Answer :=
  match s.au with
  | [] => .refused .noSuchHead
  | e :: _ =>
    if e.action = a then
      if s.mayApply e.station then
        .next (apply e.station (s.startOp e.station .application .final)).serveMemory
      else .next s
    else .refused .noSuchHead

/-- BRING_UP up to its configuration read (R56, R32). -/
def applyBringUp (n : Stn) (s : State) : State :=
  if (s.st n).state = .absent then (s.setStage n .configuration).askConfiguration n else s.refuseEntry n

/-- WAKE (R57). -/
def applyWake (n : Stn) (s : State) : State :=
  match (s.st n).state with
  | .idle => s.follow n .application
  | .ready | .holding | .paused | .halted =>
    (s.modSt n fun st => { st with wakePending := true }).finalApplication n .applied
  | .absent | .engaged | .lost => s.refuseEntry n

/-- PAUSE (R58). -/
def applyPause (n : Stn) (s : State) : State :=
  match (s.st n).state with
  | .idle | .ready | .holding => (s.enterState n .paused).finalApplication n .applied
  | .paused => s.finalApplication n .applied
  | .absent | .engaged | .halted | .lost => s.refuseEntry n

/-- RESUME (R59). -/
def applyResume (n : Stn) (s : State) : State :=
  match (s.st n).state with
  | .paused =>
    if (s.st n).inFlight.isSome ∨ (s.st n).resyncPending then (s.enterState n .ready).finalApplication n .applied
    else s.follow n .application
  | .halted => s.follow n .application
  | .absent | .idle | .ready | .engaged | .holding | .lost => s.refuseEntry n

/-- WITHDRAW: steps 1 to 4 of R60. -/
def applyWithdraw (n : Stn) (s : State) : State :=
  if (s.st n).state = .absent then s.refuseEntry n
  else
    let s := s.modSt n Station.clearCountdowns
    match (s.st n).inFlight with
    | none => s.startWalk n
    | some f =>
      (if f.phase = .nothing then s else s.modSt n fun st => { st with resyncPending := true }).retireInFlight n
        .abandoned 0 noReport .withdraw

/-- A FAULTY entry of the station's branch becomes UNKNOWN (R155). -/
def reviveRoute (n : Stn) (s : State) : State :=
  match (s.config n).route with
  | .direct => s
  | .branch b _ => if s.route b = .faulty then s.setRoute b .unknown else s

/-- REVIVE (R63). -/
def applyRevive (n : Stn) (s : State) : State :=
  if (s.st n).state = .lost then
    (((s.modSt n fun st => { st with lapses := 0, resyncPending := true }).reviveRoute n).enterState n
      .ready).finalApplication n .applied
  else s.refuseEntry n

/-- TAKE_DOWN: steps 1 and 2 of R64, then its step 3. -/
def applyTakeDown (n : Stn) (s : State) : State :=
  if (s.st n).state = .absent then s.refuseEntry n
  else
    let s := s.modSt n Station.clearCountdowns
    match (s.st n).inFlight with
    | none => s.takeDownWatch n
    | some _ => s.retireInFlight n .abandoned 0 noReport .takeDown

end State

def execBringUp (s : State) : Answer := s.takeHead .bringUp State.applyBringUp

def execWake (s : State) : Answer := s.takeHead .wake State.applyWake

def execPause (s : State) : Answer := s.takeHead .pause State.applyPause

def execResume (s : State) : Answer := s.takeHead .resume State.applyResume

def execWithdraw (s : State) : Answer := s.takeHead .withdraw State.applyWithdraw

def execRevive (s : State) : Answer := s.takeHead .revive State.applyRevive

def execTakeDown (s : State) : Answer := s.takeHead .takeDown State.applyTakeDown

end Sys2Proof.Machine
end

