-- ==== Sys2Proof/Machine/Completions.lean ====
section
/-! DEFINITION. Meanings of the ends of memory requests (chapters 1, 2, 5, 9, 10). -/

namespace Sys2Proof.Machine

namespace State

/-- The request in progress, of kind `k`, ends complete: `go` is what its requester does (R170). A response to a
request that MP does not have in progress, as one that a reset abandoned, has no effect (R176, log 14). -/
def whenDone (k : RequestKind) (s : State) (go : Request → State → Answer) : Answer :=
  match s.mp.current with
  | none => .next s
  | some r => if r.kind = k then go r (s.completeRequest r) else .next s

/-- The same for a read that returned `data`. -/
def whenRead (k : RequestKind) (data : List Byte) (s : State) (go : Request → State → Answer) : Answer :=
  s.whenDone k fun r s => if data.length = r.length then go r s else .refused .readLength

/-- The operation of SM that the request belongs to. -/
def whenOp (r : Request) (s : State) (go : Stn → Operation → State → Answer) : Answer :=
  match r.station with
  | none => .fault .noOperation
  | some n =>
    match (s.st n).op with
    | none => .fault .noOperation
    | some o => go n o s

/-! ### The header read (R29, R180) -/

/-- Check 7 of R29. -/
def headerFitsAll (s : State) (l : Latched) : Bool :=
  allStations.all fun n => (s.st n).state == .absent || headerFits l (s.config n)

/-- The header has been read: steps 1 to 4 of R180. -/
def takeHeader (data : List Byte) (s : State) : State :=
  let l := Latched.ofHeader s.rw.dirbase data
  if headerLegal data l && s.headerFitsAll l then
    ((((s.setLatched (some l)).forgetRoutes).modRw fun r => { r with headerPassed := true }).modSm fun m =>
      { m with followDue := s.rw.run })
  else s.headerFault s.rw.dirbase

/-! ### The configuration read (R32, R56) -/

/-- Check 5 of R32: another station that is not ABSENT has the same link address on the same route. -/
def addressTaken (s : State) (n : Stn) (c : StationConfig) : Bool :=
  allStations.any fun m =>
    m != n && (s.st m).state != .absent && (s.config m).linkAddress == c.linkAddress && (s.config m).route == c.route

/-- The legal configuration of a half, with its chain head; none is CONFIG_FAULT. -/
def legalConfig (s : State) (n : Stn) (data : List Byte) : Option StationConfig :=
  (decodeRoute data s.header.branchCount).bind fun route =>
    let c := StationConfig.ofHalf data route
    if c.legal s.header (leWord data 0x0C) && !s.addressTaken n c then some c else none

/-- Steps 1 to 7 of R56. -/
def setUp (n : Stn) (c : StationConfig) (s : State) : State :=
  s.modSt n fun st =>
    { st with
      config := some c
      putParity := false
      getParity := false
      resyncPending := true
      retireCount := 0#16
      lapses := 0
      lastCondition := .clean
      totalHolds := 0
      totalFailed := 0
      wakePending := false
      restartFollow := false
      inFlight := none
      parked := none
      code := .clear
      hold := none
      reread := none
      holdExpired := false
      rereadOwed := false }

/-- Step 8 of R56 (R157, R166). -/
def setUpWatch (n : Stn) (c : StationConfig) (s : State) : State :=
  if c.watchInterval = 0 then s
  else
    (((s.leaveDue n).modWatch n fun _ =>
      { WatchRecord.reset with active := true, countdown := c.watchInterval }).askSlot n c.watchLength).modOp n fun o =>
        { o with slotDue := true }

/-- The configuration half of station `n` has been read. -/
def takeConfiguration (n : Stn) (data : List Byte) (s : State) : State :=
  match s.legalConfig n data with
  | none => s.finalApplication n .configFault
  | some c =>
    (((s.setUp n c).setUpWatch n c).modOp n fun o => { o with stage := .candidate, predecessor := none }).examineAddress
      n (leWord data 0x0C)

end State

/-- HEADER_READ. -/
def execHeaderRead (data : List Byte) (s : State) : Answer :=
  s.whenRead .headerRead data fun _ s =>
    if s.rw.part = .starting then .next (s.takeHeader data).settle else .fault .noOperation

/-- CONFIGURATION_READ. -/
def execConfigurationRead (data : List Byte) (s : State) : Answer :=
  s.whenRead .configurationRead data fun r s =>
    s.whenOp r fun n o s =>
      if o.stage = .configuration then .next (s.takeConfiguration n data).settle else .fault .noOperation

/-- CHAIN_HEAD_READ (R10, R61). -/
def execChainHeadRead (data : List Byte) (s : State) : Answer :=
  s.whenRead .chainHeadRead data fun r s =>
    s.whenOp r fun n o s =>
      if o.stage = .candidate then .next (s.examineAddress n (leWord data 0)).settle else .fault .noOperation

/-- LINK_READ (R9, R61). -/
def execLinkRead (data : List Byte) (s : State) : Answer :=
  s.whenRead .linkRead data fun r s =>
    s.whenOp r fun n o s =>
      if o.stage = .candidate then .next (s.examineAddress n (leWord data 0)).settle else .fault .noOperation

/-- BLOCK_READ (R11, R61). -/
def execBlockRead (data : List Byte) (s : State) : Answer :=
  s.whenRead .blockRead data fun r s =>
    s.whenOp r fun n o s =>
      match o.stage with
      | .block candidate =>
        .next (if o.walk then s.examineInWalk n candidate data else s.examineInFollowing n candidate data).settle
      | _ => .fault .noOperation

/-- TAKEN_WRITE (R12). -/
def execTakenWrite (s : State) : Answer :=
  s.whenDone .takenWrite fun r s =>
    s.whenOp r fun n o s =>
      match o.stage with
      | .taken block host => .next (s.takeBlock n block host).settle
      | _ => .fault .noOperation

/-- RESULT_WRITE: step 3 of R20 begins. -/
def execResultWrite (s : State) : Answer :=
  s.whenDone .resultWrite fun r s =>
    s.whenOp r fun n o s =>
      match o.stage with
      | .result q => .next ((s.setStage n (.done q)).askStateWord .doneWrite n q.block stateWordDone).serveMemory
      | _ => .fault .noOperation

/-- DONE_WRITE: steps 4 and 5 of R20. -/
def execDoneWrite (s : State) : Answer :=
  s.whenDone .doneWrite fun r s =>
    s.whenOp r fun n o s =>
      match o.stage with
      | .done q => .next (((s.settleRetirement n q).setStage n (.status q)).askStatus n).serveMemory
      | _ => .fault .noOperation

/-- STATUS_WRITE: steps 6 and 7 of R20, the end of an operation, or the status half of a hold delay that ended beside
an operation, which goes on (log 28). -/
def execStatusWrite (s : State) : Answer :=
  s.whenDone .statusWrite fun r s =>
    s.whenOp r fun n o s =>
      if r.beside ∧ (s.st n).holdReport then .next (s.modSt n fun st => { st with holdReport := false }).serveMemory
      else
        match o.stage with
        | .status q => .next (s.afterRetirement n q).settle
        | .final => .next (s.afterFinal n o.job).settle
        | _ => .fault .noOperation

/-- PUT_READ (R102). -/
def execPutRead (data : List Byte) (quiet : Bool) (s : State) : Answer :=
  s.whenRead .putRead data fun _ s =>
    match s.xe.turn with
    | some t =>
      if t.stage = .putRead then
        .next ((s.modXe fun x => { x with staging := data }).beginSending quiet).serveMemory
      else .fault .noOperation
    | none => .fault .noOperation

/-- DRAIN (R105, R106). -/
def execDrain (s : State) : Answer :=
  s.whenDone .drain fun r s =>
    match s.xe.turn with
    | some t => if t.stage = .drain then .next (s.dataTaken t r.length).settle else .fault .noOperation
    | none => .fault .noOperation

namespace State

/-- The slot write of a BRING_UP or TAKE_DOWN is complete (R56, R64). -/
def slotOfApplication (n : Stn) (o : Operation) (s : State) : Answer :=
  match o.stage with
  | .slotAtBringUp => .next ((s.modOp n fun o => { o with slotDue := false }).finalApplication n .applied).serveMemory
  | .slotAtTakeDown => .next (s.endTakeDown n).serveMemory
  | _ => if o.slotDue then .next (s.modOp n fun o => { o with slotDue := false }).serveMemory else .fault .noOperation

end State

/-- SLOT_WRITE (R161, R163, R164, R166). -/
def execSlotWrite (s : State) : Answer :=
  s.whenDone .slotWrite fun r s =>
    match s.xe.turn with
    | some t =>
      if r.station = some t.station then
        match t.stage with
        | .slot notify => .next (s.slotWritten t notify).settle
        | _ => s.whenOp r fun n o s => s.slotOfApplication n o
      else s.whenOp r fun n o s => s.slotOfApplication n o
    | none => s.whenOp r fun n o s => s.slotOfApplication n o

namespace State

/-- What the requester does about a request that ended in error at `addr` (R173). -/
def dealWithError (r : Request) (addr : Addr) (s : State) : Answer :=
  match r.kind with
  | .headerRead => .next (s.headerFault addr).settle
  | .configurationRead => s.whenOp r fun n _ s => .next (s.finalApplication n .readFault).settle
  | .chainHeadRead | .blockRead | .linkRead => s.whenOp r fun n _ s => .next (s.failCandidate n).settle
  | .putRead | .drain =>
    match s.xe.turn with
    | some _ =>
      .next (s.handOver (.retire .memoryFault true 0 noReport)
        (if r.kind = .putRead then .neither else .answered)).settle
    | none => .fault .noOperation
  | .takenWrite | .resultWrite | .doneWrite | .statusWrite | .slotWrite => .next (s.portFault addr)

end State

/-- BUS_ERROR (R172, R173). One that arrives after a reset abandoned its request has no effect (R176). -/
def execBusError (cut : Cut) (s : State) : Answer :=
  match s.mp.current with
  | none => .next s
  | some r =>
    if cut.full < r.transactions then
      (s.failRequest r cut).dealWithError r (r.transactionAddr cut.full)
    else .refused .noSuchTransaction

end Sys2Proof.Machine
end

