-- ==== Sys2Proof/Machine/Link.lean ====
section
/-! DEFINITION. Meanings of the grant and of the events of the line (chapters 4 and 7). -/

namespace Sys2Proof.Machine

/-- GRANT (R136, R139, R140). When some condition is false, LS makes no grant. -/
def execGrant (quiet : Bool) (s : State) : Answer :=
  if s.grantOpen then
    match s.chooseGrant with
    | some (n, k) => .next (s.grantTurn n k quiet).serveMemory
    | none => .next s
  else .next s

namespace State

/-- LP enters IDLE and hands XE a finding (R78, R81). -/
def deliver (f : Finding) (quiet : Bool) (s : State) : Answer :=
  let s := s.modLp fun _ => .reset
  match s.xe.turn with
  | some t => .next (s.takeFinding t f quiet).settle
  | none => .fault .noTurn

end State

/-- LINE_QUIET (R75): a pending send begins. Under reception it is a Gap (R77). Elsewhere LP does not wait for it
(R87, log 14). -/
def execLineQuiet (s : State) : Answer :=
  match s.lp.state, s.lp.send with
  | .idle, some _ => .next (s.modLp fun l => { l with state := .sending, busyTimer := none })
  | .receiving, _ => s.deliver .garbled true
  | _, _ => .next s

/-- LINE_BUSY_LIMIT (R75): the send is dropped. The line is active. With no send pending no limit runs (R87, log 14). -/
def execLineBusyLimit (s : State) : Answer :=
  match s.lp.state, s.lp.send with
  | .idle, some _ => s.deliver .noAnswer false
  | _, _ => .next s

/-- PACKET_SENT (R76). In FAULTED the packet is finished, no finding is handed over (R88), and the staging buffer is
empty (R117, log 30). Elsewhere LP sends nothing (R87, log 14). -/
def execPacketSent (s : State) : Answer :=
  match s.lp.state, s.lp.send with
  | .sending, some p =>
    if s.rw.part = .faulted then .next ((s.modLp fun _ => .reset).modXe fun x => { x with staging := [] })
    else if p.kind = .accept then s.deliver .sent false
    else
      .next (s.modLp fun l => { l with state := .awaiting, responseTimer := some s.header.responseTimeout })
  | _, _ => .next s

/-- START_DELIMITER (R76, R87): received in AWAITING only, line activity elsewhere (R84, log 14). -/
def execStartDelimiter (s : State) : Answer :=
  match s.lp.state with
  | .awaiting => .next (s.modLp fun l => { l with state := .receiving, responseTimer := none })
  | .idle | .sending | .receiving | .breaking | .settling => .next s

/-- RESPONSE_TIMEOUT (R76). In the other states the response timer does not run (R87, log 14). -/
def execResponseTimeout (quiet : Bool) (s : State) : Answer :=
  match s.lp.state with
  | .awaiting => s.deliver .noAnswer quiet
  | _ => .next s

/-- RECEPTION_END (R77, R78). A framing error waits for the line to be quiet. A packet LP does not receive is line
activity only (R84, log 14). -/
def execReceptionEnd (r : Reception) (quiet : Bool) (s : State) : Answer :=
  if s.lp.state = .receiving ∧ s.lp.broken = false then
    match r with
    | .broken header => .next (s.modLp fun l => { l with broken := true, rx := header })
    | .framed p =>
      if p.framedRight then
        match s.xe.turn with
        | some t => s.deliver (checkPacket (s.expected t) p) quiet
        | none => .fault .noTurn
      else .refused .notFramed
  else .next s

/-- FRAMING_ERROR (R77): the reception is broken off, by an error met before or by the gap itself, and the line has
fallen quiet. Elsewhere LP receives nothing (R84, log 14). -/
def execFramingError (s : State) : Answer :=
  if s.lp.state = .receiving then s.deliver .garbled true else .next s

end Sys2Proof.Machine
end

