-- ==== Sys2Proof/Machine/Flags.lean ====
section
/-! DEFINITION. The register window as the host reads it, and the interrupt output (chapter 11, R68, section 12.2). -/

namespace Sys2Proof.Machine

namespace State

/-- Some sticky bit is set (R68). -/
def anySticky (s : State) : Bool := s.rw.attnLost || s.rw.attnBad || s.rw.headerFault || s.rw.portFault

/-- The interrupt output (R68). -/
def interruptOutput (s : State) : Bool :=
  (s.rw.noticeEn && (allStations.any fun n => s.nu.flags.get n)) || (s.rw.faultEn && s.anySticky)

/-- CONTROL as read (R179): the self-clearing controls read 0. -/
def controlWord (s : State) : Word :=
  BitVec.ofNat 32 (bit s.rw.run 0 + bit s.rw.noticeEn 1 + bit s.rw.faultEn 2)

/-- STATUS as read (R184). -/
def statusWord (s : State) : Word :=
  BitVec.ofNat 32
    (s.rw.part.code + 2 ^ 8 * s.au.length + bit s.rw.attnLost 16 + bit s.rw.attnBad 17 + bit s.rw.headerFault 18
      + bit s.rw.portFault 19)

/-- The value a NOTICE read returns in this state (R66): EMPTY, or the station and the flags still set after it. -/
def noticeWord (s : State) : Word :=
  match s.nextNotice with
  | none => BitVec.ofNat 32 (2 ^ 15)
  | some n => BitVec.ofNat 32 (n.val + 2 ^ 16 * (s.noticeCount - 1))

/-- The value a 32-bit read at a window offset returns (R177, R178). A read of NOTICE also takes: the command
NOTICE_READ. -/
def readRegister (s : State) (offset : Nat) : Word :=
  if offset = 0x00 then Config.ident
  else if offset = 0x04 then s.controlWord
  else if offset = 0x08 then s.statusWord
  else if offset = 0x0C then s.rw.dirbase
  else if offset = 0x14 then s.noticeWord
  else if offset = 0x18 then s.rw.faultAddr
  else 0#32

/-- The bytes of a register that a read with these byte enables addresses (R177). The other byte lanes carry 0: DESIGN
CHOICE, R177 is silent on them (log 33). -/
def addressedBytes (enables : BitVec 4) (w : Word) : Word :=
  (if enables.getLsbD 0 then w &&& 0xFF#32 else 0#32) ||| (if enables.getLsbD 1 then w &&& 0xFF00#32 else 0#32)
    ||| (if enables.getLsbD 2 then w &&& 0xFF0000#32 else 0#32)
    ||| (if enables.getLsbD 3 then w &&& 0xFF000000#32 else 0#32)

/-- What a read of up to 32 bits at a window offset returns in its byte lanes. -/
def readBytes (s : State) (offset : Nat) (enables : BitVec 4) : Word := addressedBytes enables (s.readRegister offset)

/-- What a read of up to 64 bits returns: two 32-bit reads, of the lower and then the upper half of the aligned 8-byte
unit, each with the byte enables of that half (R177). -/
def readBytes64 (s : State) (offset : Nat) (enables : BitVec 8) : BitVec 64 :=
  s.readBytes (offset / 8 * 8 + 4) ((enables >>> 4).setWidth 4) ++ s.readBytes (offset / 8 * 8) (enables.setWidth 4)

end State

end Sys2Proof.Machine
end

