-- ==== Sys2Proof/Machine/Registers.lean ====
section
/-! DEFINITION. Meanings of the register accesses and resets (chapter 11, R52, R66). -/

namespace Sys2Proof.Machine

/-! ### Resets (R183) -/

/-- Every block at its reset values; a write in progress has reached memory as far as `cut` says (R176). -/
def State.resetBlocks (dirbase : Addr) (cut : Cut) (s : State) : State :=
  .resetWith dirbase ((s.mp.current.map fun r => r.land cut s.mem).getD s.mem) s.readData s.choices s.pending

/-- POWER_ON_RESET: the reset input asserted and released (log 21). -/
def execPowerOnReset (cut : Cut) (s : State) : Answer := .next (s.resetBlocks 0#32 cut)

/-- DEVICE_RESET. -/
def execDeviceReset (cut : Cut) (s : State) : Answer := .next (s.resetBlocks s.rw.dirbase cut)

/-! ### CONTROL (R179 to R182) -/

/-- RUN_START: the control takes 1; a STOPPED part starts, once the context changes of a restart are complete. -/
def execRunStart (s : State) : Answer :=
  let s' := s.modRw fun r => { r with run := true }
  .next (if s.rw.part = .stopped then s'.settle else s')

/-- RUN_STOP: the control takes 0; a RUNNING part goes to STOPPING, and on to STOPPED when nothing is under way. -/
def execRunStop (s : State) : Answer :=
  let s' := s.modRw fun r => { r with run := false }
  .next (if s.rw.part = .running then (s'.modRw fun r => { r with part := .stopping }).settle else s')

/-- LINK_RESTART, judged against the part state (R182, log 13). -/
def execLinkRestart (s : State) : Answer :=
  match s.rw.part with
  | .stopped =>
    if s.lp.state = .breaking ∨ s.lp.state = .settling then .next s else .next s.carryOutRestart.settle
  | .running =>
    if s.lp.state = .breaking ∨ s.lp.state = .settling ∨ s.restartBusy ∨ s.rw.restartRequest then .next s
    else .next (s.modRw fun r => { r with restartRequest := true, restartHolds := s.applying })
  | .starting | .stopping | .faulted => .next s

/-- NOTICE_EN. -/
def execNoticeEn (v : Bool) (s : State) : Answer := .next (s.modRw fun r => { r with noticeEn := v })

/-- FAULT_EN. -/
def execFaultEn (v : Bool) (s : State) : Answer := .next (s.modRw fun r => { r with faultEn := v })

/-! ### STATUS, DIRBASE -/

/-- STATUS_WRITE_CLEAR (R184; bits of section 12.2). -/
def execStatusWriteClear (w : Word) (s : State) : Answer :=
  .next (s.modRw fun r =>
    { r with
      attnLost := r.attnLost && !w.getLsbD 16
      attnBad := r.attnBad && !w.getLsbD 17
      headerFault := r.headerFault && !w.getLsbD 18 })

/-- DIRBASE_WRITE (R178). -/
def execDirbaseWrite (w : Word) (s : State) : Answer :=
  .next (if s.rw.part = .stopped then s.modRw fun r => { r with dirbase := w } else s)

/-! ### ATTENTION, NOTICE -/

/-- The station number of a word written to ATTENTION: bits 5 to 0. -/
def attentionStation (w : Word) : Stn := Fin.ofNat 64 w.toNat

/-- The action code of a word written to ATTENTION: bits 10 to 8. -/
def attentionCode (w : Word) : Nat := w.toNat / 2 ^ 8 % 8

/-- ATTENTION_WRITE (R52). -/
def execAttentionWrite (w : Word) (s : State) : Answer :=
  match Action.ofCode (attentionCode w) with
  | none => .next (s.modRw fun r => { r with attnBad := true })
  | some a =>
    if s.au.length < Config.queueCapacity then .next (s.setAu (s.au ++ [⟨attentionStation w, a⟩]))
    else .next (s.modRw fun r => { r with attnLost := true })

/-- NOTICE_READ: a take (R66). -/
def execNoticeRead (s : State) : Answer :=
  let s' := s.setReadData s.noticeWord
  match s.nextNotice with
  | none => .next s'
  | some n => .next (s'.modNu fun u => { u with flags := u.flags.set n.val false n.isLt, position := n + 1 })

/-- REGISTER_WRITE_IGNORED (R177): the writes of `ignoredWrite`, the well-formed ones, have no effect. -/
def execRegisterWriteIgnored (_offset : Nat) (_enables : BitVec 4) (_w : Word) (s : State) : Answer := .next s

end Sys2Proof.Machine
end

