-- ==== Sys2Proof/Machine/Restart.lean ====
section
/-! DEFINITION. Meanings of the link restart (R85, R86, R144, R182). -/

namespace Sys2Proof.Machine

/-- RESTART_BREAK: a requested restart is carried out once the turn in progress has ended (R144). With none
requested SM makes no break request (R182, log 14). -/
def execRestartBreak (s : State) : Answer :=
  if s.rw.restartRequest = false ∨ s.xe.turn.isSome then .next s
  else .next s.carryOutRestart.settle

/-- BREAK_END (R86); in FAULTED the settling interval is not run (R88). No other state has a break to end (R87,
log 14). -/
def execBreakEnd (s : State) : Answer :=
  match s.lp.state with
  | .breaking =>
    .next (s.modLp fun l =>
      if s.rw.part = .faulted then .reset
      else { l with state := .settling, breakTimer := none, settleTimer := some Config.settleTime })
  | _ => .next s

/-- SETTLING_END (R86): with the part RUNNING, the restart followings are due (R50). No other state has an interval to
end (R87, log 14). -/
def execSettlingEnd (s : State) : Answer :=
  match s.lp.state with
  | .settling =>
    let s := s.modLp fun _ => .reset
    .next (if s.rw.part = .running then (s.modSm fun m => { m with followDue := true }).settle else s)
  | _ => .next s

end Sys2Proof.Machine
end

