-- ==== Sys2Proof/Machine/Timers.lean ====
section
/-! DEFINITION. Meanings of the millisecond expiry and of the countdowns that reach 0 (R19, R43, R143, R158, R159). -/

namespace Sys2Proof.Machine

/-- The Interval Timer runs (R143). -/
def State.timerRuns (s : State) : Bool := s.rw.part == .running || s.rw.part == .stopping

/-- A station's countdowns at a millisecond expiry (R18, R43). -/
def Station.tick (st : Station) : Station :=
  { st with hold := st.hold.map (· - 1), reread := st.reread.map (· - 1) }

/-- A watch record's countdown at a millisecond expiry; it stands still in LOST (R158). -/
def WatchRecord.tick (state : StationState) (r : WatchRecord) : WatchRecord :=
  if r.active ∧ state ≠ .lost then { r with countdown := r.countdown - 1 } else r

/-- An interval has ended and its end has not been taken (R158). -/
def State.intervalOwed (s : State) (n : Stn) : Bool := (s.watch n).active && (s.watch n).countdown == 0

/-- One station at a millisecond expiry. -/
def State.tickStation (n : Stn) (s : State) : State :=
  (s.modWatch n (WatchRecord.tick (s.st n).state)).modSt n Station.tick

/-- MILLISECOND_EXPIRY (R143): every running countdown decreases by one, every deferred mark is cleared. -/
def execMillisecondExpiry (s : State) : Answer :=
  if s.timerRuns = false then .refused .timerHalted
  else if allStations.any s.intervalOwed then .refused .intervalEndOwed
  else
    .next (((forStations State.tickStation s).modLs fun l =>
      { l with due := l.due.map fun e => { e with deferred := false } }).setElapsed 0)

/-- HOLD_DELAY_EXPIRY (R43, R41). Contexts stand still while the Interval Timer does (R49, R51, log 19). With an
operation under way the status half is asked for beside it (log 28). -/
def execHoldDelayExpiry (n : Stn) (s : State) : Answer :=
  if (s.st n).hold ≠ some 0 then .refused .countdownRunning
  else if s.timerRuns = false then .next s
  else if (s.st n).state = .engaged then
    .next (s.modSt n fun st => { st with hold := none, holdExpired := true })
  else if s.hasOp n then .next ((s.enterState n .ready).askBeside n).serveMemory
  else .next ((s.enterState n .ready).reportStatus n).serveMemory

/-- REREAD_EXPIRY (R19, R41). While SM works on the station, the end of that work clears or reloads the countdown,
or leaves it for a later REREAD_EXPIRY (log 19). -/
def execRereadExpiry (n : Stn) (s : State) : Answer :=
  if (s.st n).reread ≠ some 0 then .refused .countdownRunning
  else if s.timerRuns = false then .next s
  else if (s.st n).state = .engaged then
    .next (s.modSt n fun st => { st with reread := none, rereadOwed := true })
  else if s.rw.part = .stopping then .next (s.modSt n fun st => { st with reread := st.loadReread })
  else if s.hasOp n then .next s
  else .next (s.follow n .own).serveMemory

/-- The station is in its own PEEK turn (R159). -/
def State.inPeek (s : State) (n : Stn) : Bool :=
  match s.xe.turn with
  | some t => t.station == n && t.kind == .peek
  | none => false

/-- INTERVAL_END (R158, R159). Stations due by one expiry join in rising order (R138). FAULTED changes nothing
more (R157). -/
def execIntervalEnd (n : Stn) (s : State) : Answer :=
  if s.intervalOwed n = false then .refused .countdownRunning
  else if allStations.any fun m => decide (m < n) && s.intervalOwed m then .refused .lowerStationFirst
  else if s.rw.part = .faulted then .next s
  else
    let s' := s.modWatch n fun r => { r with countdown := (s.config n).watchInterval }
    .next (if s.inPeek n then s'.modWatch n fun r => { r with held := true } else s'.endInterval n)

end Sys2Proof.Machine
end

