-- ==== Sys2Proof/Machine/Dispatch.lean ====
section
/-! DEFINITION. From each command to its meaning. -/

namespace Sys2Proof.Machine

def exec (i : Instr) (s : State) : Host.Outcome State Fault Refusal :=
  match i with
  -- resets and register accesses
  | .powerOnReset cut => Sys2Proof.Machine.execPowerOnReset cut s
  | .deviceReset cut => Sys2Proof.Machine.execDeviceReset cut s
  | .runStart => Sys2Proof.Machine.execRunStart s
  | .runStop => Sys2Proof.Machine.execRunStop s
  | .linkRestart => Sys2Proof.Machine.execLinkRestart s
  | .noticeEn v => Sys2Proof.Machine.execNoticeEn v s
  | .faultEn v => Sys2Proof.Machine.execFaultEn v s
  | .statusWriteClear w => Sys2Proof.Machine.execStatusWriteClear w s
  | .dirbaseWrite w => Sys2Proof.Machine.execDirbaseWrite w s
  | .attentionWrite w => Sys2Proof.Machine.execAttentionWrite w s
  | .noticeRead => Sys2Proof.Machine.execNoticeRead s
  | .registerWriteIgnored offset enables w => Sys2Proof.Machine.execRegisterWriteIgnored offset enables w s
  -- the head attention entry
  | .bringUp => Sys2Proof.Machine.execBringUp s
  | .wake => Sys2Proof.Machine.execWake s
  | .pause => Sys2Proof.Machine.execPause s
  | .resume => Sys2Proof.Machine.execResume s
  | .withdraw => Sys2Proof.Machine.execWithdraw s
  | .revive => Sys2Proof.Machine.execRevive s
  | .takeDown => Sys2Proof.Machine.execTakeDown s
  -- ends of memory requests
  | .headerRead data => Sys2Proof.Machine.execHeaderRead data s
  | .configurationRead data => Sys2Proof.Machine.execConfigurationRead data s
  | .chainHeadRead data => Sys2Proof.Machine.execChainHeadRead data s
  | .linkRead data => Sys2Proof.Machine.execLinkRead data s
  | .blockRead data => Sys2Proof.Machine.execBlockRead data s
  | .takenWrite => Sys2Proof.Machine.execTakenWrite s
  | .resultWrite => Sys2Proof.Machine.execResultWrite s
  | .doneWrite => Sys2Proof.Machine.execDoneWrite s
  | .statusWrite => Sys2Proof.Machine.execStatusWrite s
  | .putRead data quiet => Sys2Proof.Machine.execPutRead data quiet s
  | .drain => Sys2Proof.Machine.execDrain s
  | .slotWrite => Sys2Proof.Machine.execSlotWrite s
  | .busError cut => Sys2Proof.Machine.execBusError cut s
  -- the line
  | .grant quiet => Sys2Proof.Machine.execGrant quiet s
  | .lineQuiet => Sys2Proof.Machine.execLineQuiet s
  | .lineBusyLimit => Sys2Proof.Machine.execLineBusyLimit s
  | .packetSent => Sys2Proof.Machine.execPacketSent s
  | .startDelimiter => Sys2Proof.Machine.execStartDelimiter s
  | .responseTimeout quiet => Sys2Proof.Machine.execResponseTimeout quiet s
  | .receptionEnd r quiet => Sys2Proof.Machine.execReceptionEnd r quiet s
  -- timers
  | .millisecondExpiry => Sys2Proof.Machine.execMillisecondExpiry s
  | .holdDelayExpiry n => Sys2Proof.Machine.execHoldDelayExpiry n s
  | .rereadExpiry n => Sys2Proof.Machine.execRereadExpiry n s
  | .intervalEnd n => Sys2Proof.Machine.execIntervalEnd n s
  -- link restart
  | .restartBreak => Sys2Proof.Machine.execRestartBreak s
  | .breakEnd => Sys2Proof.Machine.execBreakEnd s
  | .settlingEnd => Sys2Proof.Machine.execSettlingEnd s
  | .framingError => Sys2Proof.Machine.execFramingError s

end Sys2Proof.Machine
end

