-- ==== Sys2Proof/Safety.lean ====
section
/-! DEFINITION. What the model keeps at every step, and the vocabulary its statements are written in. -/

namespace Sys2Proof.Machine

/-! ### Invariants -/

/-- Host memory is in its canonical form. -/
def State.memoryCanonical (s : State) : Prop := s.mem.wf = true

/-- The attention queue holds at most 16 entries (R53). -/
def State.queueBounded (s : State) : Prop := s.au.length ≤ Config.queueCapacity

/-- A station ENGAGED is the station of the turn in progress, so that at most one is ENGAGED (R41), and the turn was
granted from another state than ENGAGED. -/
def State.oneEngaged (s : State) : Prop :=
  (∀ n, (s.st n).state = .engaged → s.xe.turn.map Turn.station = some n)
    ∧ ∀ t, s.xe.turn = some t → t.grantedFrom ≠ .engaged

/-- A FAULTED part at rest (R174, R88, R117, R182): MP has no request in progress, no restart is requested, and LP
drives a packet or break to its end or is IDLE with no send pending; the staging buffer holds no more than the packet
LP sends. -/
def State.faultedAtRest (s : State) : Prop :=
  s.rw.part = .faulted ∧ s.mp.inProgress = none ∧ s.rw.restartRequest = false
    ∧ ((s.lp.state = .idle ∧ s.lp.send = none) ∨ s.lp.state = .sending ∨ s.lp.state = .breaking)
    ∧ (s.sendsStaging = false → s.xe.staging = [])

/-- A safe run never reaches a fault: each command meets an operation or turn that waits for it, or is refused. -/
def State.stepsSafely (s : State) : Prop := ∀ f, step s ≠ .fault f

/-! ### Requests on their way -/

/-- The requests of SM: the one MP holds, then those not yet handed over. -/
def State.smRequests (s : State) : List Request := s.mp.sm.toList ++ s.sm.queue

/-- The slot writes of WU: the one MP holds, then those not yet handed over. -/
def State.wuRequests (s : State) : List Request := s.mp.wu.toList ++ s.wu.queue

/-- The state without its memory requests and the count of free choices. -/
def State.withoutRequests (s : State) : State :=
  (((s.modSm fun m => { m with queue := [] }).modWu fun w => { w with queue := [] }).modMp fun _ => .reset).setChoices 0

/-- `t` is `e` but that requests may have gone on: from SM and WU to MP, and from waiting to in progress. Every
request is still there, those of WU in their order. -/
def State.Served (e t : State) : Prop :=
  t.withoutRequests = e.withoutRequests ∧ t.smRequests.Perm e.smRequests ∧ t.wuRequests = e.wuRequests
    ∧ t.mp.xe = e.mp.xe ∧ (∀ q, e.mp.inProgress = some q → t.mp.inProgress = some q)

/-- No restart changes are under way or owed, no restart following is due, no cascade waits for its end, and the part
neither starts nor stops here: the end of an operation moves nothing else. -/
def State.calm (s : State) : Prop :=
  s.restartBusy = false ∧ s.sm.followDue = false ∧ (∀ t, s.xe.turn = some t → t.stage ≠ .cascade)
    ∧ (s.rw.part = .running ∨ (s.rw.part = .stopping ∧ s.atRest = false))

/-- MP has `r`, of kind `k`, in progress. -/
def State.inProgress (s : State) (k : RequestKind) (r : Request) : Prop := s.mp.current = some r ∧ r.kind = k

/-- The read in progress has ended. -/
def State.afterRead (s : State) : State := s.modMp MemoryPort.release

/-- The write `r` in progress has ended complete: its bytes are in memory. -/
def State.afterWrite (s : State) (r : Request) : State :=
  (s.setMem (s.mem.store r.address.toNat r.data)).modMp MemoryPort.release

/-! ### Operations of SM -/

/-- SM has the operation `o` under way for station `n`. -/
def State.working (s : State) (n : Stn) (o : Operation) : Prop := (s.st n).op = some o

/-- The station's context is what `f` makes of it, with the application at its last step: result `result`, status
half written (R55, R35). -/
def State.concluded (n : Stn) (result : AttentionResult) (f : Station → Station) (s : State) : State :=
  (s.modSt n fun st =>
    { f st with
      lastResult := result
      op := some ⟨.application, .final, st.parked, false, false, st.snapshot⟩ }).askStatus n

/-- The command by which SM applies an entry of that action. -/
def Action.command : Action → Instr
  | .bringUp => .bringUp | .wake => .wake | .pause => .pause | .resume => .resume | .withdraw => .withdraw
  | .revive => .revive | .takeDown => .takeDown

/-- The actions refused in each state (section 3.2). -/
def Action.refusedIn : Action → List StationState
  | .bringUp => [.idle, .ready, .holding, .paused, .halted, .lost]
  | .wake => [.absent, .lost]
  | .pause => [.absent, .halted, .lost]
  | .resume => [.absent, .idle, .ready, .holding, .lost]
  | .withdraw => [.absent]
  | .revive => [.absent, .idle, .ready, .holding, .paused, .halted]
  | .takeDown => [.absent]

/-- A station's countdowns and what they left recorded, as they stand in a state that runs neither. -/
def Station.withoutCountdowns (st : Station) : Station :=
  { st with hold := none, reread := none, holdExpired := false, rereadOwed := false }

/-- The operation `o` asks for its next candidate: a link read of `predecessor`, or a chain head read (R9, R10). -/
def State.asksCandidate (n : Stn) (predecessor : Option Addr) (s : State) : State :=
  match predecessor with
  | some p => s.askSm .linkRead (some n) p 4 []
  | none => s.askSm .chainHeadRead (some n) (s.header.dirbase + BitVec.ofNat 32 (64 + 64 * n.val) + 0x0C#32) 4 []

/-- The entry `e` at the head of the attention queue may be taken (R53, R54). -/
def State.headReady (s : State) (n : Stn) (a : Action) (rest : List Entry) : Prop :=
  s.au = ⟨n, a⟩ :: rest ∧ s.mayApply n = true

/-- The answers each request admits (the table of R74). -/
def admittedAnswers : PacketKind → List PacketKind
  | .order => [.accept, .hold, .refuse]
  | .put => [.accept, .hold, .refuse, .finish]
  | .fetch => [.data, .finish, .hold, .refuse]
  | .ask => [.report, .hold, .refuse]
  | .peek => [.state, .hold, .refuse]
  | .opening | .sync => [.accept]
  | _ => []

end Sys2Proof.Machine
end

