-- ==== Sys2Proof/WellFormed.lean ====
section
/-! DEFINITION. Which commands are well formed: the lengths of what a read returns or a packet carries, and the ranges of the operands. -/

namespace Sys2Proof

/-- At most the 32 aligned units that a 256-byte unaligned request touches precede the one that fails. -/
def Cut.wellFormed (c : Cut) : Bool := c.full ≤ 32

/-- Well-formedness of a command, from the spans of R168 and section 12.3, 12.4. -/
def Instr.wellFormed : Instr → Bool
  | .powerOnReset c | .deviceReset c => c.wellFormed
  | .registerWriteIgnored offset enables _ => ignoredWrite offset enables
  | .headerRead d => d.length == 64
  | .configurationRead d => d.length == 32
  | .chainHeadRead d => d.length == 4
  | .linkRead d => d.length == 4
  | .blockRead d => d.length == 64
  | .putRead d _ => 1 ≤ d.length && d.length ≤ 256
  | .busError c => c.wellFormed
  | .receptionEnd (.framed p) _ => p.framedRight
  | .receptionEnd (.broken _) _ => true
  | .runStart | .runStop | .linkRestart | .noticeEn _ | .faultEn _ | .statusWriteClear _ | .dirbaseWrite _
  | .attentionWrite _ | .noticeRead | .bringUp | .wake | .pause | .resume | .withdraw | .revive | .takeDown
  | .takenWrite | .resultWrite | .doneWrite | .statusWrite | .drain | .slotWrite | .grant _ | .lineQuiet
  | .lineBusyLimit | .packetSent | .startDelimiter | .responseTimeout _ | .millisecondExpiry
  | .holdDelayExpiry _ | .rereadExpiry _ | .intervalEnd _ | .restartBreak | .breakEnd | .settlingEnd
  | .framingError => true

end Sys2Proof
end

