-- ==== Sys2Proof/Certificates/Slice0/Obligations.lean ====
section
/-! DEFINITION. The statements for the provers. -/

open Sys2Proof Sys2Proof.Machine

/-! ### The step, resets, registers -/

/-- A step takes the command at the front of the queue and runs it on the state with the queue's rest; an empty
queue idles (log 2). -/
def Obligations.StepRunsFrontCommand : Prop :=
  (∀ (c : Instr) (rest : List Instr) (s : State), s.pending = c :: rest → step s = exec c (s.setPending rest))
    ∧ ∀ s : State, s.pending = [] → step s = .next s

/-- Every station context after either reset (R48). The clauses on host memory after a write in progress take how far
it got from the operand `cut`: the model's choice (log 17). -/
def Obligations.ResetContexts : Prop :=
  ∀ (c : Instr) (cut : Cut) (s : State), (c = .powerOnReset cut ∨ c = .deviceReset cut) →
    ∃ t, exec c s = .next t
      ∧ (∀ n : Stn,
        (t.st n).state = .absent ∧ (t.st n).config = none ∧ (t.st n).inFlight = none ∧ (t.st n).parked = none
          ∧ (t.st n).code = .clear ∧ (t.st n).wakePending = false ∧ (t.st n).resyncPending = false
          ∧ (t.st n).restartFollow = false ∧ (t.st n).putParity = false ∧ (t.st n).getParity = false
          ∧ (t.st n).retireCount = 0#16 ∧ (t.st n).lapses = 0 ∧ (t.st n).lastCondition = .clean
          ∧ (t.st n).lastResult = .applied ∧ (t.st n).hold = none ∧ (t.st n).reread = none
          ∧ (t.st n).totalHolds = 0 ∧ (t.st n).totalFailed = 0)
      ∧ (s.mp.current = none → t.mem = s.mem)
      ∧ (∀ r, s.mp.current = some r → t.mem = r.land cut s.mem)
      ∧ (∀ r, s.mp.current = some r → r.kind.isWrite = false → t.mem = s.mem)

/-- The registers and every block after either reset (R183, R69, R134, R89, R147, R157, R87, R167, R143), with what
no reset touches. That the model's own `readData` is kept is its choice (log 16). -/
def Obligations.ResetRegistersAndBlocks : Prop :=
  ∀ (c : Instr) (cut : Cut) (s : State), (c = .powerOnReset cut ∨ c = .deviceReset cut) →
    ∃ t, exec c s = .next t
      ∧ t.rw.dirbase = (if c = .powerOnReset cut then 0#32 else s.rw.dirbase)
      ∧ t.controlWord = 0#32 ∧ t.statusWord = 0#32 ∧ t.readRegister 0x18 = 0#32
      ∧ t.readRegister 0x00 = 0x4B560001#32
      ∧ t.rw.part = .stopped ∧ t.rw.restartRequest = false ∧ t.latched = none ∧ t.interruptOutput = false
      ∧ t.au = [] ∧ t.nu.position = 0 ∧ (∀ n, t.nu.flags.get n = false)
      ∧ t.sm.queue = [] ∧ (∀ n, (t.st n).op = none)
      ∧ t.ls.rotation = 63 ∧ t.ls.due = [] ∧ t.xe.turn = none ∧ t.xe.staging = [] ∧ (∀ b, t.route b = .unknown)
      ∧ (∀ n, (t.watch n).active = false ∧ (t.watch n).due = false ∧ (t.watch n).last = none
          ∧ (t.watch n).changes = 0#32 ∧ (t.watch n).missed = 0 ∧ (t.watch n).status = .nothing
          ∧ (t.watch n).held = false)
      ∧ t.wu.queue = [] ∧ t.lp.state = .idle ∧ t.lp.send = none ∧ t.lp.responseTimer = none
      ∧ t.lp.busyTimer = none ∧ t.lp.breakTimer = none ∧ t.lp.settleTimer = none ∧ t.driveEnable = false
      ∧ t.mp.sm = none ∧ t.mp.xe = none ∧ t.mp.wu = none ∧ t.mp.inProgress = none ∧ t.mp.last = .wu
      ∧ t.itElapsed = 0 ∧ t.pending = s.pending ∧ t.readData = s.readData

/-- NOTICE_EN and FAULT_EN take the values written, in every part state, and change nothing else (R179). -/
def Clauses.EnablesTakeWrittenValue : Prop :=
  ∀ (v : Bool) (s : State),
    exec (.noticeEn v) s = .next { s with rw := { s.rw with noticeEn := v } }
      ∧ exec (.faultEn v) s = .next { s with rw := { s.rw with faultEn := v } }

/-- A STATUS write clears each of ATTN_LOST, ATTN_BAD and HEADER_FAULT written as 1, in every part state, and
nothing else: not PORT_FAULT, part state or queue count (R184). -/
def Clauses.StatusWriteClearsStickies : Prop :=
  ∀ (w : Word) (s : State),
    exec (.statusWriteClear w) s = .next { s with rw := { s.rw with
      attnLost := if w.getLsbD 16 then false else s.rw.attnLost
      attnBad := if w.getLsbD 17 then false else s.rw.attnBad
      headerFault := if w.getLsbD 18 then false else s.rw.headerFault } }

/-- DIRBASE is written only while the part is STOPPED, exactly as written (R178). -/
def Clauses.DirbaseWriteOnlyInStopped : Prop :=
  ∀ (w : Word) (s : State),
    (s.rw.part = .stopped → exec (.dirbaseWrite w) s = .next { s with rw := { s.rw with dirbase := w } })
      ∧ (s.rw.part ≠ .stopped → exec (.dirbaseWrite w) s = .next s)

/-- An ATTENTION write, in every part state (R52, R53): the action code 0 sets ATTN_BAD; any other joins the tail of
a queue of fewer than 16 entries, and meeting a queue of 16 is lost and sets ATTN_LOST. Bits outside the station
number (5 to 0) and the action code (10 to 8) are ignored. -/
def Obligations.AttentionWriteJoinsQueue : Prop :=
  ∀ (w : Word) (s : State),
    (attentionCode w = 0 → exec (.attentionWrite w) s = .next { s with rw := { s.rw with attnBad := true } })
      ∧ (∀ a, Action.ofCode (attentionCode w) = some a → s.au.length < 16 →
        exec (.attentionWrite w) s = .next { s with au := s.au ++ [⟨attentionStation w, a⟩] })
      ∧ (attentionCode w ≠ 0 → 16 ≤ s.au.length →
        exec (.attentionWrite w) s = .next { s with rw := { s.rw with attnLost := true } })
      ∧ (attentionCode w ≠ 0 ↔ ∃ a, Action.ofCode (attentionCode w) = some a)
      ∧ (attentionStation w).val = w.toNat % 64
      ∧ attentionCode w = w.toNat / 256 % 8
      ∧ [1, 2, 3, 4, 5, 6, 7].map Action.ofCode
        = [.bringUp, .wake, .pause, .resume, .withdraw, .revive, .takeDown].map some

/-- R66: a NOTICE read takes the first flagged station from the take position upwards, wrapping, in every part state;
with no flag it returns EMPTY and changes nothing. A write to NOTICE has no effect. The value returned is held in
the model's own `readData`. -/
def Obligations.NoticeReadTakes : Prop :=
  (∀ (s : State) (n : Stn), s.nu.flags.get n = true →
      (∀ m : Stn, s.nu.flags.get m = true → (n - s.nu.position).val ≤ (m - s.nu.position).val) →
      exec .noticeRead s = .next { s with
        nu := ⟨s.nu.flags.set n.val false n.isLt, if n = 63 then 0 else n + 1⟩
        readData := BitVec.ofNat 32 (n.val + 65536 * ((List.finRange 64).countP fun m =>
          m != n && s.nu.flags.get m)) })
    ∧ (∀ s : State, (∀ n, s.nu.flags.get n = false) →
      exec .noticeRead s = .next { s with readData := 0x8000#32 })
    ∧ (∀ (s : State) (enables : BitVec 4) (w : Word), exec (.registerWriteIgnored 0x14 enables w) s = .next s)
    ∧ (∀ (sets : Nat → List Stn) (run : Nat → State) (n : Stn), (run 0).nu.flags.get n = true →
      (∀ k, exec .noticeRead ((sets k).foldl (fun s m => s.setNotice m) (run k)) = .next (run (k + 1))) →
      ∃ k < 64, (run (k + 1)).readData.toNat % 65536 = n.val)

/-- R68: the interrupt output is a level. -/
def Obligations.InterruptOutputIsLevel : Prop :=
  ∀ s : State, s.interruptOutput = true ↔
    ((∃ n, s.nu.flags.get n = true) ∧ s.rw.noticeEn = true)
      ∨ ((s.rw.attnLost = true ∨ s.rw.attnBad = true ∨ s.rw.headerFault = true ∨ s.rw.portFault = true)
        ∧ s.rw.faultEn = true)

/-- REGISTER_WRITE_IGNORED changes nothing, in every part state (R177); the writes it stands for are those with fewer
than four byte enables and those at the offsets of IDENT, NOTICE, FAULT_ADDR and of no register. -/
def Clauses.IgnoredWritesChangeNothing : Prop :=
  ∀ (offset : Nat) (enables : BitVec 4) (w : Word) (s : State),
    exec (.registerWriteIgnored offset enables w) s = .next s
      ∧ ((Instr.registerWriteIgnored offset enables w).wellFormed = true ↔
        offset ∈ [0x00, 0x04, 0x08, 0x0C, 0x10, 0x14, 0x18, 0x1C]
          ∧ (enables ≠ 15#4 ∨ offset ∈ [0x00, 0x14, 0x18, 0x1C]))

/-- The registers as read, in every state (R177, R178, R179, R184; positions of section 12.2): IDENT, CONTROL with its
self-clearing controls 0, STATUS, DIRBASE, ATTENTION 0, NOTICE as a take returns it, FAULT_ADDR, and 0 elsewhere. A
read returns the bytes it addresses, and a 64-bit read those of two registers; that the other byte lanes carry 0 is
the model's choice (log 33). -/
def Clauses.RegistersAsRead : Prop :=
  ∀ s : State,
    s.readRegister 0x00 = 0x4B560001#32 ∧ s.readRegister 0x0C = s.rw.dirbase ∧ s.readRegister 0x18 = s.rw.faultAddr
      ∧ (∀ offset, offset ∉ [0x00, 0x04, 0x08, 0x0C, 0x14, 0x18] → s.readRegister offset = 0#32)
      ∧ (∀ t, exec .noticeRead s = .next t → s.readRegister 0x14 = t.readData)
      ∧ (∀ i < 32, (s.readRegister 0x04).getLsbD i =
        if i = 0 then s.rw.run else if i = 1 then s.rw.noticeEn else if i = 2 then s.rw.faultEn else false)
      ∧ (s.au.length ≤ 16 → (s.readRegister 0x08).toNat % 2 ^ 8 = s.rw.part.code
        ∧ (s.readRegister 0x08).toNat / 2 ^ 8 % 2 ^ 8 = s.au.length
        ∧ ∀ i < 16, (s.readRegister 0x08).getLsbD (16 + i) =
          if i = 0 then s.rw.attnLost else if i = 1 then s.rw.attnBad else if i = 2 then s.rw.headerFault
          else if i = 3 then s.rw.portFault else false)
      ∧ [PartState.stopped, .starting, .running, .stopping, .faulted].map PartState.code = [0, 1, 2, 3, 4]
      ∧ (∀ (offset : Nat) (enables : BitVec 4), ∀ i < 32,
        (s.readBytes offset enables).getLsbD i = (enables.getLsbD (i / 8) && (s.readRegister offset).getLsbD i))
      ∧ (∀ (offset : Nat) (enables : BitVec 8), ∀ i < 64,
        (s.readBytes64 offset enables).getLsbD i =
          (enables.getLsbD (i / 8) && (s.readRegister (offset / 8 * 8 + 4 * (i / 32))).getLsbD (i % 32)))

/-- The commands an access stands for (R177, R179, R66): a 64-bit access is two 32-bit accesses of its aligned unit,
and a read has an effect at NOTICE only. That the commands of one access stand together in the queue, and that a half
with no byte enabled takes nothing, is the model's choice (log 1, log 31). -/
def Clauses.AccessesMakeCommands : Prop :=
  ∀ (cut : Cut) (offset : Nat) (enables : BitVec 4) (enables64 : BitVec 8) (w : Word) (w64 : BitVec 64),
    (ignoredWrite offset enables = true → commandsOfWrite cut offset enables w = [.registerWriteIgnored offset enables w])
      ∧ commandsOfWrite cut 0x08 15#4 w = [.statusWriteClear w] ∧ commandsOfWrite cut 0x0C 15#4 w = [.dirbaseWrite w]
      ∧ commandsOfWrite cut 0x10 15#4 w = [.attentionWrite w]
      ∧ (w.getLsbD 31 = true → commandsOfWrite cut 0x04 15#4 w = [.deviceReset cut])
      ∧ (w.getLsbD 31 = false → commandsOfWrite cut 0x04 15#4 w =
        [.noticeEn (w.getLsbD 1), .faultEn (w.getLsbD 2)] ++ (if w.getLsbD 8 = true then [.linkRestart] else [])
          ++ [if w.getLsbD 0 = true then .runStart else .runStop])
      ∧ commandsOfWrite64 cut offset enables64 w64 =
        commandsOfWrite cut (offset / 8 * 8) (enables64.extractLsb' 0 4) (w64.extractLsb' 0 32)
          ++ commandsOfWrite cut (offset / 8 * 8 + 4) (enables64.extractLsb' 4 4) (w64.extractLsb' 32 32)
      ∧ commandsOfRead offset enables = (if offset = 0x14 ∧ enables ≠ 0#4 then [.noticeRead] else [])
      ∧ commandsOfRead64 offset enables64 =
        commandsOfRead (offset / 8 * 8) (enables64.extractLsb' 0 4)
          ++ commandsOfRead (offset / 8 * 8 + 4) (enables64.extractLsb' 4 4)

/-- Host accesses: writes of CONTROL's enables, of STATUS, of DIRBASE, those that R177 ignores, the registers as read,
and the commands an access stands for. -/
def Obligations.HostRegisterAccesses : Prop :=
  Clauses.EnablesTakeWrittenValue
    ∧ Clauses.StatusWriteClearsStickies
    ∧ Clauses.DirbaseWriteOnlyInStopped
    ∧ Clauses.IgnoredWritesChangeNothing
    ∧ Clauses.RegistersAsRead
    ∧ Clauses.AccessesMakeCommands

/-! ### Start, stop, link restart -/

/-- RUN written as 1 (R180, R181, check 1 of R29). -/
def Obligations.RunStartStartsStoppedPart : Prop :=
  ∀ s : State,
    (s.rw.part ≠ .stopped → exec .runStart s = .next { s with rw := { s.rw with run := true } })
      ∧ (s.rw.part = .stopped → s.xe.turn = none → s.restartBusy = false → s.sm.followDue = false →
        s.rw.dirbase.toNat % 64 = 0 → s.rw.dirbase.toNat + 4160 ≤ 2 ^ 32 →
          ∃ t, exec .runStart s = .next t
            ∧ State.Served (State.askSm .headerRead none s.rw.dirbase 64 []
              { s with rw := { s.rw with run := true, part := .starting, headerPassed := false } }) t)
      ∧ (s.rw.part = .stopped → s.xe.turn = none → s.restartBusy = false → s.sm.followDue = false →
        ¬(s.rw.dirbase.toNat % 64 = 0 ∧ s.rw.dirbase.toNat + 4160 ≤ 2 ^ 32) →
          ∃ t, exec .runStart s = .next t
            ∧ State.Served { s with rw := { s.rw with
              run := false, part := .stopped, headerPassed := false, headerFault := true
              faultAddr := s.rw.dirbase } } t)
      ∧ (s.rw.part = .stopped → s.xe.turn = none → s.anyJob (· == .restart) = true →
          ∃ t, exec .runStart s = .next t ∧ t.rw.part = .stopped ∧ t.rw.run = true)

/-- RUN written as 0 (R181): a RUNNING part is STOPPING while a turn, an operation of SM, a requested restart or its
context changes are under way or owed, and else STOPPED; restart followings that are due are not made. That a lone
status half write of SM's own is such an operation is read by inference (log 28), as R181 does not name it. -/
def Obligations.RunStopStopsRunningPart : Prop :=
  ∀ s : State,
    (s.rw.part ≠ .running → exec .runStop s = .next { s with rw := { s.rw with run := false } })
      ∧ (s.rw.part = .running →
        exec .runStop s = .next (State.settle { s with rw := { s.rw with run := false, part := .stopping } }))
      ∧ (s.rw.part = .running → s.restartBusy = false →
        (∀ t, s.xe.turn = some t → t.stage ≠ .cascade) →
        (s.xe.turn ≠ none ∨ (∃ n o, s.working n o) ∨ s.rw.restartRequest = true) →
          ∃ t, exec .runStop s = .next t
            ∧ State.Served { s with
              rw := { s.rw with run := false, part := .stopping }, sm := { s.sm with followDue := false } } t)
      ∧ (s.rw.part = .running →
        ((∃ n o, s.working n o ∧ o.job = .restart) ∨ (∃ n, (s.st n).restartOwed = true ∧ (s.st n).state ≠ .absent)
          ∨ (s.sm.restartPending = true ∧ ∃ n, (s.st n).state ≠ .absent)) →
          ∃ t, exec .runStop s = .next t ∧ t.rw.part = .stopping ∧ t.rw.run = false)
      ∧ (s.rw.part = .running → s.restartBusy = false →
        s.xe.turn = none → (∀ n o, ¬s.working n o) → s.rw.restartRequest = false →
          ∃ t, exec .runStop s = .next t
            ∧ State.Served { s with
              rw := { s.rw with run := false, part := .stopped }, sm := { s.sm with followDue := false } } t)

/-- What carrying a restart out changes at once (R86, R144): the request is done with, every route is UNKNOWN, LP
drives the break of 2 ms, the context changes are called for, and no followings of an earlier restart stay due. -/
def restartCarriedOut (s : State) : State :=
  { s with
    rw := { s.rw with restartRequest := false }
    rm := .replicate 8 .unknown
    lp := { s.lp with state := .breaking, breakTimer := some 2 }
    sm := { s.sm with restartPending := true, followDue := false } }

/-- LINK_RESTART written as 1 (R182, R54): requested in RUNNING, with a note whether an application is under way;
carried out at once in STOPPED; no effect elsewhere, in BREAK and SETTLING, and after a request that still waits. The
clause with `restartBusy` in RUNNING is the model's choice (log 13). -/
def Clauses.LinkRestartJudgedByPartState : Prop :=
  ∀ s : State,
    ((s.rw.part = .starting ∨ s.rw.part = .stopping ∨ s.rw.part = .faulted) → exec .linkRestart s = .next s)
      ∧ ((s.lp.state = .breaking ∨ s.lp.state = .settling) → exec .linkRestart s = .next s)
      ∧ (s.rw.part = .running → (s.restartBusy = true ∨ s.rw.restartRequest = true) → exec .linkRestart s = .next s)
      ∧ (s.rw.part = .running → s.lp.state ≠ .breaking → s.lp.state ≠ .settling → s.restartBusy = false →
        s.rw.restartRequest = false →
          exec .linkRestart s = .next { s with rw := { s.rw with restartRequest := true, restartHolds := s.applying } })
      ∧ (s.rw.part = .stopped → s.lp.state ≠ .breaking → s.lp.state ≠ .settling →
          exec .linkRestart s = .next (restartCarriedOut s).settle)
      ∧ (s.applying = true ↔ ∃ n o, s.working n o ∧ o.job = .application)

/-- RESTART_BREAK: a requested restart waits for the turn in progress, and is carried out when there is none (R144,
R182, R86). With none requested it has no effect (log 14). -/
def Clauses.RequestedRestartCarriedOut : Prop :=
  ∀ s : State,
    (s.rw.restartRequest = true → s.xe.turn ≠ none → exec .restartBreak s = .next s)
      ∧ (s.rw.restartRequest = true → s.xe.turn = none →
          exec .restartBreak s = .next (restartCarriedOut s).settle)
      ∧ (s.rw.restartRequest = false → exec .restartBreak s = .next s)

/-- A link restart: judged at the write, carried out when no turn is in progress. -/
def Obligations.LinkRestartJudgedThenCarriedOut : Prop :=
  Clauses.LinkRestartJudgedByPartState ∧ Clauses.RequestedRestartCarriedOut

/-- The break ends after its 2 ms: SETTLING for 5 ms, or IDLE at once in a FAULTED part (R86, R87, R88). Settling
ends after its 5 ms: IDLE, and in a RUNNING part the restart followings are due (R50). In any other state of LP
there is nothing to end, and the commands have no effect (log 14). -/
def Obligations.BreakAndSettlingEnd : Prop :=
  ∀ s : State,
    (s.lp.state = .breaking → s.rw.part ≠ .faulted →
        exec .breakEnd s = .next { s with
          lp := { s.lp with state := .settling, breakTimer := none, settleTimer := some 5 } })
      ∧ (s.lp.state = .breaking → s.rw.part = .faulted → exec .breakEnd s = .next { s with lp := .reset })
      ∧ (s.lp.state ≠ .breaking → exec .breakEnd s = .next s)
      ∧ (s.lp.state = .settling → s.rw.part = .running →
        exec .settlingEnd s = .next (State.settle { s with lp := .reset, sm := { s.sm with followDue := true } }))
      ∧ (s.lp.state = .settling → s.rw.part ≠ .running → exec .settlingEnd s = .next { s with lp := .reset })
      ∧ (s.lp.state ≠ .settling → exec .settlingEnd s = .next s)

/-- What a restart changes in one station's context: steps 1 to 8 of R50. The changes are owed no longer from the
moment they begin: those of a second restart, carried out while they run, follow them, the model's choice (log 13). -/
def Clauses.RestartChangesOneContext : Prop :=
  ∀ (s : State) (n : Stn),
    (∀ f, (s.st n).inFlight = some f → f.phase ≠ .nothing →
      s.beginRestart n = ((s.startOp n .restart .final).modSt n fun st =>
        { st with restartOwed := false }).retireInFlight n .abandoned 0 noReport .restart)
    ∧ (∀ retired : Bool,
        (retired = false → (∀ f, (s.st n).inFlight = some f → f.phase = .nothing) →
          s.beginRestart n = ((s.startOp n .restart .final).modSt n fun st =>
            { st with restartOwed := false }).endRestart n false)
        ∧ (((s.st n).state ≠ .ready ∧ (s.st n).state ≠ .holding) →
          s.endRestart n retired = ((s.modSt n fun st =>
            { st with
              putParity := false, getParity := false, resyncPending := false
              hold := none, holdExpired := false }).setStage n .final).askStatus n)
        ∧ (((s.st n).state = .ready ∨ (s.st n).state = .holding) → (s.st n).inFlight ≠ none →
          s.endRestart n retired = ((s.modSt n fun st =>
            { st with
              putParity := false, getParity := false, resyncPending := false, state := .ready
              hold := none, reread := none, holdExpired := false, rereadOwed := false }).setStage n .final).askStatus n)
        ∧ (((s.st n).state = .ready ∨ (s.st n).state = .holding) → (s.st n).inFlight = none →
          s.endRestart n retired = ((s.modSt n fun st =>
            { st with
              putParity := false, getParity := false, resyncPending := false, state := .idle
              hold := none, reread := st.loadReread, holdExpired := false, rereadOwed := false
              restartFollow := retired || st.restartFollow }).setStage n .final).askStatus n))

/-- Once a restart is carried out, its changes begin at once for every station that is not ABSENT and that SM has no
operation for, and are owed to the others until their operation ends, in RUNNING, STOPPING and STOPPED (R50, R181,
R182). An application that was under way at the request holds them all (R54); one begun after it only those of its
own station, and a station that is ABSENT when owed changes would begin gets none (by inference, log 32). That any
operation of SM counts, a lone status half write included, is read by inference too (log 11, log 28). -/
def Clauses.RestartChangesBegin : Prop :=
  ∀ (s : State) (n : Stn), s.xe.turn = none →
    (s.sm.restartPending = true → s.rw.restartHolds = true → s.applying = true →
        s.settle.sm.restartPending = true ∧ s.settle.rw.restartHolds = true ∧ s.settle.st n = s.st n)
      ∧ (s.rw.part ∈ [.running, .stopping, .stopped] → (s.st n).state ≠ .engaged →
        (s.sm.restartPending = true → (s.rw.restartHolds = false ∨ s.applying = false) →
            s.settle.sm.restartPending = false ∧ s.settle.rw.restartHolds = false
            ∧ ((s.st n).state = .absent → (s.st n).restartOwed = false → (s.st n).restartFollow = false →
              s.settle.st n = s.st n)
            ∧ ((s.st n).state ≠ .absent → (s.st n).op = none →
              s.settle.st n = ((s.modSt n fun st => { st with restartOwed := true }).beginRestart n).st n)
            ∧ ((s.st n).state ≠ .absent → (s.st n).op ≠ none →
              s.settle.st n = { s.st n with restartOwed := true }))
          ∧ (s.sm.restartPending = false → (s.st n).restartOwed = true →
            ((s.st n).op ≠ none → s.settle.st n = s.st n)
            ∧ ((s.st n).op = none → (s.st n).state ≠ .absent → s.settle.st n = (s.beginRestart n).st n)
            ∧ ((s.st n).op = none → (s.st n).state = .absent → (s.st n).restartFollow = false →
              s.settle.st n = { s.st n with restartOwed := false })))

/-- The restart followings (R49, R50): due at the end of settling in RUNNING, or at a start, each station whose flag
is set is followed from IDLE; in PAUSED, HALTED or LOST its flag is cleared. For a station that SM has another
operation under way for they stay due: the model's choice (log 29). -/
def Clauses.RestartFollowingsMade : Prop :=
  ∀ (s : State) (n : Stn), s.sm.followDue = true → s.restartBusy = false → s.xe.turn = none →
    (s.rw.part = .running ∨ s.rw.part = .starting) → (s.st n).restartFollow = true →
      ((s.st n).op = none → (s.st n).state = .idle → s.settle.st n = (s.follow n .own).st n)
        ∧ ((s.st n).op = none → (s.st n).state ∈ [.paused, .halted, .lost] →
          s.settle.st n = { s.st n with restartFollow := false })
        ∧ ((s.st n).op ≠ none → s.settle.st n = s.st n ∧ s.settle.sm.followDue = true)

/-- The context changes and followings of a link restart (R50). -/
def Obligations.RestartChangesAndFollowings : Prop :=
  Clauses.RestartChangesOneContext ∧ Clauses.RestartChangesBegin ∧ Clauses.RestartFollowingsMade

/-- The header read (R29, R180): a legal header that fits every station not ABSENT is latched with DIRBASE, and every
route table entry becomes UNKNOWN; any other is a header fault. -/
def Clauses.HeaderReadJudgesHeader : Prop :=
  ∀ (s : State) (r : Request) (data : List Byte),
    s.inProgress .headerRead r → data.length = r.length → s.rw.part = .starting →
      (headerLegal data (.ofHeader s.rw.dirbase data) = true → s.headerFitsAll (.ofHeader s.rw.dirbase data) = true →
        exec (.headerRead data) s = .next (State.settle { s.afterRead with
          latched := some (.ofHeader s.rw.dirbase data)
          rm := .replicate 8 .unknown
          rw := { s.rw with headerPassed := true }
          sm := { s.sm with followDue := s.rw.run } }))
      ∧ (¬(headerLegal data (.ofHeader s.rw.dirbase data) = true
          ∧ s.headerFitsAll (.ofHeader s.rw.dirbase data) = true) →
        exec (.headerRead data) s = .next (State.settle { s.afterRead with
          rw := { s.rw with
            part := .stopped, run := false, headerFault := true, headerPassed := false
            faultAddr := s.rw.dirbase } }))

/-- What makes a header legal, field by field (R28, checks 3 to 7 of R29; offsets of section 12.4). -/
def Clauses.HeaderChecks : Prop :=
  ∀ (dirbase : Addr) (d : List Byte) (s : State),
    ∃ l : Latched, l = .ofHeader dirbase d
      ∧ l.dirbase = dirbase ∧ l.linkRate = (byteAt d 4).toNat ∧ l.lapseLimit = (byteAt d 5).toNat
      ∧ l.holdDelay = (byteAt d 6).toNat ∧ l.responseTimeout = (byteAt d 7).toNat
      ∧ l.branchCount = (byteAt d 8).toNat ∧ l.watchPage = leWord d 12
      ∧ (24 ≤ d.length → ∀ b < 8, l.branchAddresses[b]? = some (byteAt d (16 + b)).toNat)
      ∧ (headerLegal d l = true ↔
        leField d 0 4 = 0x4B4C4449 ∧ l.linkRate ≤ 3 ∧ 8 ≤ l.responseTimeout ∧ 1 ≤ l.holdDelay
          ∧ 1 ≤ l.lapseLimit ∧ l.lapseLimit ≤ 15 ∧ l.branchCount ≤ 8
          ∧ (∀ a ∈ l.branchAddresses.take l.branchCount, 1 ≤ a ∧ a ≤ 119)
          ∧ (l.branchAddresses.take l.branchCount).Nodup
          ∧ (l.watchPage = 0#32 ∨ (l.watchPage.toNat % 16 = 0 ∧ l.watchPage.toNat + 1024 ≤ 2 ^ 32)))
      ∧ (s.headerFitsAll l = true ↔ ∀ n : Stn, (s.st n).state ≠ .absent →
        (∀ b p, (s.config n).route = .branch b p → b.val < l.branchCount)
          ∧ (s.config n).linkAddress ∉ l.branchAddresses.take l.branchCount
          ∧ ((s.config n).watchInterval ≠ 0 → l.watchPage ≠ 0#32))

/-- The header read and what makes a header legal. -/
def Obligations.HeaderReadLatchesOrFaults : Prop :=
  Clauses.HeaderReadJudgesHeader ∧ Clauses.HeaderChecks

/-- A STOPPING part with nothing under way is STOPPED, and starts again when RUN is set, or ends in a header fault; a
STOPPED part with RUN set starts so once the context changes of a restart are complete, with all they had under way; a
STARTING part whose header passed, whose followings are done, is RUNNING, or STOPPED with RUN clear (R180, R181). That
a RUN cleared during the followings of a start ends in STOPPED after them is the model's inference (log 20). -/
def Obligations.PartStateStepsOn : Prop :=
  ∀ s : State, s.xe.turn = none → (∀ n o, ¬s.working n o) → s.restartBusy = false →
    (s.rw.part = .stopping → s.rw.restartRequest = false → s.rw.run = false →
        State.Served { s with rw := { s.rw with part := .stopped }, sm := { s.sm with followDue := false } } s.settle)
      ∧ (s.rw.part = .stopping → s.rw.restartRequest = false → s.rw.run = true → dirbaseLegal s.rw.dirbase = true →
        State.Served (State.askSm .headerRead none s.rw.dirbase 64 []
          { s with
            rw := { s.rw with part := .starting, headerPassed := false }
            sm := { s.sm with followDue := false } }) s.settle)
      ∧ (s.rw.part = .stopping → s.rw.restartRequest = false → s.rw.run = true → dirbaseLegal s.rw.dirbase = false →
        State.Served { s with
          rw := { s.rw with
            part := .stopped, run := false, headerFault := true, headerPassed := false, faultAddr := s.rw.dirbase }
          sm := { s.sm with followDue := false } } s.settle)
      ∧ (s.rw.part = .stopped → s.rw.run = true → dirbaseLegal s.rw.dirbase = true →
        State.Served (State.askSm .headerRead none s.rw.dirbase 64 []
          { s with
            rw := { s.rw with part := .starting, headerPassed := false }
            sm := { s.sm with followDue := false } }) s.settle)
      ∧ (s.rw.part = .stopped → s.rw.run = true → dirbaseLegal s.rw.dirbase = false →
        State.Served { s with
          rw := { s.rw with
            part := .stopped, run := false, headerFault := true, headerPassed := false, faultAddr := s.rw.dirbase }
          sm := { s.sm with followDue := false } } s.settle)
      ∧ (s.rw.part = .stopped → s.rw.run = false →
        State.Served { s with sm := { s.sm with followDue := false } } s.settle)
      ∧ (s.rw.part = .starting → s.rw.headerPassed = true →
        (s.sm.followDue = false ∨ ∀ n, (s.st n).restartFollow = false) →
        State.Served { s with
          rw := { s.rw with part := if s.rw.run then .running else .stopped, headerPassed := false }
          sm := { s.sm with followDue := false } } s.settle)

/-! ### Attention entries -/

/-- When the head entry is taken and when it waits (R53, R54), and that no other entry is applied. It waits for a
restart requested while an application was under way, and, by inference, for one that no turn delays (log 25) and for
any operation of SM on its station, a lone status half write included (log 11, log 28). -/
def Clauses.HeadEntryWaits : Prop :=
  ∀ (s : State) (n : Stn) (a : Action) (rest : List Entry),
    (s.mayApply n = true ↔
      s.rw.part = .running ∧ (s.st n).op = none ∧ (s.st n).state ≠ .engaged ∧ s.restartBusy = false
        ∧ ¬(s.rw.restartRequest = true ∧ (s.rw.restartHolds = true ∨ s.xe.turn = none)))
      ∧ (s.au = ⟨n, a⟩ :: rest → s.mayApply n = false → exec a.command s = .next s)
      ∧ (s.au = ⟨n, a⟩ :: rest → ∀ b : Action, b ≠ a → exec b.command s = .refused .noSuchHead)
      ∧ (s.au = [] → ∀ b : Action, exec b.command s = .refused .noSuchHead)

/-- A refused entry, of each action in each state that refuses it (R55, section 3.2): the last attention result is
REFUSED, the status half is written, and nothing else of the context changes. -/
def Clauses.RefusedEntryChangesResultOnly : Prop :=
  ∀ (s : State) (n : Stn) (a : Action) (rest : List Entry), s.headReady n a rest → (s.st n).state ∈ a.refusedIn →
    exec a.command s = .next (s.concluded n .refused id).serveMemory

/-- When the head entry waits, and what a refused entry does. -/
def Obligations.EntriesWaitOrAreRefused : Prop :=
  Clauses.HeadEntryWaits ∧ Clauses.RefusedEntryChangesResultOnly

/-- R57: WAKE. -/
def Clauses.WakeApplied : Prop :=
  ∀ (s : State) (n : Stn) (rest : List Entry), s.headReady n .wake rest →
    ((s.st n).state = .idle → exec .wake s = .next (s.follow n .application).serveMemory)
      ∧ ((s.st n).state ∈ [.ready, .holding, .paused, .halted] →
        exec .wake s = .next (s.concluded n .applied fun st => { st with wakePending := true }).serveMemory)
      ∧ ((s.st n).state ∈ [.absent, .lost] → exec .wake s = .next (s.concluded n .refused id).serveMemory)

/-- R58: PAUSE. -/
def Clauses.PauseApplied : Prop :=
  ∀ (s : State) (n : Stn) (rest : List Entry), s.headReady n .pause rest →
    ((s.st n).state ∈ [.idle, .ready, .holding] →
        exec .pause s = .next (s.concluded n .applied fun st =>
          { st.withoutCountdowns with state := .paused }).serveMemory)
      ∧ ((s.st n).state = .paused → exec .pause s = .next (s.concluded n .applied id).serveMemory)
      ∧ ((s.st n).state ∈ [.absent, .halted, .lost] →
        exec .pause s = .next (s.concluded n .refused id).serveMemory)

/-- R59: RESUME. -/
def Clauses.ResumeApplied : Prop :=
  ∀ (s : State) (n : Stn) (rest : List Entry), s.headReady n .resume rest →
    ((s.st n).state = .paused → ((s.st n).inFlight ≠ none ∨ (s.st n).resyncPending = true) →
        exec .resume s = .next (s.concluded n .applied fun st =>
          { st.withoutCountdowns with state := .ready }).serveMemory)
      ∧ ((s.st n).state = .paused → (s.st n).inFlight = none → (s.st n).resyncPending = false →
        exec .resume s = .next (s.follow n .application).serveMemory)
      ∧ ((s.st n).state = .halted → exec .resume s = .next (s.follow n .application).serveMemory)
      ∧ ((s.st n).state ∈ [.absent, .idle, .ready, .holding, .lost] →
        exec .resume s = .next (s.concluded n .refused id).serveMemory)

/-- WAKE, PAUSE and RESUME, applied and refused (R57, R58, R59). -/
def Obligations.WakePauseResumeApplied : Prop :=
  Clauses.WakeApplied ∧ Clauses.PauseApplied ∧ Clauses.ResumeApplied

/-- REVIVE of a LOST station (R63, R155): lapse count 0, resync pending, READY; a FAULTY entry of its branch becomes
UNKNOWN, and no other. -/
def Obligations.ReviveApplied : Prop :=
  ∀ (s : State) (n : Stn) (rest : List Entry), s.headReady n .revive rest → (s.st n).state = .lost →
    ∀ revived : State,
      (revived = State.concluded n .applied (fun st =>
        { st.withoutCountdowns with state := .ready, lapses := 0, resyncPending := true }) s) →
      ((s.config n).route = .direct → exec .revive s = .next revived.serveMemory)
        ∧ (∀ b p, (s.config n).route = .branch b p → s.route b ≠ .faulty →
          exec .revive s = .next revived.serveMemory)
        ∧ (∀ b p, (s.config n).route = .branch b p → s.route b = .faulty →
          exec .revive s = .next (revived.setRoute b .unknown).serveMemory)

/-- A following begins (R9, R10, R50): from the parked tail, or from the chain head field, which is read again. -/
def Obligations.FollowingBegins : Prop :=
  ∀ (s : State) (n : Stn) (job : Job),
    s.follow n job = (s.modSt n fun st =>
      { st with
        op := some ⟨job, .candidate, st.parked, false, false, st.snapshot⟩
        restartFollow := false, rereadOwed := false }).asksCandidate n (s.st n).parked

/-- WITHDRAW (R60): countdowns cleared; an in-flight block is retired ABANDONED, with resync pending set when its
phase is beyond NONE; without one the walk starts from the parked tail, or from the chain head. -/
def Obligations.WithdrawApplied : Prop :=
  ∀ (s : State) (n : Stn) (rest : List Entry), s.headReady n .withdraw rest → (s.st n).state ≠ .absent →
    ((s.st n).inFlight = none →
        exec .withdraw s = .next ((s.modSt n fun st =>
          { st.withoutCountdowns with
            op := some ⟨.application, .candidate, st.parked, true, false, st.snapshot⟩ }).asksCandidate n
              (s.st n).parked).serveMemory)
      ∧ (∀ f, (s.st n).inFlight = some f →
        exec .withdraw s = .next ((s.modSt n fun st =>
          { st.withoutCountdowns with
            resyncPending := if f.phase = .nothing then st.resyncPending else true
            op := some ⟨.application, .result ⟨f.address, true, f.host.notify, f.host.haltOnError, .abandoned, .withdraw⟩,
              st.parked, false, false, st.snapshot⟩ }).askSm .resultWrite (some n) (f.address + 0x40#32) 48
          (resultSection .abandoned f.phase f.attempts f.holds f.moved f.host.dataLength 0 (s.st n).retireCount
            noReport)).serveMemory)

/-- What TAKE_DOWN leaves of a context (steps 1, 4 and 5 of R64). -/
def takenDown (st : Station) : Station :=
  { st.withoutCountdowns with
    state := .absent, parked := none, wakePending := false, restartFollow := false, code := .clear, config := none }

/-- TAKE_DOWN (R64): an in-flight block is retired ABANDONED first; a watch is stopped and its slot written as NONE;
then the station is ABSENT with its chain forgotten. That WU does its part at once, while a slot write of its own for
another station is outstanding, is the model's choice (log 35). -/
def Obligations.TakeDownApplied : Prop :=
  ∀ (s : State) (n : Stn) (rest : List Entry), s.headReady n .takeDown rest → (s.st n).state ≠ .absent →
    ((s.st n).inFlight = none → (s.config n).watchInterval = 0 →
        exec .takeDown s = .next (s.concluded n .applied takenDown).serveMemory)
      ∧ ((s.st n).inFlight = none → (s.config n).watchInterval ≠ 0 →
        exec .takeDown s = .next (((((s.modSt n fun st =>
          { st.withoutCountdowns with
            op := some ⟨.application, .slotAtTakeDown, st.parked, false, false, st.snapshot⟩ }).leaveDue n).modWatch n
              fun _ => .reset).askSlot n 0).serveMemory))
      ∧ (∀ f, (s.st n).inFlight = some f →
        exec .takeDown s = .next ((s.modSt n fun st =>
          { st.withoutCountdowns with
            op := some ⟨.application, .result ⟨f.address, true, f.host.notify, f.host.haltOnError, .abandoned, .takeDown⟩,
              st.parked, false, false, st.snapshot⟩ }).askSm .resultWrite (some n) (f.address + 0x40#32) 48
          (resultSection .abandoned f.phase f.attempts f.holds f.moved f.host.dataLength 0 (s.st n).retireCount
            noReport)).serveMemory)

/-- BRING_UP of an ABSENT station asks for its configuration half (R56, R32), and CONFIGURATION_READ judges it: a
fault ends the application; a legal configuration sets the context up and following starts at the chain head read
with it. That WU does its part at once, while a slot write of its own for another station is outstanding, is the
model's choice (log 35). -/
def Clauses.BringUpReadsAndSetsUp : Prop :=
  ∀ (s : State) (n : Stn),
    (∀ rest, s.headReady n .bringUp rest → (s.st n).state = .absent →
        exec .bringUp s = .next ((s.modSt n fun st =>
          { st with op := some ⟨.application, .configuration, st.parked, false, false, st.snapshot⟩ }).askSm
            .configurationRead (some n) (s.header.dirbase + BitVec.ofNat 32 (64 + 64 * n.val)) 32 []).serveMemory)
      ∧ (∀ (o : Operation) (r : Request) (data : List Byte), s.inProgress .configurationRead r → r.station = some n →
        s.working n o → o.stage = .configuration → data.length = r.length →
          (s.legalConfig n data = none →
            exec (.configurationRead data) s = .next (State.settle ((s.afterRead.modSt n fun st =>
              { st with lastResult := .configFault, op := some { o with stage := .final } }).askStatus n)))
          ∧ (∀ c, s.legalConfig n data = some c → c.watchInterval = 0 →
            exec (.configurationRead data) s = .next (State.settle ((s.afterRead.modSt n fun st =>
              { st.withoutCountdowns with
                config := some c, putParity := false, getParity := false, resyncPending := true, retireCount := 0#16
                lapses := 0, lastCondition := .clean, totalHolds := 0, totalFailed := 0, wakePending := false
                restartFollow := false, inFlight := none, parked := none, code := .clear
                op := some { o with stage := .candidate, predecessor := none } }).examineAddress n (leWord data 0x0C))))
          ∧ (∀ c, s.legalConfig n data = some c → c.watchInterval ≠ 0 →
            exec (.configurationRead data) s = .next (State.settle (((((s.afterRead.modSt n fun st =>
              { st.withoutCountdowns with
                config := some c, putParity := false, getParity := false, resyncPending := true, retireCount := 0#16
                lapses := 0, lastCondition := .clean, totalHolds := 0, totalFailed := 0, wakePending := false
                restartFollow := false, inFlight := none, parked := none, code := .clear
                op := some { o with stage := .candidate, predecessor := none, slotDue := true } }).leaveDue n).modWatch n
                  fun _ => ⟨true, c.watchInterval, false, none, 0#32, 0, .nothing, false⟩).askSlot n
                    c.watchLength).examineAddress n (leWord data 0x0C)))))

/-- What makes a configuration legal, field by field (R31, checks 2 to 10 of R32; offsets of section 12.4). -/
def Clauses.ConfigurationChecks : Prop :=
  ∀ (s : State) (n : Stn) (d : List Byte) (c : StationConfig),
    s.legalConfig n d = some c ↔
      (c.linkAddress = (byteAt d 0).toNat ∧ c.maxPacketCode = (byteAt d 4).toNat
          ∧ c.attemptLimit = (byteAt d 5).toNat ∧ c.holdLimit = (byteAt d 6).toNat
          ∧ c.rereadInterval = (byteAt d 7).toNat ∧ c.watchInterval = leField d 8 2
          ∧ c.watchLength = (byteAt d 10).toNat ∧ c.watchNotify = (byteAt d 11).getLsbD 0)
        ∧ (1 ≤ c.linkAddress ∧ c.linkAddress ≤ 119)
        ∧ c.linkAddress ∉ s.header.branchAddresses.take s.header.branchCount
        ∧ (((byteAt d 1).toNat = 0 ∧ c.route = .direct)
          ∨ ((byteAt d 1).toNat = 1 ∧ (byteAt d 2).toNat < s.header.branchCount
            ∧ c.route = .branch (Fin.ofNat 8 (byteAt d 2).toNat) (Fin.ofNat 8 (byteAt d 3).toNat)))
        ∧ (∀ m : Stn, m ≠ n → (s.st m).state ≠ .absent →
          ¬((s.config m).linkAddress = c.linkAddress ∧ (s.config m).route = c.route))
        ∧ c.maxPacketCode ≤ 4 ∧ (1 ≤ c.attemptLimit ∧ c.attemptLimit ≤ 15) ∧ c.watchInterval ≤ 4095
        ∧ (c.watchInterval ≠ 0 → 1 ≤ c.watchLength ∧ c.watchLength ≤ 8 ∧ s.header.watchPage ≠ 0#32)
        ∧ (leWord d 12 = 0#32 ∨ (leWord d 12).toNat % 128 = 0)

/-- BRING_UP, its configuration read, and what makes a configuration legal. -/
def Obligations.BringUpReadsConfiguration : Prop :=
  Clauses.BringUpReadsAndSetsUp ∧ Clauses.ConfigurationChecks

/-! ### Following, walk, retirement -/

/-- CHAIN_HEAD_READ and LINK_READ hand the word read to SM as the candidate address; rows 1 and 2 of R11 and of R61
are judged on the address alone, and any other address has its block read. -/
def Clauses.CandidateAddressExamined : Prop :=
  ∀ (s : State) (n : Stn) (o : Operation) (a : Addr), s.working n o →
    (∀ (r : Request) (data : List Byte), s.mp.current = some r → r.station = some n → o.stage = .candidate →
      data.length = r.length → a = leWord data 0 →
        (r.kind = .chainHeadRead →
          exec (.chainHeadRead data) s = .next (State.settle (s.afterRead.examineAddress n a)))
        ∧ (r.kind = .linkRead →
          exec (.linkRead data) s = .next (State.settle (s.afterRead.examineAddress n a))))
      ∧ (a = 0#32 → o.walk = false → s.examineAddress n a = s.park n .clear)
      ∧ (a = 0#32 → o.walk = true → s.examineAddress n a = s.endWalk n .clear)
      ∧ (a.toNat % 128 ≠ 0 → o.walk = false → s.examineAddress n a = s.faultFollowing n .chainFault)
      ∧ (a.toNat % 128 ≠ 0 → o.walk = true → s.examineAddress n a = s.endWalk n .chainFault)
      ∧ (a ≠ 0#32 → a.toNat % 128 = 0 →
        s.examineAddress n a = (s.modSt n fun st => { st with op := some { o with stage := .block a } }).askSm
          .blockRead (some n) a 64 [])

/-- Parking, with its wake pending check (R14), and the chain faults of a following (R15), the end of a walk (R61,
R62). -/
def Clauses.ParkFaultAndWalkEnd : Prop :=
  ∀ (s : State) (n : Stn) (o : Operation) (code : ChainCode), s.working n o →
    ((s.st n).wakePending = true →
        s.park n code = (s.modSt n fun st =>
          { st with wakePending := false, op := some { o with stage := .candidate } }).asksCandidate n o.predecessor)
      ∧ ((s.st n).wakePending = false →
        s.park n code = (s.modSt n fun st => { st with code := code, parked := o.predecessor }).endFollowing n
          (if (s.st n).resyncPending then .ready else .idle))
      ∧ s.faultFollowing n code = (s.modSt n fun st =>
          { st with code := code, parked := o.predecessor }).endFollowing n .halted
      ∧ ((s.st n).state = .lost →
        s.endWalk n code = (s.modSt n fun st => { st with code := code }).finalApplication n .applied)
      ∧ ((s.st n).state ≠ .lost →
        s.endWalk n code = (s.modSt n fun st => { st with
          code := code, state := if st.resyncPending then .ready else .idle, hold := none
          reread := if st.resyncPending then none else st.loadReread, holdExpired := false
          rereadOwed := false }).finalApplication n .applied)

/-- A candidate address, and the ends of a following or walk. -/
def Obligations.CandidateExaminedOrParked : Prop :=
  Clauses.CandidateAddressExamined ∧ Clauses.ParkFaultAndWalkEnd

/-- BLOCK_READ in a following: rows 4 to 8 of R11, and the malformed tests. -/
def Clauses.BlockReadInFollowing : Prop :=
  ∀ (s : State) (n : Stn) (o : Operation) (r : Request) (data : List Byte) (a : Addr) (h : HostPart),
    s.inProgress .blockRead r → r.station = some n → s.working n o → o.stage = .block a → o.walk = false →
    data.length = r.length → h = .ofBlock data →
      (leField data 4 4 ∉ [1, 2, 3] →
        exec (.blockRead data) s = .next (State.settle (s.afterRead.park n .draftSeen)))
      ∧ (leField data 4 4 ∈ [2, 3] →
        exec (.blockRead data) s = .next (State.settle (s.afterRead.faultFollowing n .chainFault)))
      ∧ (leField data 4 4 = 1 → h.malformed = true →
        exec (.blockRead data) s = .next (State.settle (s.afterRead.retireFound n a h .malformed .following)))
      ∧ (leField data 4 4 = 1 → h.malformed = false → h.kind = some .mark →
        exec (.blockRead data) s = .next (State.settle (s.afterRead.retireFound n a h .clean .following)))
      ∧ (leField data 4 4 = 1 → h.malformed = false → h.kind = some .stoppoint →
        exec (.blockRead data) s = .next (State.settle (s.afterRead.retireFound n a h .clean .stoppoint)))
      ∧ (leField data 4 4 = 1 → h.malformed = false → (h.kind = some .exchange ∨ h.kind = some .resync) →
        exec (.blockRead data) s = .next (State.settle ((s.afterRead.modSt n fun st =>
          { st with op := some { o with stage := .taken a h } }).askSm .takenWrite (some n) (a + 4#32) 4
            [2#8, 0#8, 0#8, 0#8])))
      ∧ (h.malformed = true ↔
        h.kind = none ∨ (h.kind = some .exchange ∧ (h.orderLength = 0 ∨ 32 < h.orderLength))
          ∨ (h.direction = .nothing ∧ h.dataLength ≠ 0) ∨ (h.direction ≠ .nothing ∧ h.dataLength = 0)
          ∨ 2 ^ 32 < h.dataAddress.toNat + h.dataLength)

/-- BLOCK_READ in a WITHDRAW walk: rows 4 to 6 of R61. -/
def Clauses.BlockReadInWalk : Prop :=
  ∀ (s : State) (n : Stn) (o : Operation) (r : Request) (data : List Byte) (a : Addr),
    s.inProgress .blockRead r → r.station = some n → s.working n o → o.stage = .block a → o.walk = true →
    data.length = r.length →
      (leField data 4 4 ∉ [1, 2, 3] →
        exec (.blockRead data) s = .next (State.settle (s.afterRead.endWalk n .draftSeen)))
      ∧ (leField data 4 4 ∈ [2, 3] →
        exec (.blockRead data) s = .next (State.settle (s.afterRead.endWalk n .chainFault)))
      ∧ (leField data 4 4 = 1 →
        exec (.blockRead data) s = .next (State.settle
          (s.afterRead.retireFound n a (.ofBlock data) .abandoned .walk)))

/-- The block read of a candidate, in a following and in a walk. -/
def Obligations.BlockReadDecidesByRow : Prop :=
  Clauses.BlockReadInFollowing ∧ Clauses.BlockReadInWalk

/-- The host part of a block, from the 64 bytes of its block read (R2, R5, section 12.3). -/
def Obligations.HostPartFields : Prop :=
  ∀ (d : List Byte) (h : HostPart), h = .ofBlock d →
    h.link = leWord d 0
      ∧ (h.kind = match (byteAt d 8).toNat with
          | 1 => some .exchange | 2 => some .resync | 3 => some .mark | 4 => some .stoppoint | _ => none)
      ∧ h.notify = (byteAt d 9).getLsbD 0 ∧ h.haltOnError = (byteAt d 9).getLsbD 1
      ∧ h.acceptShort = (byteAt d 9).getLsbD 2
      ∧ (h.direction = match (byteAt d 10).toNat with | 1 => .toStation | 2 => .fromStation | _ => .nothing)
      ∧ h.orderLength = (byteAt d 11).toNat ∧ h.tag.toNat = leField d 12 2 ∧ h.dataAddress = leWord d 16
      ∧ h.dataLength = leField d 20 3 ∧ (64 ≤ d.length → ∀ i < 32, h.orderBytes[i]? = some (byteAt d (32 + i)))
      ∧ (h.orderPayload = leBytes h.tag.toNat 2 ++ leBytes h.direction.code 1 ++ leBytes h.dataLength 3
          ++ h.orderBytes.take h.orderLength)

/-- TAKEN_WRITE: the block is in flight with the record of R12, and the following ends in READY. -/
def Obligations.TakenWritePutsBlockInFlight : Prop :=
  ∀ (s : State) (n : Stn) (o : Operation) (r : Request) (a : Addr) (h : HostPart),
    s.inProgress .takenWrite r → r.station = some n → s.working n o → o.stage = .taken a h →
      exec .takenWrite s = .next (State.settle (((s.afterWrite r).modSt n fun st =>
        { st with inFlight := some ⟨a, h, .nothing, 0, 0, 0, h.dataAddress⟩, parked := none
                  code := .clear }).endFollowing n .ready))

/-- A retirement's first step: the result section's write, with the values of R8 (R7, R20). -/
def Clauses.RetirementWritesResult : Prop :=
  ∀ (s : State) (n : Stn) (o : Operation) (condition : Condition), s.working n o →
    (∀ (a : Addr) (h : HostPart) (after : After),
      s.retireFound n a h condition after = (s.modSt n fun st =>
        { st with op := some { o with stage := .result ⟨a, false, h.notify, h.haltOnError, condition, after⟩ } }).askSm
          .resultWrite (some n) (a + 0x40#32) 48
          (resultSection condition .nothing 0 0 0 h.dataLength 0 (s.st n).retireCount (List.replicate 16 0#8)))
      ∧ (∀ (f : InFlight) (residue : Nat) (report : List Byte) (after : After), (s.st n).inFlight = some f →
        s.retireInFlight n condition residue report after = (s.modSt n fun st =>
          { st with op := some { o with
              stage := .result ⟨f.address, true, f.host.notify, f.host.haltOnError, condition, after⟩ } }).askSm
            .resultWrite (some n) (f.address + 0x40#32) 48
            (resultSection condition f.phase f.attempts f.holds f.moved f.host.dataLength residue
              (s.st n).retireCount report))

/-- RESULT_WRITE and DONE_WRITE: steps 3 to 5 of R20. -/
def Clauses.RetirementSteps : Prop :=
  ∀ (s : State) (n : Stn) (o : Operation) (r : Request) (x : Retirement), r.station = some n → s.working n o →
    (s.inProgress .resultWrite r → o.stage = .result x →
        exec .resultWrite s = .next (((s.afterWrite r).modSt n fun st =>
          { st with op := some { o with stage := .done x } }).askSm .doneWrite (some n) (x.block + 4#32) 4
            [3#8, 0#8, 0#8, 0#8]).serveMemory)
      ∧ (s.inProgress .doneWrite r → o.stage = .done x →
        exec .doneWrite s = .next (((s.afterWrite r).modSt n fun st =>
          { st with
            retireCount := st.retireCount + 1#16, lastCondition := x.condition, parked := some x.block
            inFlight := if x.inFlight then none else st.inFlight
            op := some { o with stage := .status x } }).askStatus n).serveMemory)

/-- A retirement: its three writes and what each changes (R20, R8). -/
def Obligations.RetirementWritesInOrder : Prop :=
  Clauses.RetirementWritesResult ∧ Clauses.RetirementSteps

/-- STATUS_WRITE of a retirement (steps 6 and 7 of R20): the notice, then the continuation of R21, of R62 and R64, of
R46 and of R50. The write is the retirement's own, not one beside it (log 28). That WU takes a watch down at once, while a slot
write of its own for another station is outstanding, is the model's choice (log 35). The lapse limit is judged by a mark of the turn and the lapse count (R132; by inference, log 23). -/
def Obligations.RetirementContinues : Prop :=
  ∀ (s u : State) (n : Stn) (o : Operation) (r : Request) (x : Retirement),
    s.inProgress .statusWrite r → r.station = some n → s.working n o → o.stage = .status x →
    (r.beside = false ∨ (s.st n).holdReport = false) →
    u = (if x.notify then (s.afterWrite r).setNotice n else s.afterWrite r) →
      (x.after = .turn → u.lapsedOut n = true →
        exec .statusWrite s = .next (State.settle (u.enterLost n .turn)))
      ∧ (x.after = .turn → u.lapsedOut n = false → x.halts = true →
        exec .statusWrite s = .next (State.settle (((u.setNotice n).endOp n).finishTurn .halted)))
      ∧ (x.after = .turn → u.lapsedOut n = false → x.halts = false →
        exec .statusWrite s = .next (State.settle (u.follow n .turn)))
      ∧ (u.lapsedOut n = true ↔
        (∃ t, s.xe.turn = some t ∧ t.lapsed = true) ∧ s.header.lapseLimit ≤ (s.st n).lapses)
      ∧ (x.after = .following → x.halts = true →
        exec .statusWrite s = .next (State.settle (u.endFollowing n .halted)))
      ∧ ((x.after = .following ∧ x.halts = false) ∨ x.after = .walk →
        exec .statusWrite s = .next (State.settle ((u.modSt n fun st =>
          { st with op := some { o with stage := .candidate, predecessor := some x.block } }).asksCandidate n
            (some x.block))))
      ∧ (x.after = .stoppoint → exec .statusWrite s = .next (State.settle (u.endFollowing n .paused)))
      ∧ (x.after = .withdraw → exec .statusWrite s = .next (State.settle ((u.modSt n fun st =>
          { st with op := some { o with stage := .candidate, walk := true, predecessor := st.parked } }).asksCandidate n
            (s.st n).parked)))
      ∧ (x.after = .takeDown → (s.config n).watchInterval = 0 →
        exec .statusWrite s = .next (State.settle ((u.modSt n fun st =>
          { takenDown st with lastResult := .applied, op := some { o with stage := .final } }).askStatus n)))
      ∧ (x.after = .takeDown → (s.config n).watchInterval ≠ 0 →
        exec .statusWrite s = .next (State.settle ((((u.modSt n fun st =>
          { st with op := some { o with stage := .slotAtTakeDown } }).leaveDue n).modWatch n fun _ => .reset).askSlot n
            0)))
      ∧ (x.after = .lost → exec .statusWrite s = .next (State.settle (u.lostTail n)))
      ∧ (x.after = .restart → exec .statusWrite s = .next (State.settle (u.endRestart n true)))
      ∧ (x.halts = true ↔ x.condition ≠ .clean ∧ (x.haltOnError = true ∨ x.condition = .refused))

/-- STATUS_WRITE that ends an operation: the end of an application takes the head entry from the queue (R53); then an
owed entry into LOST is made if the station is neither ABSENT nor LOST (R153). After a status half that SM wrote of
its own, a recorded re-read expiry is taken, and an outcome of the station's turn that has waited (R170). By inference
(log 28): the status half of a hold delay that ended beside the operation lets the operation go on, and one still
being written at the operation's end is waited for, as one of SM's own, before SM's next step. -/
def Obligations.FinalStatusWriteEndsOperation : Prop :=
  ∀ (s u v : State) (r : Request) (n : Stn) (o : Operation), s.inProgress .statusWrite r → r.station = some n →
    s.working n o →
    u = (if o.job = .application then (s.afterWrite r).setAu s.au.tail else s.afterWrite r) →
    v = (u.modSt n fun st => { st with op := none, owedLost := false }) →
      (r.beside = true → (s.st n).holdReport = true →
        exec .statusWrite s = .next ((s.afterWrite r).modSt n fun st => { st with holdReport := false }).serveMemory)
      ∧ (o.stage = .final → r.beside = false → (s.st n).holdReport = true →
        exec .statusWrite s = .next (State.settle (u.modSt n fun st =>
          { st with
            holdReport := false, op := some ⟨.report, .final, st.parked, false, false, st.snapshot⟩ })))
      ∧ (o.stage = .final → (s.st n).holdReport = false → (s.st n).owedLost = true → (s.st n).state ≠ .absent →
        (s.st n).state ≠ .lost →
        exec .statusWrite s = .next (State.settle (v.enterLost n (.lost true))))
      ∧ (o.stage = .final → (s.st n).holdReport = false →
        ((s.st n).owedLost = false ∨ (s.st n).state = .absent ∨ (s.st n).state = .lost) →
        (o.job ≠ .report → exec .statusWrite s = .next (State.settle v))
        ∧ (o.job = .report →
          (∀ t, s.xe.turn = some t → t.station ≠ n) → exec .statusWrite s = .next (State.settle (v.takeReread n)))
        ∧ (∀ t, o.job = .report → s.xe.turn = some t → t.station = n →
          exec .statusWrite s = .next (State.settle (v.takeReread n).takeOutcome)))

/-- Entry into LOST (R46): countdowns cleared, an in-flight block retired ABANDONED, then resync pending, the notice
flag, and the state LOST with its status half. -/
def Obligations.EntryIntoLost : Prop :=
  ∀ (s : State) (n : Stn) (job : Job),
    (∀ f, (s.st n).inFlight = some f →
        s.enterLost n job = (s.modSt n fun st =>
          { st.withoutCountdowns with op := some ⟨job, .result ⟨f.address, true, f.host.notify, f.host.haltOnError,
              .abandoned, .lost⟩, st.parked, false, false, st.snapshot⟩ }).askSm .resultWrite (some n)
            (f.address + 0x40#32) 48
            (resultSection .abandoned f.phase f.attempts f.holds f.moved f.host.dataLength 0 (s.st n).retireCount
              noReport))
      ∧ ((s.st n).inFlight = none →
        s.enterLost n job = ((s.modSt n fun st =>
          { st.withoutCountdowns with op := some ⟨job, .final, st.parked, false, false, st.snapshot⟩ }).lostTail n))
      ∧ (∀ o, s.working n o → o.job ≠ .turn →
        s.lostTail n = (((s.setNotice n).modSt n fun st =>
          { st.withoutCountdowns with
            resyncPending := true, state := .lost, op := some { o with stage := .final } }).askStatus n))
      ∧ (∀ o t, s.working n o → o.job = .turn → s.xe.turn = some t → t.stage ≠ .cascade →
        s.lostTail n = (((s.setNotice n).modSt n fun st =>
          { st with resyncPending := true, op := none }).finishTurn .lost))
      ∧ (∀ o t, s.working n o → o.job = .turn → s.xe.turn = some t → t.stage = .cascade →
        s.lostTail n = ((s.setNotice n).modSt n fun st => { st with resyncPending := true, op := none }))

/-- The end of a following (R16): every entry into HALTED sets the notice flag (R45); in a turn the turn ends; in an
application its last steps follow, the slot write of a BRING_UP waited for (R56): the status half is then written once,
with the values after both, by inference (log 9). Of SM's own, the station takes its state with its countdowns loaded
or cleared (R18, R43); when the state, in-flight block, parked tail or chain code changed, the status half is written
and SM waits for it (R35, R170); otherwise the operation ends, and with it what was owed is made (R153), once a status
half asked for beside it is written (by inference, log 28). -/
def Obligations.FollowingEnds : Prop :=
  ∀ (s u v : State) (n : Stn) (o : Operation) (new : StationState), s.working n o →
    u = (if new = .halted then s.setNotice n else s) →
    v = (u.modSt n fun st => st.enter new s.header.holdDelay) →
      (o.job = .turn → s.endFollowing n new = (u.modSt n fun st => { st with op := none }).finishTurn new)
      ∧ (o.job = .application → o.slotDue = false →
        s.endFollowing n new = (v.modSt n fun st =>
          { st with lastResult := .applied, op := some { o with stage := .final } }).askStatus n)
      ∧ (o.job = .application → o.slotDue = true →
        s.endFollowing n new = v.modSt n fun st => { st with op := some { o with stage := .slotAtBringUp } })
      ∧ (o.job = .own → (v.st n).snapshot ≠ o.began →
        s.endFollowing n new = (v.modSt n fun st =>
          { st with op := some ⟨.report, .final, st.parked, false, false, st.snapshot⟩ }).askStatus n)
      ∧ (o.job = .own → (v.st n).snapshot = o.began → (s.st n).holdReport = false → (s.st n).owedLost = false →
        s.endFollowing n new = v.modSt n fun st => { st with op := none })
      ∧ (o.job = .own → (v.st n).snapshot = o.began → (s.st n).holdReport = false → (s.st n).owedLost = true →
        new ≠ .absent → new ≠ .lost →
        s.endFollowing n new = (v.modSt n fun st => { st with op := none, owedLost := false }).enterLost n (.lost true))
      ∧ (o.job = .own → (v.st n).snapshot = o.began → (s.st n).holdReport = true →
        s.endFollowing n new = v.modSt n fun st =>
          { st with
            holdReport := false, op := some ⟨.report, .final, st.parked, false, false, st.snapshot⟩ })
      ∧ (∀ st : Station, st.enter new s.header.holdDelay = { st with
          state := new
          hold := if new = .holding then some s.header.holdDelay else none
          reread := if new = .idle then st.loadReread else none
          holdExpired := false, rereadOwed := false })
      ∧ (∀ st : Station, st.config = none → st.loadReread = none)
      ∧ (∀ (st : Station) (c : StationConfig), st.config = some c →
        st.loadReread = if c.rereadInterval = 0 then none else some c.rereadInterval)

/-- The end of a turn (R42, R35, R19, R159, R89, R90): the turn and the staging buffer are cleared; the station takes
its state, the countdowns running on through a watch turn; an interval end held during a PEEK is applied; the status
half is written if it differs from the last one written, and then SM waits for it (R170; by inference, log 28). A
re-read expiry met is followed once nothing is left to write, or while not RUNNING the countdown is reloaded. -/
def Obligations.TurnEnds : Prop :=
  ∀ (s u v : State) (t : Turn) (n : Stn) (result : StationState), s.xe.turn = some t → n = t.station →
    u = (if t.kind = .peek ∧ result = t.grantedFrom then
        { s with xe := ⟨none, []⟩ }.modSt n fun st => { st with state := result, holdExpired := false }
      else { s with xe := ⟨none, []⟩ }.modSt n fun st => st.enter result s.header.holdDelay) →
    v = (if t.kind = .peek ∧ (u.watch n).held = true then
        (u.modWatch n fun r => { r with held := false }).endInterval n else u) →
      ((v.st n).lastStatus = some (v.st n).statusHalf → s.finishTurn result = v.takeReread n)
      ∧ ((v.st n).lastStatus ≠ some (v.st n).statusHalf → s.finishTurn result = (v.modSt n fun st =>
          { st with op := some ⟨.report, .final, st.parked, false, false, st.snapshot⟩ }).askStatus n)
      ∧ (¬((v.st n).rereadOwed = true ∧ (v.st n).state = .idle) → v.takeReread n = v)
      ∧ ((v.st n).rereadOwed = true → (v.st n).state = .idle → v.rw.part = .running →
        v.takeReread n = v.follow n .own)
      ∧ ((v.st n).rereadOwed = true → (v.st n).state = .idle → v.rw.part ≠ .running →
        v.takeReread n = v.modSt n fun st => { st with rereadOwed := false, reread := st.loadReread })
      ∧ (∀ (st : Station) (held : Bool), t.stateAfter held st =
        if t.kind = .peek then if t.grantedFrom = .holding ∧ st.holdExpired = true then .ready else t.grantedFrom
        else if held = true then .holding else .ready)

/-! ### The grant and the line -/

/-- GRANT (R136, R135, R89, R90, R140): when its conditions hold and a station is chosen, the station is ENGAGED, the
working state set up, the rotation moved but for a watch turn; a PUT turn opens with its read (R102), every other
with its send (R91). An ORDER turn opens with the ORDER payload staged, every other with nothing (R90, R100). When
they do not hold, nothing changes. -/
def Obligations.GrantMadeWhenConditionsHold : Prop :=
  ∀ (s : State) (quiet : Bool),
    (s.grantOpen = true ↔
      s.rw.part = .running ∧ s.xe.turn = none ∧ s.lp.state = .idle ∧ s.rw.restartRequest = false
        ∧ s.restartBusy = false)
      ∧ (s.grantOpen = false → exec (.grant quiet) s = .next s)
      ∧ (s.grantOpen = true → s.chooseGrant = none → exec (.grant quiet) s = .next s)
      ∧ (∀ (n : Stn) (k : TurnKind) (f : InFlight), s.grantOpen = true → s.chooseGrant = some (n, k) → k = .put →
        (s.st n).inFlight = some f →
        exec (.grant quiet) s = .next (State.serveMemory (State.askXe .putRead n f.cursor (s.turnSize n .put) []
          ({ s with
            xe := ⟨some ⟨n, .put, false, false, 0, s.turnSize n .put, (s.st n).state, .putRead, false⟩, []⟩
            ls := { s.ls with rotation := n } }.modSt n fun st => { st with state := .engaged }))))
      ∧ (∀ (n : Stn) (k : TurnKind), s.grantOpen = true → s.chooseGrant = some (n, k) → k ≠ .put →
        exec (.grant quiet) s = .next (State.serveMemory (State.beginSending quiet
          ({ s with
            xe := ⟨some ⟨n, k, false, false, 0, s.turnSize n k, (s.st n).state, .request, false⟩,
              s.firstStaging n k⟩
            ls := { s.ls with rotation := if k = TurnKind.peek then s.ls.rotation else n } }.modSt n fun st =>
              { st with state := .engaged }))))
      ∧ (∀ (n : Stn) (f : InFlight), (s.st n).inFlight = some f → s.firstStaging n .order = f.host.orderPayload)
      ∧ (∀ (n : Stn) (k : TurnKind), k ≠ .order → s.firstStaging n k = [])

/-- Which station is chosen, the kind of its turn and its size (R137, R139, R140, R141, R102, R104, R160). What SM does for a station that holds
it back is read by inference (log 11, log 28). -/
def Obligations.GrantChoosesStation : Prop :=
  ∀ s : State,
    (∀ (before after : List DueEntry) (e : DueEntry), s.ls.due = before ++ e :: after →
      (∀ x ∈ before, s.watchEligible x = false) → s.watchEligible e = true →
        s.chooseGrant = some (e.station, .peek))
      ∧ (∀ n : Stn, (∀ x ∈ s.ls.due, s.watchEligible x = false) → s.exchangeEligible n = true →
        (∀ m : Stn, s.exchangeEligible m = true →
          (n - (s.ls.rotation + 1)).val ≤ (m - (s.ls.rotation + 1)).val) →
        s.chooseGrant = (State.exchangeKind (s.st n)).map fun k => (n, k))
      ∧ ((∀ x ∈ s.ls.due, s.watchEligible x = false) → (∀ n, s.exchangeEligible n = false) → s.chooseGrant = none)
      ∧ (∀ e : DueEntry, s.watchEligible e = true ↔
        e.deferred = false ∧ s.free e.station = true
          ∧ (s.st e.station).state ∈ [.idle, .ready, .holding, .paused, .halted])
      ∧ (∀ n : Stn, s.exchangeEligible n = true ↔ (s.st n).state = .ready ∧ s.free n = true)
      ∧ (∀ n : Stn, s.free n = true ↔ (s.st n).op = none
        ∨ ∃ o, s.working n o ∧ o.job = .report ∧ (s.st n).owedLost = false
          ∧ (s.st n).rereadOwed = false ∧ (s.st n).restartFollow = false)
      ∧ (∀ st : Station,
        (st.resyncPending = true → State.exchangeKind st = some .sync)
          ∧ (∀ f, st.resyncPending = false → st.inFlight = some f → f.host.kind = some .resync →
            State.exchangeKind st = some .sync)
          ∧ (∀ f, st.resyncPending = false → st.inFlight = some f → f.host.kind = some .exchange →
            ((f.phase = .nothing ∨ f.phase = .order) → State.exchangeKind st = some .order)
              ∧ (f.phase = .data → f.host.direction = .toStation → State.exchangeKind st = some .put)
              ∧ (f.phase = .data → f.host.direction = .fromStation → State.exchangeKind st = some .fetch)
              ∧ (f.phase = .report → State.exchangeKind st = some .ask)))
      ∧ (∀ n f, (s.st n).inFlight = some f →
        s.turnSize n .put = min (16 * 2 ^ (s.config n).maxPacketCode) (f.host.dataLength - f.moved)
          ∧ s.turnSize n .fetch = min (16 * 2 ^ (s.config n).maxPacketCode) (f.host.dataLength - f.moved))
      ∧ (∀ n, s.turnSize n .peek = (s.config n).watchLength)

/-- What LP drives (R70, R71, R75, R87, R89, R186): while it is SENDING, the packet of the send asked for, with the
staging buffer as the payload of ORDER and PUT and the short payload of the others, and its bits in order; drive enable
in SENDING and in BREAK. -/
def Clauses.PacketOnLine : Prop :=
  ∀ (s : State) (p : Send),
    (s.lp.state = .sending → s.lp.send = some p → (p.kind = .order ∨ p.kind = .put) →
        s.packetOnLine = some (formPacket p.kind p.address p.parity s.xe.staging))
      ∧ (s.lp.state = .sending → s.lp.send = some p → p.kind ≠ .order → p.kind ≠ .put →
        s.packetOnLine = some (formPacket p.kind p.address p.parity p.short))
      ∧ ((s.lp.state ≠ .sending ∨ s.lp.send = none) → s.packetOnLine = none)
      ∧ s.bitsOnLine = s.packetOnLine.map lineBits
      ∧ (s.driveEnable = true ↔ s.lp.state = .sending ∨ s.lp.state = .breaking)

/-- What XE asks LP to send (R100, R103, R104, R109, R122, R149, R160), after RM's answer (R148): the packets, and
that the first send of an ORDER makes the phase ORDER (R93). -/
def Clauses.RequestInHand : Prop :=
  ∀ (s : State) (t : Turn),
    (∀ b p, (s.config t.station).route = .branch b p →
        (s.openNeeded t.station = if s.route b = .opened p then none else some (b, p))
          ∧ (t.opening = true → s.inHand t =
            ⟨.opening, BitVec.ofNat 7 (s.header.branchAddresses.getD b.val 0), false, [BitVec.ofNat 8 p.val]⟩))
      ∧ ((s.config t.station).route = .direct → s.openNeeded t.station = none)
      ∧ (t.opening = false → ∀ a : BitVec 7, a = BitVec.ofNat 7 (s.config t.station).linkAddress →
        (t.kind = .order → s.inHand t = ⟨.order, a, (s.st t.station).putParity, []⟩)
          ∧ (t.kind = .put → s.inHand t = ⟨.put, a, (s.st t.station).putParity, []⟩)
          ∧ (t.kind = .fetch → s.inHand t =
            ⟨.fetch, a, false, [BitVec.ofNat 8 t.size, BitVec.ofNat 8 (t.size / 256)]⟩)
          ∧ (t.kind = .ask → s.inHand t = ⟨.ask, a, false, []⟩)
          ∧ (t.kind = .sync → s.inHand t = ⟨.sync, a, false, []⟩)
          ∧ (t.kind = .peek → s.inHand t = ⟨.peek, a, false, [BitVec.ofNat 8 t.size]⟩))
      ∧ (∀ quiet, s.xe.turn = some t → s.beginSending quiet =
        State.sendRequest quiet { s with xe := { s.xe with
          turn := some { t with opening := (s.openNeeded t.station).isSome, attempts := 0 } } })
      ∧ (∀ (quiet : Bool) (u : State), s.xe.turn = some t →
        u = (if t.kind = .order ∧ t.opening = false then
            ({ s with xe := { s.xe with turn := some { t with stage := .request } } } : State).modSt t.station fun st =>
              { st with inFlight := st.inFlight.map fun f =>
                { f with phase := if f.phase = .nothing then .order else f.phase } }
          else { s with xe := { s.xe with turn := some { t with stage := .request } } }) →
          s.sendRequest quiet = { u with lp :=
            if quiet then { s.lp with state := .sending, send := some (s.inHand t), busyTimer := none }
            else { s.lp with send := some (s.inHand t), busyTimer := some 4000 } })

/-- What the part sends: the request in hand, and the packet on the line. -/
def Obligations.RequestInHandAndPacketOnLine : Prop := Clauses.RequestInHand ∧ Clauses.PacketOnLine

/-- LP's table (R75, R76, R77, R84, R87, R88): what each event of the line does. An event that the table leaves blank
or says is not received has no effect (log 14), but a quiet line under reception is a Gap (R77). -/
def Obligations.LinkPortEvents : Prop :=
  ∀ (s : State) (p : Send) (t : Turn) (quiet : Bool),
    (s.lp.state = .idle → s.lp.send = some p →
        exec .lineQuiet s = .next { s with lp := { s.lp with state := .sending, busyTimer := none } })
      ∧ (s.lp.state = .receiving → s.xe.turn = some t →
        exec .lineQuiet s = .next (State.settle (({ s with lp := .reset } : State).takeFinding t .garbled true)))
      ∧ ((s.lp.state ∈ [.sending, .awaiting, .breaking, .settling] ∨ (s.lp.state = .idle ∧ s.lp.send = none)) →
        exec .lineQuiet s = .next s)
      ∧ (s.lp.state = .idle → s.lp.send = some p → s.xe.turn = some t →
        exec .lineBusyLimit s = .next (State.settle (({ s with lp := .reset } : State).takeFinding t .noAnswer false)))
      ∧ ((s.lp.state ≠ .idle ∨ s.lp.send = none) → exec .lineBusyLimit s = .next s)
      ∧ (s.lp.state = .sending → s.lp.send = some p → s.rw.part ≠ .faulted → p.kind ≠ .accept →
        exec .packetSent s = .next { s with
          lp := { s.lp with state := .awaiting, responseTimer := some s.header.responseTimeout } })
      ∧ (s.lp.state = .sending → s.lp.send = some p → s.rw.part ≠ .faulted → p.kind = .accept → s.xe.turn = some t →
        exec .packetSent s = .next (State.settle (({ s with lp := .reset } : State).takeFinding t .sent false)))
      ∧ (s.lp.state = .sending → s.lp.send = some p → s.rw.part = .faulted →
        exec .packetSent s = .next { s with lp := .reset, xe := { s.xe with staging := [] } })
      ∧ ((s.lp.state ≠ .sending ∨ s.lp.send = none) → exec .packetSent s = .next s)
      ∧ (s.lp.state = .awaiting →
        exec .startDelimiter s = .next { s with lp := { s.lp with state := .receiving, responseTimer := none } })
      ∧ (s.lp.state ≠ .awaiting → exec .startDelimiter s = .next s)
      ∧ (s.lp.state = .awaiting → s.xe.turn = some t →
        exec (.responseTimeout quiet) s = .next (State.settle (({ s with lp := .reset } : State).takeFinding t .noAnswer quiet)))
      ∧ (s.lp.state ≠ .awaiting → exec (.responseTimeout quiet) s = .next s)

/-- The end of a reception (R77, R78): a well framed packet is checked and its finding handed over; a framing error
waits for the line to be quiet, and then is GARBLED. LP holds the header fields received and the mark `broken` in
between: the model's choice (log 7). Outside RECEIVING, and after a framing error, a packet is line activity only
(R84; log 14). -/
def Clauses.ReceptionsEnd : Prop :=
  ∀ (s : State) (t : Turn) (p : Packet) (h : Option PacketHeader) (r : Reception) (quiet : Bool),
    (s.lp.state = .receiving → s.lp.broken = false → p.payload.length = p.header.length.toNat → s.xe.turn = some t →
        exec (.receptionEnd (.framed p) quiet) s = .next (State.settle
          (({ s with lp := .reset } : State).takeFinding t (checkPacket (s.expected t) p) quiet)))
      ∧ (s.lp.state = .receiving → s.lp.broken = false →
        exec (.receptionEnd (.broken h) quiet) s = .next { s with lp := { s.lp with broken := true, rx := h } })
      ∧ ((s.lp.state ≠ .receiving ∨ s.lp.broken = true) → exec (.receptionEnd r quiet) s = .next s)
      ∧ (s.lp.state = .receiving → s.xe.turn = some t →
        exec .framingError s = .next (State.settle (({ s with lp := .reset } : State).takeFinding t .garbled true)))
      ∧ (s.lp.state ≠ .receiving → exec .framingError s = .next s)

/-- What the checks compare a packet with (R78, R79, R80): the kind, target address and parity of the request in hand,
the bytes it asks for, and the station's get parity. -/
def Clauses.PacketComparedWith : Prop :=
  ∀ (s : State) (t : Turn),
    s.expected t = ⟨(s.inHand t).kind, (s.inHand t).address, (s.inHand t).parity, t.size, (s.st t.station).getParity⟩

/-- The end of a reception, and what a packet is compared with. -/
def Obligations.ReceptionEnds : Prop := Clauses.ReceptionsEnd ∧ Clauses.PacketComparedWith

/-- The six checks, in their order (R78, R74, R79, R80). -/
def Obligations.PacketChecksInOrder : Prop :=
  ∀ (e : Expected) (p : Packet) (k : PacketKind),
    ((p.header.check ≠ headerCheck p.header ∨ p.crc ≠ payloadCrc p.payload) → checkPacket e p = .garbled)
      ∧ (p.header.check = headerCheck p.header → p.crc = payloadCrc p.payload →
        (p.header.address ≠ e.address → checkPacket e p = .stray)
          ∧ (p.header.address = e.address →
            ((PacketKind.ofCode p.header.kind.toNat = none
                ∨ (PacketKind.ofCode p.header.kind.toNat = some k ∧ admits e.request k = false)) →
              checkPacket e p = .wrongKind)
            ∧ (PacketKind.ofCode p.header.kind.toNat = some k → admits e.request k = true →
              (k = .accept → (e.request = .order ∨ e.request = .put) → p.header.parity ≠ e.parity →
                checkPacket e p = .sequence)
              ∧ ((k = .data ∨ k = .report) → p.header.parity ≠ e.getParity →
                checkPacket e p = .duplicate k p.header.parity p.payload.length)
              ∧ (k = .data → p.header.parity = e.getParity → e.size < p.payload.length →
                checkPacket e p = .overrun)
              ∧ (k = .report → p.header.parity = e.getParity → p.payload.length ≠ 16 →
                checkPacket e p = .reportFault p.header.parity)
              ∧ (k = .state → p.payload.length ≠ e.size → checkPacket e p = .wrongKind)
              ∧ (k ∈ [.hold, .refuse, .finish] → p.payload.length ≠ 0 → checkPacket e p = .wrongKind)
              ∧ (k = .accept → ¬((e.request = .order ∨ e.request = .put) ∧ p.header.parity ≠ e.parity) →
                p.payload.length ≠ 0 → checkPacket e p = .wrongKind)
              ∧ (((k = .data ∧ p.header.parity = e.getParity ∧ p.payload.length ≤ e.size)
                  ∨ (k = .report ∧ p.header.parity = e.getParity ∧ p.payload.length = 16)
                  ∨ (k = .state ∧ p.payload.length = e.size)
                  ∨ (k ∈ [.hold, .refuse, .finish] ∧ p.payload.length = 0)
                  ∨ (k = .accept ∧ ¬((e.request = .order ∨ e.request = .put) ∧ p.header.parity ≠ e.parity)
                    ∧ p.payload.length = 0)) →
                checkPacket e p = .answer k p.header.parity p.payload))))
      ∧ (admits e.request k = true ↔ k ∈ admittedAnswers e.request)

/-- A bit through a check register of eight or sixteen bits, written out bit by bit: what leaves at the top, added to
the next bit, is fed back into the places of the generator (R186). That the register is of this form is read by
inference (log 8). -/
def shiftedThrough {w : Nat} (taps : List Nat) (reg : BitVec w) (b : Bool) (i : Nat) : Bool :=
  ((decide (0 < i) && reg.getLsbD (i - 1)) ^^ (decide (i ∈ taps) && (reg.getLsbD (w - 1) ^^ b)))

/-- The check fields (R71, R186): the 21 header bits through a register of 8 bits from 0 with generator
x^8 + x^2 + x + 1, and the payload bits through one of 16 bits from 0xFFFF with generator x^16 + x^12 + x^5 + 1 and no
final inversion; the kind codes (R72). -/
def Clauses.CheckFields : Prop :=
  (∀ (reg : BitVec 8) (b : Bool), ∀ i < 8, (checkStep 0x07#8 reg b).getLsbD i = shiftedThrough [0, 1, 2] reg b i)
    ∧ (∀ (reg : BitVec 16) (b : Bool), ∀ i < 16,
      (checkStep 0x1021#16 reg b).getLsbD i = shiftedThrough [0, 5, 12] reg b i)
    ∧ (∀ h : PacketHeader, headerCheck h =
      ((List.range 4).map (fun i => h.kind.getLsbD (3 - i)) ++ (List.range 7).map (fun i => h.address.getLsbD (6 - i))
        ++ [h.parity] ++ (List.range 9).map (fun i => h.length.getLsbD (8 - i))).foldl (checkStep 0x07#8) 0#8)
    ∧ (∀ payload : List Byte, payloadCrc payload =
      (payload.flatMap fun b => (List.range 8).map fun i => b.getLsbD i).foldl (checkStep 0x1021#16) 0xFFFF#16)
    ∧ [PacketKind.order, .put, .fetch, .ask, .peek, .opening, .sync, .accept, .hold, .refuse, .data, .finish, .report,
        .state].map PacketKind.code = [1, 2, 3, 4, 5, 6, 7, 8, 9, 10, 11, 12, 13, 14]
    ∧ (∀ k c, PacketKind.ofCode c = some k ↔ k.code = c)

/-- The packets the part forms pass checks 1 and 2, are well framed, and carry what was asked for (R71, R186); the CRC
over no bytes is 0xFFFF. -/
def Clauses.FormedPacket : Prop :=
  ∀ (kind : PacketKind) (address : BitVec 7) (parity : Bool) (payload : List Byte) (p : Packet),
    p = formPacket kind address parity payload →
      p.header.check = headerCheck p.header ∧ p.crc = payloadCrc p.payload ∧ p.payload = payload
        ∧ p.header.address = address ∧ p.header.parity = parity
        ∧ PacketKind.ofCode p.header.kind.toNat = some kind
        ∧ (payload.length ≤ 256 → p.framedRight = true)
        ∧ packetPeriods p = 77 + 8 * payload.length
        ∧ payloadCrc [] = 0xFFFF#16

/-- The bits of a packet on the line (R186): header fields most significant bit first, the payload bytes least
significant bit first, the CRC most significant bit first; a receiver takes the same packet from them. -/
def Clauses.BitsOnLine : Prop :=
  ∀ p : Packet,
    lineBits p = (List.range 4).map (fun i => p.header.kind.getLsbD (3 - i))
        ++ (List.range 7).map (fun i => p.header.address.getLsbD (6 - i)) ++ [p.header.parity]
        ++ (List.range 9).map (fun i => p.header.length.getLsbD (8 - i))
        ++ (List.range 8).map (fun i => p.header.check.getLsbD (7 - i))
        ++ (p.payload.flatMap fun b => (List.range 8).map fun i => b.getLsbD i)
        ++ (List.range 16).map (fun i => p.crc.getLsbD (15 - i))
      ∧ (p.payload.length = p.header.length.toNat → receiveBits (lineBits p) = p)

/-- The packets the part forms, their check fields and their bits. -/
def Obligations.FormedPacketPassesChecks : Prop := Clauses.FormedPacket ∧ Clauses.CheckFields ∧ Clauses.BitsOnLine

/-! ### Turns -/

/-- PUT_READ and DRAIN (R102, R105, R106): the bytes read are staged and the sending begins; the bytes drained are
in memory, moved and the cursor advance by them, and the phase is decided. -/
def Obligations.PutReadStagesAndDrainAdvances : Prop :=
  ∀ (s : State) (t : Turn) (r : Request) (f : InFlight), s.xe.turn = some t →
    (∀ (data : List Byte) (quiet : Bool), s.inProgress .putRead r → data.length = r.length → t.stage = .putRead →
        exec (.putRead data quiet) s = .next (State.serveMemory (State.beginSending quiet
          { s.afterRead with xe := ⟨some t, data⟩ })))
      ∧ (s.inProgress .drain r → t.stage = .drain → (s.st t.station).inFlight = some f →
        exec .drain s = .next (State.settle (((s.afterWrite r).modSt t.station fun st =>
          { st with inFlight := some { f with
              moved := f.moved + r.length
              cursor := f.cursor + BitVec.ofNat 32 r.length
              phase := if f.moved + r.length = f.host.dataLength ∨ r.length < t.size then .report else f.phase } }).handOver
            .cont .answered)))

/-- XE hands the outcome to SM (R114): the turn holds it with its mark, the staging buffer is empty, and SM acts on it;
while a status half write of the turn's station is under way it waits (R170; by inference, log 28). -/
def Clauses.OutcomeHandedOver : Prop :=
  ∀ (s u : State) (t : Turn) (outcome : Outcome) (mark : TurnMark), s.xe.turn = some t →
    u = { s with xe := ⟨some { t with stage := .handed outcome mark }, []⟩ } →
      ((s.st t.station).op = none → s.handOver outcome mark = u.actOn { t with stage := .handed outcome mark } outcome)
      ∧ ((s.st t.station).op ≠ none → s.handOver outcome mark = u)
      ∧ (t.stage = .handed outcome mark → (s.st t.station).op = none → s.takeOutcome = s.actOn t outcome)
      ∧ ((∀ g m, t.stage ≠ .handed g m) → s.takeOutcome = s)

/-- What SM does on each outcome (R114, R42, R113, R124, R127, R128, R132, R151): the turn ends, the block retires, with
resync pending set where the outcome sets it, the station is followed or enters LOST. A watch turn that ends on a HOLD
moves its station to the tail of the due list with the deferred mark (R138, R162). -/
def Clauses.OutcomeActedOn : Prop :=
  ∀ (s : State) (t : Turn) (n : Stn), s.xe.turn = some t → n = t.station →
    (t.kind = .sync → (s.st n).inFlight = none → s.actOn t .cont = s.follow n .turn)
      ∧ (t.kind ≠ .peek → ¬(t.kind = .sync ∧ (s.st n).inFlight = none) → s.actOn t .cont = s.finishTurn .ready)
      ∧ (t.kind ≠ .peek → s.actOn t .hold = s.finishTurn .holding)
      ∧ (t.kind = .peek → s.actOn t .cont = s.finishTurn
          (if t.grantedFrom = .holding ∧ (s.st n).holdExpired = true then .ready else t.grantedFrom))
      ∧ (t.kind = .peek → s.actOn t .hold = State.finishTurn
          (if t.grantedFrom = .holding ∧ (s.st n).holdExpired = true then .ready else t.grantedFrom)
          { s with ls := { s.ls with due := (s.ls.due.filter fun e => e.station != n) ++ [⟨n, true⟩] } })
      ∧ (∀ (f : InFlight) (condition : Condition) (resync : Bool) (residue : Nat) (report : List Byte),
        (s.st n).inFlight = some f → s.actOn t (.retire condition resync residue report) =
          State.askSm .resultWrite (some n) (f.address + 0x40#32) 48
            (resultSection condition f.phase f.attempts f.holds f.moved f.host.dataLength residue (s.st n).retireCount
              report)
            (s.modSt n fun st => { st with
              resyncPending := if resync then true else st.resyncPending
              op := some ⟨.turn, .result ⟨f.address, true, f.host.notify, f.host.haltOnError, condition, .turn⟩,
                st.parked, false, false, st.snapshot⟩ }))
      ∧ (∀ request : PacketKind, request ≠ .opening →
        (s.countsInBlock t = true →
          s.actOn t (.exhausted request) = s.actOn t (.retire .lineFault true 0 noReport))
        ∧ (s.countsInBlock t = false → t.lapsed = true → s.header.lapseLimit ≤ (s.st n).lapses →
          s.actOn t (.exhausted request) = s.enterLost n .turn)
        ∧ (s.countsInBlock t = false → t.kind = .sync → (t.lapsed = false ∨ (s.st n).lapses < s.header.lapseLimit) →
          s.actOn t (.exhausted request) = s.finishTurn .ready)
        ∧ (t.kind = .peek → (t.lapsed = false ∨ (s.st n).lapses < s.header.lapseLimit) →
          s.actOn t (.exhausted request) = s.finishTurn
            (if t.grantedFrom = .holding ∧ (s.st n).holdExpired = true then .ready else t.grantedFrom)))
      ∧ s.actOn t (.exhausted .opening) = s.enterLost n .turn

/-- Answers taken for ORDER, PUT, FETCH and ASK (R95, R96, R97, R101, R103, R105, R108, R109, R131). -/
def Clauses.ExchangeAnswersTaken : Prop :=
  ∀ (s : State) (t : Turn) (f : InFlight) (parity quiet : Bool) (kind : PacketKind) (length : Nat)
    (data : List Byte) (n : Stn),
    s.xe.turn = some t → n = t.station → t.stage = .request → t.opening = false → (s.st n).inFlight = some f →
      (t.kind = .order → s.takeFinding t (.answer .accept parity data) quiet = State.handOver .cont .answered
          (s.modSt n fun st => { st with
            lapses := 0, putParity := !st.putParity
            inFlight := some { f with phase := if f.host.direction = .nothing then .report else .data } }))
      ∧ (t.kind = .put → s.takeFinding t (.answer .accept parity data) quiet = State.handOver .cont .answered
          (s.modSt n fun st => { st with
            lapses := 0, putParity := !st.putParity
            inFlight := some { f with
              moved := f.moved + t.size, cursor := f.cursor + BitVec.ofNat 32 t.size
              phase := if f.moved + t.size = f.host.dataLength then .report else f.phase } }))
      ∧ ((t.kind = .put ∨ t.kind = .fetch) → s.takeFinding t (.answer .finish parity data) quiet =
          State.handOver .cont .answered (s.modSt n fun st => { st with
            lapses := 0, inFlight := some { f with phase := .report } }))
      ∧ (t.kind = .fetch → s.takeFinding t (.answer .data parity data) quiet =
          State.askLp ⟨.accept, BitVec.ofNat 7 (s.config n).linkAddress, parity, []⟩ quiet
            (({ s with xe := ⟨some { t with stage := .accept .data }, data⟩ } : State).modSt n fun st =>
              { st with lapses := 0 }))
      ∧ (t.kind = .ask → s.takeFinding t (.answer .report parity data) quiet =
          State.askLp ⟨.accept, BitVec.ofNat 7 (s.config n).linkAddress, parity, []⟩ quiet
            (({ s with xe := ⟨some { t with stage := .accept .report }, data⟩ } : State).modSt n fun st =>
              { st with lapses := 0 }))
      ∧ (t.kind ∈ [.order, .put, .fetch, .ask] →
          (∀ u : State, u = (s.modSt n fun st => { st with
              lapses := 0, totalHolds := min (st.totalHolds + 1) 65535
              inFlight := some { f with holds := min (f.holds + 1) 255 } }) →
            ((s.config n).holdLimit ≠ 0 → min (f.holds + 1) 255 = (s.config n).holdLimit →
                s.takeFinding t (.answer .hold parity data) quiet = u.handOver (.retire .holdLimit true 0 noReport) .answered)
              ∧ (¬((s.config n).holdLimit ≠ 0 ∧ min (f.holds + 1) 255 = (s.config n).holdLimit) →
                s.takeFinding t (.answer .hold parity data) quiet = u.handOver .hold .answered))
          ∧ s.takeFinding t (.answer .refuse parity data) quiet =
            (s.modSt n fun st => { st with lapses := 0 }).handOver (.retire .refused false 0 noReport) .answered)
      ∧ s.takeFinding t .overrun quiet =
          (s.modSt n fun st => { st with lapses := 0 }).handOver (.retire .overrun true 0 noReport) .answered
      ∧ s.takeFinding t (.duplicate kind parity length) quiet =
          State.askLp ⟨.accept, BitVec.ofNat 7 (s.config n).linkAddress, parity, []⟩ quiet
            (({ s with xe := ⟨some { t with stage := .accept .duplicate }, s.xe.staging⟩ } : State).modSt n fun st =>
              { st with lapses := 0 })
      ∧ s.takeFinding t (.reportFault parity) quiet =
          State.askLp ⟨.accept, BitVec.ofNat 7 (s.config n).linkAddress, parity, []⟩ quiet
            (({ s with xe := ⟨some { t with stage := .accept .badReport }, s.xe.staging⟩ } : State).modSt n fun st =>
              { st with lapses := 0 })

/-- What an answer to an exchange request does to the block, the context and the turn, and what SM does on an outcome. -/
def Obligations.ExchangeAnswersAndOutcomes : Prop :=
  Clauses.OutcomeHandedOver ∧ Clauses.OutcomeActedOn ∧ Clauses.ExchangeAnswersTaken

/-- The part's ACCEPT is SENT, or abandoned at the line-busy limit (R82, R99, R105, R109, R111, R112, R118). -/
def Obligations.PartAcceptSentOrAbandoned : Prop :=
  ∀ (s u : State) (t : Turn) (f : InFlight) (quiet : Bool) (n : Stn) (what : Acknowledged) (g : Finding),
    s.xe.turn = some t → n = t.station → t.stage = .accept what → (s.st n).inFlight = some f →
    u = (s.modSt n fun st => { st with getParity := !st.getParity }) →
      (what = .duplicate → s.takeFinding t g quiet = s.handOver .cont .answered)
      ∧ (what = .data → s.xe.staging = [] → s.takeFinding t .sent quiet = State.handOver .cont .answered
          (u.modSt n fun st => { st with inFlight := some { f with
            phase := if f.moved = f.host.dataLength ∨ 0 < t.size then .report else f.phase } }))
      ∧ (what = .data → s.xe.staging ≠ [] → s.takeFinding t .sent quiet =
          { u with
            xe := { s.xe with turn := some { t with stage := .drain } }
            mp := { s.mp with xe := some ⟨.drain, some n, f.cursor, s.xe.staging.length, s.xe.staging, false⟩ } })
      ∧ (what = .report → reportLegal f.host s.xe.staging = true → s.takeFinding t .sent quiet =
          (u.modSt n fun st => { st with inFlight := some { f with phase := .complete } }).handOver
            (.retire (reportCondition f.host f.moved s.xe.staging) false (leField s.xe.staging 4 4) s.xe.staging)
            .answered)
      ∧ (what = .report → reportLegal f.host s.xe.staging = false → s.takeFinding t .sent quiet =
          u.handOver (.retire .reportFault true 0 s.xe.staging) .answered)
      ∧ (what = .badReport → s.takeFinding t .sent quiet = u.handOver (.retire .reportFault true 0 noReport) .answered)
      ∧ (what ≠ .duplicate → s.takeFinding t .noAnswer quiet =
          ({ s with xe := { s.xe with staging := [] } } : State).attemptFailure t quiet)

/-- What makes a report valid and the condition it gives (R111, R112). -/
def Obligations.ReportChecksAndCondition : Prop :=
  ∀ (h : HostPart) (moved : Nat) (d : List Byte),
    (reportLegal h d = true ↔
      leField d 0 2 = 0xA55A ∧ leField d 2 2 = h.tag.toNat ∧ (byteAt d 8).toNat ∈ [0, 1, 2]
        ∧ leField d 4 4 ≤ h.dataLength)
      ∧ ((byteAt d 8).toNat = 2 → reportCondition h moved d = .rejected)
      ∧ ((byteAt d 8).toNat = 1 → reportCondition h moved d = .stationFailed)
      ∧ ((byteAt d 8).toNat = 0 → moved < h.dataLength → h.acceptShort = false → reportCondition h moved d = .short)
      ∧ ((byteAt d 8).toNat = 0 → (h.dataLength ≤ moved ∨ h.acceptShort = true) →
        reportCondition h moved d = .clean)

/-- ACCEPT to SYNC (R124) and to OPEN (R150). -/
def Obligations.SyncAndOpenAccepted : Prop :=
  ∀ (s u : State) (t : Turn) (parity quiet : Bool) (n : Stn), s.xe.turn = some t → n = t.station →
    t.stage = .request →
    u = (s.modSt n fun st =>
      { st with putParity := false, getParity := false, resyncPending := false, lapses := 0 }) →
      (t.opening = false → t.kind = .sync → (s.st n).inFlight = none →
        s.takeFinding t (.answer .accept parity []) quiet = u.handOver .cont .answered)
      ∧ (∀ f, t.opening = false → t.kind = .sync → (s.st n).inFlight = some f → f.host.kind = some .resync →
        s.takeFinding t (.answer .accept parity []) quiet = u.handOver (.retire .clean false 0 noReport) .answered)
      ∧ (∀ f, t.opening = false → t.kind = .sync → (s.st n).inFlight = some f → f.host.kind ≠ some .resync →
        s.takeFinding t (.answer .accept parity []) quiet = u.handOver .cont .answered)
      ∧ (∀ b p, t.opening = true → (s.config n).route = .branch b p →
        s.takeFinding t (.answer .accept parity []) quiet = State.sendRequest quiet
          ({ s.setRoute b (.opened p) with
            xe := { s.xe with turn := some { t with opening := false, opened := true, attempts := 0 } } }))

/-- An attempt failure (R98, R125, R123, R126): the counts, then the same request again, or exhaustion. -/
def Obligations.AttemptFailureResendsOrExhausts : Prop :=
  ∀ (s u : State) (t : Turn) (g : Finding) (quiet : Bool) (n : Stn), s.xe.turn = some t → n = t.station →
    t.stage = .request → g.isFailure = true →
    u = (({ s with xe := { s.xe with turn := some { t with attempts := t.attempts + 1 } } } : State).modSt n fun st =>
      { st with
        totalFailed := min (st.totalFailed + 1) 65535
        inFlight := if s.countsInBlock t then
            st.inFlight.map fun f => { f with attempts := min (f.attempts + 1) 255 }
          else st.inFlight }) →
      (t.attempts + 1 < (s.config n).attemptLimit → s.takeFinding t g quiet = u.sendRequest quiet)
      ∧ ((s.config n).attemptLimit ≤ t.attempts + 1 → t.opening = true → s.takeFinding t g quiet = u.exhaustOpen t)
      ∧ ((s.config n).attemptLimit ≤ t.attempts + 1 → t.opening = false →
        s.takeFinding t g quiet = u.exhaustRequest t)
      ∧ (s.countsInBlock t = true ↔ t.kind ∈ [.order, .put, .fetch, .ask]
        ∨ (t.kind = .sync ∧ ∃ f, (s.st n).inFlight = some f ∧ f.host.kind = some .resync))
      ∧ (g.isFailure = true ↔ g = .noAnswer ∨ g = .garbled ∨ g = .stray ∨ g = .wrongKind ∨ g = .sequence)

/-- An exhausted request of the station (R127, R128, R131, R154, R164): the lapse count, the doubt about the route, and
the outcome EXHAUSTED with its request and the mark unanswered, or the slot write of an exhausted PEEK, asked for at
once: the model's choice where WU's slot write for another station is outstanding (log 35). -/
def Clauses.RequestExhausted : Prop :=
  ∀ (s u : State) (t : Turn) (n : Stn), s.xe.turn = some t → n = t.station →
    u = (({ s with
      xe := { s.xe with turn := some { t with lapsed := true } }
      rm := match (s.config n).route with
        | .branch b _ =>
          if t.opened = false ∧ ∃ p, s.route b = .opened p then (s.setRoute b .unknown).rm else s.rm
        | .direct => s.rm } : State).modSt n fun st => { st with lapses := min (st.lapses + 1) 15 }) →
      (t.kind = .order → s.exhaustRequest t = u.handOver (.exhausted .order) .unanswered)
      ∧ (t.kind = .put → s.exhaustRequest t = u.handOver (.exhausted .put) .unanswered)
      ∧ (t.kind = .fetch → s.exhaustRequest t = u.handOver (.exhausted .fetch) .unanswered)
      ∧ (t.kind = .ask → s.exhaustRequest t = u.handOver (.exhausted .ask) .unanswered)
      ∧ (t.kind = .sync → s.exhaustRequest t = u.handOver (.exhausted .sync) .unanswered)
      ∧ (t.kind = .peek → s.exhaustRequest t = State.askSlot n (s.config n).watchLength
          (({ u with xe := { s.xe with turn := some { t with lapsed := true, stage := .slot false } } } : State).modWatch n
            fun r => { r with status := .stale }))

/-- An exhausted OPEN (R151, R152, R153): the entry is FAULTY, the outcome is EXHAUSTED with OPEN, unanswered, and the
cascade reaches the stations behind the branch that are neither ABSENT nor LOST, the turn's among them, and no other;
to a station under an operation the entry is owed. That a lone status half write is such an operation, and that the
turn's own station waits for one of its own under way, is read by inference (R170; log 28). -/
def Clauses.OpenExhausted : Prop :=
  ∀ (s : State) (t : Turn) (b p : Fin 8) (m : Stn), s.xe.turn = some t →
    (s.config t.station).route = .branch b p →
      (s.exhaustOpen t).route b = .faulty
      ∧ (∀ c, c ≠ b → (s.exhaustOpen t).route c = s.route c)
      ∧ (m ≠ t.station →
        ((∀ q, (s.config m).route ≠ .branch b q) ∨ (s.st m).state = .absent ∨ (s.st m).state = .lost) →
        (s.exhaustOpen t).st m = s.st m)
      ∧ (∀ q, (s.config m).route = .branch b q → (s.st m).state ≠ .absent → (s.st m).state ≠ .lost →
        m ≠ t.station → (s.st m).op ≠ none → (s.exhaustOpen t).st m = { s.st m with owedLost := true })
      ∧ (∀ q, (s.config m).route = .branch b q → (s.st m).state ≠ .absent → (s.st m).state ≠ .lost →
        m ≠ t.station → (s.st m).op = none → (s.exhaustOpen t).st m = (s.enterLost m (.lost false)).st m)
      ∧ ((s.st t.station).op = none → (s.exhaustOpen t).st t.station = (State.enterLost t.station .turn
          { s with xe := ⟨some { t with stage := .handed (.exhausted .opening) .unanswered }, []⟩ }).st t.station)
      ∧ ((s.st t.station).op ≠ none → (s.exhaustOpen t).st t.station = s.st t.station)
      ∧ (s.exhaustOpen t).xe = ⟨some { t with stage := .handed (.exhausted .opening) .unanswered }, []⟩

/-- The turn of an exhausted OPEN ends, its station LOST, when SM has made the entry of its station and every entry of
the cascade that could be made at once (step 4 of R151, R42); until then it goes on. -/
def Clauses.CascadeTurnEnds : Prop :=
  ∀ (s : State) (t : Turn), s.xe.turn = some t → t.stage = .handed (.exhausted .opening) .unanswered →
    s.rw.part ≠ .faulted →
      ((s.st t.station).op = none → (∀ n o, s.working n o → o.job ≠ .lost false) →
        s.settle = (s.finishTurn .lost).settle)
      ∧ (((s.st t.station).op ≠ none ∨ ∃ n o, s.working n o ∧ o.job = .lost false) → s.settle.xe = s.xe)

/-- Exhaustion of a request and of an OPEN, with its consequences to the end of the turn. -/
def Obligations.ExhaustionConsequences : Prop :=
  Clauses.RequestExhausted ∧ Clauses.OpenExhausted ∧ Clauses.CascadeTurnEnds

/-! ### The watch -/

/-- STATE, HOLD and REFUSE to PEEK (R161, R162, R163); the due list changes on a HOLD when the turn ends (R138). That
WU acts at once, while a slot write of its own for another station is outstanding, is the model's choice (log 35). -/
def Clauses.WatchAnswers : Prop :=
  ∀ (s u : State) (t : Turn) (parity quiet : Bool) (value : List Byte) (n : Stn), s.xe.turn = some t →
    n = t.station → t.stage = .request → t.opening = false → t.kind = .peek →
    u = (({ s with xe := ⟨some t, value⟩ } : State).modSt n fun st => { st with lapses := 0 }) →
      ((s.watch n).last = some value → (s.watch n).status = .valid →
        s.takeFinding t (.answer .state parity value) quiet = (u.leaveDue n).finishWatch t)
      ∧ ((s.watch n).last = some value → (s.watch n).status ≠ .valid →
        s.takeFinding t (.answer .state parity value) quiet = State.askSlot n (s.config n).watchLength
          (({ u with xe := ⟨some { t with stage := .slot false }, value⟩ } : State).modWatch n fun r =>
            { r with status := .valid }))
      ∧ ((s.watch n).last ≠ some value →
        s.takeFinding t (.answer .state parity value) quiet = State.askSlot n (s.config n).watchLength
          (({ u with xe := ⟨some { t with stage := .slot (s.config n).watchNotify }, value⟩ } : State).modWatch n fun r =>
            { r with status := .valid, last := some value, changes := r.changes + 1#32 }))
      ∧ s.takeFinding t (.answer .hold parity []) quiet = State.handOver .hold .answered
          (s.modSt n fun st => { st with lapses := 0, totalHolds := min (st.totalHolds + 1) 65535 })
      ∧ s.takeFinding t (.answer .refuse parity []) quiet = State.askSlot n (s.config n).watchLength
          ((({ s with xe := { s.xe with turn := some { t with stage := .slot false } } } : State).modSt n fun st =>
            { st with lapses := 0 }).modWatch n fun r => { r with status := .refused })

/-- The end of a watch turn, wherever it stands, at once after a STATE equal to the last value or after its slot write
(R132, R42, R161, R163, R164): LOST when its PEEK was exhausted and the lapse count is at the limit, else the state it
was granted from. -/
def Clauses.WatchTurnEnds : Prop :=
  ∀ (s : State) (t : Turn) (n : Stn), s.xe.turn = some t → n = t.station → t.kind = .peek →
    (t.lapsed = false → s.finishWatch t = s.handOver .cont .answered)
      ∧ (t.lapsed = true → s.finishWatch t = s.handOver (.exhausted .peek) .unanswered)
      ∧ ((s.st n).op = none → (t.lapsed = false ∨ (s.st n).lapses < s.header.lapseLimit) →
        s.finishWatch t = s.finishTurn
          (if t.grantedFrom = .holding ∧ (s.st n).holdExpired = true then .ready else t.grantedFrom))
      ∧ ((s.st n).op = none → t.lapsed = true → s.header.lapseLimit ≤ (s.st n).lapses →
        s.finishWatch t = State.enterLost n .turn
          { s with xe := ⟨some { t with stage := .handed (.exhausted .peek) .unanswered }, []⟩ })
      ∧ (s.lapsedOut n = true ↔ t.lapsed = true ∧ s.header.lapseLimit ≤ (s.st n).lapses)
      ∧ s.leaveDue n = ({ s with ls := { s.ls with due := s.ls.due.filter fun e => e.station != n } } : State).modWatch n
          fun r => { r with due := false }

/-- Answers to PEEK, and the end of the watch turn. -/
def Obligations.WatchAnswersTaken : Prop := Clauses.WatchAnswers ∧ Clauses.WatchTurnEnds

/-- SLOT_WRITE: in a PEEK turn the notice of a change, then the due flag clears and the turn ends (R161, R163, R164);
in a BRING_UP the application goes on to its end, and in a TAKE_DOWN the station goes ABSENT (R56, R64, R166). -/
def Obligations.SlotWriteGoesOn : Prop :=
  ∀ (s : State) (r : Request) (n : Stn), s.inProgress .slotWrite r → r.station = some n →
    (∀ (t : Turn) (notify : Bool), s.xe.turn = some t → t.station = n → t.stage = .slot notify →
        exec .slotWrite s = .next (State.settle (State.finishWatch t
          ((if notify then (s.afterWrite r).setNotice n else s.afterWrite r).leaveDue n))))
      ∧ (∀ o : Operation, (∀ t, s.xe.turn = some t → t.station ≠ n) → s.working n o →
        (o.stage = .slotAtBringUp →
          exec .slotWrite s = .next (State.serveMemory (((s.afterWrite r).modSt n fun st => { st with
            lastResult := .applied, op := some { o with slotDue := false, stage := .final } }).askStatus n)))
        ∧ (o.stage = .slotAtTakeDown →
          exec .slotWrite s = .next (State.serveMemory (((s.afterWrite r).modSt n fun st => { takenDown st with
            lastResult := .applied, op := some { o with stage := .final } }).askStatus n)))
        ∧ (o.stage ≠ .slotAtBringUp → o.stage ≠ .slotAtTakeDown → o.slotDue = true →
          exec .slotWrite s = .next (State.serveMemory ((s.afterWrite r).modSt n fun st => { st with
            op := some { o with slotDue := false } }))))

/-! ### Timers -/

/-- MILLISECOND_EXPIRY (R143, R18, R43, R158, R138): in RUNNING and STOPPING every running countdown decreases by one
and every deferred mark is cleared; nothing else changes. The Interval Timer stands still in the other part states,
and an expiry waits until the interval ends of the last one are taken (log 14, log 18). -/
def Obligations.MillisecondExpiryCountsDown : Prop :=
  ∀ s : State,
    ((s.rw.part = .running ∨ s.rw.part = .stopping) → (∀ n, s.intervalOwed n = false) →
        ∃ t, exec .millisecondExpiry s = .next t
          ∧ (∀ n, t.st n = { s.st n with
            hold := (s.st n).hold.map (· - 1), reread := (s.st n).reread.map (· - 1) })
          ∧ (∀ n, t.watch n = { s.watch n with countdown :=
            if (s.watch n).active = true ∧ (s.st n).state ≠ .lost then (s.watch n).countdown - 1
            else (s.watch n).countdown })
          ∧ t.ls = ⟨s.ls.rotation, s.ls.due.map fun e => ⟨e.station, false⟩⟩
          ∧ { t with ctx := s.ctx, wu := s.wu, ls := s.ls, itElapsed := s.itElapsed } = s
          ∧ t.wu.queue = s.wu.queue ∧ t.itElapsed = 0)
      ∧ ((s.rw.part = .running ∨ s.rw.part = .stopping) → (∃ n, s.intervalOwed n = true) →
        exec .millisecondExpiry s = .refused .intervalEndOwed)
      ∧ (s.rw.part ∈ [.stopped, .starting, .faulted] → exec .millisecondExpiry s = .refused .timerHalted)
      ∧ (∀ n, s.intervalOwed n = true ↔ (s.watch n).active = true ∧ (s.watch n).countdown = 0)

/-- A countdown that has reached 0: the hold delay (R43, R41; an operation under way goes on beside the write of its
status half, by inference, log 28), the re-read countdown (R19, R41), the watch interval (R158, R159, R138), whose end
WU takes whatever slot write is outstanding: the model's choice (log 35). -/
def Obligations.CountdownsReachZero : Prop :=
  ∀ (s : State) (n : Stn), (s.rw.part = .running ∨ s.rw.part = .stopping) →
    ((s.st n).hold = some 0 → (s.st n).state ≠ .engaged → (s.st n).op = none →
        exec (.holdDelayExpiry n) s = .next (State.serveMemory ((s.modSt n fun st =>
          { st.withoutCountdowns with state := .ready }).reportStatus n)))
      ∧ ((s.st n).hold = some 0 → (s.st n).state ≠ .engaged → (s.st n).op ≠ none →
        exec (.holdDelayExpiry n) s = .next (State.serveMemory ((s.modSt n fun st =>
          { st.withoutCountdowns with state := .ready }).askBeside n)))
      ∧ ((s.st n).hold = some 0 → (s.st n).state = .engaged →
        exec (.holdDelayExpiry n) s = .next (s.modSt n fun st => { st with hold := none, holdExpired := true }))
      ∧ ((s.st n).reread = some 0 → (s.st n).state ≠ .engaged → s.rw.part = .running → (s.st n).op = none →
        exec (.rereadExpiry n) s = .next (s.follow n .own).serveMemory)
      ∧ ((s.st n).reread = some 0 → (s.st n).state ≠ .engaged → s.rw.part = .stopping →
        exec (.rereadExpiry n) s = .next (s.modSt n fun st => { st with reread := st.loadReread }))
      ∧ ((s.st n).reread = some 0 → (s.st n).state = .engaged →
        exec (.rereadExpiry n) s = .next (s.modSt n fun st => { st with reread := none, rereadOwed := true }))
      ∧ (∀ u, s.intervalOwed n = true → (∀ m < n, s.intervalOwed m = false) →
        u = (s.modWatch n fun r => { r with countdown := (s.config n).watchInterval }) →
          (∀ t, s.xe.turn = some t → t.station = n → t.kind = .peek →
            exec (.intervalEnd n) s = .next (u.modWatch n fun r => { r with held := true }))
          ∧ ((∀ t, s.xe.turn = some t → ¬(t.station = n ∧ t.kind = .peek)) → (s.watch n).due = false →
            exec (.intervalEnd n) s = .next { (u.modWatch n fun r => { r with due := true }) with
              ls := { s.ls with due := s.ls.due ++ [⟨n, false⟩] } })
          ∧ ((∀ t, s.xe.turn = some t → ¬(t.station = n ∧ t.kind = .peek)) → (s.watch n).due = true →
            exec (.intervalEnd n) s = .next (u.modWatch n fun r =>
              { r with missed := min (r.missed + 1) 65535 })))

/-! ### The Memory Port and host memory -/

/-- Bus errors (R172, R173, R174, R88): how much of a failed write is in memory, and what each request's error does. A
port fault empties the staging buffer, once a packet that LP is sending from it is on the line (by inference, log 30). -/
def Obligations.BusErrorConsequences : Prop :=
  ∀ (s u : State) (r : Request) (cut : Cut) (addr : Addr), s.mp.current = some r → cut.full < r.transactions →
    u = { s.afterRead with mem := r.land cut s.mem } →
    addr = (if cut.full = 0 then r.address else BitVec.ofNat 32 (8 * (r.address.toNat / 8 + cut.full))) →
      (r.kind = .headerRead → exec (.busError cut) s = .next (State.settle { u with rw := { s.rw with
          part := .stopped, run := false, headerFault := true, headerPassed := false, faultAddr := addr } }))
      ∧ (∀ n o, r.kind = .configurationRead → r.station = some n → s.working n o →
        exec (.busError cut) s = .next (State.settle ((u.modSt n fun st => { st with
          lastResult := .readFault, op := some { o with stage := .final } }).askStatus n)))
      ∧ (∀ n o, r.kind ∈ [.chainHeadRead, .linkRead, .blockRead] → r.station = some n → s.working n o →
        (o.walk = false →
          exec (.busError cut) s = .next (State.settle (u.faultFollowing n .chainReadFault)))
        ∧ (o.walk = true → exec (.busError cut) s = .next (State.settle (u.endWalk n .chainReadFault))))
      ∧ (∀ t, r.kind ∈ [.putRead, .drain] → s.xe.turn = some t →
        exec (.busError cut) s = .next (State.settle (u.handOver (.retire .memoryFault true 0 noReport)
          (if r.kind = .putRead then .neither else .answered))))
      ∧ (r.kind ∈ [.takenWrite, .resultWrite, .doneWrite, .statusWrite, .slotWrite] →
        exec (.busError cut) s = .next { u with
          rw := { s.rw with
            part := .faulted, portFault := true, faultAddr := addr, restartRequest := false, restartHolds := false }
          lp := if s.lp.state = .sending ∨ s.lp.state = .breaking then s.lp else .reset
          xe := { s.xe with staging := if s.sendsStaging then s.xe.staging else [] } })
      ∧ (s.sendsStaging = true ↔
        s.lp.state = .sending ∧ ∃ p, s.lp.send = some p ∧ (p.kind = .order ∨ p.kind = .put))
      ∧ (∀ t, exec (.busError cut) s = .next t →
        r.kind ∈ [.takenWrite, .resultWrite, .doneWrite, .statusWrite, .slotWrite] →
          t.faultedAtRest ∧ t.packetOnLine = s.packetOnLine)

/-- The bytes of host memory after a write, a cut write and a read (R168, R170, R172, R176). -/
def Obligations.WritesReachTheirSpanOnly : Prop :=
  ∀ (m : Memory) (a x : Nat) (data : List Byte) (r : Request) (cut : Cut),
    (m.store a data).peek x = (if a ≤ x ∧ x < a + data.length then data[x - a]? else m.peek x)
      ∧ (r.kind.isWrite = false → r.land cut m = m)
      ∧ (r.kind.isWrite = true → (r.land cut m).peek x =
        if r.address.toNat ≤ x ∧ x < r.address.toNat + r.data.length
            ∧ (x / 8 - r.address.toNat / 8 < cut.full
              ∨ (x / 8 - r.address.toNat / 8 = cut.full ∧ cut.part.getLsbD (x % 8) = true)) then
          r.data[x - r.address.toNat]?
        else m.peek x)
      ∧ (r.kind.isWrite = true ↔
        r.kind ∈ [.takenWrite, .resultWrite, .doneWrite, .statusWrite, .drain, .slotWrite])

/-- R169: MP begins a request whenever none is in progress and at least one waits, the first in the rotation SM, XE,
WU, SM after the last served; a request in progress is not displaced. -/
def Obligations.MemoryPortServesInRotation : Prop :=
  ∀ m : MemoryPort,
    (∀ q, m.inProgress = some q → m.arbitrate = m)
      ∧ (m.sm = none → m.xe = none → m.wu = none → m.arbitrate = m)
      ∧ (m.inProgress = none →
        (m.xe.isSome → (m.last = .sm ∨ (m.sm = none ∧ m.last = .wu) ∨ (m.wu = none ∧ m.sm = none)) →
          m.arbitrate = { m with inProgress := some .xe, last := .xe })
        ∧ (m.wu.isSome → (m.last = .xe ∨ (m.xe = none ∧ m.last = .sm) ∨ (m.sm = none ∧ m.xe = none)) →
          m.arbitrate = { m with inProgress := some .wu, last := .wu })
        ∧ (m.sm.isSome → (m.last = .wu ∨ (m.wu = none ∧ m.last = .xe) ∨ (m.xe = none ∧ m.wu = none)) →
          m.arbitrate = { m with inProgress := some .sm, last := .sm }))

/-- What goes on of itself after a command: requests on their way (R167, R169), and nothing else in a calm part;
nothing at all in a FAULTED one (R51, R174). That it comes after what the command's end of a request has made, so that
the requests made then compete, is the model's choice (log 34). -/
def Obligations.OnlyRequestsGoOnInCalm : Prop :=
  ∀ s : State,
    s.Served s.serveMemory
      ∧ (s.calm → s.settle = s.serveMemory)
      ∧ (s.rw.part = .faulted → s.serveMemory = s ∧ s.settle = s)
      ∧ (s.rw.part ≠ .faulted → s.mp.sm = none → s.sm.queue ≠ [] →
        ∃ r ∈ s.sm.queue, s.serveMemory.mp.sm = some r)
      ∧ (s.rw.part ≠ .faulted → s.mp.wu = none → ∀ r rest, s.wu.queue = r :: rest → s.serveMemory.mp.wu = some r)

/-- The codes of the fields (R113; sections 12.3 to 12.5). -/
def Clauses.FieldCodes : Prop :=
  [StationState.absent, .idle, .ready, .engaged, .holding, .paused, .halted, .lost].map StationState.code
      = [0, 1, 2, 3, 4, 5, 6, 7]
    ∧ [AttentionResult.applied, .refused, .configFault, .readFault].map AttentionResult.code = [0, 1, 2, 3]
    ∧ [ChainCode.clear, .draftSeen, .chainFault, .chainReadFault].map ChainCode.code = [0, 1, 2, 3]
    ∧ [Condition.clean, .short, .stationFailed, .rejected, .refused, .overrun, .lineFault, .reportFault, .holdLimit,
        .memoryFault, .abandoned, .malformed].map Condition.code = [0, 1, 2, 3, 4, 5, 6, 7, 8, 9, 10, 11]
    ∧ [Phase.nothing, .order, .data, .report, .complete].map Phase.code = [0, 1, 2, 3, 4]
    ∧ [Direction.nothing, .toStation, .fromStation].map Direction.code = [0, 1, 2]
    ∧ [SlotStatus.nothing, .valid, .stale, .refused].map SlotStatus.code = [0, 1, 2, 3]

/-- The layouts of what the part writes (R7, R34, R165, R185; sections 12.3 to 12.5). -/
def Clauses.RecordLayouts : Prop :=
  (∀ (st : Station) (d : List Byte), d = st.statusHalf → st.lapses ≤ 15 → st.totalHolds ≤ 65535 →
      st.totalFailed ≤ 65535 →
      d.length = 32 ∧ leField d 0 1 = st.state.code ∧ leField d 1 1 = st.lastResult.code
        ∧ leField d 2 1 = st.code.code ∧ leField d 3 1 = st.lastCondition.code
        ∧ leField d 4 4 = ((st.inFlight.map fun f => f.address.toNat).getD 0)
        ∧ leField d 8 4 = ((st.parked.map fun a => a.toNat).getD 0)
        ∧ leField d 12 2 = st.retireCount.toNat ∧ leField d 14 1 = st.lapses
        ∧ (byteAt d 15).getLsbD 0 = st.putParity ∧ (byteAt d 15).getLsbD 1 = st.getParity
        ∧ (byteAt d 15).getLsbD 2 = st.resyncPending ∧ (∀ i < 8, 3 ≤ i → (byteAt d 15).getLsbD i = false)
        ∧ leField d 16 2 = st.totalHolds ∧ leField d 18 2 = st.totalFailed
        ∧ d.drop 20 = List.replicate 12 0#8)
    ∧ (∀ (c : Condition) (p : Phase) (attempts holds moved length residue : Nat) (k : BitVec 16) (copy d : List Byte),
      d = resultSection c p attempts holds moved length residue k copy → attempts ≤ 255 → holds ≤ 255 →
      moved ≤ length → length < 2 ^ 24 → residue < 2 ^ 32 → copy.length = 16 →
      d.length = 48 ∧ leField d 0 1 = c.code ∧ leField d 1 1 = p.code ∧ leField d 2 1 = attempts
        ∧ leField d 3 1 = holds ∧ leField d 4 4 = moved ∧ leField d 8 4 = length - moved
        ∧ leField d 12 4 = residue ∧ leField d 16 2 = k.toNat ∧ (d.drop 18).take 14 = List.replicate 14 0#8
        ∧ d.drop 32 = copy)
    ∧ (∀ (r : WatchRecord) (length : Nat) (d : List Byte), d = r.slot length → length ≤ 8 → r.missed ≤ 65535 →
      (r.last.getD []).length ≤ 8 →
      d.length = 16 ∧ d.take 8 = r.last.getD [] ++ List.replicate (8 - (r.last.getD []).length) 0#8
        ∧ leField d 8 4 = r.changes.toNat ∧ leField d 12 2 = r.missed ∧ leField d 14 1 = r.status.code
        ∧ leField d 15 1 = length)

/-- The requests for a status half and for a watch slot (R27, R34, R35, R165): 32 bytes at the status half of station
entry n of the latched directory, kept as the last status half written; 16 bytes at slot n of the latched watch page.
A status half that SM writes of its own is an operation that ends with it, and that of a hold delay which ends beside
an operation is marked so (by inference, log 28). -/
def Clauses.RecordWritesAskedFor : Prop :=
  ∀ (s : State) (n : Stn) (length : Nat),
    s.askStatus n = (({ s with sm := { s.sm with queue := s.sm.queue ++
        [⟨.statusWrite, some n, s.header.dirbase + BitVec.ofNat 32 (64 + 64 * n.val) + 0x20#32, 32,
          (s.st n).statusHalf, false⟩] } } : State).modSt n fun st =>
        { st with lastStatus := some (s.st n).statusHalf })
      ∧ s.askBeside n = (({ s with sm := { s.sm with queue := s.sm.queue ++
        [⟨.statusWrite, some n, s.header.dirbase + BitVec.ofNat 32 (64 + 64 * n.val) + 0x20#32, 32,
          (s.st n).statusHalf, true⟩] } } : State).modSt n fun st =>
        { st with lastStatus := some (s.st n).statusHalf, holdReport := true })
      ∧ s.reportStatus n = (s.modSt n fun st =>
        { st with op := some ⟨.report, .final, st.parked, false, false, st.snapshot⟩ }).askStatus n
      ∧ s.askSlot n length = { s with wu := { s.wu with queue := s.wu.queue ++
        [⟨.slotWrite, some n, s.header.watchPage + BitVec.ofNat 32 (16 * n.val), 16, (s.watch n).slot length, false⟩] } }
      ∧ (∀ l, s.latched = some l → s.header = l)

/-- What the part writes of its own records: codes, layouts and where they go. -/
def Obligations.WrittenRecordLayouts : Prop :=
  Clauses.FieldCodes ∧ Clauses.RecordLayouts ∧ Clauses.RecordWritesAskedFor

/-! ### What every command keeps -/

/-- What only some commands change. Host memory: the writes that complete, bus errors and resets. The queue of
commands: none. The read data: NOTICE_READ. The elapsed time: the expiry and resets, since no command counts time (the
model's choice, log 2). Host memory is the bytes the part has written (log 3), and a failed write is there as far as
its operand says (log 17). The end of a request that MP does not have in progress has no effect (R176, log 14). The
take position and cleared flags: NOTICE_READ and resets. The controls, DIRBASE, the stickies, the latched header and
the attention queue: their own commands. -/
def Obligations.EveryCommandKeepsTheRest : Prop :=
  ∀ (c : Instr) (s t : State), exec c s = .next t →
    t.pending = s.pending
      ∧ (c ≠ .noticeRead → t.readData = s.readData)
      ∧ ((∀ cut, c ≠ .powerOnReset cut ∧ c ≠ .deviceReset cut) →
        ((∀ cut, c ≠ .busError cut) →
            c ∉ [.takenWrite, .resultWrite, .doneWrite, .statusWrite, .drain, .slotWrite] → t.mem = s.mem)
          ∧ (∀ cut, c = .busError cut → (s.mp.current = none → t = s)
            ∧ ∀ r, s.mp.current = some r → t.mem = r.land cut s.mem)
          ∧ (∀ k, (c, k) ∈ [(.takenWrite, .takenWrite), (.resultWrite, .resultWrite), (.doneWrite, .doneWrite),
              (.statusWrite, .statusWrite), (.drain, .drain), (.slotWrite, RequestKind.slotWrite)] →
            (∀ r, s.inProgress k r → t.mem = s.mem.store r.address.toNat r.data)
              ∧ ((∀ r, ¬s.inProgress k r) → t = s))
          ∧ (∀ d k, (c, k) ∈ [(.headerRead d, .headerRead), (.configurationRead d, .configurationRead),
              (.chainHeadRead d, .chainHeadRead), (.linkRead d, .linkRead), (.blockRead d, .blockRead),
              (.putRead d true, .putRead), (.putRead d false, RequestKind.putRead)] →
            (∀ r, ¬s.inProgress k r) → t = s)
          ∧ (c ≠ .millisecondExpiry → t.itElapsed = s.itElapsed)
          ∧ (c ≠ .noticeRead → t.nu.position = s.nu.position
            ∧ ∀ n, s.nu.flags.get n = true → t.nu.flags.get n = true)
          ∧ ((∀ v, c ≠ .noticeEn v) → t.rw.noticeEn = s.rw.noticeEn)
          ∧ ((∀ v, c ≠ .faultEn v) → t.rw.faultEn = s.rw.faultEn)
          ∧ ((∀ w, c ≠ .dirbaseWrite w) → t.rw.dirbase = s.rw.dirbase)
          ∧ ((∀ w, c ≠ .statusWriteClear w) → (s.rw.attnLost = true → t.rw.attnLost = true)
            ∧ (s.rw.attnBad = true → t.rw.attnBad = true) ∧ (s.rw.headerFault = true → t.rw.headerFault = true))
          ∧ ((∀ w, c ≠ .attentionWrite w) → (t.rw.attnLost = true → s.rw.attnLost = true)
            ∧ (t.rw.attnBad = true → s.rw.attnBad = true))
          ∧ (s.rw.portFault = true → t.rw.portFault = true)
          ∧ ((∀ d, c ≠ .headerRead d) → t.latched = s.latched)
          ∧ ((∀ w, c ≠ .attentionWrite w) → c ≠ .statusWrite → t.au = s.au)
          ∧ (c = .statusWrite → t.au = s.au ∨ t.au = s.au.tail))

/-- Memory stays in its canonical form. -/
def Obligations.StepKeepsMemoryCanonical : Prop :=
  ∀ s t : State, s.memoryCanonical → step s = .next t → t.memoryCanonical

/-- The attention queue never holds more than 16 entries (R53). -/
def Obligations.StepKeepsQueueBounded : Prop :=
  ∀ s t : State, s.queueBounded → step s = .next t → t.queueBounded

/-- A station ENGAGED is the station of the turn in progress; at most one is ENGAGED (R41). -/
def Obligations.StepKeepsOneEngaged : Prop :=
  (∀ s t : State, s.oneEngaged → step s = .next t → t.oneEngaged)
    ∧ ∀ (s : State) (n m : Stn), s.oneEngaged → (s.st n).state = .engaged → (s.st m).state = .engaged → n = m

/-- The three invariants hold after power-on reset. -/
def Obligations.ResetMeetsInvariants : Prop :=
  State.reset.memoryCanonical ∧ State.reset.queueBounded ∧ State.reset.oneEngaged

/-- A FAULTED part at rest stays so under every command but a reset, and changes nothing but its attention queue, its
notice set, the controls and stickies the host writes, LP's end of what it drives, with the staging buffer it sent,
and the read data (R51, R174, R88, R117; log 27, log 30). -/
def Obligations.FaultedPartStandsStill : Prop :=
  ∀ (c : Instr) (s t : State), s.faultedAtRest → (∀ cut, c ≠ .powerOnReset cut ∧ c ≠ .deviceReset cut) →
    exec c s = .next t →
      t.faultedAtRest
        ∧ { t with
            au := s.au, nu := s.nu, readData := s.readData, lp := s.lp, xe := s.xe
            rw := { t.rw with
              run := s.rw.run, noticeEn := s.rw.noticeEn, faultEn := s.rw.faultEn
              attnLost := s.rw.attnLost, attnBad := s.rw.attnBad, headerFault := s.rw.headerFault } } = s
        ∧ t.xe.turn = s.xe.turn
        ∧ ((t.lp = s.lp ∧ t.xe.staging = s.xe.staging) ∨ (t.lp = .reset ∧ t.xe.staging = []))
end

