-- ==== Sys2Proof/Laws/State.lean ====
section
/-! SUPPORT. One lemma per field per block update, and the laws of the station contexts, watch records and route table. -/

namespace Sys2Proof.Machine

/-! ### Vectors -/

theorem get_set_self {α : Type} {k : Nat} (v : Vector α k) (n : Fin k) (x : α) : (v.set n.val x n.isLt).get n = x := by
  change (v.set n.val x n.isLt)[n.val] = x
  exact Vector.getElem_set_self ..

theorem get_set_of_ne {α : Type} {k : Nat} (v : Vector α k) {n m : Fin k} (h : m ≠ n) (x : α) :
    (v.set n.val x n.isLt).get m = v.get m := by
  change (v.set n.val x n.isLt)[m.val] = v[m.val]
  exact Vector.getElem_set_ne _ _ fun e => h (Fin.ext e.symm)

theorem get_replicate {α : Type} {k : Nat} (x : α) (n : Fin k) : (Vector.replicate k x).get n = x := by
  change (Vector.replicate k x)[n.val] = x
  exact Vector.getElem_replicate ..

theorem set_set {α : Type} {k : Nat} (v : Vector α k) (n : Fin k) (x y : α) :
    (v.set n.val x n.isLt).set n.val y n.isLt = v.set n.val y n.isLt := by simp

namespace State

variable (s : State)

/-! ### modRw -/

@[simp] theorem modRw_rw (f : RegisterWindow → RegisterWindow) : (s.modRw f).rw = f s.rw := rfl
@[simp] theorem modRw_au (f : RegisterWindow → RegisterWindow) : (s.modRw f).au = s.au := rfl
@[simp] theorem modRw_ctx (f : RegisterWindow → RegisterWindow) : (s.modRw f).ctx = s.ctx := rfl
@[simp] theorem modRw_sm (f : RegisterWindow → RegisterWindow) : (s.modRw f).sm = s.sm := rfl
@[simp] theorem modRw_nu (f : RegisterWindow → RegisterWindow) : (s.modRw f).nu = s.nu := rfl
@[simp] theorem modRw_ls (f : RegisterWindow → RegisterWindow) : (s.modRw f).ls = s.ls := rfl
@[simp] theorem modRw_xe (f : RegisterWindow → RegisterWindow) : (s.modRw f).xe = s.xe := rfl
@[simp] theorem modRw_rm (f : RegisterWindow → RegisterWindow) : (s.modRw f).rm = s.rm := rfl
@[simp] theorem modRw_wu (f : RegisterWindow → RegisterWindow) : (s.modRw f).wu = s.wu := rfl
@[simp] theorem modRw_lp (f : RegisterWindow → RegisterWindow) : (s.modRw f).lp = s.lp := rfl
@[simp] theorem modRw_mp (f : RegisterWindow → RegisterWindow) : (s.modRw f).mp = s.mp := rfl
@[simp] theorem modRw_itElapsed (f : RegisterWindow → RegisterWindow) : (s.modRw f).itElapsed = s.itElapsed := rfl
@[simp] theorem modRw_latched (f : RegisterWindow → RegisterWindow) : (s.modRw f).latched = s.latched := rfl
@[simp] theorem modRw_mem (f : RegisterWindow → RegisterWindow) : (s.modRw f).mem = s.mem := rfl
@[simp] theorem modRw_readData (f : RegisterWindow → RegisterWindow) : (s.modRw f).readData = s.readData := rfl
@[simp] theorem modRw_choices (f : RegisterWindow → RegisterWindow) : (s.modRw f).choices = s.choices := rfl
@[simp] theorem modRw_pending (f : RegisterWindow → RegisterWindow) : (s.modRw f).pending = s.pending := rfl
@[simp] theorem modRw_watch (f : RegisterWindow → RegisterWindow) (n : Stn) : (s.modRw f).watch n = s.watch n := rfl
@[simp] theorem modRw_route (f : RegisterWindow → RegisterWindow) (n : Fin 8) : (s.modRw f).route n = s.route n := rfl
@[simp] theorem modRw_st (f : RegisterWindow → RegisterWindow) (n : Stn) : (s.modRw f).st n = s.st n := rfl
@[simp] theorem modRw_header (f : RegisterWindow → RegisterWindow) : (s.modRw f).header = s.header := rfl

/-! ### setAu -/

@[simp] theorem setAu_rw (q : List Entry) : (s.setAu q).rw = s.rw := rfl
@[simp] theorem setAu_au (q : List Entry) : (s.setAu q).au = q := rfl
@[simp] theorem setAu_ctx (q : List Entry) : (s.setAu q).ctx = s.ctx := rfl
@[simp] theorem setAu_sm (q : List Entry) : (s.setAu q).sm = s.sm := rfl
@[simp] theorem setAu_nu (q : List Entry) : (s.setAu q).nu = s.nu := rfl
@[simp] theorem setAu_ls (q : List Entry) : (s.setAu q).ls = s.ls := rfl
@[simp] theorem setAu_xe (q : List Entry) : (s.setAu q).xe = s.xe := rfl
@[simp] theorem setAu_rm (q : List Entry) : (s.setAu q).rm = s.rm := rfl
@[simp] theorem setAu_wu (q : List Entry) : (s.setAu q).wu = s.wu := rfl
@[simp] theorem setAu_lp (q : List Entry) : (s.setAu q).lp = s.lp := rfl
@[simp] theorem setAu_mp (q : List Entry) : (s.setAu q).mp = s.mp := rfl
@[simp] theorem setAu_itElapsed (q : List Entry) : (s.setAu q).itElapsed = s.itElapsed := rfl
@[simp] theorem setAu_latched (q : List Entry) : (s.setAu q).latched = s.latched := rfl
@[simp] theorem setAu_mem (q : List Entry) : (s.setAu q).mem = s.mem := rfl
@[simp] theorem setAu_readData (q : List Entry) : (s.setAu q).readData = s.readData := rfl
@[simp] theorem setAu_choices (q : List Entry) : (s.setAu q).choices = s.choices := rfl
@[simp] theorem setAu_pending (q : List Entry) : (s.setAu q).pending = s.pending := rfl
@[simp] theorem setAu_watch (q : List Entry) (n : Stn) : (s.setAu q).watch n = s.watch n := rfl
@[simp] theorem setAu_route (q : List Entry) (n : Fin 8) : (s.setAu q).route n = s.route n := rfl
@[simp] theorem setAu_st (q : List Entry) (n : Stn) : (s.setAu q).st n = s.st n := rfl
@[simp] theorem setAu_header (q : List Entry) : (s.setAu q).header = s.header := rfl

/-! ### modSm -/

@[simp] theorem modSm_rw (f : StationManager → StationManager) : (s.modSm f).rw = s.rw := rfl
@[simp] theorem modSm_au (f : StationManager → StationManager) : (s.modSm f).au = s.au := rfl
@[simp] theorem modSm_ctx (f : StationManager → StationManager) : (s.modSm f).ctx = s.ctx := rfl
@[simp] theorem modSm_sm (f : StationManager → StationManager) : (s.modSm f).sm = f s.sm := rfl
@[simp] theorem modSm_nu (f : StationManager → StationManager) : (s.modSm f).nu = s.nu := rfl
@[simp] theorem modSm_ls (f : StationManager → StationManager) : (s.modSm f).ls = s.ls := rfl
@[simp] theorem modSm_xe (f : StationManager → StationManager) : (s.modSm f).xe = s.xe := rfl
@[simp] theorem modSm_rm (f : StationManager → StationManager) : (s.modSm f).rm = s.rm := rfl
@[simp] theorem modSm_wu (f : StationManager → StationManager) : (s.modSm f).wu = s.wu := rfl
@[simp] theorem modSm_lp (f : StationManager → StationManager) : (s.modSm f).lp = s.lp := rfl
@[simp] theorem modSm_mp (f : StationManager → StationManager) : (s.modSm f).mp = s.mp := rfl
@[simp] theorem modSm_itElapsed (f : StationManager → StationManager) : (s.modSm f).itElapsed = s.itElapsed := rfl
@[simp] theorem modSm_latched (f : StationManager → StationManager) : (s.modSm f).latched = s.latched := rfl
@[simp] theorem modSm_mem (f : StationManager → StationManager) : (s.modSm f).mem = s.mem := rfl
@[simp] theorem modSm_readData (f : StationManager → StationManager) : (s.modSm f).readData = s.readData := rfl
@[simp] theorem modSm_choices (f : StationManager → StationManager) : (s.modSm f).choices = s.choices := rfl
@[simp] theorem modSm_pending (f : StationManager → StationManager) : (s.modSm f).pending = s.pending := rfl
@[simp] theorem modSm_watch (f : StationManager → StationManager) (n : Stn) : (s.modSm f).watch n = s.watch n := rfl
@[simp] theorem modSm_route (f : StationManager → StationManager) (n : Fin 8) : (s.modSm f).route n = s.route n := rfl
@[simp] theorem modSm_st (f : StationManager → StationManager) (n : Stn) : (s.modSm f).st n = s.st n := rfl
@[simp] theorem modSm_header (f : StationManager → StationManager) : (s.modSm f).header = s.header := rfl

/-! ### modNu -/

@[simp] theorem modNu_rw (f : NoticeUnit → NoticeUnit) : (s.modNu f).rw = s.rw := rfl
@[simp] theorem modNu_au (f : NoticeUnit → NoticeUnit) : (s.modNu f).au = s.au := rfl
@[simp] theorem modNu_ctx (f : NoticeUnit → NoticeUnit) : (s.modNu f).ctx = s.ctx := rfl
@[simp] theorem modNu_sm (f : NoticeUnit → NoticeUnit) : (s.modNu f).sm = s.sm := rfl
@[simp] theorem modNu_nu (f : NoticeUnit → NoticeUnit) : (s.modNu f).nu = f s.nu := rfl
@[simp] theorem modNu_ls (f : NoticeUnit → NoticeUnit) : (s.modNu f).ls = s.ls := rfl
@[simp] theorem modNu_xe (f : NoticeUnit → NoticeUnit) : (s.modNu f).xe = s.xe := rfl
@[simp] theorem modNu_rm (f : NoticeUnit → NoticeUnit) : (s.modNu f).rm = s.rm := rfl
@[simp] theorem modNu_wu (f : NoticeUnit → NoticeUnit) : (s.modNu f).wu = s.wu := rfl
@[simp] theorem modNu_lp (f : NoticeUnit → NoticeUnit) : (s.modNu f).lp = s.lp := rfl
@[simp] theorem modNu_mp (f : NoticeUnit → NoticeUnit) : (s.modNu f).mp = s.mp := rfl
@[simp] theorem modNu_itElapsed (f : NoticeUnit → NoticeUnit) : (s.modNu f).itElapsed = s.itElapsed := rfl
@[simp] theorem modNu_latched (f : NoticeUnit → NoticeUnit) : (s.modNu f).latched = s.latched := rfl
@[simp] theorem modNu_mem (f : NoticeUnit → NoticeUnit) : (s.modNu f).mem = s.mem := rfl
@[simp] theorem modNu_readData (f : NoticeUnit → NoticeUnit) : (s.modNu f).readData = s.readData := rfl
@[simp] theorem modNu_choices (f : NoticeUnit → NoticeUnit) : (s.modNu f).choices = s.choices := rfl
@[simp] theorem modNu_pending (f : NoticeUnit → NoticeUnit) : (s.modNu f).pending = s.pending := rfl
@[simp] theorem modNu_watch (f : NoticeUnit → NoticeUnit) (n : Stn) : (s.modNu f).watch n = s.watch n := rfl
@[simp] theorem modNu_route (f : NoticeUnit → NoticeUnit) (n : Fin 8) : (s.modNu f).route n = s.route n := rfl
@[simp] theorem modNu_st (f : NoticeUnit → NoticeUnit) (n : Stn) : (s.modNu f).st n = s.st n := rfl
@[simp] theorem modNu_header (f : NoticeUnit → NoticeUnit) : (s.modNu f).header = s.header := rfl

/-! ### modLs -/

@[simp] theorem modLs_rw (f : Scheduler → Scheduler) : (s.modLs f).rw = s.rw := rfl
@[simp] theorem modLs_au (f : Scheduler → Scheduler) : (s.modLs f).au = s.au := rfl
@[simp] theorem modLs_ctx (f : Scheduler → Scheduler) : (s.modLs f).ctx = s.ctx := rfl
@[simp] theorem modLs_sm (f : Scheduler → Scheduler) : (s.modLs f).sm = s.sm := rfl
@[simp] theorem modLs_nu (f : Scheduler → Scheduler) : (s.modLs f).nu = s.nu := rfl
@[simp] theorem modLs_ls (f : Scheduler → Scheduler) : (s.modLs f).ls = f s.ls := rfl
@[simp] theorem modLs_xe (f : Scheduler → Scheduler) : (s.modLs f).xe = s.xe := rfl
@[simp] theorem modLs_rm (f : Scheduler → Scheduler) : (s.modLs f).rm = s.rm := rfl
@[simp] theorem modLs_wu (f : Scheduler → Scheduler) : (s.modLs f).wu = s.wu := rfl
@[simp] theorem modLs_lp (f : Scheduler → Scheduler) : (s.modLs f).lp = s.lp := rfl
@[simp] theorem modLs_mp (f : Scheduler → Scheduler) : (s.modLs f).mp = s.mp := rfl
@[simp] theorem modLs_itElapsed (f : Scheduler → Scheduler) : (s.modLs f).itElapsed = s.itElapsed := rfl
@[simp] theorem modLs_latched (f : Scheduler → Scheduler) : (s.modLs f).latched = s.latched := rfl
@[simp] theorem modLs_mem (f : Scheduler → Scheduler) : (s.modLs f).mem = s.mem := rfl
@[simp] theorem modLs_readData (f : Scheduler → Scheduler) : (s.modLs f).readData = s.readData := rfl
@[simp] theorem modLs_choices (f : Scheduler → Scheduler) : (s.modLs f).choices = s.choices := rfl
@[simp] theorem modLs_pending (f : Scheduler → Scheduler) : (s.modLs f).pending = s.pending := rfl
@[simp] theorem modLs_watch (f : Scheduler → Scheduler) (n : Stn) : (s.modLs f).watch n = s.watch n := rfl
@[simp] theorem modLs_route (f : Scheduler → Scheduler) (n : Fin 8) : (s.modLs f).route n = s.route n := rfl
@[simp] theorem modLs_st (f : Scheduler → Scheduler) (n : Stn) : (s.modLs f).st n = s.st n := rfl
@[simp] theorem modLs_header (f : Scheduler → Scheduler) : (s.modLs f).header = s.header := rfl

/-! ### modXe -/

@[simp] theorem modXe_rw (f : Exchange → Exchange) : (s.modXe f).rw = s.rw := rfl
@[simp] theorem modXe_au (f : Exchange → Exchange) : (s.modXe f).au = s.au := rfl
@[simp] theorem modXe_ctx (f : Exchange → Exchange) : (s.modXe f).ctx = s.ctx := rfl
@[simp] theorem modXe_sm (f : Exchange → Exchange) : (s.modXe f).sm = s.sm := rfl
@[simp] theorem modXe_nu (f : Exchange → Exchange) : (s.modXe f).nu = s.nu := rfl
@[simp] theorem modXe_ls (f : Exchange → Exchange) : (s.modXe f).ls = s.ls := rfl
@[simp] theorem modXe_xe (f : Exchange → Exchange) : (s.modXe f).xe = f s.xe := rfl
@[simp] theorem modXe_rm (f : Exchange → Exchange) : (s.modXe f).rm = s.rm := rfl
@[simp] theorem modXe_wu (f : Exchange → Exchange) : (s.modXe f).wu = s.wu := rfl
@[simp] theorem modXe_lp (f : Exchange → Exchange) : (s.modXe f).lp = s.lp := rfl
@[simp] theorem modXe_mp (f : Exchange → Exchange) : (s.modXe f).mp = s.mp := rfl
@[simp] theorem modXe_itElapsed (f : Exchange → Exchange) : (s.modXe f).itElapsed = s.itElapsed := rfl
@[simp] theorem modXe_latched (f : Exchange → Exchange) : (s.modXe f).latched = s.latched := rfl
@[simp] theorem modXe_mem (f : Exchange → Exchange) : (s.modXe f).mem = s.mem := rfl
@[simp] theorem modXe_readData (f : Exchange → Exchange) : (s.modXe f).readData = s.readData := rfl
@[simp] theorem modXe_choices (f : Exchange → Exchange) : (s.modXe f).choices = s.choices := rfl
@[simp] theorem modXe_pending (f : Exchange → Exchange) : (s.modXe f).pending = s.pending := rfl
@[simp] theorem modXe_watch (f : Exchange → Exchange) (n : Stn) : (s.modXe f).watch n = s.watch n := rfl
@[simp] theorem modXe_route (f : Exchange → Exchange) (n : Fin 8) : (s.modXe f).route n = s.route n := rfl
@[simp] theorem modXe_st (f : Exchange → Exchange) (n : Stn) : (s.modXe f).st n = s.st n := rfl
@[simp] theorem modXe_header (f : Exchange → Exchange) : (s.modXe f).header = s.header := rfl

/-! ### setRm -/

@[simp] theorem setRm_rw (r : Vector RouteEntry 8) : (s.setRm r).rw = s.rw := rfl
@[simp] theorem setRm_au (r : Vector RouteEntry 8) : (s.setRm r).au = s.au := rfl
@[simp] theorem setRm_ctx (r : Vector RouteEntry 8) : (s.setRm r).ctx = s.ctx := rfl
@[simp] theorem setRm_sm (r : Vector RouteEntry 8) : (s.setRm r).sm = s.sm := rfl
@[simp] theorem setRm_nu (r : Vector RouteEntry 8) : (s.setRm r).nu = s.nu := rfl
@[simp] theorem setRm_ls (r : Vector RouteEntry 8) : (s.setRm r).ls = s.ls := rfl
@[simp] theorem setRm_xe (r : Vector RouteEntry 8) : (s.setRm r).xe = s.xe := rfl
@[simp] theorem setRm_rm (r : Vector RouteEntry 8) : (s.setRm r).rm = r := rfl
@[simp] theorem setRm_wu (r : Vector RouteEntry 8) : (s.setRm r).wu = s.wu := rfl
@[simp] theorem setRm_lp (r : Vector RouteEntry 8) : (s.setRm r).lp = s.lp := rfl
@[simp] theorem setRm_mp (r : Vector RouteEntry 8) : (s.setRm r).mp = s.mp := rfl
@[simp] theorem setRm_itElapsed (r : Vector RouteEntry 8) : (s.setRm r).itElapsed = s.itElapsed := rfl
@[simp] theorem setRm_latched (r : Vector RouteEntry 8) : (s.setRm r).latched = s.latched := rfl
@[simp] theorem setRm_mem (r : Vector RouteEntry 8) : (s.setRm r).mem = s.mem := rfl
@[simp] theorem setRm_readData (r : Vector RouteEntry 8) : (s.setRm r).readData = s.readData := rfl
@[simp] theorem setRm_choices (r : Vector RouteEntry 8) : (s.setRm r).choices = s.choices := rfl
@[simp] theorem setRm_pending (r : Vector RouteEntry 8) : (s.setRm r).pending = s.pending := rfl
@[simp] theorem setRm_watch (r : Vector RouteEntry 8) (n : Stn) : (s.setRm r).watch n = s.watch n := rfl
@[simp] theorem setRm_st (r : Vector RouteEntry 8) (n : Stn) : (s.setRm r).st n = s.st n := rfl
@[simp] theorem setRm_header (r : Vector RouteEntry 8) : (s.setRm r).header = s.header := rfl

/-! ### modWu -/

@[simp] theorem modWu_rw (f : WatchUnit → WatchUnit) : (s.modWu f).rw = s.rw := rfl
@[simp] theorem modWu_au (f : WatchUnit → WatchUnit) : (s.modWu f).au = s.au := rfl
@[simp] theorem modWu_ctx (f : WatchUnit → WatchUnit) : (s.modWu f).ctx = s.ctx := rfl
@[simp] theorem modWu_sm (f : WatchUnit → WatchUnit) : (s.modWu f).sm = s.sm := rfl
@[simp] theorem modWu_nu (f : WatchUnit → WatchUnit) : (s.modWu f).nu = s.nu := rfl
@[simp] theorem modWu_ls (f : WatchUnit → WatchUnit) : (s.modWu f).ls = s.ls := rfl
@[simp] theorem modWu_xe (f : WatchUnit → WatchUnit) : (s.modWu f).xe = s.xe := rfl
@[simp] theorem modWu_rm (f : WatchUnit → WatchUnit) : (s.modWu f).rm = s.rm := rfl
@[simp] theorem modWu_wu (f : WatchUnit → WatchUnit) : (s.modWu f).wu = f s.wu := rfl
@[simp] theorem modWu_lp (f : WatchUnit → WatchUnit) : (s.modWu f).lp = s.lp := rfl
@[simp] theorem modWu_mp (f : WatchUnit → WatchUnit) : (s.modWu f).mp = s.mp := rfl
@[simp] theorem modWu_itElapsed (f : WatchUnit → WatchUnit) : (s.modWu f).itElapsed = s.itElapsed := rfl
@[simp] theorem modWu_latched (f : WatchUnit → WatchUnit) : (s.modWu f).latched = s.latched := rfl
@[simp] theorem modWu_mem (f : WatchUnit → WatchUnit) : (s.modWu f).mem = s.mem := rfl
@[simp] theorem modWu_readData (f : WatchUnit → WatchUnit) : (s.modWu f).readData = s.readData := rfl
@[simp] theorem modWu_choices (f : WatchUnit → WatchUnit) : (s.modWu f).choices = s.choices := rfl
@[simp] theorem modWu_pending (f : WatchUnit → WatchUnit) : (s.modWu f).pending = s.pending := rfl
@[simp] theorem modWu_route (f : WatchUnit → WatchUnit) (n : Fin 8) : (s.modWu f).route n = s.route n := rfl
@[simp] theorem modWu_st (f : WatchUnit → WatchUnit) (n : Stn) : (s.modWu f).st n = s.st n := rfl
@[simp] theorem modWu_header (f : WatchUnit → WatchUnit) : (s.modWu f).header = s.header := rfl

/-! ### modLp -/

@[simp] theorem modLp_rw (f : LinkPort → LinkPort) : (s.modLp f).rw = s.rw := rfl
@[simp] theorem modLp_au (f : LinkPort → LinkPort) : (s.modLp f).au = s.au := rfl
@[simp] theorem modLp_ctx (f : LinkPort → LinkPort) : (s.modLp f).ctx = s.ctx := rfl
@[simp] theorem modLp_sm (f : LinkPort → LinkPort) : (s.modLp f).sm = s.sm := rfl
@[simp] theorem modLp_nu (f : LinkPort → LinkPort) : (s.modLp f).nu = s.nu := rfl
@[simp] theorem modLp_ls (f : LinkPort → LinkPort) : (s.modLp f).ls = s.ls := rfl
@[simp] theorem modLp_xe (f : LinkPort → LinkPort) : (s.modLp f).xe = s.xe := rfl
@[simp] theorem modLp_rm (f : LinkPort → LinkPort) : (s.modLp f).rm = s.rm := rfl
@[simp] theorem modLp_wu (f : LinkPort → LinkPort) : (s.modLp f).wu = s.wu := rfl
@[simp] theorem modLp_lp (f : LinkPort → LinkPort) : (s.modLp f).lp = f s.lp := rfl
@[simp] theorem modLp_mp (f : LinkPort → LinkPort) : (s.modLp f).mp = s.mp := rfl
@[simp] theorem modLp_itElapsed (f : LinkPort → LinkPort) : (s.modLp f).itElapsed = s.itElapsed := rfl
@[simp] theorem modLp_latched (f : LinkPort → LinkPort) : (s.modLp f).latched = s.latched := rfl
@[simp] theorem modLp_mem (f : LinkPort → LinkPort) : (s.modLp f).mem = s.mem := rfl
@[simp] theorem modLp_readData (f : LinkPort → LinkPort) : (s.modLp f).readData = s.readData := rfl
@[simp] theorem modLp_choices (f : LinkPort → LinkPort) : (s.modLp f).choices = s.choices := rfl
@[simp] theorem modLp_pending (f : LinkPort → LinkPort) : (s.modLp f).pending = s.pending := rfl
@[simp] theorem modLp_watch (f : LinkPort → LinkPort) (n : Stn) : (s.modLp f).watch n = s.watch n := rfl
@[simp] theorem modLp_route (f : LinkPort → LinkPort) (n : Fin 8) : (s.modLp f).route n = s.route n := rfl
@[simp] theorem modLp_st (f : LinkPort → LinkPort) (n : Stn) : (s.modLp f).st n = s.st n := rfl
@[simp] theorem modLp_header (f : LinkPort → LinkPort) : (s.modLp f).header = s.header := rfl

/-! ### modMp -/

@[simp] theorem modMp_rw (f : MemoryPort → MemoryPort) : (s.modMp f).rw = s.rw := rfl
@[simp] theorem modMp_au (f : MemoryPort → MemoryPort) : (s.modMp f).au = s.au := rfl
@[simp] theorem modMp_ctx (f : MemoryPort → MemoryPort) : (s.modMp f).ctx = s.ctx := rfl
@[simp] theorem modMp_sm (f : MemoryPort → MemoryPort) : (s.modMp f).sm = s.sm := rfl
@[simp] theorem modMp_nu (f : MemoryPort → MemoryPort) : (s.modMp f).nu = s.nu := rfl
@[simp] theorem modMp_ls (f : MemoryPort → MemoryPort) : (s.modMp f).ls = s.ls := rfl
@[simp] theorem modMp_xe (f : MemoryPort → MemoryPort) : (s.modMp f).xe = s.xe := rfl
@[simp] theorem modMp_rm (f : MemoryPort → MemoryPort) : (s.modMp f).rm = s.rm := rfl
@[simp] theorem modMp_wu (f : MemoryPort → MemoryPort) : (s.modMp f).wu = s.wu := rfl
@[simp] theorem modMp_lp (f : MemoryPort → MemoryPort) : (s.modMp f).lp = s.lp := rfl
@[simp] theorem modMp_mp (f : MemoryPort → MemoryPort) : (s.modMp f).mp = f s.mp := rfl
@[simp] theorem modMp_itElapsed (f : MemoryPort → MemoryPort) : (s.modMp f).itElapsed = s.itElapsed := rfl
@[simp] theorem modMp_latched (f : MemoryPort → MemoryPort) : (s.modMp f).latched = s.latched := rfl
@[simp] theorem modMp_mem (f : MemoryPort → MemoryPort) : (s.modMp f).mem = s.mem := rfl
@[simp] theorem modMp_readData (f : MemoryPort → MemoryPort) : (s.modMp f).readData = s.readData := rfl
@[simp] theorem modMp_choices (f : MemoryPort → MemoryPort) : (s.modMp f).choices = s.choices := rfl
@[simp] theorem modMp_pending (f : MemoryPort → MemoryPort) : (s.modMp f).pending = s.pending := rfl
@[simp] theorem modMp_watch (f : MemoryPort → MemoryPort) (n : Stn) : (s.modMp f).watch n = s.watch n := rfl
@[simp] theorem modMp_route (f : MemoryPort → MemoryPort) (n : Fin 8) : (s.modMp f).route n = s.route n := rfl
@[simp] theorem modMp_st (f : MemoryPort → MemoryPort) (n : Stn) : (s.modMp f).st n = s.st n := rfl
@[simp] theorem modMp_header (f : MemoryPort → MemoryPort) : (s.modMp f).header = s.header := rfl

/-! ### setElapsed -/

@[simp] theorem setElapsed_rw (t : Nat) : (s.setElapsed t).rw = s.rw := rfl
@[simp] theorem setElapsed_au (t : Nat) : (s.setElapsed t).au = s.au := rfl
@[simp] theorem setElapsed_ctx (t : Nat) : (s.setElapsed t).ctx = s.ctx := rfl
@[simp] theorem setElapsed_sm (t : Nat) : (s.setElapsed t).sm = s.sm := rfl
@[simp] theorem setElapsed_nu (t : Nat) : (s.setElapsed t).nu = s.nu := rfl
@[simp] theorem setElapsed_ls (t : Nat) : (s.setElapsed t).ls = s.ls := rfl
@[simp] theorem setElapsed_xe (t : Nat) : (s.setElapsed t).xe = s.xe := rfl
@[simp] theorem setElapsed_rm (t : Nat) : (s.setElapsed t).rm = s.rm := rfl
@[simp] theorem setElapsed_wu (t : Nat) : (s.setElapsed t).wu = s.wu := rfl
@[simp] theorem setElapsed_lp (t : Nat) : (s.setElapsed t).lp = s.lp := rfl
@[simp] theorem setElapsed_mp (t : Nat) : (s.setElapsed t).mp = s.mp := rfl
@[simp] theorem setElapsed_itElapsed (t : Nat) : (s.setElapsed t).itElapsed = t := rfl
@[simp] theorem setElapsed_latched (t : Nat) : (s.setElapsed t).latched = s.latched := rfl
@[simp] theorem setElapsed_mem (t : Nat) : (s.setElapsed t).mem = s.mem := rfl
@[simp] theorem setElapsed_readData (t : Nat) : (s.setElapsed t).readData = s.readData := rfl
@[simp] theorem setElapsed_choices (t : Nat) : (s.setElapsed t).choices = s.choices := rfl
@[simp] theorem setElapsed_pending (t : Nat) : (s.setElapsed t).pending = s.pending := rfl
@[simp] theorem setElapsed_watch (t : Nat) (n : Stn) : (s.setElapsed t).watch n = s.watch n := rfl
@[simp] theorem setElapsed_route (t : Nat) (n : Fin 8) : (s.setElapsed t).route n = s.route n := rfl
@[simp] theorem setElapsed_st (t : Nat) (n : Stn) : (s.setElapsed t).st n = s.st n := rfl
@[simp] theorem setElapsed_header (t : Nat) : (s.setElapsed t).header = s.header := rfl

/-! ### setLatched -/

@[simp] theorem setLatched_rw (l : Option Latched) : (s.setLatched l).rw = s.rw := rfl
@[simp] theorem setLatched_au (l : Option Latched) : (s.setLatched l).au = s.au := rfl
@[simp] theorem setLatched_ctx (l : Option Latched) : (s.setLatched l).ctx = s.ctx := rfl
@[simp] theorem setLatched_sm (l : Option Latched) : (s.setLatched l).sm = s.sm := rfl
@[simp] theorem setLatched_nu (l : Option Latched) : (s.setLatched l).nu = s.nu := rfl
@[simp] theorem setLatched_ls (l : Option Latched) : (s.setLatched l).ls = s.ls := rfl
@[simp] theorem setLatched_xe (l : Option Latched) : (s.setLatched l).xe = s.xe := rfl
@[simp] theorem setLatched_rm (l : Option Latched) : (s.setLatched l).rm = s.rm := rfl
@[simp] theorem setLatched_wu (l : Option Latched) : (s.setLatched l).wu = s.wu := rfl
@[simp] theorem setLatched_lp (l : Option Latched) : (s.setLatched l).lp = s.lp := rfl
@[simp] theorem setLatched_mp (l : Option Latched) : (s.setLatched l).mp = s.mp := rfl
@[simp] theorem setLatched_itElapsed (l : Option Latched) : (s.setLatched l).itElapsed = s.itElapsed := rfl
@[simp] theorem setLatched_latched (l : Option Latched) : (s.setLatched l).latched = l := rfl
@[simp] theorem setLatched_mem (l : Option Latched) : (s.setLatched l).mem = s.mem := rfl
@[simp] theorem setLatched_readData (l : Option Latched) : (s.setLatched l).readData = s.readData := rfl
@[simp] theorem setLatched_choices (l : Option Latched) : (s.setLatched l).choices = s.choices := rfl
@[simp] theorem setLatched_pending (l : Option Latched) : (s.setLatched l).pending = s.pending := rfl
@[simp] theorem setLatched_watch (l : Option Latched) (n : Stn) : (s.setLatched l).watch n = s.watch n := rfl
@[simp] theorem setLatched_route (l : Option Latched) (n : Fin 8) : (s.setLatched l).route n = s.route n := rfl
@[simp] theorem setLatched_st (l : Option Latched) (n : Stn) : (s.setLatched l).st n = s.st n := rfl

/-! ### setMem -/

@[simp] theorem setMem_rw (m : Memory) : (s.setMem m).rw = s.rw := rfl
@[simp] theorem setMem_au (m : Memory) : (s.setMem m).au = s.au := rfl
@[simp] theorem setMem_ctx (m : Memory) : (s.setMem m).ctx = s.ctx := rfl
@[simp] theorem setMem_sm (m : Memory) : (s.setMem m).sm = s.sm := rfl
@[simp] theorem setMem_nu (m : Memory) : (s.setMem m).nu = s.nu := rfl
@[simp] theorem setMem_ls (m : Memory) : (s.setMem m).ls = s.ls := rfl
@[simp] theorem setMem_xe (m : Memory) : (s.setMem m).xe = s.xe := rfl
@[simp] theorem setMem_rm (m : Memory) : (s.setMem m).rm = s.rm := rfl
@[simp] theorem setMem_wu (m : Memory) : (s.setMem m).wu = s.wu := rfl
@[simp] theorem setMem_lp (m : Memory) : (s.setMem m).lp = s.lp := rfl
@[simp] theorem setMem_mp (m : Memory) : (s.setMem m).mp = s.mp := rfl
@[simp] theorem setMem_itElapsed (m : Memory) : (s.setMem m).itElapsed = s.itElapsed := rfl
@[simp] theorem setMem_latched (m : Memory) : (s.setMem m).latched = s.latched := rfl
@[simp] theorem setMem_mem (m : Memory) : (s.setMem m).mem = m := rfl
@[simp] theorem setMem_readData (m : Memory) : (s.setMem m).readData = s.readData := rfl
@[simp] theorem setMem_choices (m : Memory) : (s.setMem m).choices = s.choices := rfl
@[simp] theorem setMem_pending (m : Memory) : (s.setMem m).pending = s.pending := rfl
@[simp] theorem setMem_watch (m : Memory) (n : Stn) : (s.setMem m).watch n = s.watch n := rfl
@[simp] theorem setMem_route (m : Memory) (n : Fin 8) : (s.setMem m).route n = s.route n := rfl
@[simp] theorem setMem_st (m : Memory) (n : Stn) : (s.setMem m).st n = s.st n := rfl
@[simp] theorem setMem_header (m : Memory) : (s.setMem m).header = s.header := rfl

/-! ### setReadData -/

@[simp] theorem setReadData_rw (w : Word) : (s.setReadData w).rw = s.rw := rfl
@[simp] theorem setReadData_au (w : Word) : (s.setReadData w).au = s.au := rfl
@[simp] theorem setReadData_ctx (w : Word) : (s.setReadData w).ctx = s.ctx := rfl
@[simp] theorem setReadData_sm (w : Word) : (s.setReadData w).sm = s.sm := rfl
@[simp] theorem setReadData_nu (w : Word) : (s.setReadData w).nu = s.nu := rfl
@[simp] theorem setReadData_ls (w : Word) : (s.setReadData w).ls = s.ls := rfl
@[simp] theorem setReadData_xe (w : Word) : (s.setReadData w).xe = s.xe := rfl
@[simp] theorem setReadData_rm (w : Word) : (s.setReadData w).rm = s.rm := rfl
@[simp] theorem setReadData_wu (w : Word) : (s.setReadData w).wu = s.wu := rfl
@[simp] theorem setReadData_lp (w : Word) : (s.setReadData w).lp = s.lp := rfl
@[simp] theorem setReadData_mp (w : Word) : (s.setReadData w).mp = s.mp := rfl
@[simp] theorem setReadData_itElapsed (w : Word) : (s.setReadData w).itElapsed = s.itElapsed := rfl
@[simp] theorem setReadData_latched (w : Word) : (s.setReadData w).latched = s.latched := rfl
@[simp] theorem setReadData_mem (w : Word) : (s.setReadData w).mem = s.mem := rfl
@[simp] theorem setReadData_readData (w : Word) : (s.setReadData w).readData = w := rfl
@[simp] theorem setReadData_choices (w : Word) : (s.setReadData w).choices = s.choices := rfl
@[simp] theorem setReadData_pending (w : Word) : (s.setReadData w).pending = s.pending := rfl
@[simp] theorem setReadData_watch (w : Word) (n : Stn) : (s.setReadData w).watch n = s.watch n := rfl
@[simp] theorem setReadData_route (w : Word) (n : Fin 8) : (s.setReadData w).route n = s.route n := rfl
@[simp] theorem setReadData_st (w : Word) (n : Stn) : (s.setReadData w).st n = s.st n := rfl
@[simp] theorem setReadData_header (w : Word) : (s.setReadData w).header = s.header := rfl

/-! ### setChoices -/

@[simp] theorem setChoices_rw (k : Nat) : (s.setChoices k).rw = s.rw := rfl
@[simp] theorem setChoices_au (k : Nat) : (s.setChoices k).au = s.au := rfl
@[simp] theorem setChoices_ctx (k : Nat) : (s.setChoices k).ctx = s.ctx := rfl
@[simp] theorem setChoices_sm (k : Nat) : (s.setChoices k).sm = s.sm := rfl
@[simp] theorem setChoices_nu (k : Nat) : (s.setChoices k).nu = s.nu := rfl
@[simp] theorem setChoices_ls (k : Nat) : (s.setChoices k).ls = s.ls := rfl
@[simp] theorem setChoices_xe (k : Nat) : (s.setChoices k).xe = s.xe := rfl
@[simp] theorem setChoices_rm (k : Nat) : (s.setChoices k).rm = s.rm := rfl
@[simp] theorem setChoices_wu (k : Nat) : (s.setChoices k).wu = s.wu := rfl
@[simp] theorem setChoices_lp (k : Nat) : (s.setChoices k).lp = s.lp := rfl
@[simp] theorem setChoices_mp (k : Nat) : (s.setChoices k).mp = s.mp := rfl
@[simp] theorem setChoices_itElapsed (k : Nat) : (s.setChoices k).itElapsed = s.itElapsed := rfl
@[simp] theorem setChoices_latched (k : Nat) : (s.setChoices k).latched = s.latched := rfl
@[simp] theorem setChoices_mem (k : Nat) : (s.setChoices k).mem = s.mem := rfl
@[simp] theorem setChoices_readData (k : Nat) : (s.setChoices k).readData = s.readData := rfl
@[simp] theorem setChoices_choices (k : Nat) : (s.setChoices k).choices = k := rfl
@[simp] theorem setChoices_pending (k : Nat) : (s.setChoices k).pending = s.pending := rfl
@[simp] theorem setChoices_watch (k : Nat) (n : Stn) : (s.setChoices k).watch n = s.watch n := rfl
@[simp] theorem setChoices_route (k : Nat) (n : Fin 8) : (s.setChoices k).route n = s.route n := rfl
@[simp] theorem setChoices_st (k : Nat) (n : Stn) : (s.setChoices k).st n = s.st n := rfl
@[simp] theorem setChoices_header (k : Nat) : (s.setChoices k).header = s.header := rfl

/-! ### setPending -/

@[simp] theorem setPending_rw (q : List Instr) : (s.setPending q).rw = s.rw := rfl
@[simp] theorem setPending_au (q : List Instr) : (s.setPending q).au = s.au := rfl
@[simp] theorem setPending_ctx (q : List Instr) : (s.setPending q).ctx = s.ctx := rfl
@[simp] theorem setPending_sm (q : List Instr) : (s.setPending q).sm = s.sm := rfl
@[simp] theorem setPending_nu (q : List Instr) : (s.setPending q).nu = s.nu := rfl
@[simp] theorem setPending_ls (q : List Instr) : (s.setPending q).ls = s.ls := rfl
@[simp] theorem setPending_xe (q : List Instr) : (s.setPending q).xe = s.xe := rfl
@[simp] theorem setPending_rm (q : List Instr) : (s.setPending q).rm = s.rm := rfl
@[simp] theorem setPending_wu (q : List Instr) : (s.setPending q).wu = s.wu := rfl
@[simp] theorem setPending_lp (q : List Instr) : (s.setPending q).lp = s.lp := rfl
@[simp] theorem setPending_mp (q : List Instr) : (s.setPending q).mp = s.mp := rfl
@[simp] theorem setPending_itElapsed (q : List Instr) : (s.setPending q).itElapsed = s.itElapsed := rfl
@[simp] theorem setPending_latched (q : List Instr) : (s.setPending q).latched = s.latched := rfl
@[simp] theorem setPending_mem (q : List Instr) : (s.setPending q).mem = s.mem := rfl
@[simp] theorem setPending_readData (q : List Instr) : (s.setPending q).readData = s.readData := rfl
@[simp] theorem setPending_choices (q : List Instr) : (s.setPending q).choices = s.choices := rfl
@[simp] theorem setPending_pending (q : List Instr) : (s.setPending q).pending = q := rfl
@[simp] theorem setPending_watch (q : List Instr) (n : Stn) : (s.setPending q).watch n = s.watch n := rfl
@[simp] theorem setPending_route (q : List Instr) (n : Fin 8) : (s.setPending q).route n = s.route n := rfl
@[simp] theorem setPending_st (q : List Instr) (n : Stn) : (s.setPending q).st n = s.st n := rfl
@[simp] theorem setPending_header (q : List Instr) : (s.setPending q).header = s.header := rfl

/-! ### modSt -/

@[simp] theorem modSt_rw (n : Stn) (f : Station → Station) : (s.modSt n f).rw = s.rw := rfl
@[simp] theorem modSt_au (n : Stn) (f : Station → Station) : (s.modSt n f).au = s.au := rfl
@[simp] theorem modSt_sm (n : Stn) (f : Station → Station) : (s.modSt n f).sm = s.sm := rfl
@[simp] theorem modSt_nu (n : Stn) (f : Station → Station) : (s.modSt n f).nu = s.nu := rfl
@[simp] theorem modSt_ls (n : Stn) (f : Station → Station) : (s.modSt n f).ls = s.ls := rfl
@[simp] theorem modSt_xe (n : Stn) (f : Station → Station) : (s.modSt n f).xe = s.xe := rfl
@[simp] theorem modSt_rm (n : Stn) (f : Station → Station) : (s.modSt n f).rm = s.rm := rfl
@[simp] theorem modSt_wu (n : Stn) (f : Station → Station) : (s.modSt n f).wu = s.wu := rfl
@[simp] theorem modSt_lp (n : Stn) (f : Station → Station) : (s.modSt n f).lp = s.lp := rfl
@[simp] theorem modSt_mp (n : Stn) (f : Station → Station) : (s.modSt n f).mp = s.mp := rfl
@[simp] theorem modSt_itElapsed (n : Stn) (f : Station → Station) : (s.modSt n f).itElapsed = s.itElapsed := rfl
@[simp] theorem modSt_latched (n : Stn) (f : Station → Station) : (s.modSt n f).latched = s.latched := rfl
@[simp] theorem modSt_mem (n : Stn) (f : Station → Station) : (s.modSt n f).mem = s.mem := rfl
@[simp] theorem modSt_readData (n : Stn) (f : Station → Station) : (s.modSt n f).readData = s.readData := rfl
@[simp] theorem modSt_choices (n : Stn) (f : Station → Station) : (s.modSt n f).choices = s.choices := rfl
@[simp] theorem modSt_pending (n : Stn) (f : Station → Station) : (s.modSt n f).pending = s.pending := rfl
@[simp] theorem modSt_watch (n m : Stn) (f : Station → Station) : (s.modSt n f).watch m = s.watch m := rfl
@[simp] theorem modSt_route (n : Stn) (b : Fin 8) (f : Station → Station) : (s.modSt n f).route b = s.route b := rfl
@[simp] theorem modSt_header (n : Stn) (f : Station → Station) : (s.modSt n f).header = s.header := rfl

/-- Reading a context after a change: the changed one. -/
@[simp] theorem st_modSt_self (n : Stn) (f : Station → Station) : (s.modSt n f).st n = f (s.st n) := by
  exact get_set_self ..

/-- Reading a context after a change: any other. -/
theorem st_modSt_of_ne {n m : Stn} (h : m ≠ n) (f : Station → Station) : (s.modSt n f).st m = s.st m := by
  exact get_set_of_ne _ h _

theorem st_modSt (n m : Stn) (f : Station → Station) :
    (s.modSt n f).st m = if m = n then f (s.st n) else s.st m := by
  by_cases h : m = n
  · subst h; simp
  · simp [h, st_modSt_of_ne]

/-- Two changes of one context are one. -/
theorem modSt_modSt (n : Stn) (f g : Station → Station) : (s.modSt n f).modSt n g = s.modSt n fun st => g (f st) := by
  simp only [modSt, get_set_self, set_set]

/-- A change of a context is what it makes of the context as it stands. -/
theorem modSt_congr (n : Stn) {f g : Station → Station} (h : f (s.st n) = g (s.st n)) : s.modSt n f = s.modSt n g := by
  unfold modSt; unfold st at h; rw [h]

/-! ### modWatch, setRoute -/

@[simp] theorem modWatch_rw (n : Stn) (f : WatchRecord → WatchRecord) : (s.modWatch n f).rw = s.rw := rfl
@[simp] theorem modWatch_au (n : Stn) (f : WatchRecord → WatchRecord) : (s.modWatch n f).au = s.au := rfl
@[simp] theorem modWatch_ctx (n : Stn) (f : WatchRecord → WatchRecord) : (s.modWatch n f).ctx = s.ctx := rfl
@[simp] theorem modWatch_sm (n : Stn) (f : WatchRecord → WatchRecord) : (s.modWatch n f).sm = s.sm := rfl
@[simp] theorem modWatch_nu (n : Stn) (f : WatchRecord → WatchRecord) : (s.modWatch n f).nu = s.nu := rfl
@[simp] theorem modWatch_ls (n : Stn) (f : WatchRecord → WatchRecord) : (s.modWatch n f).ls = s.ls := rfl
@[simp] theorem modWatch_xe (n : Stn) (f : WatchRecord → WatchRecord) : (s.modWatch n f).xe = s.xe := rfl
@[simp] theorem modWatch_rm (n : Stn) (f : WatchRecord → WatchRecord) : (s.modWatch n f).rm = s.rm := rfl
@[simp] theorem modWatch_lp (n : Stn) (f : WatchRecord → WatchRecord) : (s.modWatch n f).lp = s.lp := rfl
@[simp] theorem modWatch_mp (n : Stn) (f : WatchRecord → WatchRecord) : (s.modWatch n f).mp = s.mp := rfl
@[simp] theorem modWatch_itElapsed (n : Stn) (f : WatchRecord → WatchRecord) : (s.modWatch n f).itElapsed = s.itElapsed := rfl
@[simp] theorem modWatch_latched (n : Stn) (f : WatchRecord → WatchRecord) : (s.modWatch n f).latched = s.latched := rfl
@[simp] theorem modWatch_mem (n : Stn) (f : WatchRecord → WatchRecord) : (s.modWatch n f).mem = s.mem := rfl
@[simp] theorem modWatch_readData (n : Stn) (f : WatchRecord → WatchRecord) : (s.modWatch n f).readData = s.readData := rfl
@[simp] theorem modWatch_choices (n : Stn) (f : WatchRecord → WatchRecord) : (s.modWatch n f).choices = s.choices := rfl
@[simp] theorem modWatch_pending (n : Stn) (f : WatchRecord → WatchRecord) : (s.modWatch n f).pending = s.pending := rfl
@[simp] theorem modWatch_st (n m : Stn) (f : WatchRecord → WatchRecord) : (s.modWatch n f).st m = s.st m := rfl
@[simp] theorem modWatch_header (n : Stn) (f : WatchRecord → WatchRecord) : (s.modWatch n f).header = s.header := rfl
@[simp] theorem modWatch_queue (n : Stn) (f : WatchRecord → WatchRecord) :
    (s.modWatch n f).wu.queue = s.wu.queue := rfl

@[simp] theorem watch_modWatch_self (n : Stn) (f : WatchRecord → WatchRecord) :
    (s.modWatch n f).watch n = f (s.watch n) := by
  exact get_set_self ..

theorem watch_modWatch_of_ne {n m : Stn} (h : m ≠ n) (f : WatchRecord → WatchRecord) :
    (s.modWatch n f).watch m = s.watch m := by
  exact get_set_of_ne _ h _

@[simp] theorem route_setRoute_self (b : Fin 8) (e : RouteEntry) : (s.setRoute b e).route b = e := by
  exact get_set_self ..

theorem route_setRoute_of_ne {b c : Fin 8} (h : c ≠ b) (e : RouteEntry) : (s.setRoute b e).route c = s.route c := by
  exact get_set_of_ne _ h _

@[simp] theorem route_forgetRoutes (b : Fin 8) : s.forgetRoutes.route b = .unknown := by
  exact get_replicate ..

end State

end Sys2Proof.Machine
end

