-- ==== Sys2Proof/Laws/Settle.lean ====
section
/-! SUPPORT. What goes on of itself after a command: the folds over all stations, requests on their way, and the parts of `settle`. -/

namespace Sys2Proof.Machine

/-! ### Folds over all stations -/

/-- What each station's change keeps, the fold keeps. -/
theorem forStations_keeps {P : State → Prop} {f : Stn → State → State} (h : ∀ n s, P s → P (f n s)) (s : State)
    (hs : P s) : P (forStations f s) := by
  unfold forStations
  generalize allStations = l
  induction l generalizing s with
  | nil => exact hs
  | cons n l ih => exact ih _ (h n s hs)

/-- A part of the state that no station's change touches. -/
theorem forStations_same {α : Type} (g : State → α) {f : Stn → State → State} (h : ∀ n s, g (f n s) = g s)
    (s : State) : g (forStations f s) = g s :=
  forStations_keeps (P := fun t => g t = g s) (fun n t ht => (h n t).trans ht) s rfl

/-- A fold whose changes do nothing where `P` holds, does nothing. -/
theorem forStations_id {f : Stn → State → State} {s : State} (h : ∀ n, f n s = s) : forStations f s = s := by
  unfold forStations
  generalize allStations = l
  induction l with
  | nil => rfl
  | cons n l ih => simpa [h n] using ih

/-- The fold, seen at one station: `f` changes only its own station's part `g n`, by what that part and the kept part
`k` are. -/
theorem forStations_at {α β : Type} (k : State → β) (g : Stn → State → α) {f : Stn → State → State}
    (hk : ∀ n s, k (f n s) = k s) (hother : ∀ n m s, m ≠ n → g m (f n s) = g m s)
    (hown : ∀ n s t, k s = k t → g n s = g n t → g n (f n s) = g n (f n t)) (s : State) (m : Stn) :
    g m (forStations f s) = g m (f m s) := by
  have key : ∀ (l : List Stn) (u : State), k u = k s → g m u = g m s → l.Nodup →
      g m (l.foldl (fun s n => f n s) u) = if m ∈ l then g m (f m s) else g m s := by
    intro l
    induction l with
    | nil => intro u _ hu _; simpa using hu
    | cons n l ih =>
      intro u hku hu hl
      obtain ⟨hn, hl'⟩ := List.nodup_cons.mp hl
      by_cases h : m = n
      · subst h
        have hstay : ∀ (l : List Stn) (v : State), m ∉ l → g m (l.foldl (fun s n => f n s) v) = g m v := by
          intro l
          induction l with
          | nil => intro v _; rfl
          | cons x l ih2 =>
            intro v hx
            simp only [List.mem_cons, not_or] at hx
            simp only [List.foldl_cons]
            rw [ih2 _ hx.2, hother _ _ _ hx.1]
        simp only [List.foldl_cons, List.mem_cons, true_or, if_true]
        rw [hstay l _ hn]
        exact hown m u s hku hu
      · simp only [List.foldl_cons, List.mem_cons, h, false_or]
        exact ih _ ((hk n u).trans hku) ((hother n m u h).trans hu) hl'
  have := key allStations s rfl rfl (List.nodup_finRange 64)
  simpa [forStations, allStations] using this

/-! ### Requests on their way -/

/-- Picking takes a request out of the queue. -/
theorem pickRequest_mem {k : Nat} {l : List Request} {r : Request} {b : Bool} (h : pickRequest k l = some (r, b)) :
    r ∈ l := by
  cases l with
  | nil => simp [pickRequest] at h
  | cons x l =>
    simp only [pickRequest] at h
    split at h
    · cases h; simp
    · simp only [Option.some.injEq, Prod.mk.injEq] at h
      rw [← h.1]
      cases hf : (x :: l).find? fun y =>
          y.station == ((x :: l).getD (Config.smPick k % (l.length + 1)) x).station with
      | none => simp
      | some y => exact List.mem_of_find?_eq_some hf

/-- Something waits, so something is picked. -/
theorem pickRequest_isSome {k : Nat} {l : List Request} (h : l ≠ []) : ∃ r b, pickRequest k l = some (r, b) := by
  cases l with
  | nil => exact absurd rfl h
  | cons x l =>
    simp only [pickRequest]
    split <;> exact ⟨_, _, rfl⟩

namespace State

theorem handSm_rest (s : State) :
    ∃ q m c, s.handSm = ((s.modSm fun x => { x with queue := q }).modMp fun x => { x with sm := m }).setChoices c := by
  unfold handSm
  split
  · exact ⟨s.sm.queue, s.mp.sm, s.choices, rfl⟩
  · split
    · exact ⟨s.sm.queue, s.mp.sm, s.choices, rfl⟩
    · exact ⟨_, _, _, rfl⟩

theorem handWu_rest (s : State) :
    ∃ q m, s.handWu = (s.modWu fun x => { x with queue := q }).modMp fun x => { x with wu := m } := by
  unfold handWu
  split
  · exact ⟨_, _, rfl⟩
  · exact ⟨s.wu.queue, s.mp.wu, rfl⟩

/-- Requests that go on change the two queues, MP and the count of free choices, and nothing else. -/
theorem serveMemory_rest (s : State) :
    ∃ q w m c, s.serveMemory =
      (((s.modSm fun x => { x with queue := q }).modWu fun x => { x with queue := w }).modMp fun _ => m).setChoices c := by
  unfold serveMemory
  split
  · exact ⟨s.sm.queue, s.wu.queue, s.mp, s.choices, rfl⟩
  · obtain ⟨q, m, c, h⟩ := s.handSm_rest
    obtain ⟨q', m', h'⟩ := s.handSm.handWu_rest
    rw [h', h]
    exact ⟨_, _, _, _, rfl⟩

section
variable (s : State)

@[simp] theorem serveMemory_rw : s.serveMemory.rw = s.rw := by obtain ⟨_, _, _, _, h⟩ := s.serveMemory_rest; rw [h]; rfl
@[simp] theorem serveMemory_au : s.serveMemory.au = s.au := by obtain ⟨_, _, _, _, h⟩ := s.serveMemory_rest; rw [h]; rfl
@[simp] theorem serveMemory_ctx : s.serveMemory.ctx = s.ctx := by
  obtain ⟨_, _, _, _, h⟩ := s.serveMemory_rest; rw [h]; rfl
@[simp] theorem serveMemory_nu : s.serveMemory.nu = s.nu := by obtain ⟨_, _, _, _, h⟩ := s.serveMemory_rest; rw [h]; rfl
@[simp] theorem serveMemory_ls : s.serveMemory.ls = s.ls := by obtain ⟨_, _, _, _, h⟩ := s.serveMemory_rest; rw [h]; rfl
@[simp] theorem serveMemory_xe : s.serveMemory.xe = s.xe := by obtain ⟨_, _, _, _, h⟩ := s.serveMemory_rest; rw [h]; rfl
@[simp] theorem serveMemory_rm : s.serveMemory.rm = s.rm := by obtain ⟨_, _, _, _, h⟩ := s.serveMemory_rest; rw [h]; rfl
@[simp] theorem serveMemory_lp : s.serveMemory.lp = s.lp := by obtain ⟨_, _, _, _, h⟩ := s.serveMemory_rest; rw [h]; rfl
@[simp] theorem serveMemory_itElapsed : s.serveMemory.itElapsed = s.itElapsed := by
  obtain ⟨_, _, _, _, h⟩ := s.serveMemory_rest; rw [h]; rfl
@[simp] theorem serveMemory_latched : s.serveMemory.latched = s.latched := by
  obtain ⟨_, _, _, _, h⟩ := s.serveMemory_rest; rw [h]; rfl
@[simp] theorem serveMemory_mem : s.serveMemory.mem = s.mem := by
  obtain ⟨_, _, _, _, h⟩ := s.serveMemory_rest; rw [h]; rfl
@[simp] theorem serveMemory_readData : s.serveMemory.readData = s.readData := by
  obtain ⟨_, _, _, _, h⟩ := s.serveMemory_rest; rw [h]; rfl
@[simp] theorem serveMemory_pending : s.serveMemory.pending = s.pending := by
  obtain ⟨_, _, _, _, h⟩ := s.serveMemory_rest; rw [h]; rfl
@[simp] theorem serveMemory_st (n : Stn) : s.serveMemory.st n = s.st n := by
  obtain ⟨_, _, _, _, h⟩ := s.serveMemory_rest; rw [h]; rfl
@[simp] theorem serveMemory_watch (n : Stn) : s.serveMemory.watch n = s.watch n := by
  obtain ⟨_, _, _, _, h⟩ := s.serveMemory_rest; rw [h]; rfl
@[simp] theorem serveMemory_restartPending : s.serveMemory.sm.restartPending = s.sm.restartPending := by
  obtain ⟨_, _, _, _, h⟩ := s.serveMemory_rest; rw [h]; rfl

end

/-! ### The parts of `settle` -/

/-- No restart changes are owed or under way: none begin. -/
theorem beginRestarts_of_not_busy {s : State} (h : s.restartBusy = false) : s.beginRestarts = s := by
  simp only [restartBusy, Bool.or_eq_false_iff, List.any_eq_false, allStations, List.mem_finRange, true_implies,
    Bool.not_eq_true] at h
  unfold beginRestarts
  split
  · rfl
  · have : s.oweRestarts = s := by simp [oweRestarts, h.1.1]
    rw [this]
    exact forStations_id fun n => by simp [takeRestart, h.1.2 n]

/-- No cascade waits for its end. -/
theorem endCascade_of_none {s : State} (h : ∀ t, s.xe.turn = some t → t.stage ≠ .cascade) : s.endCascade = s := by
  unfold endCascade
  split
  · rfl
  · next t ht => simp [h t ht]

/-- No restart followings are due. -/
theorem restartFollows_of_not_due {s : State} (h : s.sm.followDue = false) : s.restartFollows = s := by
  simp [restartFollows, h]

/-- While restart changes are under way no restart following is made. -/
theorem restartFollows_of_busy {s : State} (h : s.restartBusy = true) : s.restartFollows = s := by
  simp [restartFollows, h]

/-- Where no operation is under way, none has a job that `p` admits. -/
theorem noOps_iff (s : State) : s.noOps = true ↔ ∀ n, (s.st n).op = none := by
  simp only [noOps, anyJob, Bool.not_eq_true', List.any_eq_false, allStations, List.mem_finRange, true_implies]
  constructor
  · intro h n
    have := h n
    cases ho : (s.st n).op with
    | none => rfl
    | some o => simp [ho] at this
  · intro h n; simp [h n]

end State

end Sys2Proof.Machine
end

