-- ==== Sys2Proof/Laws/Ends.lean ====
section
/-! SUPPORT. The shared frames of the meanings: when the end of a request, an application of the head entry or a finding goes on, and what it answers then. -/

namespace Sys2Proof.Machine

namespace State

/-! ### The end of a request -/

/-- The end of a read whose bytes have the length asked for. -/
theorem whenRead_of {s : State} {k : RequestKind} {r : Request} {data : List Byte} {go : Request → State → Answer}
    (hr : s.mp.current = some r) (hk : r.kind = k) (hw : k.isWrite = false) (hl : data.length = r.length) :
    s.whenRead k data go = go r s.afterRead := by
  subst hk
  simp [whenRead, whenDone, hr, hl, completeRequest, hw, afterRead]

/-- The end of a write. -/
theorem whenDone_of {s : State} {k : RequestKind} {r : Request} {go : Request → State → Answer}
    (hr : s.mp.current = some r) (hk : r.kind = k) (hw : k.isWrite = true) :
    s.whenDone k go = go r (s.afterWrite r) := by
  subst hk
  simp [whenDone, hr, completeRequest, hw, afterWrite]

/-- A request of a station that SM works on. -/
theorem whenOp_of {s : State} {r : Request} {n : Stn} {o : Operation} {go : Stn → Operation → State → Answer}
    (hn : r.station = some n) (ho : (s.st n).op = some o) : s.whenOp r go = go n o s := by
  simp [whenOp, hn, ho]

/-- Whatever answers next after the end of a request was the end of the request in progress, or had no effect. -/
theorem whenDone_next {k : RequestKind} {s t : State} {go : Request → State → Answer}
    (h : s.whenDone k go = .next t) :
    t = s ∨ ∃ r, s.mp.current = some r ∧ r.kind = k ∧ go r (s.completeRequest r) = .next t := by
  unfold whenDone at h
  split at h
  · cases h; exact .inl rfl
  · next r hr =>
    split at h
    · next hk => exact .inr ⟨r, hr, hk, h⟩
    · cases h; exact .inl rfl

theorem whenRead_next {k : RequestKind} {data : List Byte} {s t : State} {go : Request → State → Answer}
    (h : s.whenRead k data go = .next t) :
    t = s ∨ ∃ r, s.mp.current = some r ∧ r.kind = k ∧ data.length = r.length
      ∧ go r (s.completeRequest r) = .next t := by
  rcases whenDone_next h with h0 | ⟨r, h1, h2, h3⟩
  · exact .inl h0
  · split at h3
    · next hl => exact .inr ⟨r, h1, h2, hl, h3⟩
    · cases h3

/-- The end of a request that MP does not have in progress has no effect (R176). -/
theorem whenDone_of_other {k : RequestKind} {s : State} {go : Request → State → Answer}
    (h : ∀ r, s.mp.current = some r → r.kind ≠ k) : s.whenDone k go = .next s := by
  unfold whenDone
  split
  · rfl
  · next r hr => rw [if_neg (h r hr)]

theorem whenOp_next {r : Request} {s t : State} {go : Stn → Operation → State → Answer}
    (h : s.whenOp r go = .next t) :
    ∃ n o, r.station = some n ∧ (s.st n).op = some o ∧ go n o s = .next t := by
  unfold whenOp at h
  split at h
  · cases h
  · next n hn =>
    split at h
    · cases h
    · next o ho => exact ⟨n, o, hn, ho, h⟩

@[simp] theorem afterRead_st (s : State) (n : Stn) : s.afterRead.st n = s.st n := rfl
@[simp] theorem afterRead_xe (s : State) : s.afterRead.xe = s.xe := rfl
@[simp] theorem afterRead_rw (s : State) : s.afterRead.rw = s.rw := rfl
@[simp] theorem afterRead_header (s : State) : s.afterRead.header = s.header := rfl
@[simp] theorem afterWrite_st (s : State) (r : Request) (n : Stn) : (s.afterWrite r).st n = s.st n := rfl
@[simp] theorem afterWrite_xe (s : State) (r : Request) : (s.afterWrite r).xe = s.xe := rfl
@[simp] theorem afterWrite_rw (s : State) (r : Request) : (s.afterWrite r).rw = s.rw := rfl
@[simp] theorem afterWrite_header (s : State) (r : Request) : (s.afterWrite r).header = s.header := rfl

/-! ### The head attention entry -/

/-- An entry that may be taken is applied. -/
theorem takeHead_of {s : State} {n : Stn} {a : Action} {rest : List Entry} (h : s.headReady n a rest)
    (f : Stn → State → State) : s.takeHead a f = .next (f n (s.startOp n .application .final)).serveMemory := by
  obtain ⟨h1, h2⟩ := h
  simp [takeHead, h1, h2]

/-- An application that answers next was made, or the entry waits. -/
theorem takeHead_next {a : Action} {f : Stn → State → State} {s t : State} (h : s.takeHead a f = .next t) :
    ∃ n rest, s.au = ⟨n, a⟩ :: rest
      ∧ ((s.mayApply n = true ∧ t = (f n (s.startOp n .application .final)).serveMemory)
        ∨ (s.mayApply n = false ∧ t = s)) := by
  unfold takeHead at h
  split at h
  · cases h
  · next e rest hau =>
    split at h
    · next ha =>
      obtain ⟨n, b⟩ := e
      simp only at ha
      subst ha
      split at h
      · next hm => cases h; exact ⟨n, rest, hau, .inl ⟨hm, rfl⟩⟩
      · next hm => cases h; exact ⟨n, rest, hau, .inr ⟨by simpa using hm, rfl⟩⟩
    · cases h

/-! ### Findings -/

/-- A finding of a turn in progress is taken with LP in IDLE. -/
theorem deliver_of {s : State} {t : Turn} (h : s.xe.turn = some t) (f : Finding) (quiet : Bool) :
    s.deliver f quiet = .next ((s.modLp fun _ => .reset).takeFinding t f quiet).settle := by
  simp [deliver, h]

theorem deliver_next {s u : State} {f : Finding} {quiet : Bool} (h : s.deliver f quiet = .next u) :
    ∃ t, s.xe.turn = some t ∧ u = ((s.modLp fun _ => .reset).takeFinding t f quiet).settle := by
  unfold deliver at h
  simp only [modLp_xe] at h
  split at h
  · next t ht => cases h; exact ⟨t, ht, rfl⟩
  · cases h

/-! ### Outcomes -/

/-- XE has handed the outcome over: the turn holds it with its mark, and the staging buffer is empty. -/
theorem setOutcome_xe {s : State} {t : Turn} (h : s.xe.turn = some t) (o : Outcome) (m : TurnMark) :
    (s.setOutcome o m).xe = ⟨some { t with stage := .handed o m }, []⟩ := by
  simp [setOutcome, modTurn, h]

/-- While a status half write of the turn's station is under way, the outcome waits. -/
theorem handOver_waits {s : State} {t : Turn} (h : s.xe.turn = some t) (hop : s.hasOp t.station = true)
    (o : Outcome) (m : TurnMark) : s.handOver o m = s.setOutcome o m := by
  have hop' : (s.setOutcome o m).hasOp t.station = true := hop
  simp [handOver, takeOutcome, setOutcome_xe h, hop']

/-- With no write of the turn's station under way, SM acts on the outcome at once. -/
theorem handOver_acts {s : State} {t : Turn} (h : s.xe.turn = some t) (hop : s.hasOp t.station = false)
    (o : Outcome) (m : TurnMark) :
    s.handOver o m = (s.setOutcome o m).actOn { t with stage := .handed o m } o := by
  have hop' : (s.setOutcome o m).hasOp t.station = false := hop
  simp [handOver, takeOutcome, setOutcome_xe h, hop']

/-- The end of a turn does not look at where the turn stands. -/
theorem finishTurn_setOutcome {s : State} {t : Turn} (h : s.xe.turn = some t) (o : Outcome) (m : TurnMark)
    (result : StationState) : (s.setOutcome o m).finishTurn result = s.finishTurn result := by
  simp only [finishTurn, setOutcome_xe h, h]; rfl

/-! ### Operations under way -/

theorem anyJob_iff (s : State) (p : Job → Bool) :
    s.anyJob p = true ↔ ∃ n o, (s.st n).op = some o ∧ p o.job = true := by
  simp only [anyJob, List.any_eq_true, allStations, List.mem_finRange, true_and]
  constructor
  · rintro ⟨n, h⟩
    cases ho : (s.st n).op with
    | none => simp [ho] at h
    | some o => exact ⟨n, o, ho, by simpa [ho] using h⟩
  · rintro ⟨n, o, ho, hp⟩
    exact ⟨n, by simp [ho, hp]⟩

end State

/-! ### Bytes -/

/-- A field of `k` bytes has `k` bytes. -/
theorem leBytes_length (n k : Nat) : (leBytes n k).length = k := by
  induction k generalizing n with
  | zero => rfl
  | succ k ih => simp [leBytes, ih]

end Sys2Proof.Machine
end

