-- ==== Sys2Proof/Laws/Engaged.lean ====
section
/-! SUPPORT. Who is ENGAGED: what each shared operation does to the station states and the turn, as far as `oneEngaged` sees them. -/

namespace Sys2Proof.Machine

/-- The turn as `oneEngaged` sees it. -/
def Turn.grant (t : Turn) : Stn × StationState := (t.station, t.grantedFrom)

namespace State

def engagedAt (s : State) (m : Stn) : Prop := (s.st m).state = .engaged

def grant (s : State) : Option (Stn × StationState) := s.xe.turn.map Turn.grant

section
variable (s : State) (n m : Stn)

/-! ### Updates that neither see nor change the station states or the turn -/

@[simp] theorem engagedAt_modRw (f : RegisterWindow → RegisterWindow) : (s.modRw f).engagedAt m ↔ s.engagedAt m := Iff.rfl
@[simp] theorem grant_modRw (f : RegisterWindow → RegisterWindow) : (s.modRw f).grant = s.grant := rfl
@[simp] theorem engagedAt_setAu (q : List Entry) : (s.setAu q).engagedAt m ↔ s.engagedAt m := Iff.rfl
@[simp] theorem grant_setAu (q : List Entry) : (s.setAu q).grant = s.grant := rfl
@[simp] theorem engagedAt_modSm (f : StationManager → StationManager) : (s.modSm f).engagedAt m ↔ s.engagedAt m := Iff.rfl
@[simp] theorem grant_modSm (f : StationManager → StationManager) : (s.modSm f).grant = s.grant := rfl
@[simp] theorem engagedAt_modNu (f : NoticeUnit → NoticeUnit) : (s.modNu f).engagedAt m ↔ s.engagedAt m := Iff.rfl
@[simp] theorem grant_modNu (f : NoticeUnit → NoticeUnit) : (s.modNu f).grant = s.grant := rfl
@[simp] theorem engagedAt_modLs (f : Scheduler → Scheduler) : (s.modLs f).engagedAt m ↔ s.engagedAt m := Iff.rfl
@[simp] theorem grant_modLs (f : Scheduler → Scheduler) : (s.modLs f).grant = s.grant := rfl
@[simp] theorem engagedAt_setRm (r : Vector RouteEntry 8) : (s.setRm r).engagedAt m ↔ s.engagedAt m := Iff.rfl
@[simp] theorem grant_setRm (r : Vector RouteEntry 8) : (s.setRm r).grant = s.grant := rfl
@[simp] theorem engagedAt_modWu (f : WatchUnit → WatchUnit) : (s.modWu f).engagedAt m ↔ s.engagedAt m := Iff.rfl
@[simp] theorem grant_modWu (f : WatchUnit → WatchUnit) : (s.modWu f).grant = s.grant := rfl
@[simp] theorem engagedAt_modLp (f : LinkPort → LinkPort) : (s.modLp f).engagedAt m ↔ s.engagedAt m := Iff.rfl
@[simp] theorem grant_modLp (f : LinkPort → LinkPort) : (s.modLp f).grant = s.grant := rfl
@[simp] theorem engagedAt_modMp (f : MemoryPort → MemoryPort) : (s.modMp f).engagedAt m ↔ s.engagedAt m := Iff.rfl
@[simp] theorem grant_modMp (f : MemoryPort → MemoryPort) : (s.modMp f).grant = s.grant := rfl
@[simp] theorem engagedAt_setLatched (l : Option Latched) : (s.setLatched l).engagedAt m ↔ s.engagedAt m := Iff.rfl
@[simp] theorem grant_setLatched (l : Option Latched) : (s.setLatched l).grant = s.grant := rfl
@[simp] theorem engagedAt_setMem (x : Memory) : (s.setMem x).engagedAt m ↔ s.engagedAt m := Iff.rfl
@[simp] theorem grant_setMem (x : Memory) : (s.setMem x).grant = s.grant := rfl
@[simp] theorem engagedAt_setPending (q : List Instr) : (s.setPending q).engagedAt m ↔ s.engagedAt m := Iff.rfl
@[simp] theorem grant_setPending (q : List Instr) : (s.setPending q).grant = s.grant := rfl
@[simp] theorem engagedAt_modWatch (f : WatchRecord → WatchRecord) : (s.modWatch n f).engagedAt m ↔ s.engagedAt m := Iff.rfl
@[simp] theorem grant_modWatch (f : WatchRecord → WatchRecord) : (s.modWatch n f).grant = s.grant := rfl
@[simp] theorem engagedAt_setRoute (b : Fin 8) (e : RouteEntry) : (s.setRoute b e).engagedAt m ↔ s.engagedAt m := Iff.rfl
@[simp] theorem grant_setRoute (b : Fin 8) (e : RouteEntry) : (s.setRoute b e).grant = s.grant := rfl
@[simp] theorem engagedAt_setElapsed (k : Nat) : (s.setElapsed k).engagedAt m ↔ s.engagedAt m := Iff.rfl
@[simp] theorem grant_setElapsed (k : Nat) : (s.setElapsed k).grant = s.grant := rfl
@[simp] theorem engagedAt_setReadData (w : Word) : (s.setReadData w).engagedAt m ↔ s.engagedAt m := Iff.rfl
@[simp] theorem grant_setReadData (w : Word) : (s.setReadData w).grant = s.grant := rfl
@[simp] theorem engagedAt_setNotice : (s.setNotice n).engagedAt m ↔ s.engagedAt m := Iff.rfl
@[simp] theorem grant_setNotice : (s.setNotice n).grant = s.grant := rfl
@[simp] theorem engagedAt_askSm (k : RequestKind) (p : Option Stn) (a : Addr) (l : Nat) (d : List Byte) : (s.askSm k p a l d).engagedAt m ↔ s.engagedAt m := Iff.rfl
@[simp] theorem grant_askSm (k : RequestKind) (p : Option Stn) (a : Addr) (l : Nat) (d : List Byte) : (s.askSm k p a l d).grant = s.grant := rfl
@[simp] theorem engagedAt_askXe (k : RequestKind) (p : Stn) (a : Addr) (l : Nat) (d : List Byte) : (s.askXe k p a l d).engagedAt m ↔ s.engagedAt m := Iff.rfl
@[simp] theorem grant_askXe (k : RequestKind) (p : Stn) (a : Addr) (l : Nat) (d : List Byte) : (s.askXe k p a l d).grant = s.grant := rfl
@[simp] theorem engagedAt_askSlot (l : Nat) : (s.askSlot n l).engagedAt m ↔ s.engagedAt m := Iff.rfl
@[simp] theorem grant_askSlot (l : Nat) : (s.askSlot n l).grant = s.grant := rfl
@[simp] theorem engagedAt_joinDue : (s.joinDue n).engagedAt m ↔ s.engagedAt m := Iff.rfl
@[simp] theorem grant_joinDue : (s.joinDue n).grant = s.grant := rfl
@[simp] theorem engagedAt_leaveDue : (s.leaveDue n).engagedAt m ↔ s.engagedAt m := Iff.rfl
@[simp] theorem grant_leaveDue : (s.leaveDue n).grant = s.grant := rfl
@[simp] theorem engagedAt_deferDue : (s.deferDue n).engagedAt m ↔ s.engagedAt m := Iff.rfl
@[simp] theorem grant_deferDue : (s.deferDue n).grant = s.grant := rfl
@[simp] theorem engagedAt_forgetRoutes : (s.forgetRoutes).engagedAt m ↔ s.engagedAt m := Iff.rfl
@[simp] theorem grant_forgetRoutes : (s.forgetRoutes).grant = s.grant := rfl
@[simp] theorem engagedAt_askLp (p : Send) (q : Bool) : (s.askLp p q).engagedAt m ↔ s.engagedAt m := Iff.rfl
@[simp] theorem grant_askLp (p : Send) (q : Bool) : (s.askLp p q).grant = s.grant := rfl
@[simp] theorem engagedAt_askLink (a : Addr) : (s.askLink n a).engagedAt m ↔ s.engagedAt m := Iff.rfl
@[simp] theorem grant_askLink (a : Addr) : (s.askLink n a).grant = s.grant := rfl
@[simp] theorem engagedAt_askChainHead : (s.askChainHead n).engagedAt m ↔ s.engagedAt m := Iff.rfl
@[simp] theorem grant_askChainHead : (s.askChainHead n).grant = s.grant := rfl
@[simp] theorem engagedAt_askBlock (a : Addr) : (s.askBlock n a).engagedAt m ↔ s.engagedAt m := Iff.rfl
@[simp] theorem grant_askBlock (a : Addr) : (s.askBlock n a).grant = s.grant := rfl
@[simp] theorem engagedAt_askConfiguration : (s.askConfiguration n).engagedAt m ↔ s.engagedAt m := Iff.rfl
@[simp] theorem grant_askConfiguration : (s.askConfiguration n).grant = s.grant := rfl
@[simp] theorem engagedAt_askResult (a : Addr) (d : List Byte) : (s.askResult n a d).engagedAt m ↔ s.engagedAt m := Iff.rfl
@[simp] theorem grant_askResult (a : Addr) (d : List Byte) : (s.askResult n a d).grant = s.grant := rfl
@[simp] theorem engagedAt_askStateWord (k : RequestKind) (p : Stn) (a : Addr) (v : Nat) : (s.askStateWord k p a v).engagedAt m ↔ s.engagedAt m := Iff.rfl
@[simp] theorem grant_askStateWord (k : RequestKind) (p : Stn) (a : Addr) (v : Nat) : (s.askStateWord k p a v).grant = s.grant := rfl
@[simp] theorem engagedAt_headerFault (a : Addr) : (s.headerFault a).engagedAt m ↔ s.engagedAt m := Iff.rfl
@[simp] theorem grant_headerFault (a : Addr) : (s.headerFault a).grant = s.grant := rfl
@[simp] theorem engagedAt_completeRequest (r : Request) : (s.completeRequest r).engagedAt m ↔ s.engagedAt m := by unfold completeRequest; split <;> exact Iff.rfl
@[simp] theorem grant_completeRequest (r : Request) : (s.completeRequest r).grant = s.grant := by unfold completeRequest; split <;> rfl
@[simp] theorem engagedAt_failRequest (r : Request) (c : Cut) : (s.failRequest r c).engagedAt m ↔ s.engagedAt m := Iff.rfl
@[simp] theorem grant_failRequest (r : Request) (c : Cut) : (s.failRequest r c).grant = s.grant := rfl
@[simp] theorem engagedAt_carryOutRestart : (s.carryOutRestart).engagedAt m ↔ s.engagedAt m := Iff.rfl
@[simp] theorem grant_carryOutRestart : (s.carryOutRestart).grant = s.grant := rfl
@[simp] theorem engagedAt_portFault (a : Addr) : (s.portFault a).engagedAt m ↔ s.engagedAt m := Iff.rfl
@[simp] theorem grant_portFault (a : Addr) : (s.portFault a).grant = s.grant := rfl

/-! ### Changes of one context and of the turn -/

@[simp] theorem clearCountdowns_state (st : Station) : st.clearCountdowns.state = st.state := rfl

@[simp] theorem tick_state (st : Station) : st.tick.state = st.state := rfl

theorem engagedAt_modSt (f : Station → Station) :
    (s.modSt n f).engagedAt m ↔ if m = n then (f (s.st n)).state = .engaged else s.engagedAt m := by
  unfold engagedAt; rw [st_modSt]; split <;> rfl

/-- A change that leaves the state alone. -/
@[simp] theorem engagedAt_modSt_of {f : Station → Station} (h : ∀ st, (f st).state = st.state) :
    (s.modSt n f).engagedAt m ↔ s.engagedAt m := by
  rw [engagedAt_modSt]; split
  · next hm => subst hm; rw [h]; rfl
  · rfl

@[simp] theorem grant_modSt (f : Station → Station) : (s.modSt n f).grant = s.grant := rfl

@[simp] theorem engagedAt_modXe (f : Exchange → Exchange) : (s.modXe f).engagedAt m ↔ s.engagedAt m := Iff.rfl

@[simp] theorem grant_modXe {f : Exchange → Exchange} (h : (f s.xe).turn = s.xe.turn) : (s.modXe f).grant = s.grant := by
  unfold grant; rw [modXe_xe, h]

@[simp] theorem engagedAt_modTurn (f : Turn → Turn) : (s.modTurn f).engagedAt m ↔ s.engagedAt m := Iff.rfl

@[simp] theorem grant_modTurn {f : Turn → Turn} (h : ∀ t, (f t).station = t.station)
    (h' : ∀ t, (f t).grantedFrom = t.grantedFrom) : (s.modTurn f).grant = s.grant := by
  unfold grant modTurn; cases ht : s.xe.turn <;> simp [ht, h, h', Turn.grant]

@[simp] theorem engagedAt_enterState (new : StationState) :
    (s.enterState n new).engagedAt m ↔ if m = n then new = .engaged else s.engagedAt m := engagedAt_modSt ..

@[simp] theorem grant_enterState (new : StationState) : (s.enterState n new).grant = s.grant := rfl

@[simp] theorem engagedAt_setStage (g : Stage) : (s.setStage n g).engagedAt m ↔ s.engagedAt m :=
  engagedAt_modSt_of _ n m fun _ => rfl
@[simp] theorem grant_setStage (g : Stage) : (s.setStage n g).grant = s.grant := rfl
@[simp] theorem engagedAt_endOp : (s.endOp n).engagedAt m ↔ s.engagedAt m :=
  engagedAt_modSt_of _ n m fun _ => rfl
@[simp] theorem grant_endOp : (s.endOp n).grant = s.grant := rfl
@[simp] theorem engagedAt_startOp (j : Job) (g : Stage) : (s.startOp n j g).engagedAt m ↔ s.engagedAt m :=
  engagedAt_modSt_of _ n m fun _ => rfl
@[simp] theorem grant_startOp (j : Job) (g : Stage) : (s.startOp n j g).grant = s.grant := rfl
@[simp] theorem engagedAt_modInFlight (f : InFlight → InFlight) : (s.modInFlight n f).engagedAt m ↔ s.engagedAt m :=
  engagedAt_modSt_of _ n m fun _ => rfl
@[simp] theorem grant_modInFlight (f : InFlight → InFlight) : (s.modInFlight n f).grant = s.grant := rfl
@[simp] theorem engagedAt_modOp (f : Operation → Operation) : (s.modOp n f).engagedAt m ↔ s.engagedAt m :=
  engagedAt_modSt_of _ n m fun _ => rfl
@[simp] theorem grant_modOp (f : Operation → Operation) : (s.modOp n f).grant = s.grant := rfl
@[simp] theorem engagedAt_askStatus : (s.askStatus n).engagedAt m ↔ s.engagedAt m :=
  engagedAt_modSt_of _ n m fun _ => rfl
@[simp] theorem grant_askStatus : (s.askStatus n).grant = s.grant := rfl
@[simp] theorem engagedAt_askBeside : (s.askBeside n).engagedAt m ↔ s.engagedAt m :=
  engagedAt_modSt_of _ n m fun _ => rfl
@[simp] theorem grant_askBeside : (s.askBeside n).grant = s.grant := rfl
@[simp] theorem engagedAt_reportStatus : (s.reportStatus n).engagedAt m ↔ s.engagedAt m := by simp [reportStatus]
@[simp] theorem grant_reportStatus : (s.reportStatus n).grant = s.grant := rfl
@[simp] theorem engagedAt_setUp (c : StationConfig) : (s.setUp n c).engagedAt m ↔ s.engagedAt m :=
  engagedAt_modSt_of _ n m fun _ => rfl
@[simp] theorem grant_setUp (c : StationConfig) : (s.setUp n c).grant = s.grant := rfl
@[simp] theorem engagedAt_finalApplication (r : AttentionResult) :
    (s.finalApplication n r).engagedAt m ↔ s.engagedAt m := by simp [finalApplication]
@[simp] theorem grant_finalApplication (r : AttentionResult) : (s.finalApplication n r).grant = s.grant := rfl
@[simp] theorem engagedAt_refuseEntry : (s.refuseEntry n).engagedAt m ↔ s.engagedAt m := by simp [refuseEntry]
@[simp] theorem grant_refuseEntry : (s.refuseEntry n).grant = s.grant := rfl
@[simp] theorem engagedAt_beginRetirement (r : Retirement) (d : List Byte) :
    (s.beginRetirement n r d).engagedAt m ↔ s.engagedAt m := by simp [beginRetirement]
@[simp] theorem grant_beginRetirement (r : Retirement) (d : List Byte) :
    (s.beginRetirement n r d).grant = s.grant := rfl
@[simp] theorem engagedAt_retireFound (b : Addr) (h : HostPart) (c : Condition) (a : After) :
    (s.retireFound n b h c a).engagedAt m ↔ s.engagedAt m := by simp [retireFound]
@[simp] theorem grant_retireFound (b : Addr) (h : HostPart) (c : Condition) (a : After) :
    (s.retireFound n b h c a).grant = s.grant := rfl
@[simp] theorem engagedAt_settleRetirement (r : Retirement) :
    (s.settleRetirement n r).engagedAt m ↔ s.engagedAt m := by simp [settleRetirement]
@[simp] theorem grant_settleRetirement (r : Retirement) : (s.settleRetirement n r).grant = s.grant := rfl
@[simp] theorem engagedAt_sendAccept (t : Turn) (w : Acknowledged) (p q : Bool) :
    (s.sendAccept t w p q).engagedAt m ↔ s.engagedAt m := Iff.rfl
@[simp] theorem grant_sendAccept (t : Turn) (w : Acknowledged) (p q : Bool) :
    (s.sendAccept t w p q).grant = s.grant := by simp [sendAccept]
@[simp] theorem engagedAt_writeSlot (t : Turn) (x : SlotStatus) (b : Bool) :
    (s.writeSlot t x b).engagedAt m ↔ s.engagedAt m := Iff.rfl
@[simp] theorem grant_writeSlot (t : Turn) (x : SlotStatus) (b : Bool) : (s.writeSlot t x b).grant = s.grant := by
  simp [writeSlot]
@[simp] theorem engagedAt_retireInFlight (c : Condition) (k : Nat) (r : List Byte) (a : After) :
    (s.retireInFlight n c k r a).engagedAt m ↔ s.engagedAt m := by
  unfold retireInFlight; split <;> simp
@[simp] theorem grant_retireInFlight (c : Condition) (k : Nat) (r : List Byte) (a : After) :
    (s.retireInFlight n c k r a).grant = s.grant := by
  unfold retireInFlight; split <;> rfl
@[simp] theorem engagedAt_obtain : (s.obtain n).engagedAt m ↔ s.engagedAt m := by
  unfold obtain
  split
  · rfl
  · split <;> simp
@[simp] theorem grant_obtain : (s.obtain n).grant = s.grant := by
  unfold obtain
  split
  · rfl
  · split <;> rfl
@[simp] theorem engagedAt_follow (j : Job) : (s.follow n j).engagedAt m ↔ s.engagedAt m := by simp [follow]
@[simp] theorem grant_follow (j : Job) : (s.follow n j).grant = s.grant := by simp [follow]
@[simp] theorem engagedAt_endInterval : (s.endInterval n).engagedAt m ↔ s.engagedAt m := by
  unfold endInterval; split <;> rfl
@[simp] theorem grant_endInterval : (s.endInterval n).grant = s.grant := by
  unfold endInterval; split <;> rfl
@[simp] theorem engagedAt_releaseHeld : (s.releaseHeld n).engagedAt m ↔ s.engagedAt m := by
  unfold releaseHeld; split <;> simp
@[simp] theorem grant_releaseHeld : (s.releaseHeld n).grant = s.grant := by
  unfold releaseHeld; split <;> simp
@[simp] theorem engagedAt_takeReread : (s.takeReread n).engagedAt m ↔ s.engagedAt m := by
  unfold takeReread
  split
  · split <;> simp
  · rfl
@[simp] theorem grant_takeReread : (s.takeReread n).grant = s.grant := by
  unfold takeReread
  split
  · split <;> simp
  · rfl

end

end State

/-! ### The relation -/

/-- `t` keeps `oneEngaged` where `s` has it. -/
structure Steady (s t : State) : Prop where
  keeps : s.oneEngaged → t.oneEngaged

theorem State.oneEngaged_iff (s : State) :
    s.oneEngaged ↔ (∀ m, s.engagedAt m → s.grant.map Prod.fst = some m) ∧ ∀ g, s.grant = some g → g.2 ≠ .engaged := by
  unfold State.oneEngaged State.engagedAt State.grant
  constructor
  · rintro ⟨h1, h2⟩
    refine ⟨fun m hm => ?_, fun g hg => ?_⟩
    · have := h1 m hm
      cases ht : s.xe.turn with
      | none => simp [ht] at this
      | some t => simpa [ht, Turn.grant] using this
    · cases ht : s.xe.turn with
      | none => simp [ht] at hg
      | some t => simp [ht] at hg; subst hg; exact h2 t ht
  · rintro ⟨h1, h2⟩
    refine ⟨fun m hm => ?_, fun t ht => ?_⟩
    · have := h1 m hm
      cases ht : s.xe.turn with
      | none => simp [ht] at this
      | some t => simpa [ht, Turn.grant] using this
    · exact h2 t.grant (by simp [ht])

namespace Steady

theorem refl (s : State) : Steady s s := ⟨fun h => h⟩

theorem trans {s t u : State} (a : Steady s t) (b : Steady t u) : Steady s u := ⟨fun h => b.keeps (a.keeps h)⟩

/-- `trans`, the later step first. -/
theorem after {s t u : State} (b : Steady t u) (a : Steady s t) : Steady s u := a.trans b

/-- An operation that engages no station and leaves the turn as it was granted. -/
theorem quiet {s t : State} (h : ∀ m, t.engagedAt m → s.engagedAt m) (hg : t.grant = s.grant) : Steady s t := by
  refine ⟨fun hs => ?_⟩
  rw [State.oneEngaged_iff] at hs ⊢
  rw [hg]
  exact ⟨fun m hm => hs.1 m (h m hm), hs.2⟩

theorem forStations {f : Stn → State → State} (h : ∀ n s, Steady s (f n s)) (s : State) :
    Steady s (Machine.forStations f s) :=
  forStations_keeps (P := fun t => Steady s t) (fun n t ht => ht.trans (h n t)) s (refl s)

theorem ite {s a b : State} {p : Prop} [Decidable p] (ha : Steady s a) (hb : Steady s b) :
    Steady s (if p then a else b) := by
  split <;> assumption

end Steady

open State

variable (s : State)

/-! ### Operations of SM -/

theorem enterState_steady (n : Stn) {new : StationState} (h : new ≠ .engaged) : Steady s (s.enterState n new) :=
  .quiet (fun m hm => by
    rw [engagedAt_enterState] at hm
    split at hm
    · exact absurd hm h
    · exact hm) rfl

theorem modSt_steady (n : Stn) {f : Station → Station} (h : ∀ st, (f st).state = st.state) : Steady s (s.modSt n f) :=
  .quiet (fun m hm => (engagedAt_modSt_of s n m h).mp hm) rfl

theorem startOp_steady (n : Stn) (j : Job) (g : Stage) : Steady s (s.startOp n j g) := modSt_steady s n fun _ => rfl

theorem modXe_staging_steady (f : Exchange → Exchange) (h : ∀ x, (f x).turn = x.turn) : Steady s (s.modXe f) :=
  .quiet (fun _ hm => hm) (grant_modXe _ (h _))

theorem setNotice_steady (n : Stn) : Steady s (s.setNotice n) := .quiet (by simp) (by simp)

theorem modSm_steady (f : StationManager → StationManager) : Steady s (s.modSm f) := .quiet (by simp) (by simp)

theorem modRw_steady (f : RegisterWindow → RegisterWindow) : Steady s (s.modRw f) := .quiet (by simp) (by simp)

theorem askXe_steady (k : RequestKind) (n : Stn) (a : Addr) (l : Nat) (d : List Byte) : Steady s (s.askXe k n a l d) :=
  .quiet (fun _ hm => hm) rfl

theorem obtain_steady (n : Stn) : Steady s (s.obtain n) := .quiet (by simp) (by simp)

theorem follow_steady (n : Stn) (job : Job) : Steady s (s.follow n job) := .quiet (by simp) (by simp)

/-- The state a turn leaves its station in, before what follows the state change. -/
theorem engagedAt_leaveTurn (t : Turn) {result : StationState} (h : result ≠ .engaged) (m : Stn) :
    (s.leaveTurn t result).engagedAt m ↔ m ≠ t.station ∧ s.engagedAt m := by
  unfold State.leaveTurn
  split <;> (first | rw [engagedAt_modSt] | rw [engagedAt_enterState]) <;> split <;> simp_all

@[simp] theorem grant_leaveTurn (t : Turn) (result : StationState) : (s.leaveTurn t result).grant = s.grant := by
  unfold State.leaveTurn; split <;> rfl

@[simp] theorem engagedAt_afterTurn (t : Turn) (m : Stn) : (s.afterTurn t).engagedAt m ↔ s.engagedAt m := by
  unfold State.afterTurn; dsimp only; split <;> split <;> simp

@[simp] theorem grant_afterTurn (t : Turn) : (s.afterTurn t).grant = s.grant := by
  unfold State.afterTurn; dsimp only; split <;> split <;> simp

/-- The end of a turn: its station is ENGAGED no more, and no other was. -/
theorem finishTurn_steady {result : StationState} (h : result ≠ .engaged) : Steady s (s.finishTurn result) := by
  unfold State.finishTurn
  split
  · exact .refl s
  · next t ht =>
    refine ⟨fun hs => ?_⟩
    rw [oneEngaged_iff] at hs ⊢
    have hg : ((s.modXe fun _ => ⟨none, []⟩).leaveTurn t result).grant = none := by rw [grant_leaveTurn]; rfl
    constructor
    · intro m hm
      rw [engagedAt_afterTurn, engagedAt_leaveTurn _ _ h, engagedAt_modXe] at hm
      have := hs.1 m hm.2
      simp [State.grant, ht, Turn.grant] at this
      exact absurd this.symm hm.1
    · intro g hgg
      rw [grant_afterTurn, hg] at hgg
      cases hgg

theorem retireInFlight_steady (n : Stn) (c : Condition) (k : Nat) (r : List Byte) (a : After) :
    Steady s (s.retireInFlight n c k r a) := by
  unfold State.retireInFlight
  split
  · exact .refl s
  · exact .quiet (by simp) (by simp)

theorem retireFound_steady (n : Stn) (b : Addr) (h : HostPart) (c : Condition) (a : After) :
    Steady s (s.retireFound n b h c a) := .quiet (by simp) (by simp)

theorem finalApplication_steady (n : Stn) (r : AttentionResult) : Steady s (s.finalApplication n r) := .quiet (by simp) (by simp)

theorem lostTail_steady (n : Stn) : Steady s (s.lostTail n) := by
  have h : Steady s ((s.modSt n fun st => { st with resyncPending := true }).setNotice n) :=
    Steady.after (setNotice_steady _ n) (.quiet (by simp) (by simp))
  unfold State.lostTail
  simp only
  split
  · split
    · exact h.trans (.quiet (by simp) (by simp))
    · exact h.trans ((finishTurn_steady _ (by decide)).after (.quiet (by simp) (by simp)))
  · exact h.trans (.quiet (by simp) (by simp))

theorem enterLost_steady (n : Stn) (job : Job) : Steady s (s.enterLost n job) := by
  unfold State.enterLost
  simp only
  split
  · exact Steady.after (retireInFlight_steady _ ..)
      ((startOp_steady s n job .final).trans (modSt_steady _ n clearCountdowns_state))
  · exact Steady.after (lostTail_steady _ n)
      ((startOp_steady s n job .final).trans (modSt_steady _ n clearCountdowns_state))

theorem finishOp_steady (n : Stn) : Steady s (s.finishOp n) := by
  unfold State.finishOp
  simp only
  split
  · exact .quiet (by simp) (by simp)
  · exact .ite (Steady.after (enterLost_steady _ n _) (.quiet (by simp) (by simp))) (.quiet (by simp) (by simp))

theorem reportStatus_steady (n : Stn) : Steady s (s.reportStatus n) := .quiet (by simp) (by simp)

theorem endFollowing_steady (n : Stn) {new : StationState} (hn : new ≠ .engaged) : Steady s (s.endFollowing n new) := by
  unfold State.endFollowing
  split
  · exact .refl s
  · have h : Steady s (if new = .halted then s.setNotice n else s) := .ite (setNotice_steady s n) (.refl s)
    simp only
    refine h.trans ?_
    generalize (if new = .halted then s.setNotice n else s) = u
    split
    · exact ((finishTurn_steady _ hn).after (.quiet (by simp) (by simp)))
    · refine (enterState_steady u n hn).trans ?_
      split <;> exact .quiet (by simp) (by simp)
    · exact (enterState_steady u n hn).trans (.ite (finishOp_steady _ n) (reportStatus_steady _ n))

theorem readyOrIdle {p : Prop} [Decidable p] : (if p then StationState.ready else .idle) ≠ .engaged := by
  split <;> decide

theorem park_steady (n : Stn) (c : ChainCode) : Steady s (s.park n c) :=
  .ite (Steady.after (obtain_steady _ n) (.quiet (by simp) (by simp)))
    (Steady.after (endFollowing_steady _ n readyOrIdle) (.quiet (by simp) (by simp)))

theorem faultFollowing_steady (n : Stn) (c : ChainCode) : Steady s (s.faultFollowing n c) :=
  Steady.after (endFollowing_steady _ n (by decide)) (.quiet (by simp) (by simp))

theorem endWalk_steady (n : Stn) (c : ChainCode) : Steady s (s.endWalk n c) := by
  unfold State.endWalk
  simp only
  split
  · exact .quiet (by simp) (by simp)
  · exact ((finalApplication_steady _ n _).after (enterState_steady _ n readyOrIdle)).after (.quiet (by simp) (by simp))

theorem examineAddress_steady (n : Stn) (a : Addr) : Steady s (s.examineAddress n a) := by
  unfold State.examineAddress
  split
  · exact .refl s
  · split
    · split
      · exact endWalk_steady s n _
      · exact park_steady s n _
    · split
      · split
        · exact endWalk_steady s n _
        · exact faultFollowing_steady s n _
      · exact .quiet (by simp) (by simp)

theorem failCandidate_steady (n : Stn) : Steady s (s.failCandidate n) := by
  unfold State.failCandidate
  split
  · exact .refl s
  · split
    · exact endWalk_steady s n _
    · exact faultFollowing_steady s n _

theorem examineInWalk_steady (n : Stn) (b : Addr) (d : List Byte) : Steady s (s.examineInWalk n b d) := by
  unfold State.examineInWalk
  split
  · exact endWalk_steady s n _
  · exact endWalk_steady s n _
  · exact endWalk_steady s n _
  · exact retireFound_steady s ..

theorem meetPosted_steady (n : Stn) (b : Addr) (h : HostPart) : Steady s (s.meetPosted n b h) := by
  unfold State.meetPosted
  split
  · exact retireFound_steady s ..
  · split
    · exact retireFound_steady s ..
    · exact retireFound_steady s ..
    · exact .quiet (by simp) (by simp)

theorem examineInFollowing_steady (n : Stn) (b : Addr) (d : List Byte) : Steady s (s.examineInFollowing n b d) := by
  unfold State.examineInFollowing
  split
  · exact park_steady s n _
  · exact faultFollowing_steady s n _
  · exact faultFollowing_steady s n _
  · exact meetPosted_steady s n b _

theorem takeBlock_steady (n : Stn) (b : Addr) (h : HostPart) : Steady s (s.takeBlock n b h) :=
  Steady.after (endFollowing_steady _ n (by decide)) (.quiet (by simp) (by simp))

theorem startWalk_steady (n : Stn) : Steady s (s.startWalk n) :=
  Steady.after (obtain_steady _ n) (.quiet (by simp) (by simp))

theorem endTakeDown_steady (n : Stn) : Steady s (s.endTakeDown n) :=
  (finalApplication_steady _ n _).after
    ((enterState_steady _ n (by decide)).after (modSt_steady s n fun _ => rfl))

theorem takeDownWatch_steady (n : Stn) : Steady s (s.takeDownWatch n) := .ite (endTakeDown_steady s n) (.quiet (by simp) (by simp))

theorem endRestart_steady (n : Stn) (b : Bool) : Steady s (s.endRestart n b) := by
  unfold State.endRestart
  simp only
  split
  · split <;> exact .quiet (by simp) (by simp)
  · exact .quiet (by simp) (by simp)

theorem beginRestart_steady (n : Stn) : Steady s (s.beginRestart n) := by
  unfold State.beginRestart
  simp only
  split
  · split
    · exact Steady.after (endRestart_steady _ n _) (.quiet (by simp) (by simp))
    · exact Steady.after (retireInFlight_steady _ ..) (.quiet (by simp) (by simp))
  · exact Steady.after (endRestart_steady _ n _) (.quiet (by simp) (by simp))

theorem goOnFrom_steady (n : Stn) (b : Addr) : Steady s (s.goOnFrom n b) :=
  Steady.after (obtain_steady _ n) (.quiet (by simp) (by simp))

theorem afterTurnRetirement_steady (n : Stn) (r : Retirement) : Steady s (s.afterTurnRetirement n r) := by
  unfold State.afterTurnRetirement
  split
  · exact enterLost_steady s n _
  · split
    · exact (setNotice_steady s n).trans ((finishTurn_steady _ (by decide)).after (.quiet (by simp) (by simp)))
    · exact follow_steady s n _

theorem afterRetirement_steady (n : Stn) (r : Retirement) : Steady s (s.afterRetirement n r) := by
  have h : Steady s (if r.notify then s.setNotice n else s) := .ite (setNotice_steady s n) (.refl s)
  unfold State.afterRetirement
  simp only
  refine h.trans ?_
  generalize (if r.notify then s.setNotice n else s) = u
  split
  · exact afterTurnRetirement_steady u n r
  · split
    · exact endFollowing_steady u n (by decide)
    · exact goOnFrom_steady u n _
  · exact endFollowing_steady u n (by decide)
  · exact goOnFrom_steady u n _
  · exact startWalk_steady u n
  · exact takeDownWatch_steady u n
  · exact lostTail_steady u n
  · exact endRestart_steady u n _

/-! ### Taking an outcome -/

theorem stateAfter_ne {t : Turn} (ht : t.grantedFrom ≠ .engaged) (b : Bool) (st : Station) :
    t.stateAfter b st ≠ .engaged := by
  unfold Turn.stateAfter
  repeat' split
  all_goals first | exact ht | decide

theorem retireInTurn_steady (n : Stn) (c : Condition) (b : Bool) (k : Nat) (r : List Byte) :
    Steady s (s.retireInTurn n c b k r) :=
  (retireInFlight_steady _ ..).after (.quiet (by simp) (by simp))

theorem actOn_steady {t : Turn} (ht : t.grantedFrom ≠ .engaged) (o : Outcome) : Steady s (s.actOn t o) := by
  unfold State.actOn
  split
  · exact .ite (follow_steady s ..) (finishTurn_steady s (stateAfter_ne ht _ _))
  · exact Steady.after (finishTurn_steady _ (stateAfter_ne ht _ _)) (.ite (.quiet (by simp) (by simp)) (.refl s))
  · exact retireInTurn_steady s ..
  · exact .ite (enterLost_steady s ..) (.ite (retireInTurn_steady s ..)
      (.ite (enterLost_steady s ..) (finishTurn_steady s (stateAfter_ne ht _ _))))

theorem takeOutcome_steady : Steady s s.takeOutcome := by
  unfold State.takeOutcome
  split
  · exact .refl s
  · next t ht =>
    split
    · exact .refl s
    · split
      · exact ⟨fun hs => (actOn_steady s (hs.2 t ht) _).keeps hs⟩
      · exact .refl s

theorem takeReread_steady (n : Stn) : Steady s (s.takeReread n) := .quiet (by simp) (by simp)

theorem finishReport_steady (n : Stn) : Steady s (s.finishReport n) :=
  (finishOp_steady s n).trans (.ite (.refl _) ((takeReread_steady _ n).trans (.ite (takeOutcome_steady _) (.refl _))))

/-! ### `settle` -/

theorem endCascade_steady : Steady s s.endCascade := by
  unfold State.endCascade
  split
  · exact .refl s
  · exact .ite (finishTurn_steady s (by decide)) (.refl s)

theorem oweRestarts_steady : Steady s s.oweRestarts := by
  unfold State.oweRestarts
  split
  · refine ((Steady.forStations (fun n s => ?_) s).trans (modSm_steady _ _)).trans (modRw_steady _ _)
    split
    · exact .refl s
    · exact .quiet (by simp) (by simp)
  · exact .refl s

theorem takeRestart_steady (n : Stn) : Steady s (s.takeRestart n) :=
  .ite (.ite (.quiet (by simp) (by simp)) (beginRestart_steady s n)) (.refl s)

theorem beginRestarts_steady : Steady s s.beginRestarts :=
  .ite (.refl s) ((oweRestarts_steady s).trans (Steady.forStations (fun n s => takeRestart_steady s n) _))

theorem restartFollow_steady (n : Stn) : Steady s (s.restartFollow n) :=
  .ite (.ite (follow_steady s n _) (.quiet (by simp) (by simp))) (.refl s)

theorem restartFollows_steady : Steady s s.restartFollows := by
  unfold State.restartFollows
  split
  · exact .refl s
  · split
    · exact (Steady.forStations (fun n s => restartFollow_steady s n) s).trans (modSm_steady _ _)
    · exact .quiet (by simp) (by simp)

theorem headerFault_steady (a : Addr) : Steady s (s.headerFault a) := .quiet (by simp) (by simp)

theorem startPart_steady : Steady s s.startPart := by
  unfold State.startPart
  simp only
  split
  · exact .quiet (by simp) (by simp)
  · exact Steady.after (headerFault_steady _ _) (.quiet (by simp) (by simp))

theorem partStep_steady : Steady s s.partStep := by
  unfold State.partStep
  split
  · exact .ite (.quiet (by simp) (by simp)) (.refl s)
  · split
    · simp only
      split
      · exact Steady.after (startPart_steady _) (.quiet (by simp) (by simp))
      · exact .quiet (by simp) (by simp)
    · exact .refl s
  · exact .ite (startPart_steady s) (.refl s)
  · exact .refl s
  · exact .refl s

theorem serveMemory_steady : Steady s s.serveMemory := by
  obtain ⟨_, _, _, _, h⟩ := s.serveMemory_rest
  rw [h]; exact .quiet (fun _ hm => hm) rfl

theorem settle_steady : Steady s s.settle := by
  unfold State.settle
  split
  · exact .refl s
  · exact ((((endCascade_steady s).trans (beginRestarts_steady _)).trans (restartFollows_steady _)).trans
      (partStep_steady _)).trans (serveMemory_steady _)


/-! ### Sending -/

theorem sendRequest_steady (q : Bool) : Steady s (s.sendRequest q) := by
  unfold State.sendRequest
  split
  · exact .refl s
  · simp only
    split <;> exact .quiet (by simp) (by simp)

theorem beginSending_steady (q : Bool) : Steady s (s.beginSending q) := by
  unfold State.beginSending
  split
  · exact .refl s
  · exact (sendRequest_steady _ q).after (.quiet (by simp) (by simp))

/-- The grant engages one station, which was not ENGAGED; the turn is its own. -/
theorem newTurn_steady (n : Stn) (k : TurnKind) (hn : (s.st n).state ≠ .engaged) (hx : s.xe.turn = none)
    (g : Scheduler → Scheduler) :
    Steady s (((s.modXe fun _ => ⟨some (s.newTurn n k), s.firstStaging n k⟩).modLs g).modSt n fun st =>
      { st with state := .engaged }) := by
  refine ⟨fun hs => ?_⟩
  rw [oneEngaged_iff] at hs ⊢
  have hg : s.grant = none := by unfold State.grant; rw [hx]; rfl
  constructor
  · intro m hm
    rw [engagedAt_modSt, engagedAt_modLs, engagedAt_modXe] at hm
    split at hm
    · next h => subst h; rfl
    · have := hs.1 m hm; rw [hg] at this; cases this
  · intro g hgg
    rw [grant_modSt, grant_modLs] at hgg
    cases hgg
    exact hn

theorem grantTurn_steady (n : Stn) (k : TurnKind) (q : Bool) (hn : (s.st n).state ≠ .engaged)
    (hx : s.xe.turn = none) : Steady s (s.grantTurn n k q) := by
  unfold State.grantTurn
  simp only
  split
  · exact Steady.after (askXe_steady ..) (newTurn_steady s n k hn hx _)
  · exact (beginSending_steady _ q).after (newTurn_steady s n k hn hx _)

theorem sendAccept_steady (t : Turn) (w : Acknowledged) (p q : Bool) : Steady s (s.sendAccept t w p q) := .quiet (by simp) (by simp)

/-! ### Outcomes -/

theorem setOutcome_steady (o : Outcome) (m : TurnMark) : Steady s (s.setOutcome o m) := .quiet (by simp [setOutcome]) (by simp [setOutcome])

theorem handOver_steady (o : Outcome) (m : TurnMark) : Steady s (s.handOver o m) :=
  (setOutcome_steady s o m).trans (takeOutcome_steady _)

theorem finishWatch_steady (t : Turn) : Steady s (s.finishWatch t) := .ite (handOver_steady s ..) (handOver_steady s ..)

theorem writeSlot_steady (t : Turn) (x : SlotStatus) (b : Bool) : Steady s (s.writeSlot t x b) := .quiet (by simp) (by simp)

theorem slotWritten_steady (t : Turn) (b : Bool) : Steady s (s.slotWritten t b) := by
  have h : Steady s (if b then s.setNotice t.station else s) := .ite (setNotice_steady s _) (.refl s)
  unfold State.slotWritten
  refine h.trans ?_
  generalize (if b then s.setNotice t.station else s) = u
  exact (finishWatch_steady _ t).after (.quiet (by simp) (by simp))

theorem cascadeTo_steady (b : Fin 8) (t m : Stn) : Steady s (s.cascadeTo b t m) := by
  unfold State.cascadeTo
  split
  · split
    · exact .ite (.quiet (by simp) (by simp)) (enterLost_steady s m _)
    · exact .refl s
  · exact .refl s

theorem exhaustOpen_steady (t : Turn) : Steady s (s.exhaustOpen t) := by
  unfold State.exhaustOpen
  split
  · exact .refl s
  · exact (takeOutcome_steady _).after ((Steady.forStations (fun m s => cascadeTo_steady s _ _ m) _).after
      ((setOutcome_steady _ ..).after (.quiet (by simp) (by simp))))

theorem doubtRoute_steady (t : Turn) : Steady s (s.doubtRoute t) := by
  unfold State.doubtRoute
  split
  · exact .refl s
  · split
    · exact .quiet (by simp) (by simp)
    · exact .refl s

theorem exhaustRequest_steady (t : Turn) : Steady s (s.exhaustRequest t) := by
  have h : Steady s (((s.doubtRoute t).modSt t.station fun st => { st with lapses := bump 15 st.lapses }).modTurn fun t =>
      { t with lapsed := true }) := (doubtRoute_steady s t).trans (.quiet (by simp) (by simp))
  unfold State.exhaustRequest
  simp only
  refine h.trans ?_
  split
  · exact writeSlot_steady _ ..
  all_goals exact handOver_steady _ ..

theorem countFailure_steady (t : Turn) : Steady s (s.countFailure t) := by
  unfold State.countFailure
  simp only
  split <;> exact .quiet (by simp) (by simp)

theorem attemptFailure_steady (t : Turn) (q : Bool) : Steady s (s.attemptFailure t q) := by
  unfold State.attemptFailure
  simp only
  split
  · exact (countFailure_steady s t).trans (sendRequest_steady _ q)
  · split
    · exact (countFailure_steady s t).trans (exhaustOpen_steady _ t)
    · exact (countFailure_steady s t).trans (exhaustRequest_steady _ t)

/-! ### Answers -/

theorem openAccepted_steady (t : Turn) (q : Bool) : Steady s (s.openAccepted t q) := by
  unfold State.openAccepted
  split
  · exact .refl s
  · exact (sendRequest_steady _ q).after (.quiet (by simp) (by simp))

theorem heldExchange_steady (t : Turn) : Steady s (s.heldExchange t) := by
  have h : Steady s ((s.modInFlight t.station fun f => { f with holds := bump 255 f.holds }).modSt t.station fun st =>
      { st with totalHolds := bump 65535 st.totalHolds }) := by
    refine (modSt_steady _ _ ?_).after (modSt_steady s _ ?_) <;> exact fun _ => rfl
  unfold State.heldExchange
  simp only
  split <;> exact (handOver_steady _ ..).after h

theorem orderAccepted_steady (t : Turn) : Steady s (s.orderAccepted t) := (handOver_steady _ ..).after (.quiet (by simp) (by simp))

theorem putAccepted_steady (t : Turn) : Steady s (s.putAccepted t) := (handOver_steady _ ..).after (.quiet (by simp) (by simp))

theorem dataFinished_steady (t : Turn) : Steady s (s.dataFinished t) := (handOver_steady _ ..).after (.quiet (by simp) (by simp))

theorem dataTaken_steady (t : Turn) (k : Nat) : Steady s (s.dataTaken t k) :=
  (handOver_steady _ ..).after (.quiet (by simp) (by simp))

theorem syncAccepted_steady (t : Turn) : Steady s (s.syncAccepted t) := by
  unfold State.syncAccepted
  simp only
  split <;> exact (handOver_steady _ ..).after (.quiet (by simp) (by simp))

theorem stateTaken_steady (t : Turn) (v : List Byte) : Steady s (s.stateTaken t v) := by
  unfold State.stateTaken
  simp only
  split
  · split
    · exact (finishWatch_steady _ t).after (.quiet (by simp) (by simp))
    · exact (writeSlot_steady _ ..).after (.quiet (by simp) (by simp))
  · exact (writeSlot_steady _ ..).after (.quiet (by simp) (by simp))

theorem heldPeek_steady (t : Turn) : Steady s (s.heldPeek t) := (handOver_steady _ ..).after (.quiet (by simp) (by simp))

theorem answered_steady (t : Turn) (k : PacketKind) (p : Bool) (d : List Byte) (q : Bool) :
    Steady s (s.answered t k p d q) := by
  unfold State.answered
  simp only
  refine Steady.after (s := s) (t := s.modSt t.station fun st => { st with lapses := 0 }) ?_ (.quiet (by simp) (by simp))
  generalize (s.modSt t.station fun st => { st with lapses := 0 }) = u
  split
  · exact orderAccepted_steady u t
  · exact putAccepted_steady u t
  · exact dataFinished_steady u t
  · exact dataFinished_steady u t
  · exact .quiet (by simp) (by simp)
  · exact .quiet (by simp) (by simp)
  · exact syncAccepted_steady u t
  · exact stateTaken_steady u t d
  · exact heldPeek_steady u t
  · exact writeSlot_steady u ..
  · exact heldExchange_steady u t
  · exact heldExchange_steady u t
  · exact heldExchange_steady u t
  · exact heldExchange_steady u t
  · exact handOver_steady u ..
  · exact handOver_steady u ..
  · exact handOver_steady u ..
  · exact handOver_steady u ..
  · exact .refl u

theorem checkReport_steady (t : Turn) (r : List Byte) : Steady s (s.checkReport t r) := by
  unfold State.checkReport
  split
  · exact .refl s
  · split
    · exact (handOver_steady _ ..).after (.quiet (by simp) (by simp))
    · exact handOver_steady s ..

theorem acceptSent_steady (t : Turn) (w : Acknowledged) : Steady s (s.acceptSent t w) := by
  unfold State.acceptSent
  simp only
  split
  · exact handOver_steady s ..
  · split
    · exact (dataTaken_steady _ ..).after (.quiet (by simp) (by simp))
    · exact .quiet (by simp) (by simp)
  · exact (checkReport_steady _ ..).after (.quiet (by simp) (by simp))
  · exact (handOver_steady _ ..).after (.quiet (by simp) (by simp))

theorem acceptAbandoned_steady (t : Turn) (w : Acknowledged) (q : Bool) : Steady s (s.acceptAbandoned t w q) := by
  unfold State.acceptAbandoned
  split
  · exact handOver_steady s ..
  all_goals exact (attemptFailure_steady _ ..).after (.quiet (by simp) (by simp))

theorem requestFinding_steady (t : Turn) (f : Finding) (q : Bool) : Steady s (s.requestFinding t f q) := by
  unfold State.requestFinding
  split
  · split
    · exact openAccepted_steady s ..
    · exact answered_steady s ..
  · exact (sendAccept_steady _ ..).after (.quiet (by simp) (by simp))
  · exact (handOver_steady _ ..).after (.quiet (by simp) (by simp))
  · exact (sendAccept_steady _ ..).after (.quiet (by simp) (by simp))
  · exact .refl s
  all_goals exact attemptFailure_steady s ..

/-- Whatever finding XE takes. -/
theorem takeFinding_steady (t : Turn) (f : Finding) (q : Bool) : Steady s (s.takeFinding t f q) := by
  unfold State.takeFinding
  split
  · exact requestFinding_steady s ..
  · split
    · exact acceptSent_steady s ..
    · exact acceptAbandoned_steady s ..
  · exact .refl s

/-! ### Configuration and attention entries -/

theorem setUpWatch_steady (n : Stn) (c : StationConfig) : Steady s (s.setUpWatch n c) := .ite (.refl s) (.quiet (by simp) (by simp))

theorem takeConfiguration_steady (n : Stn) (d : List Byte) : Steady s (s.takeConfiguration n d) := by
  unfold State.takeConfiguration
  split
  · exact finalApplication_steady s ..
  · next c _ =>
    have h : Steady s ((s.setUp n c).setUpWatch n c) := (setUpWatch_steady _ n c).after (.quiet (by simp) (by simp))
    refine h.trans ?_
    exact (examineAddress_steady _ ..).after (.quiet (by simp) (by simp))

theorem applyBringUp_steady (n : Stn) : Steady s (s.applyBringUp n) := .ite (.quiet (by simp) (by simp)) (.quiet (by simp) (by simp))

theorem applyWake_steady (n : Stn) : Steady s (s.applyWake n) := by
  unfold State.applyWake
  split
  · exact follow_steady s ..
  all_goals exact .quiet (by simp) (by simp)

theorem applyPause_steady (n : Stn) : Steady s (s.applyPause n) := by
  unfold State.applyPause
  split <;> exact .quiet (by simp) (by simp)

theorem applyResume_steady (n : Stn) : Steady s (s.applyResume n) := by
  unfold State.applyResume
  split
  · exact .ite (.quiet (by simp) (by simp)) (follow_steady s ..)
  · exact follow_steady s ..
  all_goals exact .quiet (by simp) (by simp)

theorem applyWithdraw_steady (n : Stn) : Steady s (s.applyWithdraw n) := by
  unfold State.applyWithdraw
  split
  · exact .quiet (by simp) (by simp)
  · simp only
    refine Steady.after (s := s) (t := s.modSt n Station.clearCountdowns) ?_ (modSt_steady s n clearCountdowns_state)
    generalize s.modSt n Station.clearCountdowns = u
    split
    · exact startWalk_steady u n
    · next f _ =>
      have h : Steady u (if f.phase = .nothing then u else u.modSt n fun st => { st with resyncPending := true }) :=
        .ite (.refl u) (.quiet (by simp) (by simp))
      exact h.trans (retireInFlight_steady _ ..)

theorem reviveRoute_steady (n : Stn) : Steady s (s.reviveRoute n) := by
  unfold State.reviveRoute
  split
  · exact .refl s
  · split
    · exact .quiet (by simp) (by simp)
    · exact .refl s

theorem applyRevive_steady (n : Stn) : Steady s (s.applyRevive n) := by
  unfold State.applyRevive
  split
  · have h : Steady s ((s.modSt n fun st => { st with lapses := 0, resyncPending := true }).reviveRoute n) :=
      (reviveRoute_steady _ n).after (.quiet (by simp) (by simp))
    refine h.trans ?_
    generalize ((s.modSt n fun st => { st with lapses := 0, resyncPending := true }).reviveRoute n) = u
    exact .quiet (by simp) (by simp)
  · exact .quiet (by simp) (by simp)

theorem applyTakeDown_steady (n : Stn) : Steady s (s.applyTakeDown n) := by
  unfold State.applyTakeDown
  split
  · exact .quiet (by simp) (by simp)
  · simp only
    refine Steady.after (s := s) (t := s.modSt n Station.clearCountdowns) ?_ (modSt_steady s n clearCountdowns_state)
    generalize s.modSt n Station.clearCountdowns = u
    split
    · exact takeDownWatch_steady u n
    · exact retireInFlight_steady u ..

/-! ### Timers and link restart -/

theorem tickStation_steady (n : Stn) : Steady s (s.tickStation n) :=
  (modSt_steady _ n tick_state).after (.quiet (fun _ hm => hm) rfl)

theorem carryOutRestart_steady : Steady s s.carryOutRestart := .quiet (by simp) (by simp)

end Sys2Proof.Machine
end

