-- ==== Sys2Proof/Laws/Frame.lean ====
section
/-! SUPPORT. What the shared operations of SM, LS, XE, RM and WU leave alone: one lemma for each operation. -/

namespace Sys2Proof.Machine

/-- What no operation of SM, LS, XE, RM or WU writes. -/
def State.keptPart (s : State) :=
  (s.pending, s.readData, s.mem, s.itElapsed, s.latched, s.au, s.nu.position, s.rw.noticeEn, s.rw.faultEn, s.rw.dirbase,
    s.rw.attnLost, s.rw.attnBad, s.rw.portFault)

/-- `t` comes of `s` by operations that keep `keptPart`, clear no notice flag and do not clear HEADER_FAULT. -/
structure Kept (s t : State) : Prop where
  same : t.keptPart = s.keptPart
  flags : ∀ n, s.nu.flags.get n = true → t.nu.flags.get n = true
  sticky : s.rw.headerFault = true → t.rw.headerFault = true

namespace Kept

theorem refl (s : State) : Kept s s := ⟨rfl, fun _ h => h, fun h => h⟩

theorem trans {s t u : State} (a : Kept s t) (b : Kept t u) : Kept s u :=
  ⟨b.same.trans a.same, fun n h => b.flags n (a.flags n h), fun h => b.sticky (a.sticky h)⟩

/-- `trans`, the later step first. -/
theorem after {s t u : State} (b : Kept t u) (a : Kept s t) : Kept s u := a.trans b

/-- An update of the blocks that hold neither `keptPart`, nor the notice flags, nor HEADER_FAULT. -/
theorem plain {s t : State} (h : t.keptPart = s.keptPart) (hf : t.nu.flags = s.nu.flags)
    (hs : t.rw.headerFault = s.rw.headerFault) : Kept s t :=
  ⟨h, fun n hn => by rw [hf]; exact hn, fun hh => by rw [hs]; exact hh⟩

theorem forStations {f : Stn → State → State} (h : ∀ n s, Kept s (f n s)) (s : State) :
    Kept s (Machine.forStations f s) :=
  forStations_keeps (P := fun t => Kept s t) (fun n t ht => ht.trans (h n t)) s (refl s)

theorem ite {s a b : State} {p : Prop} [Decidable p] (ha : Kept s a) (hb : Kept s b) : Kept s (if p then a else b) := by
  split <;> assumption

end Kept

open State

variable (s : State)

theorem modSm_kept (f : StationManager → StationManager) : Kept s (s.modSm f) := .plain rfl rfl rfl

theorem dropHolds_kept : Kept s (s.modRw fun r => { r with restartHolds := false }) := .plain rfl rfl rfl

theorem setNotice_kept (n : Stn) : Kept s (s.setNotice n) :=
  ⟨rfl, fun m hm => by
    by_cases h : m = n
    · subst h; exact get_set_self ..
    · exact (get_set_of_ne _ h _).trans hm, fun h => h⟩

theorem obtain_kept (n : Stn) : Kept s (s.obtain n) := by
  unfold State.obtain
  split
  · exact .refl s
  · split <;> exact .plain rfl rfl rfl

theorem follow_kept (n : Stn) (job : Job) : Kept s (s.follow n job) :=
  Kept.after (obtain_kept _ n) (.plain rfl rfl rfl)

theorem joinDue_kept (n : Stn) : Kept s (s.joinDue n) := .plain rfl rfl rfl

theorem endInterval_kept (n : Stn) : Kept s (s.endInterval n) := .ite (.plain rfl rfl rfl) (joinDue_kept s n)

theorem releaseHeld_kept (n : Stn) : Kept s (s.releaseHeld n) :=
  .ite (Kept.after (endInterval_kept _ n) (.plain rfl rfl rfl)) (.refl s)

theorem takeReread_kept (n : Stn) : Kept s (s.takeReread n) :=
  .ite (.ite (follow_kept s n _) (.plain rfl rfl rfl)) (.refl s)

theorem leaveTurn_kept (t : Turn) (result : StationState) : Kept s (s.leaveTurn t result) :=
  .ite (.plain rfl rfl rfl) (.plain rfl rfl rfl)

theorem reportStatus_kept (n : Stn) : Kept s (s.reportStatus n) := .plain rfl rfl rfl

theorem afterTurn_kept (t : Turn) : Kept s (s.afterTurn t) :=
  Kept.trans (.ite (releaseHeld_kept s _) (.refl s)) (.ite (takeReread_kept _ _) (reportStatus_kept _ _))

theorem finishTurn_kept (result : StationState) : Kept s (s.finishTurn result) := by
  unfold State.finishTurn
  split
  · exact .refl s
  · exact (afterTurn_kept _ _).after ((leaveTurn_kept _ _ result).after (.plain rfl rfl rfl))

theorem retireInFlight_kept (n : Stn) (c : Condition) (k : Nat) (r : List Byte) (a : After) :
    Kept s (s.retireInFlight n c k r a) := by
  unfold State.retireInFlight
  split
  · exact .refl s
  · exact .plain rfl rfl rfl

theorem retireFound_kept (n : Stn) (b : Addr) (h : HostPart) (c : Condition) (a : After) :
    Kept s (s.retireFound n b h c a) := .plain rfl rfl rfl

theorem finalApplication_kept (n : Stn) (r : AttentionResult) : Kept s (s.finalApplication n r) := .plain rfl rfl rfl

theorem lostTail_kept (n : Stn) : Kept s (s.lostTail n) := by
  have h : Kept s ((s.modSt n fun st => { st with resyncPending := true }).setNotice n) :=
    Kept.after (setNotice_kept _ n) (.plain rfl rfl rfl)
  unfold State.lostTail
  simp only
  split
  · split
    · exact h.trans (.plain rfl rfl rfl)
    · exact h.trans ((finishTurn_kept _ _).after (.plain rfl rfl rfl))
  · exact h.trans (.plain rfl rfl rfl)

theorem enterLost_kept (n : Stn) (job : Job) : Kept s (s.enterLost n job) := by
  unfold State.enterLost
  simp only
  split
  · exact Kept.after (retireInFlight_kept _ ..) (.plain rfl rfl rfl)
  · exact Kept.after (lostTail_kept _ n) (.plain rfl rfl rfl)

theorem finishOp_kept (n : Stn) : Kept s (s.finishOp n) := by
  unfold State.finishOp
  simp only
  split
  · exact .plain rfl rfl rfl
  · exact .ite (Kept.after (enterLost_kept _ n _) (.plain rfl rfl rfl)) (.plain rfl rfl rfl)

theorem endFollowing_kept (n : Stn) (new : StationState) : Kept s (s.endFollowing n new) := by
  unfold State.endFollowing
  split
  · exact .refl s
  · have h : Kept s (if new = .halted then s.setNotice n else s) := .ite (setNotice_kept s n) (.refl s)
    simp only
    refine h.trans ?_
    generalize (if new = .halted then s.setNotice n else s) = u
    split
    · exact ((finishTurn_kept _ _).after (.plain rfl rfl rfl))
    · split <;> exact .plain rfl rfl rfl
    · exact Kept.after (.ite (finishOp_kept _ n) (reportStatus_kept _ n)) (.plain rfl rfl rfl)

theorem park_kept (n : Stn) (c : ChainCode) : Kept s (s.park n c) :=
  .ite (Kept.after (obtain_kept _ n) (.plain rfl rfl rfl))
    (Kept.after (endFollowing_kept _ n _) (.plain rfl rfl rfl))

theorem faultFollowing_kept (n : Stn) (c : ChainCode) : Kept s (s.faultFollowing n c) :=
  Kept.after (endFollowing_kept _ n _) (.plain rfl rfl rfl)

theorem endWalk_kept (n : Stn) (c : ChainCode) : Kept s (s.endWalk n c) := by
  unfold State.endWalk
  simp only
  split <;> exact .plain rfl rfl rfl

theorem examineAddress_kept (n : Stn) (a : Addr) : Kept s (s.examineAddress n a) := by
  unfold State.examineAddress
  split
  · exact .refl s
  · split
    · split
      · exact endWalk_kept s n _
      · exact park_kept s n _
    · split
      · split
        · exact endWalk_kept s n _
        · exact faultFollowing_kept s n _
      · exact .plain rfl rfl rfl

theorem failCandidate_kept (n : Stn) : Kept s (s.failCandidate n) := by
  unfold State.failCandidate
  split
  · exact .refl s
  · split
    · exact endWalk_kept s n _
    · exact faultFollowing_kept s n _

theorem examineInWalk_kept (n : Stn) (b : Addr) (d : List Byte) : Kept s (s.examineInWalk n b d) := by
  unfold State.examineInWalk
  split
  · exact endWalk_kept s n _
  · exact endWalk_kept s n _
  · exact endWalk_kept s n _
  · exact retireFound_kept s ..

theorem meetPosted_kept (n : Stn) (b : Addr) (h : HostPart) : Kept s (s.meetPosted n b h) := by
  unfold State.meetPosted
  split
  · exact retireFound_kept s ..
  · split
    · exact retireFound_kept s ..
    · exact retireFound_kept s ..
    · exact .plain rfl rfl rfl

theorem examineInFollowing_kept (n : Stn) (b : Addr) (d : List Byte) : Kept s (s.examineInFollowing n b d) := by
  unfold State.examineInFollowing
  split
  · exact park_kept s n _
  · exact faultFollowing_kept s n _
  · exact faultFollowing_kept s n _
  · exact meetPosted_kept s n b _

theorem takeBlock_kept (n : Stn) (b : Addr) (h : HostPart) : Kept s (s.takeBlock n b h) :=
  Kept.after (endFollowing_kept _ n _) (.plain rfl rfl rfl)

theorem startWalk_kept (n : Stn) : Kept s (s.startWalk n) :=
  Kept.after (obtain_kept _ n) (.plain rfl rfl rfl)

theorem endTakeDown_kept (n : Stn) : Kept s (s.endTakeDown n) := .plain rfl rfl rfl

theorem takeDownWatch_kept (n : Stn) : Kept s (s.takeDownWatch n) := .ite (endTakeDown_kept s n) (.plain rfl rfl rfl)

theorem endRestart_kept (n : Stn) (b : Bool) : Kept s (s.endRestart n b) := by
  unfold State.endRestart
  simp only
  split
  · split <;> exact .plain rfl rfl rfl
  · exact .plain rfl rfl rfl

theorem beginRestart_kept (n : Stn) : Kept s (s.beginRestart n) := by
  unfold State.beginRestart
  simp only
  split
  · split
    · exact Kept.after (endRestart_kept _ n _) (.plain rfl rfl rfl)
    · exact Kept.after (retireInFlight_kept _ ..) (.plain rfl rfl rfl)
  · exact Kept.after (endRestart_kept _ n _) (.plain rfl rfl rfl)

theorem goOnFrom_kept (n : Stn) (b : Addr) : Kept s (s.goOnFrom n b) :=
  Kept.after (obtain_kept _ n) (.plain rfl rfl rfl)

theorem afterTurnRetirement_kept (n : Stn) (r : Retirement) : Kept s (s.afterTurnRetirement n r) := by
  unfold State.afterTurnRetirement
  split
  · exact enterLost_kept s n _
  · split
    · exact (setNotice_kept s n).trans ((finishTurn_kept _ _).after (.plain rfl rfl rfl))
    · exact follow_kept s n _

theorem afterRetirement_kept (n : Stn) (r : Retirement) : Kept s (s.afterRetirement n r) := by
  have h : Kept s (if r.notify then s.setNotice n else s) := .ite (setNotice_kept s n) (.refl s)
  unfold State.afterRetirement
  simp only
  refine h.trans ?_
  generalize (if r.notify then s.setNotice n else s) = u
  split
  · exact afterTurnRetirement_kept u n r
  · split
    · exact endFollowing_kept u n _
    · exact goOnFrom_kept u n _
  · exact endFollowing_kept u n _
  · exact goOnFrom_kept u n _
  · exact startWalk_kept u n
  · exact takeDownWatch_kept u n
  · exact lostTail_kept u n
  · exact endRestart_kept u n _

/-! ### Taking an outcome -/

theorem retireInTurn_kept (n : Stn) (c : Condition) (b : Bool) (k : Nat) (r : List Byte) :
    Kept s (s.retireInTurn n c b k r) :=
  (retireInFlight_kept _ ..).after (.plain rfl rfl rfl)

theorem actOn_kept (t : Turn) (o : Outcome) : Kept s (s.actOn t o) := by
  unfold State.actOn
  split
  · exact .ite (follow_kept s ..) (finishTurn_kept s _)
  · exact Kept.after (finishTurn_kept _ _) (.ite (.plain rfl rfl rfl) (.refl s))
  · exact retireInTurn_kept s ..
  · exact .ite (enterLost_kept s ..) (.ite (retireInTurn_kept s ..) (.ite (enterLost_kept s ..) (finishTurn_kept s _)))

theorem takeOutcome_kept : Kept s s.takeOutcome := by
  unfold State.takeOutcome
  split
  · exact .refl s
  · split
    · exact .refl s
    · split
      · exact actOn_kept s ..
      · exact .refl s

theorem finishReport_kept (n : Stn) : Kept s (s.finishReport n) :=
  (finishOp_kept s n).trans (.ite (.refl _) ((takeReread_kept _ n).trans (.ite (takeOutcome_kept _) (.refl _))))

/-! ### `settle` -/

theorem endCascade_kept : Kept s s.endCascade := by
  unfold State.endCascade
  split
  · exact .refl s
  · exact .ite (finishTurn_kept s _) (.refl s)

theorem oweRestarts_kept : Kept s s.oweRestarts := by
  unfold State.oweRestarts
  split
  · refine ((Kept.forStations (fun n s => ?_) s).trans (modSm_kept _ _)).trans (dropHolds_kept _)
    split
    · exact .refl s
    · exact .plain rfl rfl rfl
  · exact .refl s

theorem takeRestart_kept (n : Stn) : Kept s (s.takeRestart n) :=
  .ite (.ite (.plain rfl rfl rfl) (beginRestart_kept s n)) (.refl s)

theorem beginRestarts_kept : Kept s s.beginRestarts :=
  .ite (.refl s) ((oweRestarts_kept s).trans (Kept.forStations (fun n s => takeRestart_kept s n) _))

theorem restartFollow_kept (n : Stn) : Kept s (s.restartFollow n) :=
  .ite (.ite (follow_kept s n _) (.plain rfl rfl rfl)) (.refl s)

theorem restartFollows_kept : Kept s s.restartFollows := by
  unfold State.restartFollows
  split
  · exact .refl s
  · split
    · exact (Kept.forStations (fun n s => restartFollow_kept s n) s).trans (modSm_kept _ _)
    · exact .plain rfl rfl rfl

theorem headerFault_kept (a : Addr) : Kept s (s.headerFault a) := ⟨rfl, fun _ h => h, fun _ => rfl⟩

theorem startPart_kept : Kept s s.startPart := by
  unfold State.startPart
  simp only
  split
  · exact .plain rfl rfl rfl
  · exact Kept.after (headerFault_kept _ _) (.plain rfl rfl rfl)

theorem partStep_kept : Kept s s.partStep := by
  unfold State.partStep
  split
  · exact .ite (.plain rfl rfl rfl) (.refl s)
  · split
    · simp only
      split
      · exact Kept.after (startPart_kept _) (.plain rfl rfl rfl)
      · exact .plain rfl rfl rfl
    · exact .refl s
  · exact .ite (startPart_kept s) (.refl s)
  · exact .refl s
  · exact .refl s

theorem serveMemory_kept : Kept s s.serveMemory := by
  obtain ⟨_, _, _, _, h⟩ := s.serveMemory_rest
  rw [h]; exact .plain rfl rfl rfl

theorem settle_kept : Kept s s.settle := by
  unfold State.settle
  split
  · exact .refl s
  · exact ((((endCascade_kept s).trans (beginRestarts_kept _)).trans (restartFollows_kept _)).trans
      (partStep_kept _)).trans (serveMemory_kept _)

end Sys2Proof.Machine
end

