-- ==== Sys2Proof/Laws/FrameTurns.lean ====
section
/-! SUPPORT. What the operations of a turn and of the attention entries leave alone: one lemma for each operation. -/

namespace Sys2Proof.Machine

variable (s : State)

/-! ### Sending -/

theorem sendRequest_kept (q : Bool) : Kept s (s.sendRequest q) := by
  unfold State.sendRequest
  split
  · exact .refl s
  · simp only
    split <;> exact .plain rfl rfl rfl

theorem beginSending_kept (q : Bool) : Kept s (s.beginSending q) := by
  unfold State.beginSending
  split
  · exact .refl s
  · exact (sendRequest_kept _ q).after (.plain rfl rfl rfl)

theorem grantTurn_kept (n : Stn) (k : TurnKind) (q : Bool) : Kept s (s.grantTurn n k q) := by
  unfold State.grantTurn
  simp only
  split
  · exact .plain rfl rfl rfl
  · exact (beginSending_kept _ q).after (.plain rfl rfl rfl)

theorem sendAccept_kept (t : Turn) (w : Acknowledged) (p q : Bool) : Kept s (s.sendAccept t w p q) := .plain rfl rfl rfl

/-! ### Outcomes -/

theorem setOutcome_kept (o : Outcome) (m : TurnMark) : Kept s (s.setOutcome o m) := .plain rfl rfl rfl

theorem handOver_kept (o : Outcome) (m : TurnMark) : Kept s (s.handOver o m) :=
  (setOutcome_kept s o m).trans (takeOutcome_kept _)

theorem finishWatch_kept (t : Turn) : Kept s (s.finishWatch t) := .ite (handOver_kept s ..) (handOver_kept s ..)

theorem writeSlot_kept (t : Turn) (x : SlotStatus) (b : Bool) : Kept s (s.writeSlot t x b) := .plain rfl rfl rfl

theorem slotWritten_kept (t : Turn) (b : Bool) : Kept s (s.slotWritten t b) := by
  have h : Kept s (if b then s.setNotice t.station else s) := .ite (setNotice_kept s _) (.refl s)
  unfold State.slotWritten
  refine h.trans ?_
  generalize (if b then s.setNotice t.station else s) = u
  exact (finishWatch_kept _ t).after (.plain rfl rfl rfl)

theorem cascadeTo_kept (b : Fin 8) (t m : Stn) : Kept s (s.cascadeTo b t m) := by
  unfold State.cascadeTo
  split
  · split
    · exact .ite (.plain rfl rfl rfl) (enterLost_kept s m _)
    · exact .refl s
  · exact .refl s

theorem exhaustOpen_kept (t : Turn) : Kept s (s.exhaustOpen t) := by
  unfold State.exhaustOpen
  split
  · exact .refl s
  · exact (takeOutcome_kept _).after ((Kept.forStations (fun m s => cascadeTo_kept s _ _ m) _).after
      ((setOutcome_kept _ ..).after (.plain rfl rfl rfl)))

theorem doubtRoute_kept (t : Turn) : Kept s (s.doubtRoute t) := by
  unfold State.doubtRoute
  split
  · exact .refl s
  · split
    · exact .plain rfl rfl rfl
    · exact .refl s

theorem exhaustRequest_kept (t : Turn) : Kept s (s.exhaustRequest t) := by
  have h : Kept s (((s.doubtRoute t).modSt t.station fun st => { st with lapses := bump 15 st.lapses }).modTurn fun t =>
      { t with lapsed := true }) := (doubtRoute_kept s t).trans (.plain rfl rfl rfl)
  unfold State.exhaustRequest
  simp only
  refine h.trans ?_
  split
  · exact writeSlot_kept _ ..
  all_goals exact handOver_kept _ ..

theorem countFailure_kept (t : Turn) : Kept s (s.countFailure t) := by
  unfold State.countFailure
  simp only
  split <;> exact .plain rfl rfl rfl

theorem attemptFailure_kept (t : Turn) (q : Bool) : Kept s (s.attemptFailure t q) := by
  unfold State.attemptFailure
  simp only
  split
  · exact (countFailure_kept s t).trans (sendRequest_kept _ q)
  · split
    · exact (countFailure_kept s t).trans (exhaustOpen_kept _ t)
    · exact (countFailure_kept s t).trans (exhaustRequest_kept _ t)

/-! ### Answers -/

theorem openAccepted_kept (t : Turn) (q : Bool) : Kept s (s.openAccepted t q) := by
  unfold State.openAccepted
  split
  · exact .refl s
  · exact (sendRequest_kept _ q).after (.plain rfl rfl rfl)

theorem heldExchange_kept (t : Turn) : Kept s (s.heldExchange t) := by
  unfold State.heldExchange
  simp only
  split <;> exact (handOver_kept _ ..).after (.plain rfl rfl rfl)

theorem orderAccepted_kept (t : Turn) : Kept s (s.orderAccepted t) := (handOver_kept _ ..).after (.plain rfl rfl rfl)

theorem putAccepted_kept (t : Turn) : Kept s (s.putAccepted t) := (handOver_kept _ ..).after (.plain rfl rfl rfl)

theorem dataFinished_kept (t : Turn) : Kept s (s.dataFinished t) := (handOver_kept _ ..).after (.plain rfl rfl rfl)

theorem dataTaken_kept (t : Turn) (k : Nat) : Kept s (s.dataTaken t k) :=
  (handOver_kept _ ..).after (.plain rfl rfl rfl)

theorem syncAccepted_kept (t : Turn) : Kept s (s.syncAccepted t) := by
  unfold State.syncAccepted
  simp only
  split <;> exact (handOver_kept _ ..).after (.plain rfl rfl rfl)

theorem stateTaken_kept (t : Turn) (v : List Byte) : Kept s (s.stateTaken t v) := by
  unfold State.stateTaken
  simp only
  split
  · split
    · exact (finishWatch_kept _ t).after (.plain rfl rfl rfl)
    · exact (writeSlot_kept _ ..).after (.plain rfl rfl rfl)
  · exact (writeSlot_kept _ ..).after (.plain rfl rfl rfl)

theorem heldPeek_kept (t : Turn) : Kept s (s.heldPeek t) := (handOver_kept _ ..).after (.plain rfl rfl rfl)

theorem answered_kept (t : Turn) (k : PacketKind) (p : Bool) (d : List Byte) (q : Bool) :
    Kept s (s.answered t k p d q) := by
  unfold State.answered
  simp only
  refine Kept.after (s := s) (t := s.modSt t.station fun st => { st with lapses := 0 }) ?_ (.plain rfl rfl rfl)
  generalize (s.modSt t.station fun st => { st with lapses := 0 }) = u
  split
  · exact orderAccepted_kept u t
  · exact putAccepted_kept u t
  · exact dataFinished_kept u t
  · exact dataFinished_kept u t
  · exact .plain rfl rfl rfl
  · exact .plain rfl rfl rfl
  · exact syncAccepted_kept u t
  · exact stateTaken_kept u t d
  · exact heldPeek_kept u t
  · exact writeSlot_kept u ..
  · exact heldExchange_kept u t
  · exact heldExchange_kept u t
  · exact heldExchange_kept u t
  · exact heldExchange_kept u t
  · exact handOver_kept u ..
  · exact handOver_kept u ..
  · exact handOver_kept u ..
  · exact handOver_kept u ..
  · exact .refl u

theorem checkReport_kept (t : Turn) (r : List Byte) : Kept s (s.checkReport t r) := by
  unfold State.checkReport
  split
  · exact .refl s
  · split
    · exact (handOver_kept _ ..).after (.plain rfl rfl rfl)
    · exact handOver_kept s ..

theorem acceptSent_kept (t : Turn) (w : Acknowledged) : Kept s (s.acceptSent t w) := by
  unfold State.acceptSent
  simp only
  split
  · exact handOver_kept s ..
  · split
    · exact (dataTaken_kept _ ..).after (.plain rfl rfl rfl)
    · exact .plain rfl rfl rfl
  · exact (checkReport_kept _ ..).after (.plain rfl rfl rfl)
  · exact (handOver_kept _ ..).after (.plain rfl rfl rfl)

theorem acceptAbandoned_kept (t : Turn) (w : Acknowledged) (q : Bool) : Kept s (s.acceptAbandoned t w q) := by
  unfold State.acceptAbandoned
  split
  · exact handOver_kept s ..
  all_goals exact (attemptFailure_kept _ ..).after (.plain rfl rfl rfl)

theorem requestFinding_kept (t : Turn) (f : Finding) (q : Bool) : Kept s (s.requestFinding t f q) := by
  unfold State.requestFinding
  split
  · split
    · exact openAccepted_kept s ..
    · exact answered_kept s ..
  · exact (sendAccept_kept _ ..).after (.plain rfl rfl rfl)
  · exact (handOver_kept _ ..).after (.plain rfl rfl rfl)
  · exact (sendAccept_kept _ ..).after (.plain rfl rfl rfl)
  · exact .refl s
  all_goals exact attemptFailure_kept s ..

/-- Whatever finding XE takes. -/
theorem takeFinding_kept (t : Turn) (f : Finding) (q : Bool) : Kept s (s.takeFinding t f q) := by
  unfold State.takeFinding
  split
  · exact requestFinding_kept s ..
  · split
    · exact acceptSent_kept s ..
    · exact acceptAbandoned_kept s ..
  · exact .refl s

/-! ### Configuration and attention entries -/

theorem setUpWatch_kept (n : Stn) (c : StationConfig) : Kept s (s.setUpWatch n c) := .ite (.refl s) (.plain rfl rfl rfl)

theorem takeConfiguration_kept (n : Stn) (d : List Byte) : Kept s (s.takeConfiguration n d) := by
  unfold State.takeConfiguration
  split
  · exact finalApplication_kept s ..
  · next c _ =>
    have h : Kept s ((s.setUp n c).setUpWatch n c) := (setUpWatch_kept _ n c).after (.plain rfl rfl rfl)
    refine h.trans ?_
    exact (examineAddress_kept _ ..).after (.plain rfl rfl rfl)

theorem applyBringUp_kept (n : Stn) : Kept s (s.applyBringUp n) := .ite (.plain rfl rfl rfl) (.plain rfl rfl rfl)

theorem applyWake_kept (n : Stn) : Kept s (s.applyWake n) := by
  unfold State.applyWake
  split
  · exact follow_kept s ..
  all_goals exact .plain rfl rfl rfl

theorem applyPause_kept (n : Stn) : Kept s (s.applyPause n) := by
  unfold State.applyPause
  split <;> exact .plain rfl rfl rfl

theorem applyResume_kept (n : Stn) : Kept s (s.applyResume n) := by
  unfold State.applyResume
  split
  · exact .ite (.plain rfl rfl rfl) (follow_kept s ..)
  · exact follow_kept s ..
  all_goals exact .plain rfl rfl rfl

theorem applyWithdraw_kept (n : Stn) : Kept s (s.applyWithdraw n) := by
  unfold State.applyWithdraw
  split
  · exact .plain rfl rfl rfl
  · simp only
    refine Kept.after (s := s) (t := s.modSt n Station.clearCountdowns) ?_ (.plain rfl rfl rfl)
    generalize s.modSt n Station.clearCountdowns = u
    split
    · exact startWalk_kept u n
    · next f _ =>
      have h : Kept u (if f.phase = .nothing then u else u.modSt n fun st => { st with resyncPending := true }) :=
        .ite (.refl u) (.plain rfl rfl rfl)
      exact h.trans (retireInFlight_kept _ ..)

theorem reviveRoute_kept (n : Stn) : Kept s (s.reviveRoute n) := by
  unfold State.reviveRoute
  split
  · exact .refl s
  · split
    · exact .plain rfl rfl rfl
    · exact .refl s

theorem applyRevive_kept (n : Stn) : Kept s (s.applyRevive n) := by
  unfold State.applyRevive
  split
  · have h : Kept s ((s.modSt n fun st => { st with lapses := 0, resyncPending := true }).reviveRoute n) :=
      (reviveRoute_kept _ n).after (.plain rfl rfl rfl)
    refine h.trans ?_
    generalize ((s.modSt n fun st => { st with lapses := 0, resyncPending := true }).reviveRoute n) = u
    exact .plain rfl rfl rfl
  · exact .plain rfl rfl rfl

theorem applyTakeDown_kept (n : Stn) : Kept s (s.applyTakeDown n) := by
  unfold State.applyTakeDown
  split
  · exact .plain rfl rfl rfl
  · simp only
    refine Kept.after (s := s) (t := s.modSt n Station.clearCountdowns) ?_ (.plain rfl rfl rfl)
    generalize s.modSt n Station.clearCountdowns = u
    split
    · exact takeDownWatch_kept u n
    · exact retireInFlight_kept u ..

/-! ### Timers and link restart -/

theorem tickStation_kept (n : Stn) : Kept s (s.tickStation n) := .plain rfl rfl rfl

theorem carryOutRestart_kept : Kept s s.carryOutRestart := .plain rfl rfl rfl

end Sys2Proof.Machine
end

