-- ==== Sys2Proof/Laws/Memory.lean ====
section
/-! SUPPORT. Host memory: every operation keeps the canonical form, and what one byte reads as after it. -/

namespace Sys2Proof.Machine

namespace Memory

theorem wf_nil : wf [] = true := rfl

theorem wf_cons {a : Nat} {b : Byte} {m : Memory} :
    wf ((a, b) :: m) = true ↔ (∀ cell ∈ m.head?, a < cell.1) ∧ wf m = true := by
  cases m with
  | nil => simp [wf]
  | cons cell rest => obtain ⟨c, v⟩ := cell; simp [wf]

/-- The first cell after a write is at the address written or where the first cell was. -/
theorem head_put {a : Nat} {b : Byte} (m : Memory) :
    ∀ cell ∈ (put a b m).head?, cell.1 = a ∨ ∃ old ∈ m.head?, cell.1 = old.1 := by
  cases m with
  | nil => simp [put]
  | cons cell rest =>
    obtain ⟨c, v⟩ := cell
    simp only [put]
    split
    · simp
    · split <;> simp

/-- A write of one byte keeps the canonical form. -/
theorem put_wf {a : Nat} {b : Byte} {m : Memory} (h : wf m = true) : wf (put a b m) = true := by
  induction m with
  | nil => rfl
  | cons cell rest ih =>
    obtain ⟨c, v⟩ := cell
    simp only [put]
    split
    · next hlt => exact wf_cons.2 ⟨by simpa using hlt, h⟩
    · next hlt =>
      obtain ⟨h1, h2⟩ := wf_cons.1 h
      split
      · next heq => subst heq; exact wf_cons.2 ⟨h1, h2⟩
      · next hne =>
        refine wf_cons.2 ⟨?_, ih h2⟩
        intro cell hcell
        rcases head_put rest cell hcell with h3 | ⟨old, h3, h4⟩
        · omega
        · exact h4 ▸ h1 old h3

/-- A write of the bytes at the addresses that `keep` admits keeps the canonical form. -/
theorem storeIf_wf {keep : Nat → Bool} {data : List Byte} : ∀ {a : Nat} {m : Memory}, wf m = true →
    wf (storeIf keep a data m) = true := by
  induction data with
  | nil => intro a m h; exact h
  | cons b rest ih =>
    intro a m h
    simp only [storeIf]
    split
    · exact ih (put_wf h)
    · exact ih h

theorem store_wf {a : Nat} {data : List Byte} {m : Memory} (h : wf m = true) : wf (store a data m) = true :=
  storeIf_wf h

/-- One byte after a write of one byte. -/
theorem peek_put (m : Memory) (a : Nat) (b : Byte) (x : Nat) :
    (put a b m).peek x = if x = a then some b else m.peek x := by
  induction m with
  | nil =>
    by_cases h : a = x
    · simp [put, peek, h]
    · simp [put, peek, h, Ne.symm h]
  | cons cell rest ih =>
    obtain ⟨c, v⟩ := cell
    simp only [put]
    split
    · by_cases h : a = x
      · simp [peek, h]
      · simp [peek, h, Ne.symm h]
    · split
      · next heq =>
        subst heq
        by_cases h : a = x
        · simp [peek, h]
        · simp [peek, h, Ne.symm h]
      · next hne =>
        simp only [peek] at ih ⊢
        by_cases h : c = x
        · subst h; simp [Ne.symm hne]
        · simpa [List.find?_cons, h] using ih

/-- One byte after a write of the bytes at the addresses that `keep` admits. -/
theorem peek_storeIf (keep : Nat → Bool) (data : List Byte) : ∀ (a : Nat) (m : Memory) (x : Nat),
    (storeIf keep a data m).peek x =
      if a ≤ x ∧ x < a + data.length ∧ keep x = true then data[x - a]? else m.peek x := by
  induction data with
  | nil => intro a m x; simp [storeIf]; omega
  | cons b rest ih =>
    intro a m x
    simp only [storeIf, ih, List.length_cons]
    by_cases hx : x = a
    · subst hx
      by_cases hk : keep x = true <;> simp [hk, peek_put]
    · have hp : (if keep a = true then put a b m else m).peek x = m.peek x := by split <;> simp [peek_put, hx]
      rw [hp]
      by_cases hle : a ≤ x
      · obtain ⟨k, rfl⟩ : ∃ k, x = a + 1 + k := ⟨x - a - 1, by omega⟩
        have h1 : a + 1 + k - a = k + 1 := by omega
        have h2 : a + 1 + k - (a + 1) = k := by omega
        have h3 : (a + 1 + k < a + 1 + rest.length) ↔ (a + 1 + k < a + (rest.length + 1)) := by omega
        have h4 : (a + 1 ≤ a + 1 + k) ↔ (a ≤ a + 1 + k) := by omega
        simp [h1, h2, h3, h4]
      · rw [if_neg (by omega), if_neg (by omega)]

/-- One byte after a write. -/
theorem peek_store (data : List Byte) (a : Nat) (m : Memory) (x : Nat) :
    (store a data m).peek x = if a ≤ x ∧ x < a + data.length then data[x - a]? else m.peek x := by
  simp [store, peek_storeIf]

end Memory

/-- A request cut short keeps the canonical form. -/
theorem Request.land_wf {r : Request} {cut : Cut} {m : Memory} (h : m.wf = true) : (r.land cut m).wf = true := by
  unfold Request.land
  split
  · exact Memory.storeIf_wf h
  · exact h

end Sys2Proof.Machine
end

