-- ==== Sys2Proof/Laws/Restart.lean ====
section
/-! SUPPORT. The context changes of a link restart, station by station: what they do to a context depends on that context alone, and they touch no other. -/

namespace Sys2Proof.Machine

namespace State

/-! ### One station's changes -/

theorem st_endRestart_of_ne (s : State) {n m : Stn} (h : m ≠ n) (retired : Bool) :
    (s.endRestart n retired).st m = s.st m := by
  simp only [endRestart]
  split
  · split <;> simp [askStatus, askSm, setStage, modOp, enterState, st_modSt_of_ne, h]
  · simp [askStatus, askSm, setStage, modOp, st_modSt_of_ne, h]

theorem st_endRestart_congr {s u : State} {n : Stn} (h : u.st n = s.st n) (retired : Bool) :
    (u.endRestart n retired).st n = (s.endRestart n retired).st n := by
  simp only [endRestart, st_modSt, if_true, h]
  split
  · split <;> simp [askStatus, askSm, setStage, modOp, enterState, h, Station.enter]
  · simp [askStatus, askSm, setStage, modOp, h]

theorem endRestart_job (s : State) (n : Stn) (retired : Bool) :
    ((s.endRestart n retired).st n).op.map (·.job) = (s.st n).op.map (·.job) := by
  simp only [endRestart]
  split
  · split <;> simp [askStatus, askSm, setStage, modOp, enterState, Station.enter] <;> rfl
  · simp [askStatus, askSm, setStage, modOp]; rfl

/-- A retirement of the in-flight block moves the operation on and changes nothing else of the context. -/
theorem st_retireInFlight (s : State) {n : Stn} {f : InFlight} (h : (s.st n).inFlight = some f) (c : Condition)
    (residue : Nat) (report : List Byte) (after : After) :
    (s.retireInFlight n c residue report after).st n =
      { s.st n with op := (s.st n).op.map fun o =>
        { o with stage := .result ⟨f.address, true, f.host.notify, f.host.haltOnError, c, after⟩ } } := by
  simp only [retireInFlight, h]; simp [beginRetirement, setStage, modOp, askResult, askSm, h]

theorem st_beginRestart_of_ne (s : State) {n m : Stn} (h : m ≠ n) : (s.beginRestart n).st m = s.st m := by
  simp only [beginRestart]
  split
  · next f hf =>
    split
    · rw [st_endRestart_of_ne _ h]; simp [startOp, st_modSt_of_ne, h]
    · simp only [retireInFlight, hf]
      simp [beginRetirement, askResult, askSm, setStage, modOp, startOp, st_modSt_of_ne, h]
  · rw [st_endRestart_of_ne _ h]; simp [startOp, st_modSt_of_ne, h]

theorem st_beginRestart_congr {s u : State} {n : Stn} (h : u.st n = s.st n) :
    (u.beginRestart n).st n = (s.beginRestart n).st n := by
  have h' : ((u.startOp n .restart .final).modSt n fun st => { st with restartOwed := false }).st n
      = ((s.startOp n .restart .final).modSt n fun st => { st with restartOwed := false }).st n := by simp [startOp, h]
  simp only [beginRestart]
  rw [h']
  split
  · next f hf =>
    split
    · exact st_endRestart_congr h' _
    · rw [st_retireInFlight _ hf, st_retireInFlight _ (h' ▸ hf), h']
  · exact st_endRestart_congr h' _

/-- Changes that have begun are an operation of SM. -/
theorem beginRestart_job (s : State) (n : Stn) : ((s.beginRestart n).st n).op.map (·.job) = some .restart := by
  simp only [beginRestart]
  split
  · next f hf =>
    split
    · rw [endRestart_job]; simp [startOp]
    · rw [st_retireInFlight _ hf]; simp [startOp]
  · rw [endRestart_job]; simp [startOp]

theorem st_takeRestart_of_ne (s : State) {n m : Stn} (h : m ≠ n) : (s.takeRestart n).st m = s.st m := by
  unfold takeRestart
  split
  · split
    · exact st_modSt_of_ne _ h _
    · exact st_beginRestart_of_ne s h
  · rfl

theorem st_takeRestart_congr {s u : State} {n : Stn} (h : u.st n = s.st n) :
    (u.takeRestart n).st n = (s.takeRestart n).st n := by
  unfold takeRestart hasOp
  rw [h]
  split
  · split
    · simp [h]
    · exact st_beginRestart_congr h
  · exact h

/-! ### All stations -/

theorem st_oweRestarts (s : State) (n : Stn) :
    s.oweRestarts.st n =
      if s.sm.restartPending = true ∧ (s.st n).state ≠ .absent then { s.st n with restartOwed := true } else s.st n := by
  unfold oweRestarts
  split
  · next h =>
    simp only [modRw_st, modSm_st]
    rw [forStations_at (fun _ => ()) (fun n s => s.st n) (fun _ _ => rfl)]
    · split <;> simp_all
    · intro n m s hm
      split
      · rfl
      · exact st_modSt_of_ne _ hm _
    · intro n s t _ hst
      rw [hst]
      split
      · exact hst
      · simp [hst]
  · next h => simp [h]

/-- No restart is held: every station's changes, as if it were alone. -/
theorem st_beginRestarts {s : State} (h : s.restartHeld = false) (n : Stn) :
    s.beginRestarts.st n = (s.oweRestarts.takeRestart n).st n := by
  simp only [beginRestarts, h]
  exact forStations_at (fun _ => ()) (fun n s => s.st n) (fun _ _ => rfl) (fun _ _ s hm => st_takeRestart_of_ne s hm)
    (fun _ _ _ _ hst => st_takeRestart_congr hst) _ _

/-- Changes owed or under way keep the part busy. -/
theorem restartBusy_of {s : State} {n : Stn}
    (h : (s.st n).restartOwed = true ∨ (s.st n).op.map (·.job) = some .restart) : s.restartBusy = true := by
  have hn : n ∈ allStations := by simp [allStations]
  unfold restartBusy
  rcases h with h | h
  · have : (allStations.any fun n => (s.st n).restartOwed) = true := List.any_eq_true.mpr ⟨n, hn, h⟩
    simp [this]
  · have : s.anyJob (· == .restart) = true := by
      refine List.any_eq_true.mpr ⟨n, hn, ?_⟩
      cases ho : (s.st n).op <;> simp_all
    simp [this]

/-- While restart changes are owed or under way the part neither stops nor starts. -/
theorem partStep_of_busy {s : State} (h : s.restartBusy = true) (hp : s.rw.part ≠ .starting) : s.partStep = s := by
  unfold partStep
  split
  · next hs => exact absurd hs hp
  · simp [atRest, h]
  · simp [h]
  · rfl
  · rfl

end State

end Sys2Proof.Machine
end

