-- ==== Sys2Proof/Tests/Slice0.lean ====
section
/-! SUPPORT. Tests: ill-formed commands that the check refuses, the accesses that make commands, small single steps, and for each statement a state and operands that meet its hypotheses. -/

open Sys2Proof Sys2Proof.Machine

namespace Sys2Proof.Tests

set_option Elab.async false

/-! ### Well-formedness -/

theorem test_cut_of_33_units_is_ill_formed :
    (Instr.busError ⟨33, 0#8⟩).wellFormed = false ∧ (Instr.busError ⟨32, 0#8⟩).wellFormed = true
      ∧ (Instr.powerOnReset ⟨33, 0#8⟩).wellFormed = false ∧ (Instr.deviceReset ⟨33, 0#8⟩).wellFormed = false := by
  decide

theorem test_write_of_a_writable_register_is_not_an_ignored_write :
    (Instr.registerWriteIgnored 0x10 15#4 0#32).wellFormed = false
      ∧ (Instr.registerWriteIgnored 0x10 7#4 0#32).wellFormed = true
      ∧ (Instr.registerWriteIgnored 0x1C 15#4 0#32).wellFormed = true
      ∧ (Instr.registerWriteIgnored 0x20 15#4 0#32).wellFormed = false
      ∧ (Instr.registerWriteIgnored 0x1D 15#4 0#32).wellFormed = false := by decide

theorem test_reads_of_the_wrong_length_are_ill_formed :
    (Instr.headerRead (zeroBytes 63)).wellFormed = false ∧ (Instr.configurationRead (zeroBytes 33)).wellFormed = false
      ∧ (Instr.chainHeadRead (zeroBytes 3)).wellFormed = false ∧ (Instr.linkRead (zeroBytes 5)).wellFormed = false
      ∧ (Instr.blockRead (zeroBytes 63)).wellFormed = false ∧ (Instr.blockRead (zeroBytes 64)).wellFormed = true := by
  decide

theorem test_put_reads_have_1_to_256_bytes :
    (Instr.putRead [] true).wellFormed = false ∧ (Instr.putRead (zeroBytes 257) true).wellFormed = false
      ∧ (Instr.putRead (zeroBytes 1) true).wellFormed = true ∧ (Instr.putRead (zeroBytes 256) true).wellFormed = true := by
  decide +kernel

theorem test_packet_of_the_wrong_length_is_ill_formed :
    (Instr.receptionEnd (.framed ⟨⟨8#4, 1#7, false, 1#9, 0#8⟩, [], 0#16⟩) true).wellFormed = false
      ∧ (Instr.receptionEnd (.framed ⟨⟨8#4, 1#7, false, 0#9, 0#8⟩, [], 0#16⟩) true).wellFormed = true := by decide

/-! ### From accesses to commands -/

theorem test_no_word_spells_a_command : decodeTableWord 32 0xFFFF = none := rfl

theorem test_control_write_makes_its_commands_in_order :
    commandsOfWrite ⟨0, 0#8⟩ 0x04 15#4 0x107#32 = [.noticeEn true, .faultEn true, .linkRestart, .runStart]
      ∧ commandsOfWrite ⟨0, 0#8⟩ 0x04 15#4 0#32 = [.noticeEn false, .faultEn false, .runStop]
      ∧ commandsOfWrite ⟨0, 0#8⟩ 0x04 15#4 0x80000107#32 = [.deviceReset ⟨0, 0#8⟩] := by decide

theorem test_wide_write_makes_two_writes :
    commandsOfWrite64 ⟨0, 0#8⟩ 0x08 255#8 0x10000#64 = [.statusWriteClear 0x10000#32, .dirbaseWrite 0#32]
      ∧ commandsOfWrite64 ⟨0, 0#8⟩ 0x10 0x0F#8 0x105#64
        = [.attentionWrite 0x105#32, .registerWriteIgnored 0x14 0#4 0#32] := by decide

/-- Named by an offset in its upper half, a 64-bit access is the same access of its aligned 8-byte unit. -/
theorem test_wide_access_covers_its_aligned_unit :
    commandsOfWrite64 ⟨0, 0#8⟩ 0x0C 255#8 0x10000#64 = commandsOfWrite64 ⟨0, 0#8⟩ 0x08 255#8 0x10000#64
      ∧ commandsOfRead64 0x14 255#8 = [.noticeRead] ∧ commandsOfRead64 0x10 255#8 = [.noticeRead]
      ∧ commandsOfRead64 0x10 0x0F#8 = [] ∧ commandsOfRead 0x14 2#4 = [.noticeRead] := by decide

theorem test_reads_return_the_bytes_they_address :
    (State.reset.setNotice 5).readBytes 0x00 2#4 = 0x0000#32 ∧ State.reset.readBytes 0x00 12#4 = 0x4B560000#32
      ∧ (State.reset.setNotice 5).readBytes64 0x14 255#8 = 0x500000000#64 := by decide +kernel

/-! ### Small states -/

def latch : Latched := ⟨0x1000#32, 0, 3, 1, 8, 1, 0x8000#32, [5, 0, 0, 0, 0, 0, 0, 0]⟩

def config (route : Route) : StationConfig := ⟨1, route, 0, 1, 1, 1, 1, 4, true⟩

/-- The part in a part state, a header latched, every station ABSENT. -/
def inPart (p : PartState) : State :=
  (State.reset.modRw fun r => { r with part := p, run := true }).setLatched (some latch)

def running : State := inPart .running

/-- Station 3 IDLE on a direct route, and what `f` makes of it. -/
def withStation (f : Station → Station) (s : State) : State :=
  s.modSt 3 fun st => f { st with state := .idle, config := some (config .direct) }

/-- Station 3 in a state. -/
def stationIn (x : StationState) : State := withStation (fun st => { st with state := x }) running

def entry (a : Action) (s : State) : State := s.setAu [⟨3, a⟩]

def host : HostPart := ⟨0#32, some .exchange, true, false, false, .toStation, 4, 7#16, 0x2000#32, 48, []⟩

def flight (p : Phase) (h : HostPart) : InFlight := ⟨0x4000#32, h, p, 0, 0, 0, 0x2000#32⟩

def operation (job : Job) (stage : Stage) : Operation := ⟨job, stage, none, false, false, ⟨.idle, none, none, .clear⟩⟩

/-- Station 3 READY with an operation. -/
def working (job : Job) (stage : Stage) : State :=
  withStation (fun st => { st with state := .ready, op := some (operation job stage) }) running

def turn (kind : TurnKind) (stage : TurnStage) : Turn := ⟨3, kind, false, false, 0, 16, .ready, stage, false⟩

/-- Station 3 ENGAGED in a turn, a block in flight. -/
def engaged (t : Turn) (f : InFlight) : State :=
  (withStation (fun st => { st with state := .engaged, inFlight := some f }) running).modXe fun _ => ⟨some t, []⟩

/-- MP has a request of station 3 in progress. -/
def request (k : RequestKind) (length : Nat) : Request :=
  ⟨k, some 3, 0x1100#32, length, if k.isWrite then zeroBytes length else [], false⟩

def serving (r : Request) (s : State) : State :=
  s.modMp fun m => { m.setSlot r.kind.requester (some r) with inProgress := some r.kind.requester }

/-- LP in a state, an ORDER with it. -/
def line (x : LinkState) (s : State) : State :=
  s.modLp fun l => { l with state := x, send := some ⟨.order, 1#7, false, []⟩ }

def nextOf : Answer → Option State
  | .next t => some t
  | _ => none

/-- A legal header: lapse limit 3, hold delay 1, response timeout 8, one branch at link address 5, no watch page. -/
def headerBytes : List Byte :=
  leBytes Config.headerMark 4 ++ [0#8, 3#8, 1#8, 8#8, 1#8] ++ zeroBytes 7 ++ [5#8] ++ zeroBytes 47

/-- A legal configuration half: link address 1, DIRECT, attempt limit 1, chain head 0x80. -/
def configBytes : List Byte := [1#8, 0#8, 0#8, 0#8, 0#8, 1#8] ++ zeroBytes 6 ++ leBytes 0x80 4 ++ zeroBytes 16

/-- A POSTED block of a kind, with an order of one byte and no data. -/
def blockBytes (stateWord kind : Nat) : List Byte :=
  zeroBytes 4 ++ leBytes stateWord 4 ++ leBytes kind 1 ++ zeroBytes 2 ++ [1#8] ++ zeroBytes 52

/-! ### Single steps -/

theorem test_idle_step_of_reset : step State.reset = .next State.reset := rfl

theorem test_front_command_runs_first :
    (nextOf (step (State.reset.setPending [.noticeEn true, .runStart]))).map (fun t => (t.rw.noticeEn, t.pending))
      = some (true, [.runStart]) := by decide +kernel

theorem test_start_reads_the_header :
    (nextOf (exec .runStart State.reset)).map (fun t => (t.rw.part, t.mp.current, t.statusWord))
      = some (.starting, some ⟨.headerRead, none, 0#32, 64, [], false⟩, 1#32) := by decide +kernel

theorem test_legal_header_starts_the_part :
    (nextOf (exec (.headerRead headerBytes)
        (serving ⟨.headerRead, none, 0#32, 64, [], false⟩ (inPart .starting)))).map
        (fun t => (t.rw.part, t.header.lapseLimit, t.header.branchesInUse))
      = some (.running, 3, [5]) := by decide +kernel

theorem test_bring_up_reads_the_configuration_half :
    (nextOf (exec .bringUp (entry .bringUp running))).map (fun t => t.mp.current)
      = some (some ⟨.configurationRead, some 3, 0x1100#32, 32, [], false⟩) := by decide +kernel

theorem test_configuration_goes_on_to_the_chain_head :
    (nextOf (exec (.configurationRead configBytes) (serving (request .configurationRead 32)
        (running.modSt 3 fun st => { st with op := some (operation .application .configuration) })))).map
        (fun t => ((t.st 3).config.map (·.linkAddress), t.mp.current))
      = some (some 1, some ⟨.blockRead, some 3, 0x80#32, 64, [], false⟩) := by decide +kernel

theorem test_posted_block_is_taken :
    (nextOf (exec (.blockRead (blockBytes 1 1)) (serving (request .blockRead 64)
        (working .own (.block 0x80#32))))).map (fun t => t.mp.current)
      = some (some ⟨.takenWrite, some 3, 0x84#32, 4, [2#8, 0#8, 0#8, 0#8], false⟩) := by decide +kernel

theorem test_writes_reach_memory :
    (nextOf (exec .doneWrite (serving ⟨.doneWrite, some 3, 0x84#32, 4, [3#8, 0#8, 0#8, 0#8], false⟩
        (working .own (.done ⟨0x80#32, false, false, false, .clean, .following⟩))))).map
        (fun t => (t.mem, (t.st 3).retireCount, (t.st 3).parked))
      = some ([(0x84, 3#8), (0x85, 0#8), (0x86, 0#8), (0x87, 0#8)], 1#16, some 0x80#32) := by decide +kernel

theorem test_grant_sends_the_order :
    (nextOf (exec (.grant true) (withStation (fun st =>
        { st with state := .ready, inFlight := some (flight .nothing { host with orderBytes := zeroBytes 32 }) })
          running))).map
        (fun t => (t.lp.state, t.packetOnLine.map (fun p => (p.header.kind, p.payload.length)), t.ls.rotation,
          (t.st 3).inFlight.map (·.phase)))
      = some (.sending, some (1#4, 10), 3, some .order) := by decide +kernel

theorem test_accept_of_the_order_ends_the_turn :
    (nextOf (exec (.receptionEnd (.framed (formPacket .accept 1#7 false [])) true)
        (line .receiving (engaged (turn .order .request) (flight .order host))))).map
        (fun t => ((t.st 3).state, (t.st 3).putParity, (t.st 3).inFlight.map (·.phase), t.xe.turn))
      = some (.ready, true, some .data, none) := by decide +kernel

theorem test_header_check_and_payload_crc_of_known_packets :
    headerCheck ⟨0#4, 0#7, false, 0#9, 0#8⟩ = 0#8 ∧ payloadCrc [] = 0xFFFF#16
      ∧ headerCheck ⟨0#4, 0#7, false, 1#9, 0#8⟩ = 7#8 := by decide +kernel

theorem test_expiry_counts_down :
    (nextOf (exec .millisecondExpiry (withStation (fun st => { st with reread := some 1 }) running))).map
        (fun t => (t.st 3).reread) = some (some 0) := by decide +kernel

/-- Events that meet LP where it does not take them, and the end of a request that MP does not have in progress. -/
theorem test_events_out_of_place_have_no_effect :
    ∀ c ∈ [Instr.lineQuiet, .lineBusyLimit, .packetSent, .startDelimiter, .responseTimeout true, .framingError,
        .receptionEnd (.broken none) true, .breakEnd, .settlingEnd, .restartBreak, .statusWrite, .drain,
        .linkRead (zeroBytes 4), .busError ⟨0, 0#8⟩],
      nextOf (exec c running) = some running := by decide +kernel

/-- A status half that SM writes of its own is in memory: the outcome that waited is taken, and the turn ends. -/
theorem test_outcome_waits_for_a_status_write :
    (let s := (engaged (turn .order .request) (flight .order host)).modSt 3 fun st =>
        { st with op := some (operation .report .final) }
    (nextOf (exec (.receptionEnd (.framed (formPacket .accept 1#7 false [])) true) (line .receiving s))).map
        (fun t => ((t.st 3).state, t.xe.turn.map (·.stage))) = some (.engaged, some (.handed .cont .answered))
      ∧ (nextOf (exec .statusWrite (serving (request .statusWrite 32) (s.setOutcome .cont .answered)))).map
        (fun t => ((t.st 3).state, t.xe.turn.map (·.stage))) = some (.ready, none)) := by decide +kernel

/-- Station 3: its state, whether SM works on it, its mark of a status half beside that, and the request in progress. -/
def reporting (t : State) : StationState × Bool × Bool × Option Bool :=
  ((t.st 3).state, t.hasOp 3, (t.st 3).holdReport, t.mp.current.map (·.beside))

/-- The hold delay of station 3 ends while SM still writes the status half of the turn that held. -/
def heldThenReady : Option State :=
  nextOf (exec (.holdDelayExpiry 3) (serving (request .statusWrite 32) ((working .report .final).modSt 3 fun st =>
    { st with state := .holding, hold := some 0 })))

def writeEnds (s : State) : Option State := nextOf (exec .statusWrite s)

/-- READY at once, a second status half asked for, and SM done with the station only when both are in memory. -/
theorem test_hold_delay_ends_beside_a_status_write :
    heldThenReady.map reporting = some (.ready, true, true, some false)
      ∧ (heldThenReady.bind writeEnds).map reporting = some (.ready, true, false, some true)
      ∧ ((heldThenReady.bind writeEnds).bind writeEnds).map reporting = some (.ready, false, false, none) := by decide +kernel

/-- A HOLD to a PEEK moves the station in the due list when the turn ends. -/
theorem test_held_watch_moves_at_the_end_of_its_turn :
    (∀ o ∈ [none, some (operation .report .final)],
      (nextOf (exec (.receptionEnd (.framed (formPacket .hold 1#7 false [])) true)
        (line .receiving (((engaged (turn .peek .request) (flight .order host)).joinDue 3).modSt 3 fun st =>
          { st with op := o })))).map (fun t => (t.ls.due, t.xe.turn.isSome))
        = some ([⟨3, o.isNone⟩], o.isSome)) := by decide +kernel

theorem test_bits_of_a_packet_are_received_as_the_packet :
    receiveBits (lineBits (formPacket .order 1#7 true [0x81#8, 2#8])) = formPacket .order 1#7 true [0x81#8, 2#8]
      ∧ (lineBits (formPacket .order 1#7 true [])).take 12
        = [false, false, false, true, false, false, false, false, false, false, true, true] := by decide +kernel

theorem test_failed_record_write_faults_the_part :
    (nextOf (exec (.busError ⟨3, 1#8⟩) (serving ⟨.statusWrite, some 3, 0x1120#32, 32, zeroBytes 32, false⟩ running))).map
        (fun t => (t.rw.part, t.rw.faultAddr, t.mem.length)) = some (.faulted, 0x1138#32, 25) := by decide +kernel

/-! ### What meets the hypotheses of the statements -/

theorem test_meets_StepRunsFrontCommand :
    (State.reset.setPending [.noticeRead]).pending = .noticeRead :: [] ∧ State.reset.pending = [] := ⟨rfl, rfl⟩

/-- Nothing in progress, a read in progress, a write in progress. -/
theorem test_meets_ResetContexts_and_ResetRegistersAndBlocks :
    running.mp.current = none ∧ (serving (request .linkRead 4) running).mp.current = some (request .linkRead 4)
      ∧ (request .linkRead 4).kind.isWrite = false
      ∧ (serving (request .drain 256) running).mp.current = some (request .drain 256) := by decide +kernel

theorem test_meets_AttentionWriteJoinsQueue :
    attentionCode 0xFFFFF8FF#32 = 0 ∧ Action.ofCode (attentionCode 0xFFFFF9FF#32) = some .bringUp
      ∧ Action.ofCode (attentionCode 0x0000073F#32) = some .takeDown
      ∧ (running.setAu (List.replicate 15 ⟨3, .wake⟩)).au.length < 16
      ∧ 16 ≤ (running.setAu (List.replicate 16 ⟨3, .wake⟩)).au.length := by decide +kernel

/-- A flag at the take position, a flag just below it, and no flag. -/
theorem test_meets_NoticeReadTakes :
    (∀ n : Stn, n = 0 ∨ n = 63 → (State.reset.setNotice n).nu.flags.get n = true
        ∧ ∀ m : Stn, (State.reset.setNotice n).nu.flags.get m = true →
          (n - (State.reset.setNotice n).nu.position).val ≤ (m - (State.reset.setNotice n).nu.position).val)
      ∧ ∀ n, State.reset.nu.flags.get n = false := by decide +kernel

/-- A run of NOTICE reads from a state with a flag set. -/
def readNotices : Nat → State
  | 0 => State.reset.setNotice 5
  | k + 1 => (nextOf (exec .noticeRead (readNotices k))).getD (readNotices k)

theorem test_meets_NoticeReadTakes_run :
    (readNotices 0).nu.flags.get 5 = true
      ∧ ∀ k, exec .noticeRead (([] : List Stn).foldl (fun s m => s.setNotice m) (readNotices k))
        = .next (readNotices (k + 1)) := by
  refine ⟨by decide +kernel, fun k => ?_⟩
  simp only [List.foldl_nil, readNotices, exec, execNoticeRead]
  split <;> rfl

theorem test_meets_HostRegisterAccesses :
    State.reset.rw.part = .stopped ∧ running.rw.part ≠ .stopped
      ∧ (0x10 ∈ [0x00, 0x04, 0x08, 0x0C, 0x10, 0x14, 0x18, 0x1C] ∧ (14#4 : BitVec 4) ≠ 15#4)
      ∧ (0x1C ∈ [0x00, 0x14, 0x18, 0x1C] ∧ 0x00 ∈ [0x00, 0x14, 0x18, 0x1C])
      ∧ ignoredWrite 0x10 14#4 = true ∧ (0x1C ∉ [0x00, 0x04, 0x08, 0x0C, 0x14, 0x18])
      ∧ (nextOf (exec .noticeRead running)).isSome ∧ (running.setAu (List.replicate 16 ⟨3, .wake⟩)).au.length ≤ 16
      ∧ ((0x80000001#32 : Word).getLsbD 31 = true ∧ (1#32 : Word).getLsbD 31 = false) := by decide +kernel

def stoppedAt (dirbase : Addr) : State := State.reset.modRw fun r => { r with dirbase := dirbase }

/-- The lowest and the highest legal directory base, and two that are none. -/
theorem test_meets_RunStartStartsStoppedPart :
    running.rw.part ≠ .stopped
      ∧ (∀ d ∈ [0, 0xFFFFEFC0], let s := stoppedAt (BitVec.ofNat 32 d)
        s.rw.part = .stopped ∧ s.xe.turn = none ∧ s.restartBusy = false ∧ s.sm.followDue = false
          ∧ s.rw.dirbase.toNat % 64 = 0 ∧ s.rw.dirbase.toNat + 4160 ≤ 2 ^ 32)
      ∧ (∀ d ∈ [0x20, 0xFFFFF000], let s := stoppedAt (BitVec.ofNat 32 d)
        s.rw.part = .stopped ∧ s.xe.turn = none ∧ s.restartBusy = false ∧ s.sm.followDue = false
          ∧ ¬(s.rw.dirbase.toNat % 64 = 0 ∧ s.rw.dirbase.toNat + 4160 ≤ 2 ^ 32))
      ∧ (State.reset.modSt 3 fun st => { st with op := some (operation .restart .final) }).anyJob (· == .restart)
        = true := by decide +kernel

def restarting : State := running.modSm fun m => { m with restartPending := true }

/-- A turn, an operation, a requested restart, nothing; restart followings due and not; restart changes under way, owed
and pending. -/
theorem test_meets_RunStopStopsRunningPart :
    State.reset.rw.part ≠ .running
      ∧ (∀ due ∈ [false, true], ∀ s ∈ [engaged (turn .order .request) (flight .order host), working .own .candidate,
          running.modRw fun r => { r with restartRequest := true }],
        let s := s.modSm fun m => { m with followDue := due }
        s.rw.part = .running ∧ s.restartBusy = false ∧ s.xe.turn.map Turn.stage ≠ some .cascade
          ∧ (s.xe.turn ≠ none ∨ (s.st 3).op ≠ none ∨ s.rw.restartRequest = true))
      ∧ (working .restart .final).rw.part = .running
      ∧ ((working .restart .final).st 3).op = some (operation .restart .final)
      ∧ (((stationIn .ready).modSt 3 fun st => { st with restartOwed := true }).st 3).restartOwed = true
      ∧ ((stationIn .ready).st 3).state ≠ .absent
      ∧ (withStation id restarting).sm.restartPending = true ∧ (withStation id restarting).rw.part = .running
      ∧ ((withStation id restarting).st 3).state ≠ .absent
      ∧ running.rw.part = .running ∧ running.restartBusy = false
      ∧ running.xe.turn = none ∧ (∀ n, (running.st n).op = none) ∧ running.rw.restartRequest = false := by
  decide +kernel

/-- A request pending, and an application under way. -/
def requested (s : State) : State := s.modRw fun r => { r with restartRequest := true }

theorem test_meets_LinkRestartJudgedThenCarriedOut :
    (inPart .starting).rw.part = .starting ∧ (inPart .stopping).rw.part = .stopping
      ∧ (inPart .faulted).rw.part = .faulted
      ∧ (line .breaking running).lp.state = .breaking ∧ (line .settling State.reset).lp.state = .settling
      ∧ restarting.rw.part = .running ∧ restarting.restartBusy = true
      ∧ (requested running).rw.part = .running ∧ (requested running).rw.restartRequest = true
      ∧ (∀ s ∈ [running, working .application .candidate], s.rw.part = .running ∧ s.lp.state = .idle
        ∧ s.restartBusy = false ∧ s.rw.restartRequest = false)
      ∧ State.reset.rw.part = .stopped ∧ State.reset.lp.state = .idle
      ∧ (working .application .candidate).applying = true ∧ running.applying = false
      ∧ (∀ s ∈ [running, engaged (turn .order .request) (flight .order host)], (requested s).rw.restartRequest = true)
      ∧ running.xe.turn = none ∧ (engaged (turn .order .request) (flight .order host)).xe.turn ≠ none := by
  decide +kernel

theorem test_meets_BreakAndSettlingEnd :
    (line .breaking running).lp.state = .breaking ∧ (line .breaking running).rw.part ≠ .faulted
      ∧ (line .breaking (inPart .faulted)).rw.part = .faulted ∧ (line .settling running).lp.state = .settling
      ∧ (line .settling running).rw.part = .running ∧ (line .settling State.reset).rw.part ≠ .running
      ∧ running.lp.state ≠ .breaking ∧ running.lp.state ≠ .settling := by decide +kernel

/-- Restart changes: a block beyond phase NONE, one in phase NONE, and no block, in a READY and in a PAUSED station. -/
theorem test_meets_RestartChangesOneContext :
    ((withStation (fun st => { st with state := .ready, inFlight := some (flight .order host) }) running).st 3).inFlight
        = some (flight .order host) ∧ (flight .order host).phase ≠ .nothing
      ∧ (flight .nothing host).phase = .nothing
      ∧ ((stationIn .paused).st 3).state ≠ .ready ∧ ((stationIn .paused).st 3).state ≠ .holding
      ∧ ((stationIn .holding).st 3).state = .holding ∧ ((stationIn .holding).st 3).inFlight = none
      ∧ ((withStation (fun st => { st with state := .ready, inFlight := some (flight .nothing host) }) running).st
        3).inFlight ≠ none := by decide +kernel

/-- A restart carried out in RUNNING, STOPPING and STOPPED, with and without an operation on the station, with an
application under way at its request, begun after it, and none; changes owed to a station with an operation, to one
without, and to one that is ABSENT. -/
theorem test_meets_RestartChangesBegin :
    ∀ p ∈ [PartState.running, .stopping, .stopped], ∀ o ∈ [none, some (operation .own .candidate),
        some (operation .application .candidate)], ∀ x ∈ [StationState.absent, .ready], ∀ pending ∈ [false, true],
      ∀ holds ∈ [false, true],
      let s := ((withStation (fun st => { st with state := x, op := o, restartOwed := !pending }) (inPart p)).modSm
        fun m => { m with restartPending := pending }).modRw fun r => { r with restartHolds := holds }
      s.xe.turn = none ∧ s.rw.part = p ∧ s.sm.restartPending = pending ∧ s.rw.restartHolds = holds
        ∧ s.applying = decide (o = some (operation .application .candidate)) ∧ (s.st 3).state = x ∧ (s.st 3).op = o
        ∧ (s.st 3).restartOwed = !pending ∧ (s.st 3).restartFollow = false ∧ (s.st 3).state ≠ .engaged := by
  decide +kernel

theorem test_meets_RestartFollowingsMade :
    ∀ x ∈ [StationState.idle, .paused, .halted, .lost], ∀ p ∈ [PartState.running, .starting],
      ∀ o ∈ [none, some (operation .application .candidate)],
        let s := (withStation (fun st => { st with state := x, restartFollow := true, op := o }) (inPart p)).modSm
          fun m => { m with followDue := true }
        s.sm.followDue = true ∧ s.restartBusy = false ∧ s.xe.turn = none ∧ s.rw.part = p
          ∧ (s.st 3).restartFollow = true ∧ (s.st 3).op = o ∧ (s.st 3).state = x := by decide +kernel

/-- A legal header that fits, and one byte shifted, which is none. -/
theorem test_meets_HeaderReadLatchesOrFaults :
    let r : Request := ⟨.headerRead, none, 0#32, 64, [], false⟩
    let s := serving r (inPart .starting)
    s.mp.current = some r ∧ headerBytes.length = r.length ∧ s.rw.part = .starting
      ∧ headerLegal headerBytes (.ofHeader s.rw.dirbase headerBytes) = true
      ∧ s.headerFitsAll (.ofHeader s.rw.dirbase headerBytes) = true
      ∧ headerLegal (zeroBytes 64) (.ofHeader s.rw.dirbase (zeroBytes 64)) = false
      ∧ 24 ≤ headerBytes.length := by decide +kernel

/-- A STOPPING and a STOPPED part with a flagged station, with RUN set and clear and with a legal and an illegal DIRBASE; a STARTING
part whose header has passed, with followings due for no station. -/
theorem test_meets_PartStateStepsOn :
    (∀ p ∈ [PartState.stopping, .starting], ∀ due ∈ [false, true],
      let s := (inPart p).modSm fun m => { m with followDue := due }
      s.xe.turn = none ∧ (∀ n, (s.st n).op = none) ∧ s.restartBusy = false ∧ (∀ n, (s.st n).restartFollow = false)
        ∧ s.rw.part = p ∧ s.rw.restartRequest = false ∧ dirbaseLegal s.rw.dirbase = true ∧ s.sm.followDue = due)
      ∧ (∀ p ∈ [PartState.stopping, .stopped], ∀ run ∈ [false, true], ∀ d ∈ [0, 0x20],
        let s := ((withStation (fun st => { st with restartFollow := true }) (inPart p)).modRw fun r =>
          { r with run := run, dirbase := BitVec.ofNat 32 d }).modSm fun m => { m with followDue := true }
        s.xe.turn = none ∧ (∀ n, (s.st n).op = none) ∧ s.restartBusy = false ∧ (s.st 3).restartFollow = true
          ∧ s.rw.part = p ∧ s.rw.restartRequest = false ∧ s.rw.run = run
          ∧ dirbaseLegal s.rw.dirbase = decide (d = 0))
      ∧ ((inPart .starting).modRw fun r => { r with headerPassed := true }).rw.headerPassed = true := by decide +kernel

/-- Held back by an operation, and by a restart requested during an application or with no turn in progress. -/
theorem test_meets_HeadEntryWaits :
    (∀ s ∈ [working .own .candidate, (requested running).modRw fun r => { r with restartHolds := true },
        requested running],
      (entry .wake s).au = ⟨3, .wake⟩ :: [] ∧ (entry .wake s).mayApply 3 = false)
      ∧ (requested ((stationIn .idle).modXe fun _ => ⟨some { turn .order .request with station := 4 }, []⟩)).mayApply 3
        = true
      ∧ Action.pause ≠ .wake ∧ running.au = [] := by
  decide +kernel

/-- Each action in each state that refuses it. -/
theorem test_meets_RefusedEntryChangesResultOnly :
    ∀ a ∈ [Action.bringUp, .wake, .pause, .resume, .withdraw, .revive, .takeDown], ∀ x ∈ a.refusedIn,
      (entry a (stationIn x)).au = ⟨3, a⟩ :: [] ∧ (entry a (stationIn x)).mayApply 3 = true
        ∧ ((entry a (stationIn x)).st 3).state ∈ a.refusedIn := by decide +kernel

/-- Each action in states it is applied in, with and without a block in flight. -/
theorem test_meets_actions_applied :
    ∀ p ∈ [(Action.bringUp, StationState.absent), (.wake, .idle), (.wake, .halted), (.pause, .holding), (.pause, .paused),
        (.resume, .paused), (.resume, .halted), (.withdraw, .ready), (.revive, .lost), (.takeDown, .lost)],
      ∀ f ∈ [none, some (flight .nothing host)],
        let s := entry p.1 (withStation (fun st => { st with state := p.2, inFlight := f }) running)
        s.au = ⟨3, p.1⟩ :: [] ∧ s.mayApply 3 = true ∧ (s.st 3).state = p.2 ∧ (s.st 3).inFlight = f
          ∧ (s.st 3).resyncPending = false ∧ (s.config 3).route = .direct ∧ (s.config 3).watchInterval ≠ 0 := by
  decide +kernel

/-- A RESUME with resync pending, a TAKE_DOWN without a watch, and the routes of a REVIVE. -/
theorem test_meets_actions_applied_further :
    ((withStation (fun st => { st with resyncPending := true }) running).st 3).resyncPending = true
      ∧ ((withStation (fun st => { st with config := none }) running).config 3).watchInterval = 0
      ∧ ((withStation (fun st => { st with config := some (config (.branch 7 0)) }) running).config 3).route
        = .branch 7 0
      ∧ running.route 7 ≠ .faulty ∧ (running.setRoute 7 .faulty).route 7 = .faulty := by decide +kernel

/-- A legal configuration half without and with a watch, and one that is none. -/
theorem test_meets_BringUpReadsConfiguration :
    let r := request .configurationRead 32
    let s := serving r (working .application .configuration)
    let watched := configBytes.take 8 ++ [255#8, 15#8, 8#8, 1#8] ++ configBytes.drop 12
    let s' := s.setLatched (some { latch with watchPage := 0x8000#32 })
    s.mp.current = some r ∧ r.kind = .configurationRead ∧ r.station = some 3
      ∧ (s.st 3).op = some (operation .application .configuration) ∧ configBytes.length = r.length
      ∧ watched.length = r.length
      ∧ (s.legalConfig 3 configBytes).map (·.watchInterval) = some 0
      ∧ (s'.legalConfig 3 watched).map (·.watchInterval) = some 4095
      ∧ s.legalConfig 3 (zeroBytes 32) = none := by decide +kernel

theorem test_meets_CandidateExaminedOrParked :
    (∀ k ∈ [RequestKind.chainHeadRead, .linkRead],
      (serving (request k 4) (working .own .candidate)).mp.current = some (request k 4)
        ∧ (request k 4).station = some 3 ∧ (request k 4).kind = k)
      ∧ ((working .own .candidate).st 3).op = some (operation .own .candidate)
      ∧ leWord (zeroBytes 4) 0 = 0#32 ∧ (0x40#32 : Addr).toNat % 128 ≠ 0 ∧ (0xFFFFFF80#32 : Addr).toNat % 128 = 0
      ∧ ((withStation (fun st => { st with wakePending := true }) running).st 3).wakePending = true
      ∧ ((working .own .candidate).st 3).wakePending = false ∧ ((stationIn .lost).st 3).state = .lost := by
  decide +kernel

/-- Blocks in each state word, of each kind, and malformed. -/
theorem test_meets_BlockReadDecidesByRow :
    (∀ walk ∈ [false, true],
      let s := serving (request .blockRead 64) (withStation
        (fun st => { st with op := some { operation .own (.block 0x80#32) with walk := walk } }) running)
      s.mp.current = some (request .blockRead 64) ∧ (request .blockRead 64).station = some 3
        ∧ (s.st 3).op = some { operation .own (.block 0x80#32) with walk := walk })
      ∧ (∀ w ∈ [0, 1, 2, 3, 4, 0xFFFFFFFF], leField (blockBytes w 1) 4 4 = w ∧ (blockBytes w 1).length = 64)
      ∧ (HostPart.ofBlock (blockBytes 1 0)).malformed = true
      ∧ (∀ k ∈ [1, 2, 3, 4], (HostPart.ofBlock (blockBytes 1 k)).malformed = false
        ∧ (HostPart.ofBlock (blockBytes 1 k)).kind = BlockKind.ofCode k) := by decide +kernel

theorem test_meets_TakenWritePutsBlockInFlight :
    let s := serving (request .takenWrite 4) (working .own (.taken 0x80#32 host))
    s.mp.current = some (request .takenWrite 4) ∧ (request .takenWrite 4).kind = .takenWrite
      ∧ (s.st 3).op = some (operation .own (.taken 0x80#32 host)) := by decide +kernel

def retired (a : After) (halt : Bool) : Retirement := ⟨0x80#32, false, true, halt, .abandoned, a⟩

theorem test_meets_RetirementWritesInOrder :
    (∀ k ∈ [RequestKind.resultWrite, .doneWrite],
      (serving (request k 4) (working .own .final)).mp.current = some (request k 4) ∧ (request k 4).station = some 3)
      ∧ ((working .own (.result (retired .walk true))).st 3).op = some (operation .own (.result (retired .walk true)))
      ∧ ((working .own (.done (retired .walk true))).st 3).op = some (operation .own (.done (retired .walk true)))
      ∧ ((engaged (turn .order .request) (flight .order host)).st 3).inFlight = some (flight .order host) := by
  decide +kernel

/-- Each continuation, with the halt rule met and not, with a watch and without, in a turn with its lapse limit reached
and not. -/
theorem test_meets_RetirementContinues :
    (∀ a ∈ [After.turn, .following, .stoppoint, .walk, .withdraw, .takeDown, .lost, .restart], ∀ halt ∈ [false, true],
      let s := serving (request .statusWrite 32) (working .own (.status (retired a halt)))
      s.mp.current = some (request .statusWrite 32)
        ∧ (s.st 3).op = some (operation .own (.status (retired a halt))) ∧ (retired a halt).halts = halt)
      ∧ (∀ lapsed ∈ [false, true], ∀ halt ∈ [false, true],
        let s := serving (request .statusWrite 32) ((engaged { turn .order (.handed (.exhausted .order) .unanswered) with
          lapsed := lapsed } (flight .order host)).modSt 3 fun st =>
            { st with lapses := 3, op := some (operation .turn (.status (retired .turn halt))) })
        s.mp.current = some (request .statusWrite 32) ∧ s.lapsedOut 3 = lapsed
          ∧ ((s.afterWrite (request .statusWrite 32)).setNotice 3).lapsedOut 3 = lapsed
          ∧ (s.st 3).op = some (operation .turn (.status (retired .turn halt))) ∧ (retired .turn halt).halts = halt)
      ∧ (∀ interval ∈ [0, 4],
        let s := serving (request .statusWrite 32) (withStation (fun st =>
          { st with
            config := some { config .direct with watchInterval := interval }
            op := some (operation .application (.status (retired .takeDown true))) }) running)
        s.mp.current = some (request .statusWrite 32) ∧ (s.config 3).watchInterval = interval
          ∧ (s.st 3).op = some (operation .application (.status (retired .takeDown true)))) := by decide +kernel

/-- Each job, with an entry into LOST owed and not; a status half asked for beside the operation, ending and still
waited for; a report with the station's own turn in progress and with none. -/
theorem test_meets_FinalStatusWriteEndsOperation :
    (∀ job ∈ [Job.application, .own, .restart, .lost true, .lost false, .report], ∀ owed ∈ [false, true],
      ∀ report ∈ [false, true], ∀ beside ∈ [false, true], ∀ x ∈ [StationState.idle, .absent, .lost],
        let r := { request .statusWrite 32 with beside := beside }
        let s := serving r (withStation
          (fun st => { st with
            state := x, op := some (operation job .final), owedLost := owed, holdReport := report }) running)
        s.mp.current = some r ∧ r.beside = beside ∧ (s.st 3).op = some (operation job .final)
          ∧ (s.st 3).owedLost = owed ∧ (s.st 3).holdReport = report ∧ (s.st 3).state = x ∧ s.xe.turn = none)
      ∧ (let s := serving (request .statusWrite 32) ((engaged (turn .order (.handed .cont .answered))
          (flight .order host)).modSt 3 fun st => { st with op := some (operation .report .final) })
        s.mp.current = some (request .statusWrite 32) ∧ (s.st 3).op = some (operation .report .final)
          ∧ s.xe.turn = some (turn .order (.handed .cont .answered)) ∧ (s.st 3).holdReport = false) := by decide +kernel

theorem test_meets_EntryIntoLost :
    ((working .own .final).st 3).inFlight = none ∧ Job.own ≠ .turn
      ∧ (∀ g ∈ [TurnStage.cascade, .handed (.exhausted .order) .unanswered],
        let s := (engaged (turn .order g) (flight .order host)).modSt 3 fun st =>
          { st with op := some (operation .turn .final) }
        (s.st 3).inFlight = some (flight .order host) ∧ (s.st 3).op = some (operation .turn .final)
          ∧ s.xe.turn = some (turn .order g)) := by decide +kernel

/-- Followings that end unchanged and changed, in every job, with an entry into LOST owed and not, and with a status
half asked for beside and not. -/
theorem test_meets_FollowingEnds :
    (∀ job ∈ [Job.turn, .application, .own], ((working job .candidate).st 3).op = some (operation job .candidate))
      ∧ (∀ owed ∈ [false, true], ∀ report ∈ [false, true],
        let s := (working .own .candidate).modSt 3 fun st => { st with owedLost := owed, holdReport := report }
        let v := s.modSt 3 fun st => st.enter .idle s.header.holdDelay
        (s.st 3).op = some (operation .own .candidate) ∧ (v.st 3).snapshot = (operation .own .candidate).began
          ∧ (s.st 3).owedLost = owed ∧ (s.st 3).holdReport = report
          ∧ (((s.st 3).enter .ready 1).snapshot ≠ (operation .own .candidate).began))
      ∧ ({ operation .application .candidate with slotDue := true } : Operation).slotDue = true
      ∧ Station.reset.config = none
      ∧ ((working .own .candidate).st 3).config = some (config .direct) := by decide +kernel

/-- A watch turn with a held interval end and a re-read expiry met and not, in RUNNING and in STOPPING, the status half
last written the one that stands at its end and not. -/
theorem test_meets_TurnEnds :
    ∀ p ∈ [PartState.running, .stopping], ∀ owed ∈ [false, true], ∀ written ∈ [false, true],
      let t := { turn .peek (.slot false) with grantedFrom := .idle }
      let st := fun st : Station => { st with state := .idle, rereadOwed := owed }
      let s := ((withStation (fun x => { st x with
        state := .engaged
        lastStatus := if written then some (st { x with state := .idle }).statusHalf else none }) (inPart p)).modXe
          fun _ => ⟨some t, []⟩).modWatch 3 fun r => { r with active := true, held := true }
      let v := ((({ s with xe := ⟨none, []⟩ } : State).modSt 3 fun st =>
        { st with state := .idle, holdExpired := false }).modWatch 3 fun r => { r with held := false }).endInterval 3
      s.xe.turn = some t ∧ (s.watch 3).held = true ∧ t.kind = .peek ∧ t.grantedFrom = .idle
        ∧ (v.st 3).rereadOwed = owed ∧ (v.st 3).state = .idle ∧ v.rw.part = p
        ∧ (decide ((v.st 3).lastStatus = some (v.st 3).statusHalf)) = written := by decide +kernel

/-- A grant of an ORDER, of a PUT and of a PEEK, none to make, and none open. -/
theorem test_meets_GrantMadeWhenConditionsHold :
    running.grantOpen = true ∧ running.chooseGrant = none ∧ State.reset.grantOpen = false
      ∧ (∀ p ∈ [(Phase.nothing, TurnKind.order), (.data, .put), (.report, .ask)],
        let s := withStation (fun st => { st with state := .ready, inFlight := some (flight p.1 host) }) running
        s.grantOpen = true ∧ s.chooseGrant = some (3, p.2) ∧ (s.st 3).inFlight = some (flight p.1 host)
          ∧ (s.st 3).inFlight = some (flight p.1 host) ∧ p.2 ≠ .peek)
      ∧ ((stationIn .idle).joinDue 3).grantOpen = true ∧ ((stationIn .idle).joinDue 3).chooseGrant = some (3, .peek) := by
  decide +kernel

/-- A deferred entry before an eligible one; the only READY station, just at and just behind the rotation; a station
whose status half SM is writing, with and without work owed. -/
theorem test_meets_GrantChoosesStation :
    (let s := ((stationIn .idle).modSt 4 fun st => { st with state := .idle }).modLs fun l =>
      { l with due := [⟨4, true⟩, ⟨3, false⟩] }
    s.ls.due = [⟨4, true⟩] ++ ⟨3, false⟩ :: [] ∧ (∀ x ∈ [(⟨4, true⟩ : DueEntry)], s.watchEligible x = false)
      ∧ s.watchEligible ⟨3, false⟩ = true)
      ∧ (∀ k : Stn, k = 2 ∨ k = 3 →
        let s := (stationIn .ready).modLs fun l => { l with rotation := k }
        (∀ x ∈ s.ls.due, s.watchEligible x = false) ∧ s.exchangeEligible 3 = true
          ∧ ∀ m : Stn, s.exchangeEligible m = true →
            ((3 : Stn) - (s.ls.rotation + 1)).val ≤ (m - (s.ls.rotation + 1)).val)
      ∧ (∀ owed ∈ [false, true],
        let s := (working .report .final).modSt 3 fun st => { st with rereadOwed := owed }
        (s.st 3).op = some (operation .report .final) ∧ s.free 3 = !owed)
      ∧ (∀ n, running.exchangeEligible n = false) ∧ host.kind = some .exchange
      ∧ ({ host with kind := some .resync } : HostPart).kind = some .resync := by decide +kernel

theorem test_meets_RequestInHandAndPacketOnLine :
    (∀ k ∈ [TurnKind.order, .put, .fetch, .ask, .sync, .peek],
      (engaged (turn k .request) (flight .nothing host)).xe.turn = some (turn k .request)
        ∧ (turn k .request).kind = k ∧ (turn k .request).opening = false)
      ∧ ((engaged (turn .order .request) (flight .nothing host)).config 3).route = .direct
      ∧ ((withStation (fun st => { st with config := some (config (.branch 0 7)) }) running).config 3).route
        = .branch 0 7
      ∧ (line .sending running).lp.state = .sending ∧ (line .sending running).lp.send = some ⟨.order, 1#7, false, []⟩
      ∧ (let s := running.modLp fun l => { l with state := .sending, send := some ⟨.fetch, 1#7, false, [16#8, 0#8]⟩ }
        s.lp.state = .sending ∧ s.lp.send = some ⟨.fetch, 1#7, false, [16#8, 0#8]⟩)
      ∧ running.lp.state ≠ .sending := by decide +kernel

theorem test_meets_LinkPortEvents :
    (∀ x ∈ [LinkState.idle, .sending, .awaiting, .receiving, .breaking, .settling],
      let s := line x (engaged (turn .order .request) (flight .order host))
      s.lp.state = x ∧ s.lp.send = some ⟨.order, 1#7, false, []⟩ ∧ s.xe.turn = some (turn .order .request)
        ∧ s.rw.part ≠ .faulted)
      ∧ (line .sending (inPart .faulted)).rw.part = .faulted ∧ running.lp.state = .idle ∧ running.lp.send = none
      ∧ ((⟨.accept, 1#7, false, []⟩ : Send).kind = .accept ∧ (⟨.order, 1#7, false, []⟩ : Send).kind ≠ .accept) := by
  decide +kernel

theorem test_meets_ReceptionEnds :
    (∀ b ∈ [false, true],
      let s := (line .receiving (engaged (turn .order .request) (flight .order host))).modLp fun l =>
        { l with broken := b }
      s.lp.state = .receiving ∧ s.lp.broken = b ∧ s.xe.turn = some (turn .order .request))
      ∧ running.lp.state ≠ .receiving
      ∧ (formPacket .data 1#7 false (zeroBytes 256)).payload.length
        = (formPacket .data 1#7 false (zeroBytes 256)).header.length.toNat := by decide +kernel

/-- Each check, at the values where the next takes over. -/
theorem test_meets_PacketChecksInOrder :
    let e : Expected := ⟨.fetch, 1#7, false, 16, true⟩
    let p := formPacket .data 1#7 true (zeroBytes 16)
    p.header.check = headerCheck p.header ∧ p.crc = payloadCrc p.payload ∧ p.header.address = e.address
      ∧ PacketKind.ofCode p.header.kind.toNat = some .data ∧ admits e.request .data = true
      ∧ p.header.parity = e.getParity ∧ p.payload.length ≤ e.size
      ∧ e.size < (formPacket .data 1#7 true (zeroBytes 17)).payload.length
      ∧ (formPacket .data 1#7 false []).header.parity ≠ e.getParity
      ∧ PacketKind.ofCode 15 = none ∧ admits e.request .accept = false
      ∧ (formPacket .data 2#7 true []).header.address ≠ e.address
      ∧ ({ p with crc := 0#16 } : Packet).crc ≠ payloadCrc p.payload
      ∧ (admits .order .accept = true ∧ (formPacket .accept 1#7 true []).header.parity ≠ e.parity
        ∧ (formPacket .accept 1#7 true []).payload.length = 0)
      ∧ (admits .ask .report = true ∧ (zeroBytes 15).length ≠ 16 ∧ (zeroBytes 16).length = 16)
      ∧ (admits .peek .state = true ∧ admits .fetch .finish = true ∧ (zeroBytes 1).length ≠ 0) := by decide +kernel

/-- Bits at each end of the two check registers, codes in use and not, and packets with and without a payload. -/
theorem test_meets_FormedPacketPassesChecks :
    (zeroBytes 256).length ≤ 256 ∧ PacketKind.ofCode 14 = some .state ∧ PacketKind.ofCode 15 = none
      ∧ (checkStep 0x07#8 0x80#8 false = 0x07#8 ∧ checkStep 0x1021#16 0x8000#16 false = 0x1021#16)
      ∧ (formPacket .put 1#7 false (zeroBytes 256)).payload.length
        = (formPacket .put 1#7 false (zeroBytes 256)).header.length.toNat := by decide +kernel

theorem test_meets_PutReadStagesAndDrainAdvances :
    (let s := serving (request .putRead 256) (engaged (turn .put .putRead) (flight .data host))
    s.mp.current = some (request .putRead 256) ∧ (zeroBytes 256).length = (request .putRead 256).length
      ∧ s.xe.turn = some (turn .put .putRead))
      ∧ (let s := serving (request .drain 1) (engaged (turn .fetch .drain) (flight .data host))
      s.mp.current = some (request .drain 1) ∧ s.xe.turn = some (turn .fetch .drain)
        ∧ (s.st 3).inFlight = some (flight .data host)) := by decide +kernel

/-- A turn of each kind with a block in flight, below and at the hold limit, with an operation of its station under way
and without; the outcomes at and below the lapse limit, with a RESYNC block, without a block, and of a watch. -/
theorem test_meets_ExchangeAnswersAndOutcomes :
    (∀ k ∈ [TurnKind.order, .put, .fetch, .ask], ∀ o ∈ [none, some (operation .report .final)],
      let s := (engaged (turn k .request) (flight .data host)).modSt 3 fun st => { st with op := o }
      s.xe.turn = some (turn k .request) ∧ (turn k .request).stage = .request ∧ (turn k .request).opening = false
        ∧ (s.st 3).inFlight = some (flight .data host) ∧ k ∈ [TurnKind.order, .put, .fetch, .ask] ∧ (s.st 3).op = o
        ∧ (s.config 3).holdLimit ≠ 0 ∧ min ((flight .data host).holds + 1) 255 = (s.config 3).holdLimit
        ∧ s.countsInBlock (turn k .request) = true)
      ∧ min (({ flight .data host with holds := 255 } : InFlight).holds + 1) 255 ≠ 1
      ∧ (∀ k ∈ [TurnKind.sync, .peek], ∀ lapsed ∈ [false, true], ∀ lapses ∈ [2, 3],
        let t := { turn k (.handed .cont .answered) with lapsed := lapsed, grantedFrom := .holding }
        let s := (engaged t (flight .data host)).modSt 3 fun st => { st with inFlight := none, lapses := lapses }
        s.xe.turn = some t ∧ t.stage = .handed .cont .answered ∧ t.kind = k ∧ (s.st 3).inFlight = none
          ∧ s.countsInBlock t = false ∧ t.lapsed = lapsed ∧ decide (s.header.lapseLimit ≤ (s.st 3).lapses) = (lapses == 3)
          ∧ PacketKind.sync ≠ .opening)
      ∧ (let s := engaged (turn .sync .request) (flight .nothing { host with kind := some .resync })
        s.xe.turn = some (turn .sync .request) ∧ s.countsInBlock (turn .sync .request) = true) := by decide +kernel

/-- Each acknowledgement; a report that passes its checks and one that does not. -/
theorem test_meets_PartAcceptSentOrAbandoned :
    (∀ w ∈ [Acknowledged.data, .report, .badReport, .duplicate],
      let s := engaged (turn .ask (.accept w)) (flight .report host)
      s.xe.turn = some (turn .ask (.accept w)) ∧ (s.st 3).inFlight = some (flight .report host) ∧ s.xe.staging = []
        ∧ (s.modXe fun x => { x with staging := [5#8] }).xe.staging ≠ [])
      ∧ reportLegal host (leBytes 0xA55A 2 ++ leBytes 7 2 ++ leBytes 48 4 ++ [2#8] ++ zeroBytes 7) = true
      ∧ reportLegal host (leBytes 0xA55A 2 ++ leBytes 7 2 ++ leBytes 49 4 ++ [2#8] ++ zeroBytes 7) = false
      ∧ reportLegal host (leBytes 0xA55A 2 ++ leBytes 7 2 ++ leBytes 48 4 ++ [3#8] ++ zeroBytes 7) = false := by
  decide +kernel

theorem test_meets_ReportChecksAndCondition :
    (∀ k ∈ [0, 1, 2], (byteAt (zeroBytes 8 ++ [BitVec.ofNat 8 k] ++ zeroBytes 7) 8).toNat = k)
      ∧ 47 < host.dataLength ∧ host.acceptShort = false ∧ host.dataLength ≤ 48 := by decide +kernel

theorem test_meets_SyncAndOpenAccepted :
    (∀ f ∈ [none, some (flight .nothing host), some (flight .nothing { host with kind := some .resync })],
      let s := (engaged (turn .sync .request) (flight .nothing host)).modSt 3 fun st => { st with inFlight := f }
      s.xe.turn = some (turn .sync .request) ∧ (s.st 3).inFlight = f)
      ∧ (let t := { turn .sync .request with opening := true }
      let s := (engaged t (flight .nothing host)).modSt 3 fun st => { st with config := some (config (.branch 0 7)) }
      s.xe.turn = some t ∧ t.opening = true ∧ (s.config 3).route = .branch 0 7) := by decide +kernel

/-- The last attempt allowed and one before it, of a request and of an OPEN. -/
theorem test_meets_AttemptFailureResendsOrExhausts :
    (∀ o ∈ [false, true], ∀ limit ∈ [1, 2],
      let t := { turn .order .request with opening := o }
      let s := (engaged t (flight .order host)).modSt 3 fun st =>
        { st with config := some { config .direct with attemptLimit := limit } }
      s.xe.turn = some t ∧ t.stage = .request ∧ t.opening = o ∧ (s.config 3).attemptLimit = limit
        ∧ (limit = 1 → (s.config 3).attemptLimit ≤ t.attempts + 1)
        ∧ (limit = 2 → t.attempts + 1 < (s.config 3).attemptLimit))
      ∧ (∀ g ∈ [Finding.noAnswer, .garbled, .stray, .wrongKind, .sequence], g.isFailure = true) := by decide +kernel

/-- A turn of each kind, of a SYNC with a RESYNC block and without; an open entry of the branch, with the turn's own
OPEN before it and not; the stations of a branch, with an operation under way and without, the turn's among them; the
turn of a cascade with its entries under way and made. -/
theorem test_meets_ExhaustionConsequences :
    (∀ k ∈ [TurnKind.order, .put, .fetch, .ask, .sync, .peek], ∀ kind ∈ [BlockKind.exchange, .resync],
      ∀ opened ∈ [false, true],
        let t := { turn k .request with opened := opened }
        let s := ((engaged t (flight .order { host with kind := some kind })).modSt 3 fun st =>
          { st with config := some (config (.branch 0 7)) }).setRoute 0 (.opened 7)
        s.xe.turn = some t ∧ t.kind = k ∧ t.station = 3 ∧ (s.config 3).route = .branch 0 7 ∧ s.route 0 = .opened 7
          ∧ s.countsInBlock t = decide (k ≠ .peek ∧ (k = .sync → kind = .resync)))
      ∧ ((engaged (turn .sync .request) (flight .nothing host)).config 3).route = .direct
      ∧ (∀ o ∈ [none, some (operation .report .final)],
        let t := { turn .order .request with opening := true }
        let s := (((engaged t (flight .order host)).modSt 3 fun st =>
          { st with config := some (config (.branch 0 7)), op := o }).modSt 4 fun st =>
            { st with state := .idle, config := some (config (.branch 0 6)), op := o }).modSt 6 fun st =>
              { st with state := .lost, config := some (config (.branch 0 5)) }
        s.xe.turn = some t ∧ (s.config 3).route = .branch 0 7 ∧ (s.config 4).route = .branch 0 6
          ∧ (s.st 4).state ≠ .absent ∧ (s.st 4).state ≠ .lost ∧ (4 : Stn) ≠ t.station ∧ (s.st 4).op = o
          ∧ (s.st 5).state = .absent ∧ (s.st 6).state = .lost ∧ (s.st 3).op = o)
      ∧ (∀ o ∈ [none, some (operation .turn .final)], ∀ o' ∈ [none, some (operation (.lost false) .final)],
        let s := ((engaged (turn .order .cascade) (flight .order host)).modSt 3 fun st => { st with op := o }).modSt 4
          fun st => { st with state := .lost, op := o' }
        s.xe.turn = some (turn .order .cascade) ∧ s.rw.part ≠ .faulted ∧ (s.st 3).op = o ∧ (s.st 4).op = o'
          ∧ (o' = none → ∀ n, ∀ x ∈ (s.st n).op, x.job ≠ .lost false)) := by decide +kernel

/-- A first value, the same value again in status VALID and in status STALE, and another value; the end of a watch turn
at its request and after its slot write, exhausted and not, at the lapse limit and below. -/
theorem test_meets_WatchAnswersTaken :
    (∀ last ∈ [none, some [0#8], some [1#8]], ∀ status ∈ [SlotStatus.valid, .stale],
      let s := (engaged (turn .peek .request) (flight .order host)).modWatch 3 fun r =>
        { r with last := last, status := status }
      s.xe.turn = some (turn .peek .request) ∧ (s.watch 3).last = last ∧ (s.watch 3).status = status)
      ∧ (∀ g ∈ [TurnStage.request, .slot false], ∀ lapsed ∈ [false, true], ∀ lapses ∈ [2, 3],
        let t := { turn .peek g with lapsed := lapsed }
        let s := (engaged t (flight .order host)).modSt 3 fun st => { st with lapses := lapses }
        s.xe.turn = some t ∧ t.kind = .peek ∧ t.lapsed = lapsed ∧ (s.st 3).op = none
          ∧ decide (s.header.lapseLimit ≤ (s.st 3).lapses) = (lapses == 3)) := by decide +kernel

theorem test_meets_SlotWriteGoesOn :
    (let s := serving (request .slotWrite 16) (engaged (turn .peek (.slot true)) (flight .order host))
    s.mp.current = some (request .slotWrite 16) ∧ s.xe.turn = some (turn .peek (.slot true)))
      ∧ (∀ g ∈ [Stage.slotAtBringUp, .slotAtTakeDown, .candidate],
        let s := serving (request .slotWrite 16) (withStation
          (fun st => { st with op := some { operation .application g with slotDue := true } }) running)
        s.mp.current = some (request .slotWrite 16) ∧ s.xe.turn = none
          ∧ (s.st 3).op = some { operation .application g with slotDue := true }) := by decide +kernel

/-- A watch record with a countdown. -/
def watched (p : PartState) (countdown : Nat) (due : Bool) : State :=
  (withStation id (inPart p)).modWatch 3 fun r => { r with active := true, countdown := countdown, due := due }

theorem test_meets_MillisecondExpiryCountsDown :
    (∀ p ∈ [PartState.running, .stopping], (watched p 1 false).rw.part = p
      ∧ (∀ n, (watched p 1 false).intervalOwed n = false) ∧ (watched p 0 false).intervalOwed 3 = true)
      ∧ (∀ p ∈ [PartState.stopped, .starting, .faulted], (inPart p).rw.part = p) := by decide +kernel

theorem test_meets_CountdownsReachZero :
    (∀ x ∈ [StationState.holding, .idle, .engaged], ∀ p ∈ [PartState.running, .stopping],
      ∀ o ∈ [none, some (operation .report .final)],
        let s := withStation (fun st => { st with state := x, hold := some 0, reread := some 0, op := o }) (inPart p)
        (s.st 3).hold = some 0 ∧ (s.st 3).reread = some 0 ∧ (s.st 3).state = x ∧ s.rw.part = p ∧ (s.st 3).op = o)
      ∧ (∀ due ∈ [false, true], (watched .running 0 due).intervalOwed 3 = true
        ∧ (∀ m < (3 : Stn), (watched .running 0 due).intervalOwed m = false)
        ∧ (watched .running 0 due).xe.turn = none ∧ ((watched .running 0 due).watch 3).due = due)
      ∧ ((watched .running 0 false).modXe fun _ => ⟨some (turn .peek .request), []⟩).xe.turn
        = some (turn .peek .request) := by decide +kernel

/-- The first and the last transaction of a request of each kind; LP sending from the staging buffer, sending a packet
with a short payload, and not sending. -/
theorem test_meets_BusErrorConsequences :
    (∀ k ∈ [RequestKind.headerRead, .configurationRead, .chainHeadRead, .linkRead, .blockRead, .putRead, .drain,
        .takenWrite, .resultWrite, .doneWrite, .statusWrite, .slotWrite],
      let s := serving (request k 16) ((working .own .final).modXe fun _ => ⟨some (turn .put .drain), [5#8]⟩)
      s.mp.current = some (request k 16) ∧ (request k 16).transactions = 2 ∧ (request k 16).station = some 3
        ∧ (s.st 3).op = some (operation .own .final) ∧ s.xe.turn = some (turn .put .drain)
        ∧ (line .sending s).sendsStaging = true ∧ (line .awaiting s).sendsStaging = false ∧ s.sendsStaging = false
        ∧ (s.modLp fun l => { l with state := .sending, send := some ⟨.fetch, 1#7, false, []⟩ }).sendsStaging = false)
      ∧ (let s := line .sending (serving (request .statusWrite 32) (running.modXe fun _ => ⟨none, [5#8]⟩))
        (nextOf (exec (.busError ⟨0, 0#8⟩) s)).map (fun t => (t.rw.part, t.xe.staging, t.packetOnLine))
          = some (.faulted, [5#8], s.packetOnLine)) := by decide +kernel

theorem test_meets_WritesReachTheirSpanOnly :
    RequestKind.linkRead.isWrite = false ∧ RequestKind.drain.isWrite = true := by decide

/-- MP with one requester waiting and with all three. -/
theorem test_meets_MemoryPortServesInRotation :
    let m : MemoryPort := ⟨some (request .linkRead 4), some (request .drain 4), some (request .slotWrite 16), none, .wu⟩
    MemoryPort.reset.sm = none ∧ MemoryPort.reset.xe = none ∧ MemoryPort.reset.wu = none ∧ m.inProgress = none
      ∧ m.sm.isSome ∧ m.xe.isSome ∧ m.wu.isSome ∧ m.last = .wu
      ∧ ({ m with inProgress := some .xe } : MemoryPort).inProgress = some .xe := by decide +kernel

theorem test_meets_OnlyRequestsGoOnInCalm :
    running.restartBusy = false ∧ running.sm.followDue = false ∧ running.xe.turn = none ∧ running.rw.part = .running
      ∧ (inPart .faulted).rw.part = .faulted
      ∧ ((inPart .stopping).atRest = true
        ∧ ((inPart .stopping).modXe fun _ => ⟨some (turn .put .drain), []⟩).atRest = false)
      ∧ (running.askLink 3 0x80#32).mp.sm = none ∧ (running.askLink 3 0x80#32).sm.queue ≠ []
      ∧ (running.askSlot 3 4).mp.wu = none ∧ (running.askSlot 3 4).wu.queue ≠ [] := by decide +kernel

theorem test_meets_WrittenRecordLayouts :
    (running.st 3).lapses ≤ 15 ∧ (running.st 3).totalHolds ≤ 65535 ∧ (running.st 3).totalFailed ≤ 65535
      ∧ noReport.length = 16 ∧ (running.watch 3).missed ≤ 65535 ∧ ((running.watch 3).last.getD []).length ≤ 8
      ∧ running.latched = some latch := by
  decide +kernel

/-- A command of each group that answers next, with the request it ends in progress and not. -/
theorem test_meets_EveryCommandKeepsTheRest :
    (nextOf (exec .noticeRead running)).isSome ∧ (nextOf (exec .drain (serving (request .drain 1)
        (engaged (turn .fetch .drain) (flight .data host))))).isSome
      ∧ (nextOf (exec .drain running)).isSome ∧ running.mp.current = none
      ∧ (nextOf (exec (.linkRead (zeroBytes 4)) running)).isSome
      ∧ (nextOf (exec (.busError ⟨0, 0#8⟩) running)).isSome
      ∧ (nextOf (exec (.busError ⟨0, 0#8⟩) (serving (request .slotWrite 16) running))).isSome
      ∧ (nextOf (exec (.attentionWrite 0x103#32) running)).isSome := by decide +kernel

/-- States that meet the invariants, with cells in memory, a full queue, a turn in progress. -/
theorem test_meets_invariants :
    (running.setMem [(1, 0#8), (2, 5#8)]).mem.wf = true ∧ Memory.wf [(2, 0#8), (1, 0#8)] = false
      ∧ (running.setAu (List.replicate 16 ⟨3, .wake⟩)).au.length ≤ Config.queueCapacity
      ∧ (∀ n : Stn, ((engaged (turn .order .request) (flight .order host)).st n).state = .engaged → n = 3)
      ∧ (turn .order .request).grantedFrom ≠ .engaged
      ∧ (nextOf (step (running.setPending [.grant true]))).isSome := by decide +kernel

theorem test_meets_FaultedPartStandsStill :
    (inPart .faulted).rw.part = .faulted ∧ (inPart .faulted).mp.inProgress = none
      ∧ (inPart .faulted).rw.restartRequest = false ∧ (inPart .faulted).lp.state = .idle
      ∧ (inPart .faulted).lp.send = none ∧ (line .sending (inPart .faulted)).lp.state = .sending
      ∧ (inPart .faulted).sendsStaging = false ∧ (inPart .faulted).xe.staging = []
      ∧ (line .sending (inPart .faulted)).sendsStaging = true
      ∧ (nextOf (exec .packetSent (line .sending (inPart .faulted)))).map (·.lp) = some .reset
      ∧ (nextOf (exec (.attentionWrite 0x103#32) (inPart .faulted))).isSome := by decide +kernel

end Sys2Proof.Tests
end

