-- ==== Sys2Proof/Proofs/NoticeSet.lean ====
section
/-! The notice set: which station a take finds (R66), what a take and a set do to the flags and the take position, and
the interrupt output as a level (R68). -/

namespace Sys2Proof.Machine

/-! ### The count of flags -/

/-- Of the elements that satisfy `p`, leaving out one of them leaves out one in the count. -/
theorem countP_ne_and_of_mem {α : Type} [DecidableEq α] {l : List α} (hl : l.Nodup) {a : α} (ha : a ∈ l)
    {p : α → Bool} (hp : p a = true) : (l.countP fun x => x != a && p x) = l.countP p - 1 := by
  have herase := List.countP_erase p l a
  rw [hl.erase_eq_filter, List.countP_filter, if_pos ⟨ha, hp⟩] at herase
  simpa only [Bool.and_comm] using herase

/-! ### The take position and the value of a take -/

/-- The position past a taken station (R66): the next one up, wrapping from 63 to 0. -/
theorem ite_last_zero_eq_add_one (n : Stn) : (if n = 63 then 0 else n + 1) = n + 1 := by
  split
  · subst n; rfl
  · rfl

/-- Once the take position has gone past a nearer station `m`, it is nearer to `n`. -/
theorem val_sub_add_one_lt {p m n : Stn} (hle : (m - p).val ≤ (n - p).val) (hne : m ≠ n) :
    (n - (m + 1)).val < (n - p).val := by
  have hval := Fin.val_ne_of_ne hne
  have hone : (1 : Stn).val = 1 := rfl
  omega

/-- The value of a take holds the station in its lower half (section 12.2). -/
theorem toNat_takeWord_mod (n : Stn) (count : Nat) :
    (BitVec.ofNat 32 (n.val + 65536 * count)).toNat % 65536 = n.val := by
  rw [BitVec.toNat_ofNat]
  omega

namespace State

variable {s t : State} {n : Stn}

/-- The flags that a take of the flagged station `n` leaves set (R66). -/
theorem noticeCount_sub_one (hn : s.nu.flags.get n = true) :
    s.noticeCount - 1 = (List.finRange 64).countP fun m => m != n && s.nu.flags.get m :=
  (countP_ne_and_of_mem (List.nodup_finRange 64) (List.mem_finRange n) hn).symm

/-! ### The first flagged station from the take position -/

/-- The search of R66 finds `n` when `n` is flagged and no flagged station is nearer, going upwards and wrapping. -/
theorem nextNotice_eq_some_iff :
    s.nextNotice = some n ↔ s.nu.flags.get n = true
      ∧ ∀ m : Stn, s.nu.flags.get m = true → (n - s.nu.position).val ≤ (m - s.nu.position).val := by
  simp only [nextNotice, allStations, List.find?_eq_some_iff_getElem, List.getElem_map, List.getElem_finRange,
    List.length_map, List.length_finRange]
  refine and_congr_right fun _ => ⟨?_, fun hmin => ⟨(n - s.nu.position).val, Fin.isLt _, by simp, ?_⟩⟩
  · rintro ⟨i, hi, rfl, hbefore⟩ m hm
    by_contra hlt
    simpa [hm] using hbefore (m - s.nu.position).val (by simpa using hlt)
  · intro j hj
    by_contra hflag
    have hle := hmin (s.nu.position + ⟨j, hj.trans (Fin.isLt _)⟩) (by simpa using hflag)
    rw [add_sub_cancel_left] at hle
    exact absurd hle (Nat.not_le_of_lt hj)

theorem nextNotice_eq_none_iff : s.nextNotice = none ↔ ∀ n, s.nu.flags.get n = false := by
  simp only [nextNotice, List.find?_eq_none, List.forall_mem_map, allStations, List.mem_finRange, true_implies,
    Bool.not_eq_true]
  exact ⟨fun h n => by simpa using h (n - s.nu.position), fun h k => h _⟩

/-! ### A take -/

theorem exec_noticeRead : exec .noticeRead s = execNoticeRead s := rfl

theorem exec_noticeRead_of_some (h : s.nextNotice = some n) :
    exec .noticeRead s = .next { s with
      nu := ⟨s.nu.flags.set n.val false n.isLt, n + 1⟩
      readData := BitVec.ofNat 32 (n.val + 65536 * (s.noticeCount - 1)) } := by
  simp only [exec_noticeRead, execNoticeRead, noticeWord, h]
  rfl

theorem exec_noticeRead_of_none (h : s.nextNotice = none) :
    exec .noticeRead s = .next { s with readData := 0x8000#32 } := by
  simp only [exec_noticeRead, execNoticeRead, noticeWord, h]
  rfl

/-- A take with `n` flagged returns `n`, or leaves it flagged with the take position nearer to it. -/
theorem noticeRead_returns_or_nearer (hn : s.nu.flags.get n = true) (h : exec .noticeRead s = .next t) :
    t.readData.toNat % 65536 = n.val
      ∨ (t.nu.flags.get n = true ∧ (n - t.nu.position).val < (n - s.nu.position).val) := by
  cases hfound : s.nextNotice with
  | none => simp [nextNotice_eq_none_iff.mp hfound n] at hn
  | some m =>
    obtain ⟨-, hmin⟩ := nextNotice_eq_some_iff.mp hfound
    rw [exec_noticeRead_of_some hfound] at h
    obtain rfl := Host.Outcome.next.inj h
    by_cases hmn : n = m
    · subst hmn
      exact .inl (toNat_takeWord_mod n _)
    · exact .inr ⟨(get_set_of_ne _ hmn _).trans hn, val_sub_add_one_lt (hmin n hn) (Ne.symm hmn)⟩

/-! ### Sets between takes -/

/-- Setting flags clears none and leaves the take position (R65). -/
theorem setNotices_kept (l : List Stn) : ∀ s : State, Kept s (l.foldl (fun s m => s.setNotice m) s) := by
  induction l with
  | nil => exact Kept.refl
  | cons m l ih => exact fun s => (setNotice_kept s m).trans (ih _)

theorem setNotices_position (l : List Stn) (s : State) :
    (l.foldl (fun s m => s.setNotice m) s).nu.position = s.nu.position := by
  have hsame := (setNotices_kept l s).same
  simp only [keptPart, Prod.mk.injEq] at hsame
  obtain ⟨-, -, -, -, -, -, hposition, -⟩ := hsame
  exact hposition

/-- With the take position `d` stations below the flagged station `n`, one of the next `d + 1` takes returns `n`,
whatever flags are set between them: a take of another station lessens that distance. -/
theorem returned_within_distance {sets : Nat → List Stn} {run : Nat → State} (hn : (run 0).nu.flags.get n = true)
    (hrun : ∀ k, exec .noticeRead ((sets k).foldl (fun s m => s.setNotice m) (run k)) = .next (run (k + 1))) :
    ∃ k ≤ (n - (run 0).nu.position).val, (run (k + 1)).readData.toNat % 65536 = n.val := by
  induction hd : (n - (run 0).nu.position).val using Nat.strong_induction_on generalizing sets run with
  | _ d ih =>
    obtain hret | ⟨hflag, hnear⟩ := noticeRead_returns_or_nearer ((setNotices_kept _ _).flags n hn) (hrun 0)
    · exact ⟨0, Nat.zero_le _, hret⟩
    · rw [setNotices_position, hd] at hnear
      obtain ⟨k, hk, hret⟩ := ih _ hnear (sets := fun k => sets (k + 1)) (run := fun k => run (k + 1)) hflag
        (fun k => hrun (k + 1)) rfl
      exact ⟨k + 1, by omega, hret⟩

/-! ### The interrupt output -/

theorem anySticky_iff : s.anySticky = true ↔
    s.rw.attnLost = true ∨ s.rw.attnBad = true ∨ s.rw.headerFault = true ∨ s.rw.portFault = true := by
  simp only [anySticky, Bool.or_eq_true, or_assoc]

theorem any_flag_iff : (allStations.any fun n => s.nu.flags.get n) = true ↔ ∃ n, s.nu.flags.get n = true := by
  simp only [allStations, List.any_eq_true, List.mem_finRange, true_and]

end State

/-! ### The statements -/

/-- Settles O5: the take by the search it makes, the bound by the distance from the take position to the station,
which every take of another station lessens. -/
theorem noticeReadTakes : Obligations.NoticeReadTakes := by
  refine ⟨fun s n hn hmin => ?_, fun s hnone => ?_, fun _ _ _ => rfl, fun sets run n hn hrun => ?_⟩
  · rw [State.exec_noticeRead_of_some (State.nextNotice_eq_some_iff.mpr ⟨hn, hmin⟩), State.noticeCount_sub_one hn,
      ite_last_zero_eq_add_one]
  · exact State.exec_noticeRead_of_none (State.nextNotice_eq_none_iff.mpr hnone)
  · obtain ⟨k, hk, hret⟩ := State.returned_within_distance hn hrun
    exact ⟨k, hk.trans_lt (Fin.isLt _), hret⟩

/-- Settles O6: the output's two terms, each read as a proposition. -/
theorem interruptOutputIsLevel : Obligations.InterruptOutputIsLevel := by
  intro s
  rw [State.interruptOutput, Bool.or_eq_true, Bool.and_eq_true, Bool.and_eq_true, State.any_flag_iff,
    State.anySticky_iff, and_comm (b := ∃ n, _), and_comm (b := _ ∨ _)]

end Sys2Proof.Machine
end

