-- ==== Sys2Proof/Proofs/Commands.lean ====
section
/-! What a command does, seen from outside: the state it sets out from, `Origin`, and that all it does from there is
operations, which keep `keptPart` and `oneEngaged` (`exec_runs`). The invariants and the frame of every command are
read off it. -/

namespace Sys2Proof

/-- The kind of write whose end the command reports. -/
def Instr.endsWrite : Instr → Option Machine.RequestKind
  | .takenWrite => some .takenWrite
  | .resultWrite => some .resultWrite
  | .doneWrite => some .doneWrite
  | .statusWrite => some .statusWrite
  | .drain => some .drain
  | .slotWrite => some .slotWrite
  | _ => none

/-- The kind of read whose end the command reports. -/
def Instr.endsRead : Instr → Option Machine.RequestKind
  | .headerRead _ => some .headerRead
  | .configurationRead _ => some .configurationRead
  | .chainHeadRead _ => some .chainHeadRead
  | .linkRead _ => some .linkRead
  | .blockRead _ => some .blockRead
  | .putRead _ _ => some .putRead
  | _ => none

end Sys2Proof

namespace Sys2Proof.Machine

/-! ### Operations, seen from outside -/

/-- `t` comes of `b` by operations, which keep both `keptPart` and `oneEngaged`. -/
structure Runs (b t : State) : Prop where
  kept : Kept b t
  steady : Steady b t

namespace Runs

theorem refl (s : State) : Runs s s := ⟨.refl s, .refl s⟩

theorem trans {s t u : State} (a : Runs s t) (b : Runs t u) : Runs s u :=
  ⟨a.kept.trans b.kept, a.steady.trans b.steady⟩

theorem settle {b t : State} (h : Runs b t) : Runs b t.settle := h.trans ⟨settle_kept t, settle_steady t⟩

theorem serveMemory {b t : State} (h : Runs b t) : Runs b t.serveMemory :=
  h.trans ⟨serveMemory_kept t, serveMemory_steady t⟩

theorem ite {s a b : State} {p : Prop} [Decidable p] (ha : Runs s a) (hb : Runs s b) : Runs s (if p then a else b) := by
  split <;> assumption

/-- An update of blocks that neither `keptPart`, nor the stickies and flags, nor `oneEngaged` looks at. -/
theorem plain {s t : State} (h : t.keptPart = s.keptPart) (hf : t.nu.flags = s.nu.flags)
    (hs : t.rw.headerFault = s.rw.headerFault) (hc : t.ctx = s.ctx) (hx : t.xe.turn = s.xe.turn) : Runs s t :=
  ⟨.plain h hf hs, .quiet (fun m hm => by simpa only [State.engagedAt, State.st, hc] using hm) (by
    simp only [State.grant, hx])⟩

theorem modLs (s : State) (f : Scheduler → Scheduler) : Runs s (s.modLs f) := .plain rfl rfl rfl rfl rfl

/-- A change of one context that leaves its state alone. -/
theorem modSt (s : State) (n : Stn) {f : Station → Station} (h : ∀ st, (f st).state = st.state) :
    Runs s (s.modSt n f) := ⟨.plain rfl rfl rfl, modSt_steady s n h⟩

/-- The station takes a state other than ENGAGED. -/
theorem enterState (s : State) (n : Stn) {new : StationState} (h : new ≠ .engaged) : Runs s (s.enterState n new) :=
  ⟨.plain rfl rfl rfl, enterState_steady s n h⟩

theorem startOp (s : State) (n : Stn) (j : Job) (g : Stage) : Runs s (s.startOp n j g) := modSt s n fun _ => rfl

theorem setStage (s : State) (n : Stn) (g : Stage) : Runs s (s.setStage n g) :=
  ⟨.plain rfl rfl rfl, .quiet (by simp) (by simp)⟩

theorem askStatus (s : State) (n : Stn) : Runs s (s.askStatus n) := ⟨.plain rfl rfl rfl, .quiet (by simp) (by simp)⟩

theorem askBeside (s : State) (n : Stn) : Runs s (s.askBeside n) := ⟨.plain rfl rfl rfl, .quiet (by simp) (by simp)⟩

theorem reportStatus (s : State) (n : Stn) : Runs s (s.reportStatus n) :=
  ⟨reportStatus_kept s n, reportStatus_steady s n⟩

theorem finalApplication (s : State) (n : Stn) (r : AttentionResult) : Runs s (s.finalApplication n r) :=
  ⟨finalApplication_kept s n r, finalApplication_steady s n r⟩

end Runs

/-! ### Where a command sets out from -/

/-- The state from which command `c`, met in `s`, runs its operations: `s` with what `c` alone may change of
`keptPart`, of the stickies and of the notice flags. A reset has no operations to run. -/
inductive Origin (s : State) : Instr → State → Prop
  | own (c : Instr) (hw : ∀ k, c.endsWrite = some k → ∀ r, ¬s.inProgress k r)
      (hb : ∀ cut, c = .busError cut → s.mp.current = none) : Origin s c s
  | powerOnReset (cut : Cut) : Origin s (.powerOnReset cut) (s.resetBlocks 0#32 cut)
  | deviceReset (cut : Cut) : Origin s (.deviceReset cut) (s.resetBlocks s.rw.dirbase cut)
  | noticeEn (v : Bool) : Origin s (.noticeEn v) (s.modRw fun r => { r with noticeEn := v })
  | faultEn (v : Bool) : Origin s (.faultEn v) (s.modRw fun r => { r with faultEn := v })
  | statusWriteClear (w : Word) (f : RegisterWindow → Bool × Bool × Bool)
      (h : ∀ r, ((f r).1 = true → r.attnLost = true) ∧ ((f r).2.1 = true → r.attnBad = true)) :
      Origin s (.statusWriteClear w) (s.modRw fun r =>
        { r with attnLost := (f r).1, attnBad := (f r).2.1, headerFault := (f r).2.2 })
  | dirbaseWrite (w : Word) : Origin s (.dirbaseWrite w) (s.modRw fun r => { r with dirbase := w })
  | attentionBad (w : Word) : Origin s (.attentionWrite w) (s.modRw fun r => { r with attnBad := true })
  | attentionLost (w : Word) : Origin s (.attentionWrite w) (s.modRw fun r => { r with attnLost := true })
  | attentionJoins (w : Word) (e : Entry) (h : s.au.length < Config.queueCapacity) :
      Origin s (.attentionWrite w) (s.setAu (s.au ++ [e]))
  | noticeEmpty (w : Word) : Origin s .noticeRead (s.setReadData w)
  | noticeTaken (w : Word) (f : NoticeUnit → NoticeUnit) : Origin s .noticeRead ((s.setReadData w).modNu f)
  | header (data : List Byte) (l : Option Latched) : Origin s (.headerRead data) (s.setLatched l)
  | write (c : Instr) (k : RequestKind) (r : Request) (hc : c.endsWrite = some k) (hr : s.inProgress k r) :
      Origin s c (s.afterWrite r)
  | applied (r : Request) (hr : s.inProgress .statusWrite r) :
      Origin s .statusWrite ((s.afterWrite r).setAu s.au.tail)
  | failed (cut : Cut) (r : Request) (hr : s.mp.current = some r) : Origin s (.busError cut) (s.failRequest r cut)
  | portFault (cut : Cut) (r : Request) (a : Addr) (hr : s.mp.current = some r) :
      Origin s (.busError cut) ((s.failRequest r cut).portFault a)
  | expiry : Origin s .millisecondExpiry (s.setElapsed 0)

/-- Command `c`, met in `s`, comes to `t` by operations from where it sets out. -/
def Reaches (c : Instr) (s t : State) : Prop := ∃ b, Origin s c b ∧ Runs b t

namespace Reaches

variable {c : Instr} {s t : State}

/-- A command that is neither the end of a write nor a bus error runs its operations from the state it meets. -/
theorem own (h : Runs s t) (hw : c.endsWrite = none := by rfl) (hb : ∀ cut, c ≠ .busError cut := by nofun) :
    Reaches c s t := ⟨s, .own c (by simp [hw]) fun cut hc => absurd hc (hb cut), h⟩

/-- A command that only changes what is its own to change. -/
theorem only (h : Origin s c t) : Reaches c s t := ⟨t, h, .refl t⟩

end Reaches

variable {s t : State}

/-! ### The ends of memory requests -/

/-- The end of a read, taken or not, runs operations from the state it meets. -/
theorem whenRead_reaches {c : Instr} {k : RequestKind} {data : List Byte} {go : Request → State → Answer}
    (h : s.whenRead k data go = .next t) (hk : k.isWrite = false) (hc : c.endsRead = some k)
    (hgo : ∀ r u, go r u = .next t → Runs u t) : Reaches c s t := by
  have hw : c.endsWrite = none := by cases c <;> simp_all [Instr.endsRead, Instr.endsWrite]
  have hb : ∀ cut, c ≠ .busError cut := by rintro cut rfl; simp [Instr.endsRead] at hc
  obtain rfl | ⟨r, -, hrk, -, hrun⟩ := State.whenRead_next h
  · exact .own (.refl t) hw hb
  · refine .own (Runs.trans ?_ (hgo r _ hrun)) hw hb
    rw [State.completeRequest, hrk, hk]
    exact .plain rfl rfl rfl rfl rfl

/-- The end of a write, taken, runs operations from the state with its bytes in memory. -/
theorem whenDone_reaches {c : Instr} {k : RequestKind} {go : Request → State → Answer}
    (h : s.whenDone k go = .next t) (hk : k.isWrite = true) (hc : c.endsWrite = some k)
    (hgo : ∀ r, s.inProgress k r → go r (s.afterWrite r) = .next t → Reaches c s t) : Reaches c s t := by
  by_cases hr : ∃ r, s.inProgress k r
  · obtain ⟨r, hr⟩ := hr
    rw [State.whenDone_of hr.1 hr.2 hk] at h
    exact hgo r hr h
  · have hnone : ∀ r, ¬s.inProgress k r := fun r hin => hr ⟨r, hin⟩
    rw [State.whenDone_of_other fun r h1 h2 => hnone r ⟨h1, h2⟩] at h
    obtain rfl := Host.Outcome.next.inj h
    refine ⟨_, .own c (fun k' hk' r => ?_) fun cut hcut => ?_, .refl _⟩
    · rw [hc] at hk'
      exact Option.some.inj hk' ▸ hnone r
    · simp [hcut, Instr.endsWrite] at hc

/-- The slot write of an application. -/
theorem slotOfApplication_runs {n : Stn} {o : Operation} (h : s.slotOfApplication n o = .next t) : Runs s t := by
  have hop : Runs s (s.modOp n fun o => { o with slotDue := false }) := .modSt s n fun _ => rfl
  unfold State.slotOfApplication at h
  split at h
  · obtain rfl := Host.Outcome.next.inj h
    exact (hop.trans (.finalApplication _ n _)).serveMemory
  · obtain rfl := Host.Outcome.next.inj h
    exact (Runs.mk (endTakeDown_kept s n) (endTakeDown_steady s n)).serveMemory
  · split at h
    · obtain rfl := Host.Outcome.next.inj h
      exact hop.serveMemory
    · cases h

/-- The last status write of an operation: that of an application takes the head entry out of the queue. -/
theorem afterFinal_reaches {n : Stn} {j : Job} {r : Request} (hr : s.inProgress .statusWrite r) :
    Reaches .statusWrite s ((s.afterWrite r).afterFinal n j).settle := by
  unfold State.afterFinal
  split
  · exact ⟨_, .applied r hr, (Runs.mk (finishOp_kept _ n) (finishOp_steady _ n)).settle⟩
  · exact ⟨_, .write _ _ r rfl hr, (Runs.mk (finishReport_kept _ n) (finishReport_steady _ n)).settle⟩
  · exact ⟨_, .write _ _ r rfl hr, (Runs.mk (finishOp_kept _ n) (finishOp_steady _ n)).settle⟩

theorem statusWrite_reaches (h : execStatusWrite s = .next t) : Reaches .statusWrite s t := by
  refine whenDone_reaches h rfl rfl fun r hr hgo => ?_
  obtain ⟨n, o, -, -, hgo⟩ := State.whenOp_next hgo
  split at hgo
  · obtain rfl := Host.Outcome.next.inj hgo
    have hdone : Runs (s.afterWrite r) ((s.afterWrite r).modSt n fun st => { st with holdReport := false }) :=
      .modSt _ n fun _ => rfl
    exact ⟨_, .write _ _ r rfl hr, hdone.serveMemory⟩
  · split at hgo
    · obtain rfl := Host.Outcome.next.inj hgo
      exact ⟨_, .write _ _ r rfl hr, (Runs.mk (afterRetirement_kept _ n _) (afterRetirement_steady _ n _)).settle⟩
    · obtain rfl := Host.Outcome.next.inj hgo
      exact afterFinal_reaches hr
    · cases hgo

theorem slotWrite_reaches (h : execSlotWrite s = .next t) : Reaches .slotWrite s t := by
  have happlication : ∀ r u, State.whenOp r u (fun n o s => s.slotOfApplication n o) = .next t → Runs u t := by
    intro r u hgo
    obtain ⟨n, o, -, -, hgo⟩ := State.whenOp_next hgo
    exact slotOfApplication_runs hgo
  refine whenDone_reaches h rfl rfl fun r hr hgo => ⟨_, .write _ _ r rfl hr, ?_⟩
  split at hgo
  · split at hgo
    · split at hgo
      · obtain rfl := Host.Outcome.next.inj hgo
        exact (Runs.mk (slotWritten_kept _ ..) (slotWritten_steady _ ..)).settle
      · exact happlication r _ hgo
    · exact happlication r _ hgo
  · exact happlication r _ hgo

theorem drain_reaches (h : execDrain s = .next t) : Reaches .drain s t := by
  refine whenDone_reaches h rfl rfl fun r hr hgo => ⟨_, .write _ _ r rfl hr, ?_⟩
  split at hgo
  · split at hgo
    · obtain rfl := Host.Outcome.next.inj hgo
      exact (Runs.mk (dataTaken_kept _ ..) (dataTaken_steady _ ..)).settle
    · cases hgo
  · cases hgo

/-- The ends of the TAKEN, result and DONE writes, whose operation `go` moves on. -/
theorem whenOp_reaches {c : Instr} {k : RequestKind} {go : Stn → Operation → State → Answer}
    (h : s.whenDone k (fun r s => s.whenOp r go) = .next t) (hk : k.isWrite = true) (hc : c.endsWrite = some k)
    (hgo : ∀ n o u, go n o u = .next t → Runs u t) : Reaches c s t :=
  whenDone_reaches h hk hc fun r hr hrun =>
    have ⟨n, o, _, _, hgo'⟩ := State.whenOp_next hrun
    ⟨_, .write c k r hc hr, hgo n o _ hgo'⟩

theorem takenWrite_reaches (h : execTakenWrite s = .next t) : Reaches .takenWrite s t := by
  refine whenOp_reaches h rfl rfl fun n o u hgo => ?_
  split at hgo
  · obtain rfl := Host.Outcome.next.inj hgo
    exact (Runs.mk (takeBlock_kept u ..) (takeBlock_steady u ..)).settle
  · cases hgo

theorem resultWrite_reaches (h : execResultWrite s = .next t) : Reaches .resultWrite s t := by
  refine whenOp_reaches h rfl rfl fun n o u hgo => ?_
  split at hgo
  · next q _ =>
    obtain rfl := Host.Outcome.next.inj hgo
    have hasked : Runs (u.setStage n (.done q))
        ((u.setStage n (.done q)).askStateWord .doneWrite n q.block stateWordDone) :=
      .plain rfl rfl rfl rfl rfl
    exact ((Runs.setStage u n _).trans hasked).serveMemory
  · cases hgo

theorem doneWrite_reaches (h : execDoneWrite s = .next t) : Reaches .doneWrite s t := by
  refine whenOp_reaches h rfl rfl fun n o u hgo => ?_
  split at hgo
  · next q _ =>
    obtain rfl := Host.Outcome.next.inj hgo
    have hsettled : Runs u (u.settleRetirement n q) := .modSt u n fun _ => rfl
    exact ((hsettled.trans (.setStage _ n _)).trans (.askStatus _ n)).serveMemory
  · cases hgo

/-! ### The ends of reads -/

theorem headerRead_reaches {data : List Byte} (h : execHeaderRead data s = .next t) :
    Reaches (.headerRead data) s t := by
  obtain rfl | ⟨r, -, hk, -, hgo⟩ := State.whenRead_next h
  · exact .own (.refl t)
  · have hread : Runs s (s.completeRequest r) := by
      rw [State.completeRequest, hk]; exact .plain rfl rfl rfl rfl rfl
    split at hgo
    · obtain rfl := Host.Outcome.next.inj hgo
      unfold State.takeHeader
      simp only
      split
      · refine ⟨_, .header data (some (.ofHeader s.rw.dirbase data)), Runs.settle ?_⟩
        rw [State.completeRequest, hk]
        exact .plain rfl rfl rfl rfl rfl
      · exact .own (hread.trans ⟨headerFault_kept _ _, headerFault_steady _ _⟩).settle
    · cases hgo

/-- The end of a read of an operation, which `go` moves on. -/
theorem whenReadOp_reaches {c : Instr} {k : RequestKind} {data : List Byte} {go : Stn → Operation → State → Answer}
    (h : s.whenRead k data (fun r s => s.whenOp r go) = .next t) (hk : k.isWrite = false) (hc : c.endsRead = some k)
    (hgo : ∀ n o u, go n o u = .next t → Runs u t) : Reaches c s t :=
  whenRead_reaches h hk hc fun _ u hrun =>
    have ⟨n, o, _, _, hgo'⟩ := State.whenOp_next hrun
    hgo n o u hgo'

theorem configurationRead_reaches {data : List Byte} (h : execConfigurationRead data s = .next t) :
    Reaches (.configurationRead data) s t := by
  refine whenReadOp_reaches h rfl rfl fun n o u hgo => ?_
  split at hgo
  · obtain rfl := Host.Outcome.next.inj hgo
    exact (Runs.mk (takeConfiguration_kept u ..) (takeConfiguration_steady u ..)).settle
  · cases hgo

/-- A link or chain head that has been read gives the candidate's address. -/
theorem candidateRead_runs {n : Stn} {o : Operation} {u : State} {a : Addr}
    (h : (if o.stage = .candidate then Host.Outcome.next (u.examineAddress n a).settle
      else .fault .noOperation : Answer) = .next t) : Runs u t := by
  split at h
  · obtain rfl := Host.Outcome.next.inj h
    exact (Runs.mk (examineAddress_kept u ..) (examineAddress_steady u ..)).settle
  · cases h

theorem blockRead_reaches {data : List Byte} (h : execBlockRead data s = .next t) : Reaches (.blockRead data) s t := by
  refine whenReadOp_reaches h rfl rfl fun n o u hgo => ?_
  split at hgo
  · obtain rfl := Host.Outcome.next.inj hgo
    exact (Runs.ite ⟨examineInWalk_kept u .., examineInWalk_steady u ..⟩
      ⟨examineInFollowing_kept u .., examineInFollowing_steady u ..⟩).settle
  · cases hgo

theorem putRead_reaches {data : List Byte} {quiet : Bool} (h : execPutRead data quiet s = .next t) :
    Reaches (.putRead data quiet) s t := by
  refine whenRead_reaches h rfl rfl fun r u hgo => ?_
  split at hgo
  · split at hgo
    · obtain rfl := Host.Outcome.next.inj hgo
      have hstaged : Runs u (u.modXe fun x => { x with staging := data }) := .plain rfl rfl rfl rfl rfl
      exact (hstaged.trans ⟨beginSending_kept _ _, beginSending_steady _ _⟩).serveMemory
    · cases hgo
  · cases hgo

/-! ### A bus error -/

theorem busError_reaches {cut : Cut} (h : execBusError cut s = .next t) : Reaches (.busError cut) s t := by
  unfold execBusError at h
  split at h
  · next hnone =>
    obtain rfl := Host.Outcome.next.inj h
    exact .only (.own _ (by simp [Instr.endsWrite]) fun _ _ => hnone)
  · next r hr =>
    split at h
    · unfold State.dealWithError at h
      have hfrom : ∀ u, Runs (s.failRequest r cut) u → Reaches (.busError cut) s u :=
        fun u hu => ⟨_, .failed cut r hr, hu⟩
      split at h
      · obtain rfl := Host.Outcome.next.inj h
        exact hfrom _ (Runs.mk (headerFault_kept _ _) (headerFault_steady _ _)).settle
      · obtain ⟨n, o, -, -, hgo⟩ := State.whenOp_next h
        obtain rfl := Host.Outcome.next.inj hgo
        exact hfrom _ (Runs.finalApplication _ n _).settle
      iterate 3
        · obtain ⟨n, o, -, -, hgo⟩ := State.whenOp_next h
          obtain rfl := Host.Outcome.next.inj hgo
          exact hfrom _ (Runs.mk (failCandidate_kept _ n) (failCandidate_steady _ n)).settle
      iterate 2
        · split at h
          · obtain rfl := Host.Outcome.next.inj h
            exact hfrom _ (Runs.mk (handOver_kept _ ..) (handOver_steady _ ..)).settle
          · cases h
      all_goals
        obtain rfl := Host.Outcome.next.inj h
        exact .only (.portFault cut r _ hr)
    · cases h

/-! ### The head attention entry -/

theorem takeHead_reaches {c : Instr} {a : Action} {f : Stn → State → State} (h : s.takeHead a f = .next t)
    (hf : ∀ n u, Runs u (f n u)) (hw : c.endsWrite = none := by rfl) (hb : ∀ cut, c ≠ .busError cut := by nofun) :
    Reaches c s t := by
  obtain ⟨n, rest, -, ⟨-, rfl⟩ | ⟨-, rfl⟩⟩ := State.takeHead_next h
  · exact .own (((Runs.startOp s n _ _).trans (hf n _)).serveMemory) hw hb
  · exact .own (.refl _) hw hb

/-! ### The line -/

/-- The station that a grant chooses is not ENGAGED. -/
theorem chooseGrant_not_engaged {n : Stn} {k : TurnKind} (h : s.chooseGrant = some (n, k)) :
    (s.st n).state ≠ .engaged := by
  unfold State.chooseGrant at h
  split at h
  · next e he =>
    cases h
    intro hstate
    have := List.find?_some he
    simp [State.watchEligible, hstate] at this
  · split at h
    · next m hm =>
      simp only [Option.map_eq_some_iff, Prod.mk.injEq] at h
      obtain ⟨k', -, rfl, -⟩ := h
      intro hstate
      have := List.find?_some hm
      simp [State.exchangeEligible, hstate] at this
    · cases h

theorem grant_runs {quiet : Bool} (h : execGrant quiet s = .next t) : Runs s t := by
  unfold execGrant at h
  split at h
  · next hopen =>
    have hturn : s.xe.turn = none := by
      simp only [State.grantOpen, Bool.and_eq_true, Option.isNone_iff_eq_none] at hopen
      obtain ⟨⟨⟨⟨-, hturn⟩, -⟩, -⟩, -⟩ := hopen
      exact hturn
    split at h
    · next hchoice =>
      obtain rfl := Host.Outcome.next.inj h
      exact (Runs.mk (grantTurn_kept s ..)
        (grantTurn_steady s _ _ _ (chooseGrant_not_engaged hchoice) hturn)).serveMemory
    · obtain rfl := Host.Outcome.next.inj h
      exact .refl _
  · obtain rfl := Host.Outcome.next.inj h
    exact .refl _

theorem deliver_runs {f : Finding} {quiet : Bool} (h : s.deliver f quiet = .next t) : Runs s t := by
  obtain ⟨turn, -, rfl⟩ := State.deliver_next h
  have hidle : Runs s (s.modLp fun _ => .reset) := .plain rfl rfl rfl rfl rfl
  exact (hidle.trans ⟨takeFinding_kept _ .., takeFinding_steady _ ..⟩).settle

theorem lineQuiet_runs (h : execLineQuiet s = .next t) : Runs s t := by
  unfold execLineQuiet at h
  split at h
  · obtain rfl := Host.Outcome.next.inj h
    exact .plain rfl rfl rfl rfl rfl
  · exact deliver_runs h
  · obtain rfl := Host.Outcome.next.inj h
    exact .refl _

theorem lineBusyLimit_runs (h : execLineBusyLimit s = .next t) : Runs s t := by
  unfold execLineBusyLimit at h
  split at h
  · exact deliver_runs h
  · obtain rfl := Host.Outcome.next.inj h
    exact .refl _

theorem packetSent_runs (h : execPacketSent s = .next t) : Runs s t := by
  unfold execPacketSent at h
  split at h
  · split at h
    · obtain rfl := Host.Outcome.next.inj h
      exact .plain rfl rfl rfl rfl rfl
    · split at h
      · exact deliver_runs h
      · obtain rfl := Host.Outcome.next.inj h
        exact .plain rfl rfl rfl rfl rfl
  · obtain rfl := Host.Outcome.next.inj h
    exact .refl _

theorem startDelimiter_runs (h : execStartDelimiter s = .next t) : Runs s t := by
  unfold execStartDelimiter at h
  split at h <;> obtain rfl := Host.Outcome.next.inj h
  · exact .plain rfl rfl rfl rfl rfl
  all_goals exact .refl _

theorem responseTimeout_runs {quiet : Bool} (h : execResponseTimeout quiet s = .next t) : Runs s t := by
  unfold execResponseTimeout at h
  split at h
  · exact deliver_runs h
  · obtain rfl := Host.Outcome.next.inj h
    exact .refl _

theorem receptionEnd_runs {r : Reception} {quiet : Bool} (h : execReceptionEnd r quiet s = .next t) : Runs s t := by
  unfold execReceptionEnd at h
  split at h
  · split at h
    · obtain rfl := Host.Outcome.next.inj h
      exact .plain rfl rfl rfl rfl rfl
    · split at h
      · split at h
        · exact deliver_runs h
        · cases h
      · cases h
  · obtain rfl := Host.Outcome.next.inj h
    exact .refl _

theorem framingError_runs (h : execFramingError s = .next t) : Runs s t := by
  unfold execFramingError at h
  split at h
  · exact deliver_runs h
  · obtain rfl := Host.Outcome.next.inj h
    exact .refl _

/-! ### Timers -/

theorem State.setElapsed_modLs (s : State) (f : Scheduler → Scheduler) (k : Nat) :
    (s.modLs f).setElapsed k = (s.setElapsed k).modLs f := rfl

/-- The elapsed time is of no concern to the countdowns. -/
theorem ticks_setElapsed (s : State) :
    forStations State.tickStation (s.setElapsed 0) = (forStations State.tickStation s).setElapsed 0 := by
  unfold forStations
  generalize allStations = l
  induction l generalizing s with
  | nil => rfl
  | cons n l ih => exact ih (s.tickStation n)

theorem millisecondExpiry_reaches (h : execMillisecondExpiry s = .next t) : Reaches .millisecondExpiry s t := by
  unfold execMillisecondExpiry at h
  split at h
  · cases h
  · split at h
    · cases h
    · obtain rfl := Host.Outcome.next.inj h
      have hticks : Runs (s.setElapsed 0) (forStations State.tickStation (s.setElapsed 0)) :=
        ⟨Kept.forStations (fun n u => tickStation_kept u n) _, Steady.forStations (fun n u => tickStation_steady u n) _⟩
      refine ⟨_, .expiry, ?_⟩
      rw [State.setElapsed_modLs, ← ticks_setElapsed]
      exact hticks.trans (.modLs _ _)

theorem holdDelayExpiry_runs {n : Stn} (h : execHoldDelayExpiry n s = .next t) : Runs s t := by
  have hready : Runs s (s.enterState n .ready) := .enterState s n (by decide)
  unfold execHoldDelayExpiry at h
  split at h
  · cases h
  · split at h
    · obtain rfl := Host.Outcome.next.inj h
      exact .refl _
    · split at h
      · obtain rfl := Host.Outcome.next.inj h
        exact .modSt _ _ fun _ => rfl
      · split at h <;> obtain rfl := Host.Outcome.next.inj h
        · exact (hready.trans (.askBeside _ n)).serveMemory
        · exact (hready.trans (.reportStatus _ n)).serveMemory

theorem rereadExpiry_runs {n : Stn} (h : execRereadExpiry n s = .next t) : Runs s t := by
  unfold execRereadExpiry at h
  split at h
  · cases h
  · split at h
    · obtain rfl := Host.Outcome.next.inj h
      exact .refl _
    · split at h
      · obtain rfl := Host.Outcome.next.inj h
        exact .modSt _ _ fun _ => rfl
      · split at h
        · obtain rfl := Host.Outcome.next.inj h
          exact .modSt _ _ fun _ => rfl
        · split at h <;> obtain rfl := Host.Outcome.next.inj h
          · exact .refl _
          · exact (Runs.mk (follow_kept s n _) (follow_steady s n _)).serveMemory

theorem intervalEnd_runs {n : Stn} (h : execIntervalEnd n s = .next t) : Runs s t := by
  unfold execIntervalEnd at h
  split at h
  · cases h
  · split at h
    · cases h
    · split at h <;> obtain rfl := Host.Outcome.next.inj h
      · exact .refl _
      · have hreload : Runs s (s.modWatch n fun r => { r with countdown := (s.config n).watchInterval }) :=
          .plain rfl rfl rfl rfl rfl
        exact hreload.trans (.ite (.plain rfl rfl rfl rfl rfl)
          ⟨endInterval_kept _ n, .quiet (by simp) (by simp)⟩)

/-! ### Start, stop, link restart -/

theorem runStart_runs (h : execRunStart s = .next t) : Runs s t := by
  have hrun : Runs s (s.modRw fun r => { r with run := true }) := .plain rfl rfl rfl rfl rfl
  obtain rfl := Host.Outcome.next.inj h
  exact .ite hrun.settle hrun

theorem runStop_runs (h : execRunStop s = .next t) : Runs s t := by
  obtain rfl := Host.Outcome.next.inj h
  exact .ite (Runs.settle (.plain rfl rfl rfl rfl rfl)) (.plain rfl rfl rfl rfl rfl)

theorem carryOutRestart_runs (s : State) : Runs s s.carryOutRestart.settle :=
  (Runs.mk (carryOutRestart_kept s) (carryOutRestart_steady s)).settle

theorem linkRestart_runs (h : execLinkRestart s = .next t) : Runs s t := by
  unfold execLinkRestart at h
  split at h
  · split at h <;> obtain rfl := Host.Outcome.next.inj h
    · exact .refl _
    · exact carryOutRestart_runs s
  · split at h <;> obtain rfl := Host.Outcome.next.inj h
    · exact .refl _
    · exact .plain rfl rfl rfl rfl rfl
  all_goals
    obtain rfl := Host.Outcome.next.inj h
    exact .refl _

theorem restartBreak_runs (h : execRestartBreak s = .next t) : Runs s t := by
  unfold execRestartBreak at h
  split at h <;> obtain rfl := Host.Outcome.next.inj h
  · exact .refl _
  · exact carryOutRestart_runs s

theorem breakEnd_runs (h : execBreakEnd s = .next t) : Runs s t := by
  unfold execBreakEnd at h
  split at h <;> obtain rfl := Host.Outcome.next.inj h
  · exact .plain rfl rfl rfl rfl rfl
  · exact .refl _

theorem settlingEnd_runs (h : execSettlingEnd s = .next t) : Runs s t := by
  unfold execSettlingEnd at h
  split at h <;> obtain rfl := Host.Outcome.next.inj h
  · exact .ite (Runs.settle (.plain rfl rfl rfl rfl rfl)) (.plain rfl rfl rfl rfl rfl)
  · exact .refl _

/-! ### Register accesses -/

theorem statusWriteClear_reaches {w : Word} (h : execStatusWriteClear w s = .next t) :
    Reaches (.statusWriteClear w) s t := by
  obtain rfl := Host.Outcome.next.inj h
  refine .only (.statusWriteClear w (fun r => (r.attnLost && !w.getLsbD 16, r.attnBad && !w.getLsbD 17,
    r.headerFault && !w.getLsbD 18)) fun r => ?_)
  simp only [Bool.and_eq_true]
  exact ⟨And.left, And.left⟩

theorem dirbaseWrite_reaches {w : Word} (h : execDirbaseWrite w s = .next t) : Reaches (.dirbaseWrite w) s t := by
  unfold execDirbaseWrite at h
  obtain rfl := Host.Outcome.next.inj h
  split
  · exact .only (.dirbaseWrite w)
  · exact .own (.refl s)

theorem attentionWrite_reaches {w : Word} (h : execAttentionWrite w s = .next t) : Reaches (.attentionWrite w) s t := by
  unfold execAttentionWrite at h
  split at h
  · obtain rfl := Host.Outcome.next.inj h
    exact .only (.attentionBad w)
  · split at h <;> obtain rfl := Host.Outcome.next.inj h
    · exact .only (.attentionJoins w _ ‹_›)
    · exact .only (.attentionLost w)

theorem noticeRead_reaches (h : execNoticeRead s = .next t) : Reaches .noticeRead s t := by
  unfold execNoticeRead at h
  split at h <;> obtain rfl := Host.Outcome.next.inj h
  · exact .only (.noticeEmpty _)
  · exact .only (.noticeTaken _ _)

/-! ### Every command -/

/-- Whatever a command answers next comes of where it sets out by operations. -/
theorem exec_reaches {c : Instr} (h : exec c s = .next t) : Reaches c s t := by
  cases c with
  | powerOnReset cut => cases h; exact .only (.powerOnReset cut)
  | deviceReset cut => cases h; exact .only (.deviceReset cut)
  | runStart => exact .own (runStart_runs h)
  | runStop => exact .own (runStop_runs h)
  | linkRestart => exact .own (linkRestart_runs h)
  | noticeEn v => cases h; exact .only (.noticeEn v)
  | faultEn v => cases h; exact .only (.faultEn v)
  | statusWriteClear w => exact statusWriteClear_reaches h
  | dirbaseWrite w => exact dirbaseWrite_reaches h
  | attentionWrite w => exact attentionWrite_reaches h
  | noticeRead => exact noticeRead_reaches h
  | registerWriteIgnored offset enables w => cases h; exact .own (.refl s)
  | bringUp => exact takeHead_reaches h fun n u => ⟨applyBringUp_kept u n, applyBringUp_steady u n⟩
  | wake => exact takeHead_reaches h fun n u => ⟨applyWake_kept u n, applyWake_steady u n⟩
  | pause => exact takeHead_reaches h fun n u => ⟨applyPause_kept u n, applyPause_steady u n⟩
  | resume => exact takeHead_reaches h fun n u => ⟨applyResume_kept u n, applyResume_steady u n⟩
  | withdraw => exact takeHead_reaches h fun n u => ⟨applyWithdraw_kept u n, applyWithdraw_steady u n⟩
  | revive => exact takeHead_reaches h fun n u => ⟨applyRevive_kept u n, applyRevive_steady u n⟩
  | takeDown => exact takeHead_reaches h fun n u => ⟨applyTakeDown_kept u n, applyTakeDown_steady u n⟩
  | headerRead data => exact headerRead_reaches h
  | configurationRead data => exact configurationRead_reaches h
  | chainHeadRead data => exact whenReadOp_reaches h rfl rfl fun _ _ _ hgo => candidateRead_runs hgo
  | linkRead data => exact whenReadOp_reaches h rfl rfl fun _ _ _ hgo => candidateRead_runs hgo
  | blockRead data => exact blockRead_reaches h
  | takenWrite => exact takenWrite_reaches h
  | resultWrite => exact resultWrite_reaches h
  | doneWrite => exact doneWrite_reaches h
  | statusWrite => exact statusWrite_reaches h
  | putRead data quiet => exact putRead_reaches h
  | drain => exact drain_reaches h
  | slotWrite => exact slotWrite_reaches h
  | busError cut => exact busError_reaches h
  | grant quiet => exact .own (grant_runs h)
  | lineQuiet => exact .own (lineQuiet_runs h)
  | lineBusyLimit => exact .own (lineBusyLimit_runs h)
  | packetSent => exact .own (packetSent_runs h)
  | startDelimiter => exact .own (startDelimiter_runs h)
  | responseTimeout quiet => exact .own (responseTimeout_runs h)
  | receptionEnd r quiet => exact .own (receptionEnd_runs h)
  | millisecondExpiry => exact millisecondExpiry_reaches h
  | holdDelayExpiry n => exact .own (holdDelayExpiry_runs h)
  | rereadExpiry n => exact .own (rereadExpiry_runs h)
  | intervalEnd n => exact .own (intervalEnd_runs h)
  | restartBreak => exact .own (restartBreak_runs h)
  | breakEnd => exact .own (breakEnd_runs h)
  | settlingEnd => exact .own (settlingEnd_runs h)
  | framingError => exact .own (framingError_runs h)

end Sys2Proof.Machine
end

