-- ==== Sys2Proof/Proofs/Invariants.lean ====
section
/-! The invariants of every step: each holds where a command sets out from and operations keep it. -/

namespace Sys2Proof.Machine

variable {c : Instr} {s b t : State}

/-! ### What operations keep, field by field -/

namespace Kept

variable (h : Kept s t)
include h

theorem fields : t.pending = s.pending ∧ t.readData = s.readData ∧ t.mem = s.mem ∧ t.itElapsed = s.itElapsed
    ∧ t.latched = s.latched ∧ t.au = s.au ∧ t.nu.position = s.nu.position ∧ t.rw.noticeEn = s.rw.noticeEn
    ∧ t.rw.faultEn = s.rw.faultEn ∧ t.rw.dirbase = s.rw.dirbase ∧ t.rw.attnLost = s.rw.attnLost
    ∧ t.rw.attnBad = s.rw.attnBad ∧ t.rw.portFault = s.rw.portFault := by
  simpa only [State.keptPart, Prod.mk.injEq] using h.same

theorem mem : t.mem = s.mem := h.fields.2.2.1

theorem au : t.au = s.au := h.fields.2.2.2.2.2.1

end Kept

/-! ### A step and its command -/

/-- A step idles or runs its front command on the queue's rest. -/
theorem step_next (h : step s = .next t) :
    t = s ∨ ∃ c rest, exec c (s.setPending rest) = .next t := by
  unfold step at h
  split at h
  · exact .inl (Host.Outcome.next.inj h).symm
  · exact .inr ⟨_, _, h⟩

/-- What holds of the state a command meets, is seen neither in the queue of commands nor lost where the command sets
out, and is kept by operations, every step keeps. -/
theorem step_keeps {P : State → Prop} (hpending : ∀ s rest, P s → P (s.setPending rest))
    (horigin : ∀ s c b, Origin s c b → P s → P b) (hruns : ∀ b t, Runs b t → P b → P t) (hs : P s)
    (h : step s = .next t) : P t := by
  obtain rfl | ⟨c, rest, hc⟩ := step_next h
  · exact hs
  · obtain ⟨b, hb, hrun⟩ := exec_reaches hc
    exact hruns b t hrun (horigin _ c b hb (hpending s rest hs))

/-! ### The invariants where a command sets out -/

theorem resetBlocks_mem_wf (hs : s.mem.wf = true) (a : Addr) (cut : Cut) : (s.resetBlocks a cut).mem.wf = true := by
  change ((s.mp.current.map fun r => r.land cut s.mem).getD s.mem).wf = true
  cases s.mp.current with
  | none => exact hs
  | some r => exact Request.land_wf hs

theorem Origin.memoryCanonical (h : Origin s c b) (hs : s.memoryCanonical) : b.memoryCanonical := by
  cases h with
  | powerOnReset cut => exact resetBlocks_mem_wf hs _ cut
  | deviceReset cut => exact resetBlocks_mem_wf hs _ cut
  | write k r _ _ => exact Memory.store_wf hs
  | applied r _ => exact Memory.store_wf hs
  | failed cut r _ => exact Request.land_wf hs
  | portFault cut r _ _ => exact Request.land_wf hs
  | _ => exact hs

theorem Origin.queueBounded (h : Origin s c b) (hs : s.queueBounded) : b.queueBounded := by
  cases h with
  | powerOnReset cut => exact Nat.zero_le _
  | deviceReset cut => exact Nat.zero_le _
  | attentionJoins w e hlt => simpa [State.queueBounded] using Nat.succ_le_of_lt hlt
  | applied r _ => exact (List.length_tail.trans_le (Nat.sub_le ..)).trans hs
  | _ => exact hs

theorem st_resetWith (a : Addr) (m : Memory) (w : Word) (k : Nat) (q : List Instr) (n : Stn) :
    (State.resetWith a m w k q).st n = .reset := get_replicate ..

/-- No station is ENGAGED after a reset, and there is no turn. -/
theorem oneEngaged_resetWith (a : Addr) (m : Memory) (w : Word) (k : Nat) (q : List Instr) :
    (State.resetWith a m w k q).oneEngaged := by
  refine ⟨fun n hn => ?_, fun t ht => ?_⟩
  · rw [st_resetWith] at hn
    cases hn
  · simp only [State.resetWith, reduceCtorEq] at ht

theorem Origin.oneEngaged (h : Origin s c b) (hs : s.oneEngaged) : b.oneEngaged := by
  cases h with
  | powerOnReset cut => exact oneEngaged_resetWith ..
  | deviceReset cut => exact oneEngaged_resetWith ..
  | _ => exact hs

/-! ### The statements -/

/-- Settles O56: operations write no memory, and what a command itself writes keeps the canonical form. -/
theorem stepKeepsMemoryCanonical : Obligations.StepKeepsMemoryCanonical := fun _ _ hs h =>
  step_keeps (fun _ _ hs => hs) (fun _ _ _ hb => hb.memoryCanonical)
    (fun _ _ hrun hb => by rw [State.memoryCanonical, hrun.kept.mem]; exact hb) hs h

/-- Settles O57: an entry joins only a queue with room for it, and operations leave the queue alone. -/
theorem stepKeepsQueueBounded : Obligations.StepKeepsQueueBounded := fun _ _ hs h =>
  step_keeps (fun _ _ hs => hs) (fun _ _ _ hb => hb.queueBounded)
    (fun _ _ hrun hb => by rw [State.queueBounded, hrun.kept.au]; exact hb) hs h

/-- Settles O58: only a grant engages a station, and it makes the turn in progress that station's. -/
theorem stepKeepsOneEngaged : Obligations.StepKeepsOneEngaged := by
  refine ⟨fun _ _ hs h => step_keeps (fun _ _ hs => hs) (fun _ _ _ hb => hb.oneEngaged)
    (fun _ _ hrun hb => hrun.steady.keeps hb) hs h, fun s n m hs hn hm => ?_⟩
  have hturn := hs.1 n hn
  rw [hs.1 m hm] at hturn
  exact (Option.some.inj hturn).symm

/-- Settles O59. -/
theorem resetMeetsInvariants : Obligations.ResetMeetsInvariants :=
  ⟨rfl, Nat.zero_le _, oneEngaged_resetWith ..⟩

/-- Settles O1. -/
theorem stepRunsFrontCommand : Obligations.StepRunsFrontCommand :=
  ⟨fun c rest s h => by rw [step, h], fun s h => by rw [step, h]⟩

end Sys2Proof.Machine
end

