-- ==== Sys2Proof/Proofs/Frame.lean ====
section
/-! What only some commands change, and the FAULTED part that stands still. -/

namespace Sys2Proof.Machine

variable {c : Instr} {s b t : State}

/-! ### What a command changes where it sets out -/

theorem Origin.pending (h : Origin s c b) : b.pending = s.pending := by cases h <;> rfl

theorem Origin.readData (h : Origin s c b) (hc : c ≠ .noticeRead) : b.readData = s.readData := by
  cases h with
  | noticeEmpty | noticeTaken => exact absurd rfl hc
  | _ => rfl

/-- The end of a write puts the bytes of the request in progress in memory. -/
theorem Origin.mem_of_endsWrite {k : RequestKind} {r : Request} (h : Origin s c b) (hc : c.endsWrite = some k)
    (hr : s.inProgress k r) : b.mem = s.mem.store r.address.toNat r.data := by
  cases h with
  | own _ hw _ => exact absurd hr (hw k hc r)
  | write _ k' r' _ hr' => obtain rfl := Option.some.inj (hr.1.symm.trans hr'.1); rfl
  | applied r' hr' => obtain rfl := Option.some.inj (hr.1.symm.trans hr'.1); rfl
  | _ => cases hc

/-- A failed request is in memory as far as its operand says. -/
theorem Origin.mem_of_busError {cut : Cut} {r : Request} (h : Origin s (.busError cut) b) (hr : s.mp.current = some r) :
    b.mem = r.land cut s.mem := by
  cases h with
  | own _ _ hb => rw [hb cut rfl] at hr; cases hr
  | write _ k' r' hc _ => cases hc
  | failed _ r' hr' => obtain rfl := Option.some.inj (hr.symm.trans hr'); rfl
  | portFault _ r' _ hr' => obtain rfl := Option.some.inj (hr.symm.trans hr'); rfl

section
variable (h : Origin s c b) (hreset : ∀ cut, c ≠ .powerOnReset cut ∧ c ≠ .deviceReset cut)
include h hreset

theorem Origin.mem (hb : ∀ cut, c ≠ .busError cut) (hw : c.endsWrite = none) : b.mem = s.mem := by
  cases h with
  | powerOnReset cut => exact absurd rfl (hreset cut).1
  | deviceReset cut => exact absurd rfl (hreset cut).2
  | write _ k r hc _ => rw [hc] at hw; cases hw
  | applied => cases hw
  | failed cut => exact absurd rfl (hb cut)
  | portFault cut => exact absurd rfl (hb cut)
  | _ => rfl

theorem Origin.itElapsed (hc : c ≠ .millisecondExpiry) : b.itElapsed = s.itElapsed := by
  cases h with
  | powerOnReset cut => exact absurd rfl (hreset cut).1
  | deviceReset cut => exact absurd rfl (hreset cut).2
  | expiry => exact absurd rfl hc
  | _ => rfl

theorem Origin.nu (hc : c ≠ .noticeRead) : b.nu = s.nu := by
  cases h with
  | powerOnReset cut => exact absurd rfl (hreset cut).1
  | deviceReset cut => exact absurd rfl (hreset cut).2
  | noticeEmpty | noticeTaken => exact absurd rfl hc
  | _ => rfl

theorem Origin.noticeEn_eq (hc : ∀ v, c ≠ .noticeEn v) : b.rw.noticeEn = s.rw.noticeEn := by
  cases h with
  | powerOnReset cut => exact absurd rfl (hreset cut).1
  | deviceReset cut => exact absurd rfl (hreset cut).2
  | noticeEn v => exact absurd rfl (hc v)
  | _ => rfl

theorem Origin.faultEn_eq (hc : ∀ v, c ≠ .faultEn v) : b.rw.faultEn = s.rw.faultEn := by
  cases h with
  | powerOnReset cut => exact absurd rfl (hreset cut).1
  | deviceReset cut => exact absurd rfl (hreset cut).2
  | faultEn v => exact absurd rfl (hc v)
  | _ => rfl

theorem Origin.dirbase (hc : ∀ w, c ≠ .dirbaseWrite w) : b.rw.dirbase = s.rw.dirbase := by
  cases h with
  | powerOnReset cut => exact absurd rfl (hreset cut).1
  | deviceReset cut => exact absurd rfl (hreset cut).2
  | dirbaseWrite w => exact absurd rfl (hc w)
  | _ => rfl

/-- The host's write alone clears the stickies. -/
theorem Origin.stickies_kept (hc : ∀ w, c ≠ .statusWriteClear w) : (s.rw.attnLost = true → b.rw.attnLost = true)
    ∧ (s.rw.attnBad = true → b.rw.attnBad = true) ∧ (s.rw.headerFault = true → b.rw.headerFault = true) := by
  cases h with
  | powerOnReset cut => exact absurd rfl (hreset cut).1
  | deviceReset cut => exact absurd rfl (hreset cut).2
  | statusWriteClear w => exact absurd rfl (hc w)
  | attentionBad w => exact ⟨id, fun _ => rfl, id⟩
  | attentionLost w => exact ⟨fun _ => rfl, id, id⟩
  | _ => exact ⟨id, id, id⟩

/-- An ATTENTION write alone sets its stickies. -/
theorem Origin.stickies_set (hc : ∀ w, c ≠ .attentionWrite w) : (b.rw.attnLost = true → s.rw.attnLost = true)
    ∧ (b.rw.attnBad = true → s.rw.attnBad = true) := by
  cases h with
  | powerOnReset cut => exact absurd rfl (hreset cut).1
  | deviceReset cut => exact absurd rfl (hreset cut).2
  | statusWriteClear w f hf => exact hf s.rw
  | attentionBad w => exact absurd rfl (hc w)
  | attentionLost w => exact absurd rfl (hc w)
  | _ => exact ⟨id, id⟩

theorem Origin.portFault_kept (hs : s.rw.portFault = true) : b.rw.portFault = true := by
  cases h with
  | powerOnReset cut => exact absurd rfl (hreset cut).1
  | deviceReset cut => exact absurd rfl (hreset cut).2
  | portFault => rfl
  | _ => exact hs

theorem Origin.latched (hc : ∀ d, c ≠ .headerRead d) : b.latched = s.latched := by
  cases h with
  | powerOnReset cut => exact absurd rfl (hreset cut).1
  | deviceReset cut => exact absurd rfl (hreset cut).2
  | header d => exact absurd rfl (hc d)
  | _ => rfl

theorem Origin.au (hc : ∀ w, c ≠ .attentionWrite w) :
    b.au = s.au ∨ (c = .statusWrite ∧ b.au = s.au.tail) := by
  cases h with
  | powerOnReset cut => exact absurd rfl (hreset cut).1
  | deviceReset cut => exact absurd rfl (hreset cut).2
  | attentionJoins w => exact absurd rfl (hc w)
  | applied => exact .inr ⟨rfl, rfl⟩
  | _ => exact .inl rfl

end

/-! ### The end of a request that is not in progress -/

/-- It has no effect (R176). -/
theorem exec_of_not_inProgress {k : RequestKind} (hc : c.endsWrite = some k ∨ c.endsRead = some k)
    (hr : ∀ r, ¬s.inProgress k r) : exec c s = .next s := by
  have hother : ∀ go, s.whenDone k go = .next s := fun go =>
    State.whenDone_of_other fun r h1 h2 => hr r ⟨h1, h2⟩
  cases c <;> simp only [Instr.endsWrite, Instr.endsRead, Option.some.injEq, reduceCtorEq, or_false, false_or] at hc <;>
    subst hc <;>
    simp only [exec, execHeaderRead, execConfigurationRead, execChainHeadRead, execLinkRead, execBlockRead, execPutRead,
      execTakenWrite, execResultWrite, execDoneWrite, execStatusWrite, execDrain, execSlotWrite, State.whenRead, hother]

theorem busError_of_none {cut : Cut} (h : s.mp.current = none) : exec (.busError cut) s = .next s := by
  change execBusError cut s = _
  rw [execBusError, h]

/-- Settles O55: each part is kept by all operations, and where it sets out a command changes only its own. -/
theorem everyCommandKeepsTheRest : Obligations.EveryCommandKeepsTheRest := by
  intro c s t h
  obtain ⟨b, hb, hrun⟩ := exec_reaches h
  obtain ⟨hpending, hread, hmem, helapsed, hlatched, hau, hposition, hnotice, hfault, hdirbase, hlost, hbad, hport⟩ :=
    hrun.kept.fields
  refine ⟨hpending.trans hb.pending, fun hc => hread.trans (hb.readData hc),
    fun hreset => ⟨fun hbus hw => ?_, ?_, ?_, ?_,
    fun hc => helapsed.trans (hb.itElapsed hreset hc), fun hc => ⟨?_, fun n hn => ?_⟩,
    fun hc => hnotice.trans (hb.noticeEn_eq hreset hc), fun hc => hfault.trans (hb.faultEn_eq hreset hc),
    fun hc => hdirbase.trans (hb.dirbase hreset hc), fun hc => ?_, fun hc => ?_,
    fun hs => hport.trans (hb.portFault_kept hreset hs), fun hc => hlatched.trans (hb.latched hreset hc),
    fun hc hstatus => ?_, fun hc => ?_⟩⟩
  · refine hmem.trans (hb.mem hreset hbus ?_)
    unfold Instr.endsWrite
    split
    iterate 6
      · simp at hw
    · rfl
  · rintro cut rfl
    exact ⟨fun hnone => (Host.Outcome.next.inj ((busError_of_none hnone).symm.trans h)).symm,
      fun r hr => hmem.trans (hb.mem_of_busError hr)⟩
  · intro k hk
    have hends : c.endsWrite = some k := by
      simp only [List.mem_cons, Prod.mk.injEq, List.not_mem_nil, or_false] at hk
      obtain ⟨rfl, rfl⟩ | ⟨rfl, rfl⟩ | ⟨rfl, rfl⟩ | ⟨rfl, rfl⟩ | ⟨rfl, rfl⟩ | ⟨rfl, rfl⟩ := hk <;> rfl
    exact ⟨fun r hr => hmem.trans (hb.mem_of_endsWrite hends hr),
      fun hr => (Host.Outcome.next.inj ((exec_of_not_inProgress (.inl hends) hr).symm.trans h)).symm⟩
  · intro d k hk hr
    have hends : c.endsRead = some k := by
      simp only [List.mem_cons, Prod.mk.injEq, List.not_mem_nil, or_false] at hk
      obtain ⟨rfl, rfl⟩ | ⟨rfl, rfl⟩ | ⟨rfl, rfl⟩ | ⟨rfl, rfl⟩ | ⟨rfl, rfl⟩ | ⟨rfl, rfl⟩ | ⟨rfl, rfl⟩ := hk <;> rfl
    exact (Host.Outcome.next.inj ((exec_of_not_inProgress (.inr hends) hr).symm.trans h)).symm
  · rw [hposition, hb.nu hreset hc]
  · exact hrun.kept.flags n (by rw [hb.nu hreset hc]; exact hn)
  · obtain ⟨h1, h2, h3⟩ := hb.stickies_kept hreset hc
    exact ⟨fun hs => hlost.trans (h1 hs), fun hs => hbad.trans (h2 hs), fun hs => hrun.kept.sticky (h3 hs)⟩
  · obtain ⟨h1, h2⟩ := hb.stickies_set hreset hc
    exact ⟨fun ht => h1 (hlost.symm.trans ht), fun ht => h2 (hbad.symm.trans ht)⟩
  · obtain hsame | ⟨hs, -⟩ := hb.au hreset hc
    · exact hau.trans hsame
    · exact absurd hs hstatus
  · subst hc
    exact (hb.au hreset (by nofun)).imp hau.trans fun hs => hau.trans hs.2

/-! ### A FAULTED part -/

namespace State

theorem serveMemory_of_faulted (h : s.rw.part = .faulted) : s.serveMemory = s := by rw [serveMemory, if_pos h]

theorem settle_of_faulted (h : s.rw.part = .faulted) : s.settle = s := by rw [settle, if_pos h]

/-- The staging buffer is the packet's only while LP sends an ORDER or PUT. -/
theorem sendsStaging_iff : s.sendsStaging = true ↔
    s.lp.state = .sending ∧ ∃ p, s.lp.send = some p ∧ (p.kind = .order ∨ p.kind = .put) := by
  simp only [sendsStaging, Bool.and_eq_true, beq_iff_eq]
  refine and_congr_right fun _ => ?_
  cases s.lp.send with
  | none => simp
  | some p => simp [Send.staged]

theorem sendsStaging_of_not_sending (h : s.lp.state ≠ .sending) : s.sendsStaging = false := by
  simp [sendsStaging, h]

end State

/-- `r` with the controls and stickies of `r₀` that the host writes. -/
def RegisterWindow.withHostPart (r₀ r : RegisterWindow) : RegisterWindow :=
  { r with
    run := r₀.run, noticeEn := r₀.noticeEn, faultEn := r₀.faultEn
    attnLost := r₀.attnLost, attnBad := r₀.attnBad, headerFault := r₀.headerFault }

/-- What a command may do in a FAULTED part at rest: the host's own writes and takes, or nothing, or LP's end of the
packet or break it drives. -/
inductive StandsStill (s : State) : State → Prop
  | host (rw : RegisterWindow) (au : List Entry) (nu : NoticeUnit) (w : Word)
      (h : s.rw.withHostPart rw = s.rw) :
      StandsStill s { s with rw := rw, au := au, nu := nu, readData := w }
  | driven : StandsStill s { s with lp := .reset, xe := { s.xe with staging := [] } }

namespace StandsStill

theorem refl (s : State) : StandsStill s s := .host s.rw s.au s.nu s.readData rfl

theorem of_next (h : (.next s : Answer) = .next t) : StandsStill s t := Host.Outcome.next.inj h ▸ .refl s

end StandsStill

/-- A host access to the register window alone. -/
theorem standsStill_modRw {f : RegisterWindow → RegisterWindow}
    (hf : s.rw.withHostPart (f s.rw) = s.rw) : StandsStill s (s.modRw f) :=
  .host (f s.rw) s.au s.nu s.readData hf

theorem attentionWrite_standsStill {w : Word} (h : execAttentionWrite w s = .next t) : StandsStill s t := by
  unfold execAttentionWrite at h
  split at h
  · obtain rfl := Host.Outcome.next.inj h
    exact standsStill_modRw rfl
  · split at h <;> obtain rfl := Host.Outcome.next.inj h
    · exact .host s.rw _ s.nu s.readData rfl
    · exact standsStill_modRw rfl

theorem noticeRead_standsStill (h : execNoticeRead s = .next t) : StandsStill s t := by
  unfold execNoticeRead at h
  split at h <;> obtain rfl := Host.Outcome.next.inj h
  · exact .host s.rw s.au s.nu _ rfl
  · exact .host s.rw s.au _ _ rfl

section
variable (hs : s.faultedAtRest)
include hs

theorem faulted_current_none : s.mp.current = none := by
  obtain ⟨-, hmp, -⟩ := hs
  simp [MemoryPort.current, hmp]

/-- No entry is taken in a FAULTED part. -/
theorem takeHead_of_faulted {a : Action} {f : Stn → State → State} (h : s.takeHead a f = .next t) : t = s := by
  obtain ⟨n, rest, -, ⟨hm, -⟩ | ⟨-, rfl⟩⟩ := State.takeHead_next h
  · simp [State.mayApply, hs.1] at hm
  · rfl

theorem timerRuns_of_faulted : s.timerRuns = false := by simp [State.timerRuns, hs.1]

/-- LP's state once the part is FAULTED and at rest. -/
theorem faulted_lp_state : s.lp.state ≠ .awaiting ∧ s.lp.state ≠ .receiving ∧ s.lp.state ≠ .settling
    ∧ (s.lp.state = .idle → s.lp.send = none) := by
  obtain ⟨-, -, -, ⟨h, hsend⟩ | h | h, -⟩ := hs <;> simp_all

theorem lineQuiet_of_faulted (h : execLineQuiet s = .next t) : StandsStill s t := by
  obtain ⟨-, hrec, -, hidle⟩ := faulted_lp_state hs
  unfold execLineQuiet at h
  split at h
  · next h1 h2 => rw [hidle h1] at h2; cases h2
  · next h1 => exact absurd h1 hrec
  · exact .of_next h

theorem lineBusyLimit_of_faulted (h : execLineBusyLimit s = .next t) : StandsStill s t := by
  obtain ⟨-, -, -, hidle⟩ := faulted_lp_state hs
  unfold execLineBusyLimit at h
  split at h
  · next h1 h2 => rw [hidle h1] at h2; cases h2
  · exact .of_next h

theorem packetSent_of_faulted (h : execPacketSent s = .next t) : StandsStill s t := by
  unfold execPacketSent at h
  split at h
  · rw [if_pos hs.1] at h
    obtain rfl := Host.Outcome.next.inj h
    exact .driven
  · exact .of_next h

theorem startDelimiter_of_faulted (h : execStartDelimiter s = .next t) : StandsStill s t := by
  obtain ⟨hawait, -⟩ := faulted_lp_state hs
  unfold execStartDelimiter at h
  split at h
  · next h1 => exact absurd h1 hawait
  all_goals exact .of_next h

theorem responseTimeout_of_faulted {quiet : Bool} (h : execResponseTimeout quiet s = .next t) : StandsStill s t := by
  obtain ⟨hawait, -⟩ := faulted_lp_state hs
  unfold execResponseTimeout at h
  split at h
  · next h1 => exact absurd h1 hawait
  · exact .of_next h

theorem receptionEnd_of_faulted {r : Reception} {quiet : Bool} (h : execReceptionEnd r quiet s = .next t) :
    StandsStill s t := by
  obtain ⟨-, hrec, -⟩ := faulted_lp_state hs
  unfold execReceptionEnd at h
  rw [if_neg (fun h => hrec h.1)] at h
  exact .of_next h

theorem framingError_of_faulted (h : execFramingError s = .next t) : StandsStill s t := by
  obtain ⟨-, hrec, -⟩ := faulted_lp_state hs
  rw [execFramingError, if_neg hrec] at h
  exact .of_next h

theorem breakEnd_of_faulted (h : execBreakEnd s = .next t) : StandsStill s t := by
  obtain ⟨hpart, -, -, -, hstaging⟩ := hs
  unfold execBreakEnd at h
  split at h
  · next hbreak =>
    have hempty := hstaging (State.sendsStaging_of_not_sending (by simp [hbreak]))
    obtain rfl := Host.Outcome.next.inj h
    have hdriven := StandsStill.driven (s := s)
    rw [← hempty] at hdriven
    simpa [State.modLp, hpart] using hdriven
  · exact .of_next h

theorem settlingEnd_of_faulted (h : execSettlingEnd s = .next t) : StandsStill s t := by
  obtain ⟨-, -, hsettling, -⟩ := faulted_lp_state hs
  unfold execSettlingEnd at h
  split at h
  · next h1 => exact absurd h1 hsettling
  · exact .of_next h

theorem holdDelayExpiry_of_faulted {n : Stn} (h : execHoldDelayExpiry n s = .next t) : StandsStill s t := by
  unfold execHoldDelayExpiry at h
  split at h
  · cases h
  · rw [if_pos (timerRuns_of_faulted hs)] at h
    exact .of_next h

theorem rereadExpiry_of_faulted {n : Stn} (h : execRereadExpiry n s = .next t) : StandsStill s t := by
  unfold execRereadExpiry at h
  split at h
  · cases h
  · rw [if_pos (timerRuns_of_faulted hs)] at h
    exact .of_next h

theorem intervalEnd_of_faulted {n : Stn} (h : execIntervalEnd n s = .next t) : StandsStill s t := by
  unfold execIntervalEnd at h
  split at h
  · cases h
  · split at h
    · cases h
    · rw [if_pos hs.1] at h
      exact .of_next h

/-- In a FAULTED part at rest every command but a reset leaves all but the host's part and LP's end as it stood. -/
theorem standsStill_of_faulted (hreset : ∀ cut, c ≠ .powerOnReset cut ∧ c ≠ .deviceReset cut)
    (h : exec c s = .next t) : StandsStill s t := by
  have hend : ∀ {k}, c.endsWrite = some k ∨ c.endsRead = some k → StandsStill s t := fun hk =>
    .of_next ((exec_of_not_inProgress hk fun r hr => by
      rw [State.inProgress, faulted_current_none hs] at hr; exact nomatch hr.1).symm.trans h)
  have hhead : ∀ {a f}, s.takeHead a f = .next t → StandsStill s t := fun h => takeHead_of_faulted hs h ▸ .refl s
  cases c with
  | powerOnReset cut => exact absurd rfl (hreset cut).1
  | deviceReset cut => exact absurd rfl (hreset cut).2
  | runStart =>
    change execRunStart s = _ at h
    simp only [execRunStart, hs.1, reduceCtorEq, if_false] at h
    exact Host.Outcome.next.inj h ▸ standsStill_modRw rfl
  | runStop =>
    change execRunStop s = _ at h
    simp only [execRunStop, hs.1, reduceCtorEq, if_false] at h
    exact Host.Outcome.next.inj h ▸ standsStill_modRw rfl
  | linkRestart =>
    change execLinkRestart s = _ at h
    simp only [execLinkRestart, hs.1] at h
    exact .of_next h
  | noticeEn v => exact Host.Outcome.next.inj h ▸ standsStill_modRw rfl
  | faultEn v => exact Host.Outcome.next.inj h ▸ standsStill_modRw rfl
  | statusWriteClear w => exact Host.Outcome.next.inj h ▸ standsStill_modRw rfl
  | dirbaseWrite w =>
    change execDirbaseWrite w s = _ at h
    rw [execDirbaseWrite, if_neg (by simp [hs.1])] at h
    exact .of_next h
  | attentionWrite w => exact attentionWrite_standsStill h
  | noticeRead => exact noticeRead_standsStill h
  | registerWriteIgnored offset enables w => exact .of_next h
  | bringUp | wake | pause | resume | withdraw | revive | takeDown => exact hhead h
  | headerRead data | configurationRead data | chainHeadRead data | linkRead data | blockRead data
  | putRead data quiet => exact hend (.inr rfl)
  | takenWrite | resultWrite | doneWrite | statusWrite | drain | slotWrite => exact hend (.inl rfl)
  | busError cut => exact .of_next ((busError_of_none (faulted_current_none hs)).symm.trans h)
  | grant quiet =>
    change execGrant quiet s = _ at h
    rw [execGrant, if_neg (by simp [State.grantOpen, hs.1])] at h
    exact .of_next h
  | lineQuiet => exact lineQuiet_of_faulted hs h
  | lineBusyLimit => exact lineBusyLimit_of_faulted hs h
  | packetSent => exact packetSent_of_faulted hs h
  | startDelimiter => exact startDelimiter_of_faulted hs h
  | responseTimeout quiet => exact responseTimeout_of_faulted hs h
  | receptionEnd r quiet => exact receptionEnd_of_faulted hs h
  | millisecondExpiry =>
    change execMillisecondExpiry s = _ at h
    rw [execMillisecondExpiry, if_pos (timerRuns_of_faulted hs)] at h
    cases h
  | holdDelayExpiry n => exact holdDelayExpiry_of_faulted hs h
  | rereadExpiry n => exact rereadExpiry_of_faulted hs h
  | intervalEnd n => exact intervalEnd_of_faulted hs h
  | restartBreak =>
    change execRestartBreak s = _ at h
    obtain ⟨-, -, hrequest, -⟩ := hs
    rw [execRestartBreak, if_pos (.inl hrequest)] at h
    exact .of_next h
  | breakEnd => exact breakEnd_of_faulted hs h
  | settlingEnd => exact settlingEnd_of_faulted hs h
  | framingError => exact framingError_of_faulted hs h

end

/-- Settles O60: whatever a command does in a FAULTED part at rest is the host's own, or LP's end of what it drives. -/
theorem faultedPartStandsStill : Obligations.FaultedPartStandsStill := by
  intro c s t hs hreset h
  obtain ⟨hpart, hmp, hrequest, hlp, hstaging⟩ := hs
  cases standsStill_of_faulted ⟨hpart, hmp, hrequest, hlp, hstaging⟩ hreset h with
  | host rw au nu w hrw =>
    have hpart' : rw.part = s.rw.part := congrArg (·.part) hrw
    have hrequest' : rw.restartRequest = s.rw.restartRequest := congrArg (·.restartRequest) hrw
    refine ⟨⟨hpart'.trans hpart, hmp, hrequest'.trans hrequest, hlp, hstaging⟩, ?_, rfl, .inl ⟨rfl, rfl⟩⟩
    exact congrArg (fun r : RegisterWindow => { s with rw := r }) hrw
  | driven => exact ⟨⟨hpart, hmp, hrequest, .inl ⟨rfl, rfl⟩, fun _ => rfl⟩, rfl, rfl, .inr ⟨rfl, rfl⟩⟩

end Sys2Proof.Machine
end

