-- ==== Sys2Proof/Proofs/Contexts.lean ====
section
/-! What SM's shared operations make of a station context that was just changed: each is one change of the context
and the request it asks for. -/

namespace Sys2Proof.Machine

namespace State

variable {s : State} {n : Stn} {f : Station → Station}

@[simp] theorem setStage_modSt (g : Stage) : (s.modSt n f).setStage n g =
    s.modSt n fun st => { f st with op := (f st).op.map fun o => { o with stage := g } } := by
  rw [setStage, modOp, modSt_modSt]

@[simp] theorem modOp_modSt (g : Operation → Operation) : (s.modSt n f).modOp n g =
    s.modSt n fun st => { f st with op := (f st).op.map g } := modSt_modSt ..

@[simp] theorem enterState_modSt (new : StationState) : (s.modSt n f).enterState n new =
    s.modSt n fun st => (f st).enter new s.header.holdDelay := modSt_modSt ..

@[simp] theorem endOp_modSt : (s.modSt n f).endOp n = s.modSt n fun st => { f st with op := none } := modSt_modSt ..

/-- An operation that begins remembers the context as it stands (R16). -/
theorem startOp_eq (job : Job) (g : Stage) : s.startOp n job g =
    s.modSt n fun st => { st with op := some ⟨job, g, st.parked, false, false, st.snapshot⟩ } := rfl

/-- The last step of an application, after a change of the context (R55). -/
theorem finalApplication_modSt (result : AttentionResult) : (s.modSt n f).finalApplication n result =
    (s.modSt n fun st =>
      { f st with
        lastResult := result
        op := (f st).op.map fun o => { o with stage := .final } }).askStatus n := by
  rw [finalApplication, modSt_modSt, setStage_modSt]

/-- An application that ends in its first step is concluded with what it made of the context. -/
theorem finalApplication_eq_concluded {g : Station → Station} (result : AttentionResult)
    (h : ∀ st, (fun st => { f st with op := (f st).op.map fun o => { o with stage := .final } }) st
      = { g st with op := some ⟨.application, .final, st.parked, false, false, st.snapshot⟩ }) :
    (s.modSt n f).finalApplication n result = s.concluded n result g := by
  rw [finalApplication_modSt, concluded]
  exact congrArg (askStatus n) (modSt_congr _ _ (congrArg (fun st => { st with lastResult := result }) (h (s.st n))))

/-- The next candidate is asked for after the operation's predecessor (R9, R10). -/
theorem obtain_modSt {o : Operation} (h : (f (s.st n)).op = some o) : (s.modSt n f).obtain n =
    (s.modSt n fun st => { f st with op := some { o with stage := .candidate } }).asksCandidate n o.predecessor := by
  have hstage : (s.modSt n f).setStage n .candidate
      = s.modSt n fun st => { f st with op := some { o with stage := .candidate } } := by
    rw [setStage_modSt]
    exact modSt_congr _ _ (by simp [h])
  unfold obtain
  rw [st_modSt_self, h]
  simp only [hstage]
  cases o.predecessor <;> rfl

/-- Step 1 of a retirement of the in-flight block, after a change of the context (R20, R8). -/
theorem retireInFlight_modSt {p : InFlight} (h : (f (s.st n)).inFlight = some p) (c : Condition) (residue : Nat)
    (report : List Byte) (after : After) : (s.modSt n f).retireInFlight n c residue report after =
      (s.modSt n fun st => { f st with op := (f st).op.map fun o => { o with
        stage := .result ⟨p.address, true, p.host.notify, p.host.haltOnError, c, after⟩ } }).askSm .resultWrite (some n)
          (p.address + 0x40#32) 48
          (resultSection c p.phase p.attempts p.holds p.moved p.host.dataLength residue (f (s.st n)).retireCount
            report) := by
  unfold retireInFlight
  rw [st_modSt_self, h]
  simp only [beginRetirement, setStage_modSt]
  rfl

/-- A following begins: from the parked tail, or from the chain head (R9, R10). -/
theorem follow_eq (job : Job) : s.follow n job = (s.modSt n fun st =>
    { st with
      op := some ⟨job, .candidate, st.parked, false, false, st.snapshot⟩
      restartFollow := false, rereadOwed := false }).asksCandidate n (s.st n).parked := by
  rw [follow, startOp_eq, modSt_modSt, obtain_modSt rfl]
  exact congrArg (asksCandidate n _) (modSt_congr _ _ rfl)

/-- A following begun where an application was begun is one operation. -/
theorem follow_startOp (job job' : Job) (g : Stage) : (s.startOp n job g).follow n job' = s.follow n job' := by
  rw [follow, follow, startOp_eq, startOp_eq, startOp_eq, modSt_modSt, modSt_modSt, modSt_modSt]
  exact congrArg (obtain n) (modSt_congr _ _ rfl)

/-- A request asked for leaves every context alone. -/
@[simp] theorem askSm_st (k : RequestKind) (p : Option Stn) (a : Addr) (l : Nat) (d : List Byte) (m : Stn) :
    (s.askSm k p a l d).st m = s.st m := rfl

@[simp] theorem setNotice_st (n m : Stn) : (s.setNotice n).st m = s.st m := rfl

@[simp] theorem asksCandidate_st (p : Option Addr) (m : Stn) : (s.asksCandidate n p).st m = s.st m := by
  unfold asksCandidate
  split <;> rfl

/-- A status half asked for is remembered as the last one written, and moves no operation. -/
@[simp] theorem askStatus_op (m : Stn) : ((s.askStatus n).st m).op = (s.st m).op := by
  rw [askStatus, st_modSt]
  split
  · next h => rw [h]; rfl
  · rfl

@[simp] theorem startOp_st (job : Job) (g : Stage) : (s.startOp n job g).st n =
    { s.st n with op := some ⟨job, g, (s.st n).parked, false, false, (s.st n).snapshot⟩ } := st_modSt_self ..

end State

/-- Settles O18. -/
theorem followingBegins : Obligations.FollowingBegins := fun _ _ _ => State.follow_eq _

end Sys2Proof.Machine
end

