-- ==== Sys2Proof/Proofs/Attention.lean ====
section
/-! The seven actions: when the head entry is taken, and what each makes of its station's context (chapter 3). -/

namespace Sys2Proof.Machine

variable {s : State} {n : Stn} {rest : List Entry}

/-! ### The head entry -/

/-- What each action does with its station, once its application has begun. -/
def Action.apply : Action → Stn → State → State
  | .bringUp => State.applyBringUp
  | .wake => State.applyWake
  | .pause => State.applyPause
  | .resume => State.applyResume
  | .withdraw => State.applyWithdraw
  | .revive => State.applyRevive
  | .takeDown => State.applyTakeDown

theorem exec_command (a : Action) (s : State) : exec a.command s = s.takeHead a a.apply := by cases a <;> rfl

/-- An entry that may be taken is applied. -/
theorem exec_command_of {a : Action} (h : s.headReady n a rest) :
    exec a.command s = .next (a.apply n (s.startOp n .application .final)).serveMemory := by
  rw [exec_command, State.takeHead_of h]

theorem mayApply_iff (s : State) (n : Stn) : s.mayApply n = true ↔
    s.rw.part = .running ∧ (s.st n).op = none ∧ (s.st n).state ≠ .engaged ∧ s.restartBusy = false
      ∧ ¬(s.rw.restartRequest = true ∧ (s.rw.restartHolds = true ∨ s.xe.turn = none)) := by
  simp only [State.mayApply, State.hasOp, State.restartAwaited, Bool.and_eq_true, beq_iff_eq, Bool.not_eq_true',
    bne_iff_ne, Option.not_isSome_iff_eq_none, Option.isNone_iff_eq_none, ← Bool.not_eq_true, Bool.or_eq_true,
    and_assoc]

theorem headEntryWaits : Clauses.HeadEntryWaits := by
  intro s n a rest
  refine ⟨mayApply_iff s n, fun hau hm => ?_, fun hau b hb => ?_, fun hau b => ?_⟩
  · simp [exec_command, State.takeHead, hau, hm]
  · simp [exec_command, State.takeHead, hau, Ne.symm hb]
  · simp [exec_command, State.takeHead, hau]

/-! ### Refused entries -/

/-- The application has begun, and nothing else has changed. -/
theorem concluded_at_once (result : AttentionResult) :
    (s.startOp n .application .final).finalApplication n result = s.concluded n result id :=
  State.finalApplication_eq_concluded result fun _ => rfl

theorem apply_of_refusedIn {a : Action} (h : (s.st n).state ∈ a.refusedIn) :
    a.apply n (s.startOp n .application .final) = s.concluded n .refused id := by
  rw [← concluded_at_once]
  cases a <;> simp only [Action.refusedIn, List.mem_cons, List.not_mem_nil, or_false] at h
  case bringUp =>
    simp only [Action.apply, State.applyBringUp, State.startOp_st]
    rw [if_neg (by rintro h'; simp [h'] at h)]
    rfl
  case wake => obtain h | h := h <;> simp [Action.apply, State.applyWake, h, State.refuseEntry]
  case pause => obtain h | h | h := h <;> simp [Action.apply, State.applyPause, h, State.refuseEntry]
  case resume => obtain h | h | h | h | h := h <;> simp [Action.apply, State.applyResume, h, State.refuseEntry]
  case withdraw => simp [Action.apply, State.applyWithdraw, h, State.refuseEntry]
  case revive =>
    simp only [Action.apply, State.applyRevive, State.startOp_st]
    rw [if_neg (by rintro h'; simp [h'] at h)]
    rfl
  case takeDown => simp [Action.apply, State.applyTakeDown, h, State.refuseEntry]

theorem refusedEntryChangesResultOnly : Clauses.RefusedEntryChangesResultOnly := fun _ _ _ _ h hstate => by
  rw [exec_command_of h, apply_of_refusedIn hstate]

/-- Settles O15. -/
theorem entriesWaitOrAreRefused : Obligations.EntriesWaitOrAreRefused :=
  ⟨headEntryWaits, refusedEntryChangesResultOnly⟩

/-! ### WAKE, PAUSE, RESUME -/

theorem wakeApplied : Clauses.WakeApplied := by
  intro s n rest h
  refine ⟨fun hstate => ?_, fun hstate => ?_, refusedEntryChangesResultOnly s n .wake rest h⟩
  · rw [show Instr.wake = Action.wake.command from rfl, exec_command_of h]
    simp only [Action.apply, State.applyWake, State.startOp_st, hstate, State.follow_startOp]
  · rw [show Instr.wake = Action.wake.command from rfl, exec_command_of h]
    have hset : ((s.startOp n .application .final).modSt n fun st => { st with wakePending := true }).finalApplication n
        .applied = s.concluded n .applied fun st => { st with wakePending := true } := by
      rw [State.startOp_eq, State.modSt_modSt]
      exact State.finalApplication_eq_concluded _ fun _ => rfl
    simp only [List.mem_cons, List.not_mem_nil, or_false] at hstate
    obtain hstate | hstate | hstate | hstate := hstate <;>
      simp only [Action.apply, State.applyWake, State.startOp_st, hstate, hset]

/-- An application that enters a state which runs no countdown. -/
theorem concluded_enterState {new : StationState} (hidle : new ≠ .idle) (hholding : new ≠ .holding) :
    ((s.startOp n .application .final).enterState n new).finalApplication n .applied
      = s.concluded n .applied fun st => { st.withoutCountdowns with state := new } := by
  rw [State.startOp_eq, State.enterState_modSt]
  exact State.finalApplication_eq_concluded _ fun st => by
    simp [Station.enter, Station.withoutCountdowns, hidle, hholding]

theorem pauseApplied : Clauses.PauseApplied := by
  intro s n rest h
  refine ⟨fun hstate => ?_, fun hstate => ?_, refusedEntryChangesResultOnly s n .pause rest h⟩
  · rw [show Instr.pause = Action.pause.command from rfl, exec_command_of h,
      ← concluded_enterState (new := .paused) (by decide) (by decide)]
    simp only [List.mem_cons, List.not_mem_nil, or_false] at hstate
    obtain hstate | hstate | hstate := hstate <;> simp only [Action.apply, State.applyPause, State.startOp_st, hstate]
  · rw [show Instr.pause = Action.pause.command from rfl, exec_command_of h, ← concluded_at_once]
    simp only [Action.apply, State.applyPause, State.startOp_st, hstate]

theorem resumeApplied : Clauses.ResumeApplied := by
  intro s n rest h
  have hexec := exec_command_of h
  simp only [Action.apply, State.applyResume, State.startOp_st] at hexec
  refine ⟨fun hstate hwork => ?_, fun hstate hnone hresync => ?_, fun hstate => ?_,
    refusedEntryChangesResultOnly s n .resume rest h⟩
  all_goals refine hexec.trans ?_; simp only [hstate]
  · rw [if_pos (by simpa [Option.isSome_iff_ne_none] using hwork), concluded_enterState (by decide) (by decide)]
  · rw [if_neg (by simp [hnone, hresync]), State.follow_startOp]
  · rw [State.follow_startOp]

/-- Settles O16. -/
theorem wakePauseResumeApplied : Obligations.WakePauseResumeApplied := ⟨wakeApplied, pauseApplied, resumeApplied⟩

/-! ### REVIVE -/

/-- Settles O17: the route entry is judged apart from the context, which takes READY. -/
theorem reviveApplied : Obligations.ReviveApplied := by
  intro s n rest h hlost revived hrevived
  have hexec := exec_command_of h
  simp only [Action.apply, State.applyRevive, State.startOp_st, hlost, if_true] at hexec
  have hrevive : (((s.startOp n .application .final).modSt n fun st =>
      { st with lapses := 0, resyncPending := true }).enterState n .ready).finalApplication n .applied = revived := by
    rw [hrevived, State.startOp_eq, State.modSt_modSt, State.enterState_modSt]
    exact State.finalApplication_eq_concluded _ fun st => by simp [Station.enter, Station.withoutCountdowns]
  have hconfig : State.config ((s.startOp n .application .final).modSt n fun st =>
      { st with lapses := 0, resyncPending := true }) n = s.config n := by simp [State.config]
  refine ⟨fun hroute => hexec.trans ?_, fun b p hroute hfaulty => hexec.trans ?_,
    fun b p hroute hfaulty => hexec.trans ?_⟩
  · simp only [State.reviveRoute, hconfig, hroute, hrevive]
  · have hfaulty' : ¬ ((s.startOp n .application .final).modSt n fun st =>
        { st with lapses := 0, resyncPending := true }).route b = .faulty := hfaulty
    simp only [State.reviveRoute, hconfig, hroute, if_neg hfaulty', hrevive]
  · have hfaulty' : ((s.startOp n .application .final).modSt n fun st =>
        { st with lapses := 0, resyncPending := true }).route b = .faulty := hfaulty
    simp only [State.reviveRoute, hconfig, hroute, if_pos hfaulty']
    rw [← hrevive]
    rfl

/-! ### WITHDRAW and TAKE_DOWN -/

/-- Settles O19: an in-flight block is retired, and without one the walk begins. -/
theorem withdrawApplied : Obligations.WithdrawApplied := by
  intro s n rest h hstate
  have hexec := exec_command_of h
  simp only [Action.apply, State.applyWithdraw, State.startOp_eq, State.modSt_modSt, State.st_modSt_self, hstate,
    if_false] at hexec
  refine ⟨fun hnone => hexec.trans ?_, fun f hf => hexec.trans ?_⟩
  · simp only [Station.clearCountdowns, hnone, State.startWalk, State.modSt_modSt]
    rw [State.obtain_modSt rfl]
    exact congrArg (fun u => Host.Outcome.next (State.asksCandidate n _ u).serveMemory) (State.modSt_congr _ _ rfl)
  · simp only [Station.clearCountdowns, hf]
    split
    · next hphase =>
      rw [State.retireInFlight_modSt hf]
      exact congrArg (fun u => Host.Outcome.next (State.askSm _ _ _ _ _ u).serveMemory)
        (State.modSt_congr _ _ rfl)
    · next hphase =>
      rw [State.retireInFlight_modSt hf]
      exact congrArg (fun u => Host.Outcome.next (State.askSm _ _ _ _ _ u).serveMemory)
        (State.modSt_congr _ _ rfl)

/-- The watch interval of the cached configuration. -/
theorem config_watchInterval (s : State) (n : Stn) :
    ((s.st n).config.map (·.watchInterval)).getD 0 = (s.config n).watchInterval := by
  unfold State.config; cases (s.st n).config <;> rfl

/-- Steps 4 to 6 of R64, after a change of the context. -/
theorem endTakeDown_modSt {f : Station → Station} : (s.modSt n f).endTakeDown n =
    (s.modSt n fun st =>
      { takenDown (f st) with
        lastResult := .applied
        op := (f st).op.map fun o => { o with stage := .final } }).askStatus n := by
  rw [State.endTakeDown, State.modSt_modSt, State.enterState_modSt, State.finalApplication_modSt]
  exact congrArg (State.askStatus n) (State.modSt_congr _ _ (by
    simp [Station.enter, takenDown, Station.withoutCountdowns]))

/-- Step 3 of R64 for a watched station, after a change of the context. -/
theorem slotAtTakeDown_modSt {f : Station → Station} :
    (((((s.modSt n f).leaveDue n).modWatch n fun _ => .reset).askSlot n 0).setStage n .slotAtTakeDown)
      = ((((s.modSt n fun st =>
        { f st with op := (f st).op.map fun o => { o with stage := .slotAtTakeDown } }).leaveDue n).modWatch n
          fun _ => .reset).askSlot n 0) := by
  rw [← State.setStage_modSt]
  rfl

/-- Settles O20: the block in flight is retired first; a watch is stopped before the station is ABSENT. -/
theorem takeDownApplied : Obligations.TakeDownApplied := by
  intro s n rest h hstate
  have hexec := exec_command_of h
  simp only [Action.apply, State.applyTakeDown, State.startOp_eq, State.modSt_modSt, State.st_modSt_self, hstate,
    if_false] at hexec
  refine ⟨fun hnone hwatch => hexec.trans ?_, fun hnone hwatch => hexec.trans ?_, fun f hf => hexec.trans ?_⟩
  · simp only [Station.clearCountdowns, hnone, State.takeDownWatch, State.st_modSt_self, config_watchInterval, hwatch,
      if_true]
    rw [endTakeDown_modSt]
    exact congrArg (fun u => Host.Outcome.next (State.askStatus n u).serveMemory) (State.modSt_congr _ _ rfl)
  · simp only [Station.clearCountdowns, hnone, State.takeDownWatch, State.st_modSt_self, config_watchInterval, hwatch,
      if_false]
    rw [slotAtTakeDown_modSt]
    exact congrArg (fun u => Host.Outcome.next
      (State.askSlot n 0 (State.modWatch n (fun _ => .reset) (State.leaveDue n u))).serveMemory)
        (State.modSt_congr _ _ rfl)
  · simp only [Station.clearCountdowns, hf]
    rw [State.retireInFlight_modSt hf]
    exact congrArg (fun u => Host.Outcome.next (State.askSm _ _ _ _ _ u).serveMemory) (State.modSt_congr _ _ rfl)

end Sys2Proof.Machine
end

