-- ==== Sys2Proof/Proofs/BringUp.lean ====
section
/-! BRING_UP: the configuration read it asks for, what makes a configuration legal, and what a legal one sets up
(R31, R32, R56). -/

namespace Sys2Proof.Machine

variable {s : State} {n : Stn}

/-! ### What makes a configuration legal -/

theorem decodeRoute_eq_some_iff (d : List Byte) (k : Nat) (r : Route) : decodeRoute d k = some r ↔
    ((byteAt d 1).toNat = 0 ∧ r = .direct)
      ∨ ((byteAt d 1).toNat = 1 ∧ (byteAt d 2).toNat < k
        ∧ r = .branch (Fin.ofNat 8 (byteAt d 2).toNat) (Fin.ofNat 8 (byteAt d 3).toNat)) := by
  unfold decodeRoute
  split
  · next h => simp [h, eq_comm]
  · next h => by_cases hk : (byteAt d 2).toNat < k <;> simp [h, hk, eq_comm]
  · next h0 h1 => simp only [reduceCtorEq, false_iff]; rintro (⟨h, -⟩ | ⟨h, -, -⟩) <;> contradiction

theorem alignedTo_iff (a : Addr) (k : Nat) : alignedTo a k = true ↔ a.toNat % k = 0 := by simp [alignedTo]

theorem legal_iff (l : Latched) (c : StationConfig) (head : Addr) : c.legal l head = true ↔
    (1 ≤ c.linkAddress ∧ c.linkAddress ≤ 119) ∧ c.linkAddress ∉ l.branchAddresses.take l.branchCount
      ∧ c.maxPacketCode ≤ 4 ∧ (1 ≤ c.attemptLimit ∧ c.attemptLimit ≤ 15) ∧ c.watchInterval ≤ 4095
      ∧ (c.watchInterval ≠ 0 → 1 ≤ c.watchLength ∧ c.watchLength ≤ 8 ∧ l.watchPage ≠ 0#32)
      ∧ (head = 0#32 ∨ head.toNat % 128 = 0) := by
  simp only [StationConfig.legal, Latched.branchesInUse, Bool.and_eq_true, Bool.or_eq_true, decide_eq_true_eq,
    beq_iff_eq, bne_iff_ne, Bool.not_eq_true', List.contains_eq_mem, decide_eq_false_iff_not, alignedTo_iff, and_assoc,
    ne_eq, ← or_iff_not_imp_left]

theorem addressTaken_eq_false_iff (s : State) (n : Stn) (c : StationConfig) : s.addressTaken n c = false ↔
    ∀ m : Stn, m ≠ n → (s.st m).state ≠ .absent →
      ¬((s.config m).linkAddress = c.linkAddress ∧ (s.config m).route = c.route) := by
  simp only [State.addressTaken, List.any_eq_false, allStations, List.mem_finRange, true_implies, Bool.and_eq_true,
    bne_iff_ne, beq_iff_eq, not_and, and_imp]

/-- The cached fields are those of the half, and the route is the one decoded (R31). -/
theorem ofHalf_eq_iff (d : List Byte) (c : StationConfig) : StationConfig.ofHalf d c.route = c ↔
    c.linkAddress = (byteAt d 0).toNat ∧ c.maxPacketCode = (byteAt d 4).toNat
      ∧ c.attemptLimit = (byteAt d 5).toNat ∧ c.holdLimit = (byteAt d 6).toNat
      ∧ c.rereadInterval = (byteAt d 7).toNat ∧ c.watchInterval = leField d 8 2
      ∧ c.watchLength = (byteAt d 10).toNat ∧ c.watchNotify = (byteAt d 11).getLsbD 0 := by
  cases c
  simp only [StationConfig.ofHalf, StationConfig.mk.injEq, true_and]
  constructor <;> (rintro ⟨rfl, rfl, rfl, rfl, rfl, rfl, rfl, rfl⟩; simp)

theorem legalConfig_eq_some_iff (d : List Byte) (c : StationConfig) : s.legalConfig n d = some c ↔
    StationConfig.ofHalf d c.route = c ∧ decodeRoute d s.header.branchCount = some c.route
      ∧ c.legal s.header (leWord d 0x0C) = true ∧ s.addressTaken n c = false := by
  simp only [State.legalConfig, Option.bind_eq_some_iff, Option.ite_none_right_eq_some, Option.some.injEq,
    Bool.and_eq_true, Bool.not_eq_true']
  constructor
  · rintro ⟨r, hr, ⟨hlegal, htaken⟩, rfl⟩
    exact ⟨rfl, hr, hlegal, htaken⟩
  · rintro ⟨hc, hr, hlegal, htaken⟩
    exact ⟨c.route, hr, by rw [hc]; exact ⟨hlegal, htaken⟩, hc⟩

theorem configurationChecks : Clauses.ConfigurationChecks := by
  intro s n d c
  rw [legalConfig_eq_some_iff, ofHalf_eq_iff, decodeRoute_eq_some_iff, legal_iff, addressTaken_eq_false_iff]
  constructor
  · rintro ⟨hfields, hroute, ⟨haddress, hbranch, hcode, hattempt, hinterval, hwatch, hhead⟩, hother⟩
    exact ⟨hfields, haddress, hbranch, hroute, hother, hcode, hattempt, hinterval, hwatch, hhead⟩
  · rintro ⟨hfields, haddress, hbranch, hroute, hother, hcode, hattempt, hinterval, hwatch, hhead⟩
    exact ⟨hfields, hroute, ⟨haddress, hbranch, hcode, hattempt, hinterval, hwatch, hhead⟩, hother⟩

/-! ### What a configuration read does -/

theorem configurationRead_of {o : Operation} {r : Request} {data : List Byte} (hr : s.inProgress .configurationRead r)
    (hn : r.station = some n) (ho : s.working n o) (hstage : o.stage = .configuration) (hl : data.length = r.length) :
    exec (.configurationRead data) s = .next (s.afterRead.takeConfiguration n data).settle := by
  change execConfigurationRead data s = _
  rw [execConfigurationRead, State.whenRead_of hr.1 hr.2 rfl hl,
    State.whenOp_of hn (show (s.afterRead.st n).op = some o from ho),
    if_pos hstage]

/-- The context after steps 1 to 7 of R56, with the operation that goes on to the chain head. -/
def Station.broughtUp (c : StationConfig) (o : Operation) (st : Station) : Station :=
  { st.withoutCountdowns with
    config := some c, putParity := false, getParity := false, resyncPending := true, retireCount := 0#16
    lapses := 0, lastCondition := .clean, totalHolds := 0, totalFailed := 0, wakePending := false
    restartFollow := false, inFlight := none, parked := none, code := .clear
    op := some o }

/-- Without a watch interval the context alone is set up. -/
theorem setUp_unwatched {c : StationConfig} {o : Operation} (ho : s.working n o) (hw : c.watchInterval = 0) :
    ((s.setUp n c).setUpWatch n c).modOp n (fun o => { o with stage := .candidate, predecessor := none })
      = s.modSt n (Station.broughtUp c { o with stage := .candidate, predecessor := none }) := by
  rw [State.setUpWatch, if_pos hw, State.setUp, State.modOp_modSt]
  exact State.modSt_congr _ _ (by rw [show (s.st n).op = some o from ho]; rfl)

theorem modOp_modOp (g h : Operation → Operation) : (s.modOp n g).modOp n h = s.modOp n fun o => h (g o) := by
  unfold State.modOp
  rw [State.modSt_modSt]
  exact State.modSt_congr _ _ (by simp [Function.comp_def])

/-- With one the watch record is set up too, and its slot is asked for (R157, R166). -/
theorem setUp_watched {c : StationConfig} {o : Operation} (ho : s.working n o) (hw : c.watchInterval ≠ 0) :
    ((s.setUp n c).setUpWatch n c).modOp n (fun o => { o with stage := .candidate, predecessor := none })
      = ((((s.modSt n (Station.broughtUp c
        { o with stage := .candidate, predecessor := none, slotDue := true })).leaveDue n).modWatch n fun _ =>
          ⟨true, c.watchInterval, false, none, 0#32, 0, .nothing, false⟩).askSlot n c.watchLength) := by
  have hset : ((s.setUp n c).modOp n fun o => { o with slotDue := true, stage := .candidate, predecessor := none })
      = s.modSt n (Station.broughtUp c { o with stage := .candidate, predecessor := none, slotDue := true }) := by
    rw [State.setUp, State.modOp_modSt]
    exact State.modSt_congr _ _ (by rw [show (s.st n).op = some o from ho]; rfl)
  rw [State.setUpWatch, if_neg hw, modOp_modOp, ← hset]
  rfl

theorem takeConfiguration_of_legal {c : StationConfig} {data : List Byte} (h : s.legalConfig n data = some c) :
    s.takeConfiguration n data = (((s.setUp n c).setUpWatch n c).modOp n fun o =>
      { o with stage := .candidate, predecessor := none }).examineAddress n (leWord data 0x0C) := by
  rw [State.takeConfiguration, h]

theorem bringUpReadsAndSetsUp : Clauses.BringUpReadsAndSetsUp := by
  intro s n
  refine ⟨fun rest h hstate => ?_, fun o r data hr hn ho hstage hl => ?_⟩
  · refine (exec_command_of h).trans ?_
    simp only [Action.apply, State.applyBringUp, State.startOp_st, hstate, if_true]
    rw [State.startOp_eq, State.setStage_modSt]
    rfl
  · have hexec := configurationRead_of hr hn ho hstage hl
    have ho' : s.afterRead.working n o := ho
    refine ⟨fun hnone => hexec.trans ?_, fun c hc hw => hexec.trans ?_, fun c hc hw => hexec.trans ?_⟩
    · have hnone' : s.afterRead.legalConfig n data = none := hnone
      rw [State.takeConfiguration, hnone']
      simp only [State.finalApplication, State.setStage_modSt]
      exact congrArg (fun u => Host.Outcome.next (State.askStatus n u).settle)
        (State.modSt_congr _ _ (by rw [show (s.afterRead.st n).op = some o from ho]; rfl))
    · rw [takeConfiguration_of_legal (show s.afterRead.legalConfig n data = some c from hc), setUp_unwatched ho' hw]
      rfl
    · rw [takeConfiguration_of_legal (show s.afterRead.legalConfig n data = some c from hc), setUp_watched ho' hw]
      rfl

/-- Settles O21. -/
theorem bringUpReadsConfiguration : Obligations.BringUpReadsConfiguration :=
  ⟨bringUpReadsAndSetsUp, configurationChecks⟩

end Sys2Proof.Machine
end

