-- ==== Sys2Proof/Proofs/Following.lean ====
section
/-! Followings and walks: the candidate's address and block, parking, chain faults, and the end of a following
(R9 to R16, R61, R62). -/

namespace Sys2Proof.Machine

variable {s : State} {n : Stn} {o : Operation}

/-! ### Operations under way -/

namespace State

/-- The operation under way moves on to stage `g`. -/
theorem setStage_eq (ho : s.working n o) (g : Stage) :
    s.setStage n g = s.modSt n fun st => { st with op := some { o with stage := g } } := by
  unfold setStage modOp
  exact modSt_congr _ _ (by rw [show (s.st n).op = some o from ho]; rfl)

theorem finalApplication_eq (ho : s.working n o) (result : AttentionResult) : s.finalApplication n result =
    (s.modSt n fun st => { st with lastResult := result, op := some { o with stage := .final } }).askStatus n := by
  rw [finalApplication, setStage_modSt]
  exact congrArg (askStatus n) (modSt_congr _ _ (by rw [show (s.st n).op = some o from ho]; rfl))

end State

/-! ### The ends of an operation's requests -/

/-- The end of a read of SM's hands its operation on. -/
theorem State.whenReadOp_of {k : RequestKind} {r : Request} {data : List Byte}
    {go : Stn → Operation → State → Answer} (hr : s.mp.current = some r) (hk : r.kind = k) (hw : k.isWrite = false)
    (hl : data.length = r.length) (hn : r.station = some n) (ho : s.working n o) :
    (s.whenRead k data fun r s => s.whenOp r go) = go n o s.afterRead := by
  rw [whenRead_of hr hk hw hl, whenOp_of hn (show (s.afterRead.st n).op = some o from ho)]

/-- The end of a write of SM's hands its operation on. -/
theorem State.whenDoneOp_of {k : RequestKind} {r : Request} {go : Request → Stn → Operation → State → Answer}
    (hr : s.inProgress k r) (hw : k.isWrite = true) (hn : r.station = some n) (ho : s.working n o) :
    (s.whenDone k fun r s => s.whenOp r (go r)) = go r n o (s.afterWrite r) := by
  rw [whenDone_of hr.1 hr.2 hw, whenOp_of hn (show ((s.afterWrite r).st n).op = some o from ho)]

/-! ### The candidate's address -/

theorem candidateAddressExamined : Clauses.CandidateAddressExamined := by
  intro s n o a ho
  have hop : (s.st n).op = some o := ho
  have hmisaligned : a.toNat % 128 ≠ 0 → a ≠ 0#32 := by rintro h rfl; exact h rfl
  refine ⟨fun r data hr hn hstage hl ha => ⟨fun hk => ?_, fun hk => ?_⟩, fun ha hw => ?_, fun ha hw => ?_,
    fun ha hw => ?_, fun ha hw => ?_, fun h0 ha => ?_⟩
  · refine (State.whenReadOp_of hr hk rfl hl hn ho).trans ?_
    rw [if_pos hstage, ha]
  · refine (State.whenReadOp_of hr hk rfl hl hn ho).trans ?_
    rw [if_pos hstage, ha]
  · simp [State.examineAddress, hop, ha, hw]
  · simp [State.examineAddress, hop, ha, hw]
  · simp [State.examineAddress, hop, hmisaligned ha, alignedTo, ha, hw]
  · simp [State.examineAddress, hop, hmisaligned ha, alignedTo, ha, hw]
  · simp only [State.examineAddress, hop, if_neg h0, (alignedTo_iff a 128).mpr ha, Bool.true_eq_false, if_false,
      State.setStage_eq ho]
    rfl

theorem parkFaultAndWalkEnd : Clauses.ParkFaultAndWalkEnd := by
  intro s n o code ho
  have hop : (s.st n).op = some o := ho
  have hparked : (s.modSt n fun st => { st with code := code, parked := st.op.bind (·.predecessor) })
      = s.modSt n fun st => { st with code := code, parked := o.predecessor } :=
    State.modSt_congr _ _ (by rw [hop]; rfl)
  refine ⟨fun hwake => ?_, fun hwake => ?_, ?_, fun hlost => ?_, fun hlost => ?_⟩
  · rw [State.park, if_pos hwake, State.obtain_modSt hop]
  · rw [State.park, if_neg (by simp [hwake]), hparked]
  · rw [State.faultFollowing, hparked]
  · simp [State.endWalk, hlost]
  · simp only [State.endWalk, State.st_modSt_self, if_neg hlost, State.enterState_modSt]
    refine congrArg (State.finalApplication n .applied) (State.modSt_congr _ _ ?_)
    cases (s.st n).resyncPending <;> simp [Station.enter, Station.loadReread]

/-- Settles O22. -/
theorem candidateExaminedOrParked : Obligations.CandidateExaminedOrParked :=
  ⟨candidateAddressExamined, parkFaultAndWalkEnd⟩

/-! ### The candidate's block -/

theorem ofBlock_draft {d : List Byte} (h : leField d 4 4 ∉ [1, 2, 3]) : StateWord.ofBlock d = .draft := by
  simp only [List.mem_cons, List.not_mem_nil, or_false, not_or] at h
  unfold StateWord.ofBlock
  split <;> simp_all

theorem ofBlock_taken_or_done {d : List Byte} (h : leField d 4 4 ∈ [2, 3]) :
    StateWord.ofBlock d = .taken ∨ StateWord.ofBlock d = .done := by
  simp only [List.mem_cons, List.not_mem_nil, or_false] at h
  unfold StateWord.ofBlock
  obtain h | h := h <;> simp [h]

theorem ofBlock_posted {d : List Byte} (h : leField d 4 4 = 1) : StateWord.ofBlock d = .posted := by
  simp [StateWord.ofBlock, h]

theorem malformed_iff (h : HostPart) : h.malformed = true ↔
    h.kind = none ∨ (h.kind = some .exchange ∧ (h.orderLength = 0 ∨ 32 < h.orderLength))
      ∨ (h.direction = .nothing ∧ h.dataLength ≠ 0) ∨ (h.direction ≠ .nothing ∧ h.dataLength = 0)
      ∨ 2 ^ 32 < h.dataAddress.toNat + h.dataLength := by
  simp only [HostPart.malformed, Bool.or_eq_true, Bool.and_eq_true, Option.isNone_iff_eq_none, beq_iff_eq, bne_iff_ne,
    decide_eq_true_eq, or_assoc]

/-- A block read of a candidate, in a following or a walk (R11, R61). -/
theorem blockRead_of {r : Request} {data : List Byte} {a : Addr} (hr : s.inProgress .blockRead r)
    (hn : r.station = some n) (ho : s.working n o) (hstage : o.stage = .block a) (hl : data.length = r.length) :
    exec (.blockRead data) s = .next (if o.walk then s.afterRead.examineInWalk n a data
      else s.afterRead.examineInFollowing n a data).settle := by
  refine (State.whenReadOp_of hr.1 hr.2 rfl hl hn ho).trans ?_
  simp only [hstage]

theorem blockReadInFollowing : Clauses.BlockReadInFollowing := by
  intro s n o r data a h hr hn ho hstage hwalk hl hh
  have hexec := blockRead_of hr hn ho hstage hl
  rw [hwalk] at hexec
  simp only [Bool.false_eq_true, if_false, State.examineInFollowing, ← hh] at hexec
  refine ⟨fun hw => ?_, fun hw => ?_, fun hw hm => ?_, fun hw hm hk => ?_, fun hw hm hk => ?_, fun hw hm hk => ?_,
    malformed_iff h⟩
  · rw [hexec, ofBlock_draft hw]
  · obtain hw | hw := ofBlock_taken_or_done hw <;> rw [hexec, hw]
  all_goals rw [hexec, ofBlock_posted hw]; simp only [State.meetPosted, hm, if_true, Bool.false_eq_true, if_false]
  · rw [hk]
  · rw [hk]
  · have hasked := State.setStage_eq (s := s.afterRead) ho (.taken a h)
    obtain hk | hk := hk <;> simp only [hk, hasked] <;> rfl

theorem blockReadInWalk : Clauses.BlockReadInWalk := by
  intro s n o r data a hr hn ho hstage hwalk hl
  have hexec := blockRead_of hr hn ho hstage hl
  rw [hwalk] at hexec
  simp only [if_true, State.examineInWalk] at hexec
  refine ⟨fun hw => ?_, fun hw => ?_, fun hw => ?_⟩
  · rw [hexec, ofBlock_draft hw]
  · obtain hw | hw := ofBlock_taken_or_done hw <;> rw [hexec, hw]
  · rw [hexec, ofBlock_posted hw]

/-- Settles O23. -/
theorem blockReadDecidesByRow : Obligations.BlockReadDecidesByRow := ⟨blockReadInFollowing, blockReadInWalk⟩

/-! ### The host part of a block -/

/-- A field of `k` bytes is below `256 ^ k`. -/
theorem leField_lt (d : List Byte) (i k : Nat) : leField d i k < 256 ^ k := by
  induction k generalizing i with
  | zero => simp [leField]
  | succ k ih =>
    have hbyte := (byteAt d i).isLt
    have hrest := ih (i + 1)
    rw [leField, Nat.pow_succ]
    omega

/-- The bytes of a slice of a record that is long enough. -/
theorem getElem?_slice {d : List Byte} {from_ k i : Nat} (hd : from_ + k ≤ d.length) (hi : i < k) :
    ((d.drop from_).take k)[i]? = some (byteAt d (from_ + i)) := by
  have hlt : from_ + i < d.length := by omega
  simp [hi, byteAt, hlt]

/-- Settles O24. -/
theorem hostPartFields : Obligations.HostPartFields := by
  rintro d h rfl
  refine ⟨rfl, rfl, rfl, rfl, rfl, rfl, rfl, ?_, rfl, rfl, fun hd i hi => getElem?_slice hd hi, rfl⟩
  · simp only [HostPart.ofBlock, BitVec.toNat_ofNat]
    exact Nat.mod_eq_of_lt (leField_lt d 0x0C 2)

/-- Settles O25. -/
theorem takenWritePutsBlockInFlight : Obligations.TakenWritePutsBlockInFlight := by
  intro s n o r a h hr hn ho hstage
  refine (State.whenDoneOp_of hr rfl hn ho).trans ?_
  simp only [hstage]
  rfl

/-! ### The end of a following -/

/-- A notice flag set is no concern of the operation under way. -/
theorem working_noticed {p : Prop} [Decidable p] : (if p then s.setNotice n else s).working n o ↔ s.working n o := by
  split <;> rfl

theorem header_noticed {p : Prop} [Decidable p] : (if p then s.setNotice n else s).header = s.header := by
  split <;> rfl

theorem loadReread_of_some {st : Station} {c : StationConfig} (h : st.config = some c) :
    st.loadReread = if c.rereadInterval = 0 then none else some c.rereadInterval := by
  rw [Station.loadReread, h]

/-- What an end of operation makes of a context that owes no entry into LOST. -/
theorem finishOp_of_not_owed (hreport : (s.st n).holdReport = false) (howed : (s.st n).owedLost = false) :
    s.finishOp n = s.modSt n fun st => { st with op := none } := by
  simp only [State.finishOp, hreport, howed, Bool.false_eq_true, if_false, false_and, State.endOp, State.modSt_modSt]
  exact State.modSt_congr _ _ (congrArg (fun b => { s.st n with op := none, owedLost := b }) howed.symm)

/-- An owed entry into LOST is made at the end of the operation (R153). -/
theorem finishOp_of_owed (hreport : (s.st n).holdReport = false) (howed : (s.st n).owedLost = true)
    (habsent : (s.st n).state ≠ .absent) (hlost : (s.st n).state ≠ .lost) :
    s.finishOp n = (s.modSt n fun st => { st with op := none, owedLost := false }).enterLost n (.lost true) := by
  simp only [State.finishOp, hreport, Bool.false_eq_true, if_false, State.endOp, State.modSt_modSt]
  rw [if_pos ⟨howed, habsent, hlost⟩]

/-- A status half still being written is waited for first (R170, log 28). -/
theorem finishOp_of_holdReport (hreport : (s.st n).holdReport = true) : s.finishOp n = s.modSt n fun st =>
    { st with holdReport := false, op := some ⟨.report, .final, st.parked, false, false, st.snapshot⟩ } := by
  rw [State.finishOp, if_pos hreport, State.startOp_eq, State.modSt_modSt]

/-- A following of SM's own ends: it is reported when something changed, and else just ends (R16). -/
theorem endFollowing_of_own {u v : State} {new : StationState} (ho : s.working n o) (hjob : o.job = .own)
    (hu : u = (if new = .halted then s.setNotice n else s))
    (hv : v = (u.modSt n fun st => st.enter new s.header.holdDelay)) :
    s.endFollowing n new = if (v.st n).snapshot = o.began then v.finishOp n else v.reportStatus n := by
  have hv' : v = u.enterState n new := by rw [hv, State.enterState, hu, header_noticed]
  simp only [State.endFollowing, show (s.st n).op = some o from ho, hjob, ← hu, ← hv']

/-- Settles O30. -/
theorem followingEnds : Obligations.FollowingEnds := by
  intro s u v n o new ho hu hv
  have hop : (s.st n).op = some o := ho
  have hvu : v = u.enterState n new := by rw [hv, State.enterState, hu, header_noticed]
  have hvop : v.working n o := by
    rw [hv, State.working, State.st_modSt_self]
    exact (hu ▸ working_noticed.mpr ho : u.working n o)
  have hst : v.st n = (s.st n).enter new s.header.holdDelay := by
    rw [hv, State.st_modSt_self, hu]
    split <;> rfl
  have hreport : (v.st n).holdReport = (s.st n).holdReport := by rw [hst]; rfl
  have howed : (v.st n).owedLost = (s.st n).owedLost := by rw [hst]; rfl
  have hstate : (v.st n).state = new := by rw [hst]; rfl
  have hown := fun hjob => endFollowing_of_own ho hjob hu hv
  refine ⟨fun hjob => ?_, fun hjob hslot => ?_, fun hjob hslot => ?_, fun hjob hsnap => ?_, fun hjob hsnap hr hl => ?_,
    fun hjob hsnap hr hl ha hlost => ?_, fun hjob hsnap hr => ?_, fun st => rfl, fun st hc => ?_,
    fun st c hc => loadReread_of_some hc⟩
  · simp only [State.endFollowing, hop, hjob, ← hu]
    rfl
  · refine Eq.trans ?_ (State.finalApplication_eq hvop .applied)
    simp only [State.endFollowing, hop, hjob, hslot, ← hu, ← hvu, Bool.false_eq_true, if_false]
  · refine Eq.trans ?_ (State.setStage_eq hvop .slotAtBringUp)
    simp only [State.endFollowing, hop, hjob, hslot, ← hu, ← hvu, if_true]
  · rw [hown hjob, if_neg hsnap]
    rfl
  · rw [hown hjob, if_pos hsnap, finishOp_of_not_owed (hreport.trans hr) (howed.trans hl)]
  · rw [hown hjob, if_pos hsnap, finishOp_of_owed (hreport.trans hr) (howed.trans hl) (hstate ▸ ha) (hstate ▸ hlost)]
  · rw [hown hjob, if_pos hsnap, finishOp_of_holdReport (hreport.trans hr)]
  · rw [Station.loadReread, hc]

end Sys2Proof.Machine
end

