-- ==== Sys2Proof/Proofs/Retirement.lean ====
section
/-! Retirements and what ends an operation: the three writes, the continuation, entry into LOST, the last status write,
and the end of a turn (R20, R21, R42, R46, R53, R153). -/

namespace Sys2Proof.Machine

variable {s : State} {n : Stn} {o : Operation}

/-! ### The writes of a retirement -/

theorem retirementWritesResult : Clauses.RetirementWritesResult := by
  intro s n o condition ho
  refine ⟨fun a h after => ?_, fun f residue report after hf => ?_⟩
  · rw [State.retireFound, State.beginRetirement, State.setStage_eq ho]
    rfl
  · rw [State.retireInFlight, hf]
    simp only [State.beginRetirement, State.setStage_eq ho]
    rfl

theorem retirementSteps : Clauses.RetirementSteps := by
  intro s n o r x hn ho
  refine ⟨fun hr hstage => ?_, fun hr hstage => ?_⟩
  · refine (State.whenDoneOp_of hr rfl hn ho).trans ?_
    simp only [hstage]
    rw [State.setStage_eq (s := s.afterWrite r) ho]
    rfl
  · refine (State.whenDoneOp_of hr rfl hn ho).trans ?_
    simp only [hstage, State.settleRetirement, State.setStage_modSt]
    exact congrArg (fun u => Host.Outcome.next (State.askStatus n u).serveMemory)
      (State.modSt_congr _ _ (by rw [show ((s.afterWrite r).st n).op = some o from ho]; rfl))

/-- Settles O26. -/
theorem retirementWritesInOrder : Obligations.RetirementWritesInOrder := ⟨retirementWritesResult, retirementSteps⟩

/-! ### The continuation of a retirement -/

/-- The status write of a retirement, where it is not one beside the operation (log 28). -/
theorem statusWrite_of_status {r : Request} {x : Retirement} (hr : s.inProgress .statusWrite r)
    (hn : r.station = some n)
    (ho : s.working n o) (hstage : o.stage = .status x) (hown : r.beside = false ∨ (s.st n).holdReport = false) :
    exec .statusWrite s = .next ((s.afterWrite r).afterRetirement n x).settle := by
  refine (State.whenDoneOp_of hr rfl hn ho).trans ?_
  have hnot : ¬(r.beside = true ∧ ((s.afterWrite r).st n).holdReport = true) := by
    rintro ⟨h1, h2⟩
    obtain h | h := hown
    · rw [h] at h1; cases h1
    · rw [State.afterWrite_st, h] at h2; cases h2
  rw [if_neg hnot]
  simp only [hstage]

theorem lapsedOut_iff : s.lapsedOut n = true ↔
    (∃ t, s.xe.turn = some t ∧ t.lapsed = true) ∧ s.header.lapseLimit ≤ (s.st n).lapses := by
  simp only [State.lapsedOut, Bool.and_eq_true, decide_eq_true_eq]
  cases s.xe.turn <;> simp

theorem halts_iff (x : Retirement) :
    x.halts = true ↔ x.condition ≠ .clean ∧ (x.haltOnError = true ∨ x.condition = .refused) := by
  simp only [Retirement.halts, Bool.and_eq_true, Bool.or_eq_true, bne_iff_ne, beq_iff_eq]

/-- The following or walk goes on from the block retired. -/
theorem goOnFrom_eq (ho : s.working n o) (block : Addr) : s.goOnFrom n block = (s.modSt n fun st =>
    { st with op := some { o with stage := .candidate, predecessor := some block } }).asksCandidate n (some block) := by
  rw [State.goOnFrom, State.modOp, State.obtain_modSt (o := { o with predecessor := some block })]
  rw [show (s.st n).op = some o from ho]
  rfl

theorem startWalk_eq (ho : s.working n o) : s.startWalk n = (s.modSt n fun st =>
    { st with op := some { o with stage := .candidate, walk := true, predecessor := st.parked } }).asksCandidate n
      (s.st n).parked := by
  rw [State.startWalk, State.obtain_modSt (o := { o with walk := true, predecessor := (s.st n).parked })]
  · exact congrArg (State.asksCandidate n _) (State.modSt_congr _ _ rfl)
  · rw [show (s.st n).op = some o from ho]
    rfl

theorem endTakeDown_eq (ho : s.working n o) : s.endTakeDown n = (s.modSt n fun st =>
    { takenDown st with lastResult := .applied, op := some { o with stage := .final } }).askStatus n := by
  rw [State.endTakeDown, State.enterState_modSt, State.finalApplication_modSt]
  refine congrArg (State.askStatus n) (State.modSt_congr _ _ ?_)
  simp [Station.enter, takenDown, Station.withoutCountdowns, show (s.st n).op = some o from ho]

/-- Settles O27: the notice comes first, and changes nothing that the continuation looks at. -/
theorem retirementContinues : Obligations.RetirementContinues := by
  intro s u n o r x hr hn ho hstage hown hu
  have hexec := statusWrite_of_status hr hn ho hstage hown
  have huo : u.working n o := hu ▸ working_noticed.mpr ho
  have huxe : u.xe = s.xe := by rw [hu]; split <;> rfl
  have hust : u.st n = s.st n := by rw [hu]; split <;> rfl
  have huheader : u.header = s.header := by rw [hu]; split <;> rfl
  simp only [State.afterRetirement, ← hu] at hexec
  refine ⟨fun ha hl => hexec.trans ?_, fun ha hl hh => hexec.trans ?_, fun ha hl hh => hexec.trans ?_, ?_,
    fun ha hh => hexec.trans ?_, fun ha => hexec.trans ?_, fun ha => hexec.trans ?_, fun ha => hexec.trans ?_,
    fun ha hw => hexec.trans ?_, fun ha hw => hexec.trans ?_, fun ha => hexec.trans ?_, fun ha => hexec.trans ?_,
    halts_iff x⟩
  · simp only [ha, State.afterTurnRetirement, hl, if_true]
  · simp only [ha, State.afterTurnRetirement, hl, hh, Bool.false_eq_true, if_true, if_false]
  · simp only [ha, State.afterTurnRetirement, hl, hh, Bool.false_eq_true, if_false]
  · rw [lapsedOut_iff, huxe, hust, huheader]
  · simp only [ha, hh, if_true]
  · obtain ⟨ha, hh⟩ | ha := ha
    · simp only [ha, hh, Bool.false_eq_true, if_false, goOnFrom_eq huo]
    · simp only [ha, goOnFrom_eq huo]
  · simp only [ha]
  · simp only [ha, startWalk_eq huo, hust]
  · have hconfig : ((u.st n).config.map (·.watchInterval)).getD 0 = 0 := by
      rw [config_watchInterval, ← hw, State.config, hust]
      rfl
    simp only [ha, State.takeDownWatch, hconfig, if_true, endTakeDown_eq huo]
  · have hconfig : ((u.st n).config.map (·.watchInterval)).getD 0 ≠ 0 := by
      rw [config_watchInterval, State.config, hust]; exact hw
    simp only [ha, State.takeDownWatch, hconfig, if_false]
    rw [← State.setStage_eq huo]
    rfl
  · simp only [ha]
  · simp only [ha]

/-! ### Entry into LOST -/

/-- Settles O29: the clearing of the countdowns, the retirement, and the last steps by whose operation it is. -/
theorem entryIntoLost : Obligations.EntryIntoLost := by
  intro s n job
  refine ⟨fun f hf => ?_, fun hnone => ?_, fun o ho hjob => ?_, fun o t ho hjob ht hstage => ?_,
    fun o t ho hjob ht hstage => ?_⟩
  · have hf' : (Station.clearCountdowns { s.st n with
        op := some ⟨job, .final, (s.st n).parked, false, false, (s.st n).snapshot⟩ }).inFlight = some f := hf
    simp only [State.enterLost, State.startOp_eq, State.modSt_modSt, State.st_modSt_self, hf']
    rw [State.retireInFlight_modSt hf']
    exact congrArg (State.askSm _ _ _ _ _) (State.modSt_congr _ _ rfl)
  · have hnone' : (Station.clearCountdowns { s.st n with
        op := some ⟨job, .final, (s.st n).parked, false, false, (s.st n).snapshot⟩ }).inFlight = none := hnone
    simp only [State.enterLost, State.startOp_eq, State.modSt_modSt, State.st_modSt_self, hnone']
    exact congrArg (State.lostTail n) (State.modSt_congr _ _ rfl)
  all_goals
    have hop : (((s.setNotice n).modSt n fun st => { st with resyncPending := true }).st n).op.map Operation.job
        = some o.job := by
      rw [State.st_modSt_self]
      simp only [show ((s.setNotice n).st n).op = some o from ho, Option.map_some]
    have hswap : (s.modSt n fun st => { st with resyncPending := true }).setNotice n
      = (s.setNotice n).modSt n fun st => { st with resyncPending := true } := rfl
    simp only [State.lostTail, hswap, hop]
  · have htail : ((((s.setNotice n).modSt n fun st => { st with resyncPending := true }).enterState n .lost).setStage n
        .final) = (s.setNotice n).modSt n fun st =>
          { st.withoutCountdowns with resyncPending := true, state := .lost, op := some { o with stage := .final } } := by
      rw [State.enterState_modSt, State.setStage_modSt]
      refine State.modSt_congr _ _ ?_
      have hop' : (s.st n).op = some o := ho
      simp [Station.enter, Station.withoutCountdowns, hop']
    split
    · next hj => exact absurd (Option.some.inj hj) hjob
    · rw [htail]
  · have hnot : ¬((s.setNotice n).modSt n fun st => { st with resyncPending := true }).xe.turn.map Turn.stage
        = some TurnStage.cascade := by
      change ¬s.xe.turn.map Turn.stage = _
      rw [ht]
      exact fun h => hstage (Option.some.inj h)
    rw [hjob]
    simp only [hnot, if_false, State.endOp_modSt]
  · have hcascade : ((s.setNotice n).modSt n fun st => { st with resyncPending := true }).xe.turn.map Turn.stage
        = some TurnStage.cascade := by
      change s.xe.turn.map Turn.stage = _
      rw [ht]
      exact congrArg some hstage
    rw [hjob]
    simp only [hcascade, if_true, State.endOp_modSt]

/-! ### The last status write of an operation -/

/-- An operation ends with nothing owed, or with an entry into LOST owed that its state rules out (R153). -/
theorem finishOp_of_ruled_out (hreport : (s.st n).holdReport = false)
    (howed : (s.st n).owedLost = false ∨ (s.st n).state = .absent ∨ (s.st n).state = .lost) :
    s.finishOp n = s.modSt n fun st => { st with op := none, owedLost := false } := by
  simp only [State.finishOp, hreport, Bool.false_eq_true, if_false, State.endOp, State.modSt_modSt]
  rw [if_neg]
  rintro ⟨h1, h2, h3⟩
  obtain h | h | h := howed
  · rw [h] at h1; cases h1
  · exact h2 h
  · exact h3 h

/-- An entry into LOST that is not the turn's leaves an operation under way. -/
theorem enterLost_hasOp (s : State) (n : Stn) (owed : Bool) : (s.enterLost n (.lost owed)).hasOp n = true := by
  obtain ⟨hsome, hnone, htail, -⟩ := entryIntoLost s n (.lost owed)
  cases hf : (s.st n).inFlight with
  | some f =>
    rw [hsome f hf]
    simp only [State.hasOp, State.askSm_st, State.st_modSt_self, Option.isSome_some]
  | none =>
    rw [hnone hf]
    have hop : State.working (s.modSt n fun st => { st.withoutCountdowns with
        op := some ⟨.lost owed, .final, st.parked, false, false, st.snapshot⟩ }) n
          ⟨.lost owed, .final, (s.st n).parked, false, false, (s.st n).snapshot⟩ := by
      rw [State.working, State.st_modSt_self]
    obtain ⟨-, -, htail, -⟩ := entryIntoLost (s.modSt n fun st => { st.withoutCountdowns with
        op := some ⟨.lost owed, .final, st.parked, false, false, st.snapshot⟩ }) n (.lost owed)
    rw [htail _ hop nofun]
    simp only [State.hasOp, State.askStatus_op, State.st_modSt_self, Option.isSome_some]

@[simp] theorem takeReread_xe (s : State) (n : Stn) : (s.takeReread n).xe = s.xe := by
  unfold State.takeReread
  split
  · split
    · rw [State.follow_eq]
      unfold State.asksCandidate
      split <;> rfl
    · rfl
  · rfl

/-- SM's own status half is written: what was owed is taken up (R170). -/
theorem finishReport_of_free {v : State} (hv : s.finishOp n = v) (hfree : v.hasOp n = false) :
    s.finishReport n =
      if v.xe.turn.map Turn.station = some n then (v.takeReread n).takeOutcome else v.takeReread n := by
  simp only [State.finishReport, hv, hfree, Bool.false_eq_true, if_false, takeReread_xe]

theorem finishReport_of_working {v : State} (hv : s.finishOp n = v) (hop : v.hasOp n = true) :
    s.finishReport n = v := by
  simp only [State.finishReport, hv, hop, if_true]

/-- The last status write, where the operation is the one it ends. -/
theorem statusWrite_of_final {r : Request} (hr : s.inProgress .statusWrite r) (hn : r.station = some n)
    (ho : s.working n o) (hstage : o.stage = .final) (hown : r.beside = false ∨ (s.st n).holdReport = false) :
    exec .statusWrite s = .next ((s.afterWrite r).afterFinal n o.job).settle := by
  refine (State.whenDoneOp_of hr rfl hn ho).trans ?_
  have hnot : ¬(r.beside = true ∧ ((s.afterWrite r).st n).holdReport = true) := by
    rintro ⟨h1, h2⟩
    obtain h | h := hown
    · rw [h] at h1; cases h1
    · rw [State.afterWrite_st, h] at h2; cases h2
  rw [if_neg hnot]
  simp only [hstage]

/-- An operation other than a status write of SM's own ends with `finishOp`; an application's entry leaves the queue. -/
theorem afterFinal_eq {u : State} {r : Request}
    (hu : u = (if o.job = .application then (s.afterWrite r).setAu s.au.tail else s.afterWrite r)) :
    (s.afterWrite r).afterFinal n o.job = if o.job = .report then u.finishReport n else u.finishOp n := by
  subst hu
  unfold State.afterFinal
  split
  · next h => simp only [h, if_true, reduceCtorEq, if_false]; rfl
  · next h => simp only [h, if_true, reduceCtorEq, if_false]
  · next h1 h2 => rw [if_neg h2, if_neg h1]

/-- Settles O28. -/
theorem finalStatusWriteEndsOperation : Obligations.FinalStatusWriteEndsOperation := by
  intro s u v r n o hr hn ho hu hv
  have hust : u.st n = s.st n := by rw [hu]; split <;> rfl
  have huxe : u.xe = s.xe := by rw [hu]; split <;> rfl
  have hvfree : v.hasOp n = false := by rw [hv, State.hasOp, State.st_modSt_self]; rfl
  have hvxe : v.xe = s.xe := by rw [hv, ← huxe]; rfl
  have hfinal := fun hstage hown => (statusWrite_of_final hr hn ho hstage hown).trans
    (congrArg (fun u => Host.Outcome.next (State.settle u)) (afterFinal_eq hu))
  refine ⟨fun hbeside hreport => ?_, fun hstage hbeside hreport => ?_, fun hstage hreport howed ha hl => ?_,
    fun hstage hreport howed => ?_⟩
  · refine (State.whenDoneOp_of hr rfl hn ho).trans ?_
    rw [if_pos ⟨hbeside, hreport⟩]
  · have hend := finishOp_of_holdReport (s := u) (n := n) (by rw [hust]; exact hreport)
    have hop : (u.finishOp n).hasOp n = true := by rw [hend, State.hasOp, State.st_modSt_self]; rfl
    rw [hfinal hstage (.inl hbeside), finishReport_of_working rfl hop, ite_self, hend]
  · have hend := finishOp_of_owed (s := u) (n := n) (by rw [hust]; exact hreport) (by rw [hust]; exact howed)
      (by rw [hust]; exact ha) (by rw [hust]; exact hl)
    rw [← hv] at hend
    rw [hfinal hstage (.inr hreport), finishReport_of_working hend (enterLost_hasOp v n true), hend, ite_self]
  · have hend := finishOp_of_ruled_out (s := u) (n := n) (by rw [hust]; exact hreport) (by rw [hust]; exact howed)
    rw [← hv] at hend
    have hreported := finishReport_of_free hend hvfree
    rw [hfinal hstage (.inr hreport)]
    refine ⟨fun hjob => ?_, fun hjob hother => ?_, fun t hjob ht hstation => ?_⟩
    · rw [if_neg hjob, hend]
    · rw [if_pos hjob, hreported, if_neg]
      rw [hvxe]
      cases ht : s.xe.turn with
      | none => simp
      | some t => simpa using hother t ht
    · rw [if_pos hjob, hreported, if_pos]
      rw [hvxe, ht, ← hstation]
      rfl

/-! ### The end of a turn -/

/-- A re-read expiry met during a turn, in each case (R19). -/
theorem takeReread_of_not (h : ¬((s.st n).rereadOwed = true ∧ (s.st n).state = .idle)) : s.takeReread n = s := by
  rw [State.takeReread, if_neg h]

/-- Settles O31. -/
theorem turnEnds : Obligations.TurnEnds := by
  rintro s u v t n result ht rfl hu hv
  have hleave : ((s.modXe fun _ => ⟨none, []⟩).leaveTurn t result) = u := hu ▸ rfl
  have hheld : (if t.kind = .peek then u.releaseHeld t.station else u) = v := by
    rw [hv]
    unfold State.releaseHeld
    by_cases hk : t.kind = .peek
    · simp only [hk, if_true, true_and]
    · simp only [hk, if_false, false_and]
  have hfinish : s.finishTurn result = if (v.st t.station).lastStatus = some (v.st t.station).statusHalf
      then v.takeReread t.station else v.reportStatus t.station := by
    simp only [State.finishTurn, ht, hleave, State.afterTurn, hheld]
  refine ⟨fun h => ?_, fun h => ?_, takeReread_of_not, fun h1 h2 hp => ?_, fun h1 h2 hp => ?_, fun st held => rfl⟩
  · rw [hfinish, if_pos h]
  · rw [hfinish, if_neg h]
    rfl
  · rw [State.takeReread, if_pos ⟨h1, h2⟩, if_pos hp]
  · rw [State.takeReread, if_pos ⟨h1, h2⟩, if_neg hp]

end Sys2Proof.Machine
end

