-- ==== Sys2Proof/Proofs/Grant.lean ====
section
/-! The grant: when it is made, which station it chooses, and the kind and size of its turn (R134 to R141). -/

namespace Sys2Proof.Machine

variable {s : State} {n : Stn}

namespace State

theorem grantOpen_iff : s.grantOpen = true ↔
    s.rw.part = .running ∧ s.xe.turn = none ∧ s.lp.state = .idle ∧ s.rw.restartRequest = false
      ∧ s.restartBusy = false := by
  simp only [grantOpen, Bool.and_eq_true, beq_iff_eq, Option.isNone_iff_eq_none, Bool.not_eq_true', and_assoc]

/-! ### The choice -/

theorem free_iff : s.free n = true ↔ (s.st n).op = none
    ∨ ∃ o, s.working n o ∧ o.job = .report ∧ (s.st n).owedLost = false
      ∧ (s.st n).rereadOwed = false ∧ (s.st n).restartFollow = false := by
  unfold free working
  cases (s.st n).op with
  | none => simp
  | some o => simp [Station.owesWork, and_assoc]

theorem watchEligible_iff (e : DueEntry) : s.watchEligible e = true ↔
    e.deferred = false ∧ s.free e.station = true
      ∧ (s.st e.station).state ∈ [.idle, .ready, .holding, .paused, .halted] := by
  unfold watchEligible
  cases (s.st e.station).state <;> simp

theorem exchangeEligible_iff : s.exchangeEligible n = true ↔ (s.st n).state = .ready ∧ s.free n = true := by
  simp only [exchangeEligible, Bool.and_eq_true, beq_iff_eq]

/-- A station eligible for a watch turn comes first, the foremost of the due list (R139). -/
theorem chooseGrant_of_due {before after : List DueEntry} {e : DueEntry} (hdue : s.ls.due = before ++ e :: after)
    (hbefore : ∀ x ∈ before, s.watchEligible x = false) (he : s.watchEligible e = true) :
    s.chooseGrant = some (e.station, .peek) := by
  have hfind : s.ls.due.find? s.watchEligible = some e := by
    rw [hdue, List.find?_append, List.find?_eq_none.mpr fun x hx => by simp [hbefore x hx]]
    simp [he]
  rw [chooseGrant, hfind]

theorem chooseGrant_of_none_due (hdue : ∀ x ∈ s.ls.due, s.watchEligible x = false) : s.chooseGrant =
    ((allStations.map fun k => s.ls.rotation + 1 + k).find? s.exchangeEligible).bind fun n =>
      (exchangeKind (s.st n)).map fun k => (n, k) := by
  unfold chooseGrant
  rw [List.find?_eq_none.mpr fun x hx => by simp [hdue x hx]]
  cases (allStations.map fun k => s.ls.rotation + 1 + k).find? s.exchangeEligible <;> rfl

/-- The search from `p` upwards, wrapping, finds the station that satisfies `q` and is nearest above `p`. -/
theorem find?_rotated {p : Stn} {q : Stn → Bool} (hn : q n = true)
    (hmin : ∀ m, q m = true → (n - p).val ≤ (m - p).val) : (allStations.map fun k => p + k).find? q = some n := by
  refine List.find?_eq_some_iff_getElem.mpr ⟨hn, (n - p).val, by simp [allStations], by simp [allStations], ?_⟩
  intro j hj
  by_contra hq
  simp only [allStations, List.getElem_map, List.getElem_finRange, Bool.not_eq_true', Bool.not_eq_false] at hq
  have hle := hmin _ hq
  rw [add_sub_cancel_left] at hle
  exact absurd hle (Nat.not_le_of_lt hj)

end State

/-- Settles O33. -/
theorem grantChoosesStation : Obligations.GrantChoosesStation := by
  intro s
  refine ⟨fun before after e hdue hbefore he => State.chooseGrant_of_due hdue hbefore he, fun n hdue hn hmin => ?_,
    fun hdue hnone => ?_, State.watchEligible_iff, fun n => State.exchangeEligible_iff, fun n => State.free_iff,
    fun st => ⟨fun h => ?_, fun f hresync hf hk => ?_, fun f hresync hf hk => ?_⟩, fun n f hf => ?_, fun n => ?_⟩
  · rw [State.chooseGrant_of_none_due hdue, State.find?_rotated hn hmin, Option.bind_some]
  · rw [State.chooseGrant_of_none_due hdue, List.find?_eq_none.mpr fun n _ => by simp [hnone n],
      Option.bind_none]
  · rw [State.exchangeKind, if_pos h]
  · simp only [State.exchangeKind, hresync, hf, hk, Bool.false_eq_true, if_false, if_true]
  · refine ⟨?_, fun hp hd => ?_, fun hp hd => ?_, fun hp => ?_⟩
    · rintro (hp | hp) <;> simp [State.exchangeKind, hresync, hf, hk, hp]
    · simp [State.exchangeKind, hresync, hf, hk, hp, hd]
    · simp [State.exchangeKind, hresync, hf, hk, hp, hd]
    · simp [State.exchangeKind, hresync, hf, hk, hp]
  · simp only [State.turnSize, hf, maxPacketSize, and_self]
  · unfold State.turnSize
    cases (s.st n).inFlight <;> rfl

/-! ### The grant made -/

theorem exec_grant_of_chosen {k : TurnKind} {quiet : Bool} (hopen : s.grantOpen = true)
    (hchoice : s.chooseGrant = some (n, k)) :
    exec (.grant quiet) s = .next (s.grantTurn n k quiet).serveMemory := by
  change execGrant quiet s = _
  rw [execGrant, if_pos hopen, hchoice]

/-- Settles O32. -/
theorem grantMadeWhenConditionsHold : Obligations.GrantMadeWhenConditionsHold := by
  intro s quiet
  refine ⟨State.grantOpen_iff, fun hopen => ?_, fun hopen hchoice => ?_, fun n k f hopen hchoice hk hf => ?_,
    fun n k hopen hchoice hk => ?_, fun n f hf => ?_, fun n k hk => ?_⟩
  · change execGrant quiet s = _
    rw [execGrant, if_neg (by simp [hopen])]
  · change execGrant quiet s = _
    rw [execGrant, if_pos hopen, hchoice]
  · subst hk
    rw [exec_grant_of_chosen hopen hchoice, State.grantTurn, if_pos rfl, hf]
    rfl
  · rw [exec_grant_of_chosen hopen hchoice, State.grantTurn, if_neg hk, State.newTurn, if_neg hk]
    by_cases hpeek : k = .peek
    · simp only [hpeek, if_true]
      rfl
    · simp only [hpeek, if_false]
      rfl
  · simp only [State.firstStaging, hf]
  · unfold State.firstStaging
    cases k with
    | order => exact absurd rfl hk
    | _ => rfl

end Sys2Proof.Machine
end

