-- ==== Sys2Proof/Proofs/Line.lean ====
section
/-! The line: the request in hand, the packet LP drives, and what each event of the line does (chapters 4 and 5). -/

namespace Sys2Proof.Machine

variable {s : State} {t : Turn}

/-! ### The request in hand -/

namespace State

theorem modTurn_of {f : Turn → Turn} (ht : s.xe.turn = some t) :
    s.modTurn f = { s with xe := { s.xe with turn := some (f t) } } := by
  simp only [modTurn, modXe, ht, Option.map_some]

/-- The phase of the block in flight is no part of the request in hand, nor is the turn's stage. -/
theorem inHand_of_same {u : State} (hconfig : u.config t.station = s.config t.station)
    (hparity : (u.st t.station).putParity = (s.st t.station).putParity) (hheader : u.header = s.header) :
    u.inHand t = s.inHand t := by
  simp only [inHand, linkAddress, branchAddress, hconfig, hparity, hheader]

/-- The first send asked for an ORDER makes the phase ORDER (R93). -/
theorem modInFlight_order (u : State) (n : Stn) :
    (u.modInFlight n fun f => if f.phase = .nothing then { f with phase := .order } else f)
      = u.modSt n fun st => { st with inFlight := st.inFlight.map fun f =>
        { f with phase := if f.phase = .nothing then .order else f.phase } } := by
  have hphase : (fun f : InFlight => if f.phase = .nothing then { f with phase := .order } else f)
      = fun f => { f with phase := if f.phase = .nothing then .order else f.phase } := by
    funext f
    split <;> rfl
  rw [modInFlight, hphase]

theorem sendRequest_of {u : State} {quiet : Bool} (ht : s.xe.turn = some t)
    (hu : u = (if t.kind = .order ∧ t.opening = false then
      ({ s with xe := { s.xe with turn := some { t with stage := .request } } } : State).modSt t.station fun st =>
        { st with inFlight := st.inFlight.map fun f =>
          { f with phase := if f.phase = .nothing then .order else f.phase } }
      else { s with xe := { s.xe with turn := some { t with stage := .request } } })) :
    s.sendRequest quiet = { u with lp :=
      if quiet then { s.lp with state := .sending, send := some (s.inHand t), busyTimer := none }
      else { s.lp with send := some (s.inHand t), busyTimer := some 4000 } } := by
  have hinHand : u.inHand t = s.inHand t := by
    rw [hu]
    split
    · exact inHand_of_same (by simp only [config, st_modSt_self]; rfl) (by rw [st_modSt_self]; rfl) rfl
    · rfl
  have hlp : u.lp = s.lp := by rw [hu]; split <;> rfl
  unfold sendRequest
  rw [ht]
  simp only [modTurn_of ht, modInFlight_order, ← hu, hinHand]
  simp only [askLp, modLp, hlp, Config.busyLimit]

end State

theorem requestInHand : Clauses.RequestInHand := by
  intro s t
  refine ⟨fun b p hroute => ⟨?_, fun hopen => ?_⟩, fun hroute => ?_, fun hopen a ha => ?_, fun quiet ht => ?_,
    fun quiet u ht hu => State.sendRequest_of ht hu⟩
  · simp only [State.openNeeded, hroute]
  · simp only [State.inHand, hopen, if_true, hroute]
    rfl
  · simp only [State.openNeeded, hroute]
  · subst ha
    simp only [State.inHand, hopen, Bool.false_eq_true, if_false]
    refine ⟨fun hk => ?_, fun hk => ?_, fun hk => ?_, fun hk => ?_, fun hk => ?_, fun hk => ?_⟩ <;> rw [hk] <;> rfl
  · simp only [State.beginSending, ht, State.modTurn_of ht]

/-! ### The packet on the line -/

theorem staged_iff (p : Send) : p.staged = true ↔ p.kind = .order ∨ p.kind = .put := by
  simp only [Send.staged, Bool.or_eq_true, beq_iff_eq]

theorem packetOnLine : Clauses.PacketOnLine := by
  intro s p
  refine ⟨fun hstate hsend hk => ?_, fun hstate hsend ho hp => ?_, fun h => ?_, rfl, ?_⟩
  · simp only [State.packetOnLine, hstate, hsend, State.payloadOf, (staged_iff p).mpr hk, if_true, Option.map_some]
  · have hshort : p.staged = false := by
      rw [← Bool.not_eq_true, staged_iff]
      exact fun h => h.elim ho hp
    simp only [State.packetOnLine, hstate, hsend, State.payloadOf, hshort, if_true, Bool.false_eq_true, if_false,
      Option.map_some]
  · obtain h | h := h <;> simp [State.packetOnLine, h]
  · simp only [State.driveEnable, Bool.or_eq_true, beq_iff_eq]

/-- Settles O34. -/
theorem requestInHandAndPacketOnLine : Obligations.RequestInHandAndPacketOnLine := ⟨requestInHand, packetOnLine⟩

/-! ### The events of the line -/

/-- Settles O35: the cases of LP's table. -/
theorem linkPortEvents : Obligations.LinkPortEvents := by
  intro s p t quiet
  have hdeliver : ∀ (f : Finding) (q : Bool), s.xe.turn = some t →
      s.deliver f q = .next (State.settle (({ s with lp := .reset } : State).takeFinding t f q)) :=
    fun f q ht => State.deliver_of ht f q
  refine ⟨fun h1 h2 => ?_, fun h1 ht => ?_, fun h => ?_, fun h1 h2 ht => ?_, fun h => ?_, fun h1 h2 hp hk => ?_,
    fun h1 h2 hp hk ht => ?_, fun h1 h2 hp => ?_, fun h => ?_, fun h => ?_, fun h => ?_, fun h ht => ?_, fun h => ?_⟩
  · exact (by simp only [execLineQuiet, h1, h2] :
      execLineQuiet s = .next (s.modLp fun l => { l with state := .sending, busyTimer := none }))
  · change execLineQuiet s = _
    simp only [execLineQuiet, h1, hdeliver _ _ ht]
  · change execLineQuiet s = _
    simp only [List.mem_cons, List.not_mem_nil, or_false] at h
    obtain (h | h | h | h) | ⟨h, h2⟩ := h
    · simp only [execLineQuiet, h]
    · simp only [execLineQuiet, h]
    · simp only [execLineQuiet, h]
    · simp only [execLineQuiet, h]
    · simp only [execLineQuiet, h, h2]
  · change execLineBusyLimit s = _
    simp only [execLineBusyLimit, h1, h2, hdeliver _ _ ht]
  · change execLineBusyLimit s = _
    unfold execLineBusyLimit
    split
    · next h1 h2 => exact (h.elim (absurd h1) fun h => by rw [h] at h2; cases h2)
    · rfl
  · exact (by simp only [execPacketSent, h1, h2, hp, hk, if_false] : execPacketSent s
      = .next (s.modLp fun l => { l with state := .awaiting, responseTimer := some s.header.responseTimeout }))
  · change execPacketSent s = _
    simp only [execPacketSent, h1, h2, hp, hk, if_true, if_false, hdeliver _ _ ht]
  · exact (by simp only [execPacketSent, h1, h2, hp, if_true] :
      execPacketSent s = .next ((s.modLp fun _ => .reset).modXe fun x => { x with staging := [] }))
  · change execPacketSent s = _
    unfold execPacketSent
    split
    · next h1 h2 => exact (h.elim (absurd h1) fun h => by rw [h] at h2; cases h2)
    · rfl
  · exact (by simp only [execStartDelimiter, h] : execStartDelimiter s
      = .next (s.modLp fun l => { l with state := .receiving, responseTimer := none }))
  · change execStartDelimiter s = _
    unfold execStartDelimiter
    cases hstate : s.lp.state with
    | awaiting => exact absurd hstate h
    | _ => rfl
  · change execResponseTimeout quiet s = _
    simp only [execResponseTimeout, h, hdeliver _ _ ht]
  · change execResponseTimeout quiet s = _
    unfold execResponseTimeout
    cases hstate : s.lp.state with
    | awaiting => exact absurd hstate h
    | _ => rfl

theorem receptionsEnd : Clauses.ReceptionsEnd := by
  intro s t p h r quiet
  have hdeliver : ∀ (f : Finding) (q : Bool), s.xe.turn = some t →
      s.deliver f q = .next (State.settle (({ s with lp := .reset } : State).takeFinding t f q)) :=
    fun f q ht => State.deliver_of ht f q
  refine ⟨fun h1 h2 hl ht => ?_, fun h1 h2 => ?_, fun h1 => ?_, fun h1 ht => ?_, fun h1 => ?_⟩
  · change execReceptionEnd (.framed p) quiet s = _
    have hframed : p.framedRight = true := by simp [Packet.framedRight, hl]
    unfold execReceptionEnd
    rw [if_pos ⟨h1, h2⟩]
    simp only [hframed, if_true, ht, hdeliver _ _ ht]
  · change execReceptionEnd (.broken h) quiet s = _
    unfold execReceptionEnd
    rw [if_pos ⟨h1, h2⟩]
    rfl
  · change execReceptionEnd r quiet s = _
    unfold execReceptionEnd
    rw [if_neg]
    rintro ⟨h2, h3⟩
    obtain h1 | h1 := h1
    · exact h1 h2
    · rw [h1] at h3; cases h3
  · change execFramingError s = _
    rw [execFramingError, if_pos h1, hdeliver _ _ ht]
  · change execFramingError s = _
    rw [execFramingError, if_neg h1]

/-- Settles O36. -/
theorem receptionEnds : Obligations.ReceptionEnds := ⟨receptionsEnd, fun _ _ => rfl⟩

end Sys2Proof.Machine
end

