-- ==== Sys2Proof/Proofs/Packets.lean ====
section
/-! Packets: the checks of a received one in their order, the check fields of a formed one, and that the bits on the
line give the same packet back (R71 to R80, R186). -/

namespace Sys2Proof.Machine

/-! ### Kind codes and admitted answers -/

theorem ofCode_eq_some_iff (k : PacketKind) (c : Nat) : PacketKind.ofCode c = some k ↔ k.code = c := by
  constructor
  · intro h
    unfold PacketKind.ofCode at h
    split at h <;> cases h <;> rfl
  · rintro rfl
    cases k <;> rfl

theorem admits_iff (request k : PacketKind) : admits request k = true ↔ k ∈ admittedAnswers request := by
  cases request <;> cases k <;> decide

/-! ### The six checks -/

section
variable {e : Expected} {p : Packet} {k : PacketKind}

theorem checkPacket_of_bad_fields (h : p.header.check ≠ headerCheck p.header ∨ p.crc ≠ payloadCrc p.payload) :
    checkPacket e p = .garbled := by
  unfold checkPacket
  split
  · rfl
  · next hcheck => rw [if_pos (h.resolve_left hcheck)]

/-- With its check fields right, a packet is judged by its address first. -/
theorem checkPacket_of_stray (hcheck : p.header.check = headerCheck p.header) (hcrc : p.crc = payloadCrc p.payload)
    (haddress : p.header.address ≠ e.address) : checkPacket e p = .stray := by
  rw [checkPacket, if_neg (not_not.mpr hcheck), if_neg (not_not.mpr hcrc), if_pos haddress]

theorem checkPacket_of_unknown (hcheck : p.header.check = headerCheck p.header) (hcrc : p.crc = payloadCrc p.payload)
    (haddress : p.header.address = e.address) (hk : PacketKind.ofCode p.header.kind.toNat = none) :
    checkPacket e p = .wrongKind := by
  rw [checkPacket, if_neg (not_not.mpr hcheck), if_neg (not_not.mpr hcrc), if_neg (not_not.mpr haddress), hk]

/-- A packet from the right address is judged by its kind, then by its parity and length. -/
theorem checkPacket_of_kind (hcheck : p.header.check = headerCheck p.header) (hcrc : p.crc = payloadCrc p.payload)
    (haddress : p.header.address = e.address) (hk : PacketKind.ofCode p.header.kind.toNat = some k) :
    checkPacket e p = if admits e.request k then checkParity e k p.header.parity p.payload else .wrongKind := by
  rw [checkPacket, if_neg (not_not.mpr hcheck), if_neg (not_not.mpr hcrc), if_neg (not_not.mpr haddress), hk]

theorem checkParity_accept {parity : Bool} {d : List Byte}
    (h : ¬((e.request = .order ∨ e.request = .put) ∧ parity ≠ e.parity)) :
    checkParity e .accept parity d = checkLength e .accept parity d := if_neg h

theorem checkParity_data {parity : Bool} {d : List Byte} (h : parity = e.getParity) :
    checkParity e .data parity d = checkLength e .data parity d := if_pos h

theorem checkParity_report {parity : Bool} {d : List Byte} (h : parity = e.getParity) :
    checkParity e .report parity d = checkLength e .report parity d := if_pos h

end

/-- Settles O37: each check in turn, by the kind that the packet gives. -/
theorem packetChecksInOrder : Obligations.PacketChecksInOrder := by
  intro e p k
  refine ⟨checkPacket_of_bad_fields, fun hcheck hcrc => ⟨fun ha => ?_, fun ha => ⟨fun h => ?_, fun hk hadmits => ?_⟩⟩,
    admits_iff e.request k⟩
  · exact checkPacket_of_stray hcheck hcrc ha
  · obtain h | ⟨h, hnot⟩ := h
    · exact checkPacket_of_unknown hcheck hcrc ha h
    · rw [checkPacket_of_kind hcheck hcrc ha h, if_neg (by simp [hnot])]
  · rw [checkPacket_of_kind hcheck hcrc ha hk, if_pos hadmits]
    refine ⟨?_, ?_, ?_, ?_, ?_, ?_, ?_, ?_⟩
    · rintro rfl hrequest hparity
      exact if_pos ⟨hrequest, hparity⟩
    · rintro (rfl | rfl) hparity <;> exact if_neg hparity
    · rintro rfl hparity hlength
      rw [checkParity_data hparity]
      exact if_neg (Nat.not_le_of_lt hlength)
    · rintro rfl hparity hlength
      rw [checkParity_report hparity]
      exact if_neg hlength
    · rintro rfl hlength
      exact if_neg hlength
    · intro hmem hlength
      simp only [List.mem_cons, List.not_mem_nil, or_false] at hmem
      obtain rfl | rfl | rfl := hmem <;> exact if_neg hlength
    · rintro rfl hparity hlength
      rw [checkParity_accept hparity]
      exact if_neg hlength
    · rintro (⟨rfl, hparity, hlength⟩ | ⟨rfl, hparity, hlength⟩ | ⟨rfl, hlength⟩ | ⟨hmem, hlength⟩ |
        ⟨rfl, hparity, hlength⟩)
      · rw [checkParity_data hparity]
        exact if_pos hlength
      · rw [checkParity_report hparity]
        exact if_pos hlength
      · exact if_pos hlength
      · simp only [List.mem_cons, List.not_mem_nil, or_false] at hmem
        obtain rfl | rfl | rfl := hmem <;> exact if_pos hlength
      · rw [checkParity_accept hparity]
        exact if_pos hlength

/-! ### Bits of a field -/

theorem bitsHighFirst_eq {w : Nat} (x : BitVec w) :
    bitsHighFirst x = (List.range w).map fun i => x.getLsbD (w - 1 - i) := by
  refine List.map_congr_left fun i hi => ?_
  rw [BitVec.getMsbD, decide_eq_true (List.mem_range.mp hi), Bool.true_and]

@[simp] theorem bitsHighFirst_length {w : Nat} (x : BitVec w) : (bitsHighFirst x).length = w := by simp [bitsHighFirst]

@[simp] theorem byteBits_length (b : Byte) : (byteBits b).length = 8 := by simp [byteBits]

theorem payloadBits_length (d : List Byte) : (d.flatMap byteBits).length = 8 * d.length := by
  induction d with
  | nil => rfl
  | cons b d ih => rw [List.flatMap_cons, List.length_append, ih, byteBits_length, List.length_cons]; omega

/-- The number read from a list of bits has them as its bits. -/
theorem testBit_natOfBits (l : List Bool) (i : Nat) : (natOfBits l).testBit i = l.getD i false := by
  induction l generalizing i with
  | nil => simp [natOfBits]
  | cons b l ih =>
    have hbit : natOfBits (b :: l) = Nat.bit b (natOfBits l) := by rw [natOfBits, Nat.bit_val, Nat.add_comm]
    rw [hbit]
    cases i with
    | zero => rw [Nat.testBit_bit_zero]; rfl
    | succ i => rw [Nat.testBit_bit_succ, ih]; rfl

/-- A list of the bits of `x`, least significant first, gives `x` back. -/
theorem ofNat_natOfBits {w : Nat} {x : BitVec w} {l : List Bool} (h : ∀ i < w, l.getD i false = x.getLsbD i) :
    BitVec.ofNat w (natOfBits l) = x := by
  refine BitVec.eq_of_getLsbD_eq fun i hi => ?_
  rw [BitVec.getLsbD_ofNat, testBit_natOfBits, decide_eq_true hi, Bool.true_and, h i hi]

/-- A field is taken from its bits as it was sent. -/
theorem ofHighFirst_bitsHighFirst {w : Nat} (x : BitVec w) : ofHighFirst w (bitsHighFirst x) = x := by
  refine ofNat_natOfBits fun i hi => ?_
  have hlast : w - 1 - i < w := by omega
  rw [bitsHighFirst_eq, List.getD_eq_getElem?_getD, List.getElem?_reverse (by simpa using hi)]
  simp only [List.length_map, List.length_range, List.getElem?_map, List.getElem?_range hlast, Option.map_some,
    Option.getD_some]
  congr 1
  omega

theorem ofNat_byteBits (b : Byte) : BitVec.ofNat 8 (natOfBits (byteBits b)) = b := by
  refine ofNat_natOfBits fun i hi => ?_
  rw [List.getD_eq_getElem?_getD, byteBits, List.getElem?_map, List.getElem?_range hi]
  rfl

/-- The payload is taken from its bits as it was sent, whatever follows them. -/
theorem bytesOfBits_payload (d : List Byte) (rest : List Bool) :
    bytesOfBits d.length (d.flatMap byteBits ++ rest) = d := by
  induction d with
  | nil => rfl
  | cons b d ih =>
    rw [List.flatMap_cons, List.append_assoc, List.length_cons, bytesOfBits,
      List.take_left' (byteBits_length b), List.drop_left' (byteBits_length b), ofNat_byteBits, ih]

/-! ### The bits on the line -/

/-- The slice of a list that starts after `a` and is as long as `b`. -/
theorem slice_eq {α : Type} {l a b c : List α} {i j : Nat} (h : l = a ++ (b ++ c)) (ha : a.length = i)
    (hb : b.length = j) : (l.drop i).take j = b := by
  rw [h, List.drop_left' ha, List.take_left' hb]

section
variable (p : Packet)

/-- The bits that follow the header check. -/
def bodyBits : List Bool := p.payload.flatMap byteBits ++ bitsHighFirst p.crc

theorem lineBits_eq : lineBits p = bitsHighFirst p.header.kind ++ (bitsHighFirst p.header.address
    ++ ([p.header.parity] ++ (bitsHighFirst p.header.length ++ (bitsHighFirst p.header.check ++ bodyBits p)))) := by
  simp only [lineBits, headerBits, bodyBits, List.append_assoc]

theorem lineBits_kind : (lineBits p).take 4 = bitsHighFirst p.header.kind := by
  rw [lineBits_eq, List.take_left' (bitsHighFirst_length _)]

theorem lineBits_address : ((lineBits p).drop 4).take 7 = bitsHighFirst p.header.address :=
  slice_eq (lineBits_eq p) (bitsHighFirst_length _) (bitsHighFirst_length _)

theorem lineBits_parity : (((lineBits p).drop 11).headD false) = p.header.parity := by
  rw [lineBits_eq, ← List.append_assoc, List.drop_left' (by simp)]
  rfl

theorem lineBits_length : ((lineBits p).drop 12).take 9 = bitsHighFirst p.header.length :=
  slice_eq (a := bitsHighFirst p.header.kind ++ bitsHighFirst p.header.address ++ [p.header.parity])
    (c := bitsHighFirst p.header.check ++ bodyBits p) (by simp only [lineBits_eq, List.append_assoc]) (by simp)
    (bitsHighFirst_length _)

theorem lineBits_check : ((lineBits p).drop 21).take 8 = bitsHighFirst p.header.check :=
  slice_eq (a := headerBits p.header) (c := bodyBits p) (by simp only [lineBits_eq, headerBits, List.append_assoc])
    (by simp [headerBits]) (bitsHighFirst_length _)

theorem lineBits_body : (lineBits p).drop 29 = bodyBits p := by
  rw [lineBits, List.append_assoc, List.drop_left' (by simp [headerBits])]
  rfl

theorem lineBits_crc {k : Nat} (hk : p.payload.length = k) :
    ((lineBits p).drop (29 + 8 * k)).take 16 = bitsHighFirst p.crc := by
  refine slice_eq (a := headerBits p.header ++ bitsHighFirst p.header.check ++ p.payload.flatMap byteBits) (c := [])
    (by simp only [lineBits, List.append_nil]) ?_ (bitsHighFirst_length _)
  simp only [List.length_append, payloadBits_length, hk, headerBits, bitsHighFirst_length, List.length_singleton]

end

/-- A receiver takes a packet as long as its header gives from the bits of the line. -/
theorem receiveBits_lineBits {p : Packet} (hl : p.payload.length = p.header.length.toNat) :
    receiveBits (lineBits p) = p := by
  simp only [receiveBits, lineBits_kind, lineBits_address, lineBits_parity, lineBits_length, lineBits_check,
    lineBits_body, lineBits_crc p hl, ofHighFirst_bitsHighFirst]
  rw [← hl, bodyBits, bytesOfBits_payload]

theorem bitsOnLine : Clauses.BitsOnLine := by
  intro p
  refine ⟨?_, receiveBits_lineBits⟩
  simp only [lineBits, headerBits, bitsHighFirst_eq]
  rfl

/-! ### The check fields -/

/-- One bit through a check register, bit by bit. -/
theorem checkStep_getLsbD {w : Nat} (poly reg : BitVec w) (b : Bool) {i : Nat} (hi : i < w) :
    (checkStep poly reg b).getLsbD i =
      ((decide (0 < i) && reg.getLsbD (i - 1)) ^^ (poly.getLsbD i && (reg.getLsbD (w - 1) ^^ b))) := by
  have hshift : (reg <<< 1).getLsbD i = (decide (0 < i) && reg.getLsbD (i - 1)) := by
    rw [BitVec.getLsbD_shiftLeft, decide_eq_true hi, Bool.true_and]
    cases i <;> simp
  unfold checkStep
  rw [BitVec.msb_eq_getLsbD_last]
  cases h : reg.getLsbD (w - 1) ^^ b
  · rw [if_neg (by simp), hshift, Bool.and_false, Bool.xor_false]
  · rw [if_pos rfl, BitVec.getLsbD_xor, hshift, Bool.and_true]

theorem checkFields : Clauses.CheckFields := by
  refine ⟨fun reg b i hi => ?_, fun reg b i hi => ?_, fun h => ?_, fun payload => rfl, rfl, ofCode_eq_some_iff⟩
  · have hpoly : (0x07#8).getLsbD i = decide (i ∈ [0, 1, 2]) := by
      interval_cases i <;> rfl
    rw [checkStep_getLsbD _ _ _ hi, hpoly]
    rfl
  · have hpoly : (0x1021#16).getLsbD i = decide (i ∈ [0, 5, 12]) := by
      interval_cases i <;> rfl
    rw [checkStep_getLsbD _ _ _ hi, hpoly]
    rfl
  · rw [headerCheck, headerBits, bitsHighFirst_eq, bitsHighFirst_eq, bitsHighFirst_eq]

/-! ### Formed packets -/

theorem formedPacket : Clauses.FormedPacket := by
  rintro kind address parity payload p rfl
  refine ⟨rfl, rfl, rfl, rfl, rfl, ?_, fun hl => ?_, ?_, rfl⟩
  · cases kind <;> rfl
  · simp only [Packet.framedRight, formPacket, BitVec.toNat_ofNat, beq_iff_eq]
    omega
  · simp only [packetPeriods, lineBits, formPacket, headerBits, List.length_append, bitsHighFirst_length,
      payloadBits_length, List.length_singleton]
    omega

/-- Settles O38. -/
theorem formedPacketPassesChecks : Obligations.FormedPacketPassesChecks := ⟨formedPacket, checkFields, bitsOnLine⟩

end Sys2Proof.Machine
end

