-- ==== Sys2Proof/Proofs/Outcomes.lean ====
section
/-! Outcomes: how XE hands one over, when it waits, and what SM does on it (R114). -/

namespace Sys2Proof.Machine

variable {s : State} {t : Turn} {n : Stn}

/-! ### Handing over -/

namespace State

/-- The turn holds the outcome with its mark, and the staging buffer is empty. -/
theorem setOutcome_eq (ht : s.xe.turn = some t) (o : Outcome) (m : TurnMark) :
    s.setOutcome o m = { s with xe := ⟨some { t with stage := .handed o m }, []⟩ } := by
  simp only [setOutcome, modTurn_of ht, modXe]

theorem hasOp_eq_false_iff : s.hasOp n = false ↔ (s.st n).op = none := by
  simp only [hasOp, Option.isSome_eq_false_iff, Option.isNone_iff_eq_none]

theorem hasOp_eq_true_iff : s.hasOp n = true ↔ (s.st n).op ≠ none := by
  simp only [hasOp, Option.isSome_iff_ne_none]

theorem takeOutcome_of_handed {o : Outcome} {m : TurnMark} (ht : s.xe.turn = some t) (hstage : t.stage = .handed o m)
    (hop : (s.st t.station).op = none) : s.takeOutcome = s.actOn t o := by
  simp only [takeOutcome, ht, hasOp_eq_false_iff.mpr hop, Bool.false_eq_true, if_false, hstage]

theorem takeOutcome_of_not_handed (ht : s.xe.turn = some t) (hstage : ∀ o m, t.stage ≠ .handed o m) :
    s.takeOutcome = s := by
  simp only [takeOutcome, ht]
  cases h : t.stage with
  | handed o m => exact absurd h (hstage o m)
  | _ => exact ite_self s

end State

theorem outcomeHandedOver : Clauses.OutcomeHandedOver := by
  intro s u t outcome mark ht hu
  have hset := State.setOutcome_eq ht outcome mark
  refine ⟨fun hop => ?_, fun hop => ?_, fun hstage hop => State.takeOutcome_of_handed ht hstage hop,
    State.takeOutcome_of_not_handed ht⟩
  · rw [State.handOver_acts ht (State.hasOp_eq_false_iff.mpr hop), hset, ← hu]
  · rw [State.handOver_waits ht (State.hasOp_eq_true_iff.mpr hop), hset, ← hu]

/-! ### Acting on an outcome -/

theorem stateAfter_of_peek (hk : t.kind = .peek) (held : Bool) (st : Station) : t.stateAfter held st =
    if t.grantedFrom = .holding ∧ st.holdExpired = true then .ready else t.grantedFrom := if_pos hk

theorem stateAfter_of_not_peek (hk : t.kind ≠ .peek) (held : Bool) (st : Station) :
    t.stateAfter held st = if held = true then .holding else .ready := if_neg hk

theorem countsInBlock_iff : s.countsInBlock t = true ↔ t.kind ∈ [.order, .put, .fetch, .ask]
    ∨ (t.kind = .sync ∧ ∃ f, (s.st t.station).inFlight = some f ∧ f.host.kind = some .resync) := by
  unfold State.countsInBlock
  cases (s.st t.station).inFlight <;> cases t.kind <;> simp

theorem lapsedOut_of_turn (ht : s.xe.turn = some t) :
    s.lapsedOut n = true ↔ t.lapsed = true ∧ s.header.lapseLimit ≤ (s.st n).lapses := by
  rw [lapsedOut_iff, ht]
  simp

theorem lapsedOut_eq_false (ht : s.xe.turn = some t) (h : t.lapsed = false ∨ (s.st n).lapses < s.header.lapseLimit) :
    s.lapsedOut n = false := by
  rw [← Bool.not_eq_true, lapsedOut_of_turn ht]
  rintro ⟨h1, h2⟩
  obtain h | h := h
  · rw [h] at h1; cases h1
  · omega

/-- The block retires within the turn, with resync pending where the outcome sets it (R20). -/
theorem retireInTurn_eq {f : InFlight} (hf : (s.st n).inFlight = some f) (c : Condition) (resync : Bool) (residue : Nat)
    (report : List Byte) : s.retireInTurn n c resync residue report =
      State.askSm .resultWrite (some n) (f.address + 0x40#32) 48
        (resultSection c f.phase f.attempts f.holds f.moved f.host.dataLength residue (s.st n).retireCount report)
        (s.modSt n fun st => { st with
          resyncPending := if resync then true else st.resyncPending
          op := some ⟨.turn, .result ⟨f.address, true, f.host.notify, f.host.haltOnError, c, .turn⟩,
            st.parked, false, false, st.snapshot⟩ }) := by
  rw [State.retireInTurn, State.startOp_eq, State.modSt_modSt, State.retireInFlight_modSt hf]
  refine congrArg (State.askSm _ _ _ _ _) (State.modSt_congr _ _ ?_)
  cases resync <;> rfl

/-- EXHAUSTED, in the order it is judged (R116, R125). -/
theorem actOn_exhausted (request : PacketKind) : s.actOn t (.exhausted request) =
    if request = .opening then s.enterLost t.station .turn
    else if s.countsInBlock t then s.retireInTurn t.station .lineFault true 0 noReport
    else if s.lapsedOut t.station then s.enterLost t.station .turn
    else s.finishTurn (t.stateAfter false (s.st t.station)) := rfl

theorem outcomeActedOn : Clauses.OutcomeActedOn := by
  rintro s t n ht rfl
  have hsync : ∀ {P : Prop}, t.kind = .peek → ¬(t.kind = .sync ∧ P) := fun hk h => by rw [hk] at h; cases h.1
  refine ⟨fun hk hnone => ?_, fun hk hnot => ?_, fun hk => ?_, fun hk => ?_, fun hk => ?_,
    fun f c resync residue report hf => retireInTurn_eq hf c resync residue report,
    fun request hrequest => ⟨fun hc => ?_, fun hc hl hlimit => ?_, fun hc hk hl => ?_, fun hk hl => ?_⟩, ?_⟩
  · exact if_pos ⟨hk, hnone⟩
  · rw [State.actOn, if_neg hnot, stateAfter_of_not_peek hk]
    rfl
  · rw [State.actOn, if_neg hk, stateAfter_of_not_peek hk]
    rfl
  · rw [State.actOn, if_neg (hsync hk), stateAfter_of_peek hk]
  · rw [State.actOn, if_pos hk, stateAfter_of_peek hk]
    rfl
  · rw [actOn_exhausted, if_neg hrequest, if_pos hc]
    rfl
  · rw [actOn_exhausted, if_neg hrequest, if_neg (by simp [hc]), if_pos ((lapsedOut_of_turn ht).mpr ⟨hl, hlimit⟩)]
  · rw [actOn_exhausted, if_neg hrequest, if_neg (by simp [hc]), if_neg (by simp [lapsedOut_eq_false ht hl]),
      stateAfter_of_not_peek (by rw [hk]; decide)]
    rfl
  · have hc : s.countsInBlock t = false := by rw [State.countsInBlock, hk]
    rw [actOn_exhausted, if_neg hrequest, if_neg (by simp [hc]), if_neg (by simp [lapsedOut_eq_false ht hl]),
      stateAfter_of_peek hk]
  · rw [actOn_exhausted, if_pos rfl]

end Sys2Proof.Machine
end

