-- ==== Sys2Proof/Proofs/Answers.lean ====
section
/-! Answers to the requests of a turn: what each makes of the context, the block in flight and the turn (chapters 5, 6,
8 and 9). -/

namespace Sys2Proof.Machine

variable {s : State} {t : Turn} {n : Stn}

/-! ### Changes of the block in flight -/

/-- The block in flight changes with the context (R94, R95, R101). -/
theorem modInFlight_eq {f : InFlight} (hf : (s.st n).inFlight = some f) (g : InFlight → InFlight) :
    s.modInFlight n g = s.modSt n fun st => { st with inFlight := some (g f) } := by
  rw [State.modInFlight]
  exact State.modSt_congr _ _ (by rw [hf]; rfl)

theorem modInFlight_modSt {h : Station → Station} {f : InFlight} (hf : (h (s.st n)).inFlight = some f)
    (g : InFlight → InFlight) :
    (s.modSt n h).modInFlight n g = s.modSt n fun st => { h st with inFlight := some (g f) } := by
  rw [State.modInFlight, State.modSt_modSt]
  exact State.modSt_congr _ _ (by rw [hf]; rfl)

/-- `InFlight.advance`, field by field (R94). -/
theorem advance_eq (k : Nat) (ended : Bool) (f : InFlight) : f.advance k ended = { f with
    moved := f.moved + k
    cursor := f.cursor + BitVec.ofNat 32 k
    phase := if f.moved + k = f.host.dataLength ∨ ended = true then .report else f.phase } := by
  rw [InFlight.advance]
  simp only [or_comm]

/-! ### The turn, where it stands -/

theorem takeFinding_of_request (h : t.stage = .request) (f : Finding) (quiet : Bool) :
    s.takeFinding t f quiet = s.requestFinding t f quiet := by rw [State.takeFinding, h]

/-- An answer to the turn's own request clears the lapse count first (R131). -/
theorem takeFinding_of_answer (h : t.stage = .request) (hopen : t.opening = false) (kind : PacketKind) (parity : Bool)
    (data : List Byte) (quiet : Bool) : s.takeFinding t (.answer kind parity data) quiet =
      s.answered t kind parity data quiet := by
  rw [takeFinding_of_request h]
  exact if_neg (by simp [hopen])

/-- The part's ACCEPT asked for, with what it acknowledges (R82, R99). -/
theorem sendAccept_eq (ht : s.xe.turn = some t) (what : Acknowledged) (parity quiet : Bool) :
    s.sendAccept t what parity quiet = State.askLp
      ⟨.accept, BitVec.ofNat 7 (s.config t.station).linkAddress, parity, []⟩ quiet
      { s with xe := { s.xe with turn := some { t with stage := .accept what } } } := by
  rw [State.sendAccept, State.modTurn_of ht]
  rfl

/-- Clearing the lapse count leaves the cached configuration. -/
theorem config_lapses (s : State) (n : Stn) : (s.modSt n fun st => { st with lapses := 0 }).config n = s.config n := by
  rw [State.config, State.st_modSt_self]
  rfl

/-- A taken DATA or REPORT stands in the staging buffer while its ACCEPT is asked for (R105, R111). -/
theorem acceptOfStaged_eq (ht : s.xe.turn = some t) (what : Acknowledged) (parity quiet : Bool) (data : List Byte) :
    ((s.modSt t.station fun st => { st with lapses := 0 }).modXe fun x => { x with staging := data }).sendAccept t what
        parity quiet =
      State.askLp ⟨.accept, BitVec.ofNat 7 (s.config t.station).linkAddress, parity, []⟩ quiet
        (({ s with xe := ⟨some { t with stage := .accept what }, data⟩ } : State).modSt t.station fun st =>
          { st with lapses := 0 }) := by
  have hconfig : ((s.modSt t.station fun st => { st with lapses := 0 }).modXe fun x => { x with staging := data }).config
      t.station = s.config t.station := config_lapses s t.station
  rw [sendAccept_eq (s := (s.modSt t.station fun st => { st with lapses := 0 }).modXe fun x =>
    { x with staging := data }) ht, hconfig]
  rfl

/-- DATA to a FETCH is staged, and acknowledged (R105). -/
theorem answered_fetch (hk : t.kind = .fetch) (parity quiet : Bool) (data : List Byte) :
    s.answered t .data parity data quiet =
      ((s.modSt t.station fun st => { st with lapses := 0 }).modXe fun x => { x with staging := data }).sendAccept t .data
        parity quiet := by
  simp only [State.answered, hk]

/-- REPORT to an ASK is staged, and acknowledged (R111). -/
theorem answered_ask (hk : t.kind = .ask) (parity quiet : Bool) (data : List Byte) :
    s.answered t .report parity data quiet =
      ((s.modSt t.station fun st => { st with lapses := 0 }).modXe fun x => { x with staging := data }).sendAccept t
        .report parity quiet := by
  simp only [State.answered, hk]

/-! ### Exchange answers -/

/-- HOLD to an exchange request: the counts, and the hold limit judged on the block's (R95, R96). -/
theorem heldExchange_eq {f : InFlight} {u : State} (hf : (s.st t.station).inFlight = some f)
    (hu : u = s.modSt t.station fun st => { st with
      totalHolds := min (st.totalHolds + 1) 65535, inFlight := some { f with holds := min (f.holds + 1) 255 } }) :
    s.heldExchange t = if (s.config t.station).holdLimit ≠ 0 ∧ min (f.holds + 1) 255 = (s.config t.station).holdLimit
      then u.handOver (.retire .holdLimit true 0 noReport) .answered else u.handOver .hold .answered := by
  have hcounted : (s.modInFlight t.station fun f => { f with holds := bump 255 f.holds }).modSt t.station (fun st =>
      { st with totalHolds := bump 65535 st.totalHolds }) = u := by
    rw [modInFlight_eq hf, State.modSt_modSt, hu]
    rfl
  have hconfig : u.config t.station = s.config t.station := by rw [hu, State.config, State.st_modSt_self]; rfl
  have hholds : (u.st t.station).inFlight.map (·.holds) = some (min (f.holds + 1) 255) := by
    rw [hu, State.st_modSt_self]
    rfl
  simp only [State.heldExchange, hcounted, hconfig, hholds, Option.some.injEq]

theorem exchangeAnswersTaken : Clauses.ExchangeAnswersTaken := by
  rintro s t f parity quiet kind length data n ht rfl hstage hopen hf
  have hanswer := fun k => takeFinding_of_answer (s := s) hstage hopen k parity data quiet
  have hturn : (s.modSt t.station fun st => { st with lapses := 0 }).xe.turn = some t := ht
  have hflight : ((s.modSt t.station fun st => { st with lapses := 0 }).st t.station).inFlight = some f := by
    rw [State.st_modSt_self]; exact hf
  refine ⟨fun hk => ?_, fun hk => ?_, fun hk => ?_, fun hk => ?_, fun hk => ?_, fun hk => ⟨fun u hu => ?_, ?_⟩, ?_, ?_,
    ?_⟩
  · rw [hanswer]
    simp only [State.answered, hk, State.orderAccepted, State.modSt_modSt]
    rw [modInFlight_modSt hf]
  · rw [hanswer]
    simp only [State.answered, hk, State.putAccepted, State.modSt_modSt]
    rw [modInFlight_modSt hf, advance_eq]
    simp only [Bool.false_eq_true, or_false]
  · rw [hanswer]
    obtain hk | hk := hk <;> simp only [State.answered, hk, State.dataFinished] <;> rw [modInFlight_modSt hf]
  · rw [hanswer, answered_fetch hk, acceptOfStaged_eq ht]
  · rw [hanswer, answered_ask hk, acceptOfStaged_eq ht]
  · have hheld : s.takeFinding t (.answer .hold parity data) quiet =
        (s.modSt t.station fun st => { st with lapses := 0 }).heldExchange t := by
      rw [hanswer]
      simp only [List.mem_cons, List.not_mem_nil, or_false] at hk
      obtain hk | hk | hk | hk := hk <;> simp only [State.answered, hk]
    have hcounts := heldExchange_eq (u := u) hflight (by rw [hu, State.modSt_modSt])
    rw [config_lapses] at hcounts
    exact ⟨fun h1 h2 => by rw [hheld, hcounts, if_pos ⟨h1, h2⟩], fun h => by rw [hheld, hcounts, if_neg h]⟩
  · rw [hanswer]
    simp only [List.mem_cons, List.not_mem_nil, or_false] at hk
    obtain hk | hk | hk | hk := hk <;> simp only [State.answered, hk]
  · rw [takeFinding_of_request hstage]
    rfl
  · rw [takeFinding_of_request hstage, State.requestFinding, sendAccept_eq hturn, config_lapses]
    rfl
  · rw [takeFinding_of_request hstage, State.requestFinding, sendAccept_eq hturn, config_lapses]
    rfl

/-- Settles O40. -/
theorem exchangeAnswersAndOutcomes : Obligations.ExchangeAnswersAndOutcomes :=
  ⟨outcomeHandedOver, outcomeActedOn, exchangeAnswersTaken⟩

/-! ### The part's ACCEPT -/

theorem takeFinding_of_sent {what : Acknowledged} (h : t.stage = .accept what) (quiet : Bool) :
    s.takeFinding t .sent quiet = s.acceptSent t what := by
  rw [State.takeFinding, h]
  exact if_pos rfl

theorem takeFinding_of_abandoned {what : Acknowledged} (h : t.stage = .accept what) {g : Finding} (hg : g ≠ .sent)
    (quiet : Bool) : s.takeFinding t g quiet = s.acceptAbandoned t what quiet := by
  rw [State.takeFinding, h]
  exact if_neg hg

/-- `k` bytes of a DATA are in memory: the block advances by them, and ends its data phase when short (R105). -/
theorem dataTaken_eq {h : Station → Station} {f : InFlight} (hf : (h (s.st t.station)).inFlight = some f) (k : Nat) :
    (s.modSt t.station h).dataTaken t k = (s.modSt t.station fun st => { h st with inFlight := some { f with
      moved := f.moved + k
      cursor := f.cursor + BitVec.ofNat 32 k
      phase := if f.moved + k = f.host.dataLength ∨ k < t.size then .report else f.phase } }).handOver
        .cont .answered := by
  rw [State.dataTaken, modInFlight_modSt hf, advance_eq]
  simp only [decide_eq_true_eq]

/-- Settles O41. -/
theorem partAcceptSentOrAbandoned : Obligations.PartAcceptSentOrAbandoned := by
  rintro s u t f quiet n what g ht rfl hstage hf hu
  have hflight : (u.st t.station).inFlight = some f := by rw [hu, State.st_modSt_self]; exact hf
  refine ⟨?_, ?_, ?_, ?_, ?_, ?_, ?_⟩
  · rintro rfl
    by_cases hg : g = .sent
    · rw [hg, takeFinding_of_sent hstage]
      rfl
    · rw [takeFinding_of_abandoned hstage hg]
      rfl
  · rintro rfl hempty
    rw [takeFinding_of_sent hstage, State.acceptSent]
    simp only [hempty, List.length_nil, if_true]
    rw [dataTaken_eq hf, hu, State.modSt_modSt]
    simp only [Nat.add_zero, BitVec.add_zero]
  · rintro rfl hfull
    rw [takeFinding_of_sent hstage, State.acceptSent]
    simp only [List.length_eq_zero_iff, hfull, if_false]
    rw [State.modTurn_of (s := s.modSt t.station fun st => { st with getParity := !st.getParity }) ht, hf, hu]
    rfl
  · rintro rfl hlegal
    rw [takeFinding_of_sent hstage, State.acceptSent]
    simp only [← hu, State.checkReport, hflight, hlegal, if_true]
    rw [modInFlight_eq hflight]
    rfl
  · rintro rfl hlegal
    rw [takeFinding_of_sent hstage, State.acceptSent]
    simp only [← hu, State.checkReport, hflight, hlegal, Bool.false_eq_true, if_false]
  · rintro rfl
    rw [takeFinding_of_sent hstage, State.acceptSent, ← hu]
  · intro hwhat
    rw [takeFinding_of_abandoned hstage (by nofun)]
    cases what with
    | duplicate => exact absurd rfl hwhat
    | _ => rfl

/-- Settles O42. -/
theorem reportChecksAndCondition : Obligations.ReportChecksAndCondition := by
  intro h moved d
  refine ⟨?_, fun h2 => ?_, fun h1 => ?_, fun h0 hm ha => ?_, fun h0 hm => ?_⟩
  · have hstatus : (byteAt d 8).toNat ≤ 2 ↔ (byteAt d 8).toNat ∈ [0, 1, 2] := by
      simp only [List.mem_cons, List.not_mem_nil, or_false]
      omega
    simp only [reportLegal, Bool.and_eq_true, beq_iff_eq, decide_eq_true_eq, hstatus, and_assoc]
    rfl
  · rw [reportCondition, if_pos h2]
  · rw [reportCondition, if_neg (by omega), if_pos h1]
  · rw [reportCondition, if_neg (by omega), if_neg (by omega), if_pos ⟨hm, ha⟩]
  · rw [reportCondition, if_neg (by omega), if_neg (by omega), if_neg]
    rintro ⟨h1, h2⟩
    obtain h | h := hm
    · omega
    · rw [h2] at h; cases h

/-! ### The PUT read and the drain -/

/-- Settles O39. -/
theorem putReadStagesAndDrainAdvances : Obligations.PutReadStagesAndDrainAdvances := by
  intro s t r f ht
  refine ⟨fun data quiet hr hl hstage => ?_, fun hr hstage hf => ?_⟩
  · have hturn : s.afterRead.xe.turn = some t := ht
    change execPutRead data quiet s = _
    rw [execPutRead, State.whenRead_of hr.1 hr.2 rfl hl]
    simp only [hturn, hstage, if_true]
    exact congrArg (fun x => Host.Outcome.next (State.beginSending quiet
      { s.afterRead with xe := ⟨x, data⟩ }).serveMemory) ht
  · have hturn : (s.afterWrite r).xe.turn = some t := ht
    have hflight : ((s.afterWrite r).st t.station).inFlight = some f := hf
    change execDrain s = _
    rw [execDrain, State.whenDone_of hr.1 hr.2 rfl]
    simp only [hturn, hstage, if_true, State.dataTaken]
    rw [modInFlight_eq hflight, advance_eq]
    simp only [decide_eq_true_eq]

/-! ### SYNC and OPEN -/

/-- ACCEPT to SYNC: both parities are zeroed, and a RESYNC block retires (R124). -/
theorem syncAccepted_eq {u : State} (hstage : t.stage = .request) (hopen : t.opening = false) (hk : t.kind = .sync)
    (parity quiet : Bool) (hu : u = s.modSt t.station fun st =>
      { st with putParity := false, getParity := false, resyncPending := false, lapses := 0 }) :
    s.takeFinding t (.answer .accept parity []) quiet =
      if (s.st t.station).inFlight.map (·.host.kind) = some (some .resync) then
        u.handOver (.retire .clean false 0 noReport) .answered else u.handOver .cont .answered := by
  have hflight : (u.st t.station).inFlight = (s.st t.station).inFlight := by rw [hu, State.st_modSt_self]
  rw [takeFinding_of_answer hstage hopen]
  simp only [State.answered, hk, State.syncAccepted, State.modSt_modSt, ← hu, hflight]

/-- Settles O43. -/
theorem syncAndOpenAccepted : Obligations.SyncAndOpenAccepted := by
  rintro s u t parity quiet n ht rfl hstage hu
  refine ⟨fun hopen hk hnone => ?_, fun f hopen hk hf hkind => ?_, fun f hopen hk hf hkind => ?_,
    fun b p hopen hroute => ?_⟩
  · rw [syncAccepted_eq hstage hopen hk parity quiet hu, hnone]
    rfl
  · rw [syncAccepted_eq hstage hopen hk parity quiet hu, hf]
    exact if_pos (congrArg some hkind)
  · rw [syncAccepted_eq hstage hopen hk parity quiet hu, hf]
    exact if_neg fun h => hkind (Option.some.inj h)
  · rw [takeFinding_of_request hstage]
    simp only [State.requestFinding, hopen, if_true, State.openAccepted, hroute]
    rw [State.modTurn_of (s := s.setRoute b (.opened p)) ht]
    rfl

/-! ### Attempt failures -/

theorem isFailure_iff (g : Finding) : g.isFailure = true ↔
    g = .noAnswer ∨ g = .garbled ∨ g = .stray ∨ g = .wrongKind ∨ g = .sequence := by
  cases g <;> simp [Finding.isFailure]

/-- The counts an attempt failure raises (R98, R125). -/
theorem countFailure_eq (ht : s.xe.turn = some t) : s.countFailure t =
    ({ s with xe := { s.xe with turn := some { t with attempts := t.attempts + 1 } } } : State).modSt t.station fun st =>
      { st with
        totalFailed := min (st.totalFailed + 1) 65535
        inFlight := if s.countsInBlock t then
            st.inFlight.map fun f => { f with attempts := min (f.attempts + 1) 255 }
          else st.inFlight } := by
  have hcounted : ((s.modSt t.station fun st => { st with totalFailed := bump 65535 st.totalFailed }).modTurn fun t =>
      { t with attempts := t.attempts + 1 })
      = ({ s with xe := { s.xe with turn := some { t with attempts := t.attempts + 1 } } } : State).modSt t.station
        fun st => { st with totalFailed := min (st.totalFailed + 1) 65535 } := by
    rw [State.modTurn_of (s := s.modSt t.station fun st => { st with totalFailed := bump 65535 st.totalFailed }) ht]
    rfl
  have hblock : (({ s with xe := { s.xe with turn := some { t with attempts := t.attempts + 1 } } } : State).modSt
      t.station fun st => { st with totalFailed := min (st.totalFailed + 1) 65535 }).countsInBlock t
      = s.countsInBlock t := by
    simp only [State.countsInBlock, State.st_modSt_self]
    rfl
  simp only [State.countFailure, hcounted, hblock]
  by_cases h : s.countsInBlock t = true
  · simp only [h, if_true, State.modInFlight, State.modSt_modSt]
    rfl
  · simp only [h, Bool.false_eq_true, if_false]

/-- Settles O44. -/
theorem attemptFailureResendsOrExhausts : Obligations.AttemptFailureResendsOrExhausts := by
  rintro s u t g quiet n ht rfl hstage hg hu
  have hfailure : s.takeFinding t g quiet = s.attemptFailure t quiet := by
    rw [takeFinding_of_request hstage]
    obtain rfl | rfl | rfl | rfl | rfl := (isFailure_iff g).mp hg <;> rfl
  have hcount : s.countFailure t = u := by rw [countFailure_eq ht, hu]
  refine ⟨fun hl => ?_, fun hl hopen => ?_, fun hl hopen => ?_, countsInBlock_iff, isFailure_iff g⟩
  · simp only [hfailure, State.attemptFailure, hcount, if_pos hl]
  · simp only [hfailure, State.attemptFailure, hcount, if_neg (Nat.not_lt_of_le hl), hopen, if_true]
  · simp only [hfailure, State.attemptFailure, hcount, if_neg (Nat.not_lt_of_le hl), hopen, Bool.false_eq_true, if_false]

end Sys2Proof.Machine
end

