-- ==== Sys2Proof/Proofs/OneStation.lean ====
section
/-! SM's work on one station: it touches no other context, no turn and no route. -/

namespace Sys2Proof.Machine

/-- `t` comes of `s` by work of SM on station `n` alone: the turn, the routes, the registers, what a restart
still calls for and every other context stand. -/
structure OnStation (n : Stn) (s t : State) : Prop where
  xe : t.xe = s.xe
  rm : t.rm = s.rm
  rw : t.rw = s.rw
  restart : t.sm.restartPending = s.sm.restartPending ∧ t.sm.followDue = s.sm.followDue
  others : ∀ m, m ≠ n → t.st m = s.st m

namespace OnStation

variable {n : Stn} {s t u : State}

theorem refl (n : Stn) (s : State) : OnStation n s s := ⟨rfl, rfl, rfl, ⟨rfl, rfl⟩, fun _ _ => rfl⟩

theorem trans (a : OnStation n s t) (b : OnStation n t u) : OnStation n s u :=
  ⟨b.xe.trans a.xe, b.rm.trans a.rm, b.rw.trans a.rw,
    ⟨b.restart.1.trans a.restart.1, b.restart.2.trans a.restart.2⟩, fun m h => (b.others m h).trans (a.others m h)⟩

theorem ite {p : Prop} [Decidable p] (ha : OnStation n s t) (hb : OnStation n s u) :
    OnStation n s (if p then t else u) := by
  split <;> assumption

theorem modSt (n : Stn) (s : State) (f : Station → Station) : OnStation n s (s.modSt n f) :=
  ⟨rfl, rfl, rfl, ⟨rfl, rfl⟩, fun _ h => State.st_modSt_of_ne s h f⟩

theorem askSm (n : Stn) (s : State) (k : RequestKind) (p : Option Stn) (a : Addr) (l : Nat) (d : List Byte) :
    OnStation n s (s.askSm k p a l d) := ⟨rfl, rfl, rfl, ⟨rfl, rfl⟩, fun _ _ => rfl⟩

theorem setNotice (n : Stn) (s : State) : OnStation n s (s.setNotice n) := ⟨rfl, rfl, rfl, ⟨rfl, rfl⟩, fun _ _ => rfl⟩

theorem setStage (n : Stn) (s : State) (g : Stage) : OnStation n s (s.setStage n g) := by
  unfold State.setStage State.modOp
  exact modSt n s _

theorem startOp (n : Stn) (s : State) (j : Job) (g : Stage) : OnStation n s (s.startOp n j g) := by
  unfold State.startOp
  exact modSt n s _

theorem enterState (n : Stn) (s : State) (new : StationState) : OnStation n s (s.enterState n new) := by
  unfold State.enterState
  exact modSt n s _

theorem endOp (n : Stn) (s : State) : OnStation n s (s.endOp n) := by
  unfold State.endOp
  exact modSt n s _

theorem askStatus (n : Stn) (s : State) : OnStation n s (s.askStatus n) := (askSm n s ..).trans (modSt n _ _)

theorem finish (n : Stn) (s : State) : OnStation n s ((s.setStage n .final).askStatus n) :=
  (setStage n s _).trans (askStatus n _)

theorem retireInFlight (n : Stn) (s : State) (c : Condition) (k : Nat) (r : List Byte) (a : After) :
    OnStation n s (s.retireInFlight n c k r a) := by
  unfold State.retireInFlight
  split
  · exact refl n s
  · exact (setStage n s _).trans (askSm n _ ..)

theorem asksCandidate (n : Stn) (s : State) (p : Option Addr) : OnStation n s (s.asksCandidate n p) := by
  unfold State.asksCandidate
  split <;> exact askSm n _ ..

theorem follow (n : Stn) (s : State) (j : Job) : OnStation n s (s.follow n j) := by
  rw [State.follow_eq]
  exact (modSt n s _).trans (asksCandidate n _ _)

/-- Entry into LOST outside the station's own turn, or in the turn of a cascade, which goes on (R46, R151). -/
theorem lostTail (n : Stn) (s : State) (h : (s.st n).op.map Operation.job = some .turn →
    s.xe.turn.map Turn.stage = some .cascade) : OnStation n s (s.lostTail n) := by
  have hbegin : OnStation n s ((s.modSt n fun st => { st with resyncPending := true }).setNotice n) :=
    (modSt n s _).trans (setNotice n _)
  unfold State.lostTail
  refine hbegin.trans ?_
  have hop : (((s.modSt n fun st => { st with resyncPending := true }).setNotice n).st n).op = (s.st n).op := by simp
  dsimp only
  rw [hop]
  split
  · next hj =>
    split
    · exact endOp n _
    · next hturn => exact absurd (h hj) hturn
  · exact (enterState n _ _).trans (finish n _)

theorem enterLost (n : Stn) (s : State) (j : Job) (h : j = .turn → s.xe.turn.map Turn.stage = some .cascade) :
    OnStation n s (s.enterLost n j) := by
  have hbegin : OnStation n s ((s.startOp n j .final).modSt n Station.clearCountdowns) :=
    (startOp n s _ _).trans (modSt n _ _)
  unfold State.enterLost
  refine hbegin.trans ?_
  dsimp only
  split
  · exact retireInFlight n _ ..
  · refine lostTail n _ fun hj => h ?_
    simpa [Station.clearCountdowns] using hj

theorem endRestart (n : Stn) (s : State) (b : Bool) : OnStation n s (s.endRestart n b) := by
  unfold State.endRestart
  dsimp only
  refine trans ?_ (finish n _)
  exact ite (ite ((modSt n s _).trans (enterState n _ _))
    (((modSt n s _).trans (enterState n _ _)).trans (modSt n _ _))) (modSt n s _)

theorem beginRestart (n : Stn) (s : State) : OnStation n s (s.beginRestart n) := by
  have hbegin : OnStation n s ((s.startOp n .restart .final).modSt n fun st => { st with restartOwed := false }) :=
    (startOp n s _ _).trans (modSt n _ _)
  unfold State.beginRestart
  dsimp only
  split
  · exact ite (hbegin.trans (endRestart n _ _)) (hbegin.trans (retireInFlight n _ ..))
  · exact hbegin.trans (endRestart n _ _)

theorem takeRestart (n : Stn) (s : State) : OnStation n s (s.takeRestart n) :=
  ite (ite (modSt n s _) (beginRestart n s)) (refl n s)

theorem restartFollow (n : Stn) (s : State) : OnStation n s (s.restartFollow n) :=
  ite (ite (follow n s _) (modSt n s _)) (refl n s)

theorem cascadeTo (n : Stn) (s : State) (b : Fin 8) (m : Stn) : OnStation n s (s.cascadeTo b m n) := by
  unfold State.cascadeTo
  split
  · exact ite (ite (modSt n s _) (enterLost n s _ nofun)) (refl n s)
  · exact refl n s

/-- Work on every station in turn keeps the turn, the routes, the registers and what a restart still calls for. -/
theorem forStations {f : Stn → State → State} (h : ∀ n s, OnStation n s (f n s)) (s : State) :
    (Machine.forStations f s).xe = s.xe ∧ (Machine.forStations f s).rm = s.rm ∧ (Machine.forStations f s).rw = s.rw
      ∧ (Machine.forStations f s).sm.restartPending = s.sm.restartPending
      ∧ (Machine.forStations f s).sm.followDue = s.sm.followDue :=
  ⟨forStations_same State.xe (fun n s => (h n s).xe) s, forStations_same State.rm (fun n s => (h n s).rm) s,
    forStations_same State.rw (fun n s => (h n s).rw) s,
    forStations_same (fun s => s.sm.restartPending) (fun n s => (h n s).restart.1) s,
    forStations_same (fun s => s.sm.followDue) (fun n s => (h n s).restart.2) s⟩

/-- Work on every station, where each does by its own context alone, does to each what it does to it alone. -/
theorem st_forStations {f : Stn → State → State} (h : ∀ n s, OnStation n s (f n s))
    (hown : ∀ n s t, s.st n = t.st n → (f n s).st n = (f n t).st n) (s : State) (m : Stn) :
    (Machine.forStations f s).st m = (f m s).st m :=
  forStations_at (fun _ => ()) (fun n s => s.st n) (fun _ _ => rfl) (fun n m s hm => (h n s).others m hm)
    (fun n s t _ hst => hown n s t hst) s m

end OnStation

/-! ### What goes on of itself keeps the turn -/

namespace State

variable (s : State)

theorem oweRestarts_keeps : s.oweRestarts.xe = s.xe ∧ s.oweRestarts.rm = s.rm
    ∧ s.oweRestarts.rw = { s.rw with restartHolds := if s.sm.restartPending then false else s.rw.restartHolds } := by
  unfold oweRestarts
  split
  · obtain ⟨hxe, hrm, hrw, -⟩ := OnStation.forStations (f := fun n s => if (s.st n).state = .absent then s
      else s.modSt n fun st => { st with restartOwed := true }) (fun n s => .ite (.refl n s) (.modSt n s _)) s
    simp only [modRw_xe, modSm_xe, modRw_rm, modSm_rm, modRw_rw, modSm_rw, hxe, hrm, hrw, and_self]
  · exact ⟨rfl, rfl, rfl⟩

theorem beginRestarts_xe : s.beginRestarts.xe = s.xe := by
  unfold beginRestarts
  split
  · rfl
  · exact (OnStation.forStations OnStation.takeRestart _).1.trans s.oweRestarts_keeps.1

theorem restartFollows_xe : s.restartFollows.xe = s.xe := by
  unfold restartFollows
  split
  · rfl
  · split
    · simp only [modSm_xe, (OnStation.forStations OnStation.restartFollow s).1]
    · rfl

theorem startPart_xe : s.startPart.xe = s.xe := by
  unfold startPart
  dsimp only
  split <;> rfl

theorem partStep_xe : s.partStep.xe = s.xe := by
  unfold partStep
  split
  · split <;> rfl
  · split
    · dsimp only
      split
      · exact startPart_xe _
      · rfl
    · rfl
  · split
    · exact startPart_xe _
    · rfl
  · rfl
  · rfl

/-- What goes on of itself ends no turn but that of a cascade (R151). -/
theorem settle_xe (h : s.endCascade = s) : s.settle.xe = s.xe := by
  unfold settle
  split
  · rfl
  · rw [h, serveMemory_xe, partStep_xe, restartFollows_xe, beginRestarts_xe]

theorem releaseHeld_keeps (n : Stn) : (s.releaseHeld n).xe = s.xe ∧ (s.releaseHeld n).rw = s.rw := by
  unfold releaseHeld endInterval
  split
  · split <;> exact ⟨rfl, rfl⟩
  · exact ⟨rfl, rfl⟩

theorem takeReread_rw (n : Stn) : (s.takeReread n).rw = s.rw := by
  unfold takeReread
  split
  · split
    · exact (OnStation.follow n s _).rw
    · rfl
  · rfl

theorem leaveTurn_keeps (t : Turn) (r : StationState) : (s.leaveTurn t r).xe = s.xe ∧ (s.leaveTurn t r).rw = s.rw := by
  unfold leaveTurn
  split <;> exact ⟨rfl, rfl⟩

theorem afterTurn_keeps (t : Turn) : (s.afterTurn t).xe = s.xe ∧ (s.afterTurn t).rw = s.rw := by
  have hheld : (if t.kind = .peek then s.releaseHeld t.station else s).xe = s.xe
      ∧ (if t.kind = .peek then s.releaseHeld t.station else s).rw = s.rw := by
    split
    · exact s.releaseHeld_keeps t.station
    · exact ⟨rfl, rfl⟩
  unfold afterTurn
  dsimp only
  generalize (if t.kind = .peek then s.releaseHeld t.station else s) = u at hheld ⊢
  split
  · rw [takeReread_xe, takeReread_rw]; exact hheld
  · exact hheld

/-- A turn that ends leaves no turn, and the registers as they are (R42, R89, R90). -/
theorem finishTurn_keeps {t : Turn} (ht : s.xe.turn = some t) (r : StationState) :
    (s.finishTurn r).xe = ⟨none, []⟩ ∧ (s.finishTurn r).rw = s.rw := by
  simp only [finishTurn, ht]
  obtain ⟨hxe, hrw⟩ := afterTurn_keeps ((s.modXe fun _ => ⟨none, []⟩).leaveTurn t r) t
  obtain ⟨hxe', hrw'⟩ := leaveTurn_keeps (s.modXe fun _ => ⟨none, []⟩) t r
  exact ⟨hxe.trans hxe', hrw.trans hrw'⟩

end State

end Sys2Proof.Machine
end

