-- ==== Sys2Proof/Proofs/Exhaustion.lean ====
section
/-! Exhaustion of a station's request and of an OPEN, the cascade behind a branch, and the end of its turn
(chapters 6 and 8). -/

namespace Sys2Proof.Machine

variable {s : State} {t : Turn} {n : Stn}

/-! ### Slot writes of a turn -/

/-- The record takes the status, the slot is asked for, and the turn waits for it (R161, R163, R164). -/
theorem writeSlot_eq {t' : Turn} (ht : s.xe.turn = some t') (status : SlotStatus) (notify : Bool) :
    s.writeSlot t status notify = State.askSlot t.station (s.config t.station).watchLength
      (({ s with xe := { s.xe with turn := some { t' with stage := .slot notify } } } : State).modWatch t.station
        fun r => { r with status := status }) := by
  exact State.modTurn_of (s := (s.modWatch t.station fun r => { r with status := status }).askSlot t.station
    (s.config t.station).watchLength) ht

/-! ### A request exhausted -/

/-- Doubt about an open entry (R154). -/
theorem doubtRoute_eq_setRoute {b p q : Fin 8} (hroute : (s.config t.station).route = .branch b q)
    (hopened : t.opened = false) (hopen : s.route b = .opened p) : s.doubtRoute t = s.setRoute b .unknown := by
  simp only [State.doubtRoute, hroute, hopened, hopen]

theorem doubtRoute_eq_self_of_direct (hroute : (s.config t.station).route = .direct) : s.doubtRoute t = s := by
  simp only [State.doubtRoute, hroute]

theorem doubtRoute_eq_self {b q : Fin 8} (hroute : (s.config t.station).route = .branch b q)
    (h : ¬(t.opened = false ∧ ∃ p, s.route b = .opened p)) : s.doubtRoute t = s := by
  simp only [State.doubtRoute, hroute]
  split
  · next p hopened hopen => exact absurd ⟨hopened, p, hopen⟩ h
  · rfl

/-- The counts of an exhausted request (R131), whatever became of its route. -/
theorem exhausted_counts (ht : s.xe.turn = some t) :
    (s.modSt t.station fun st => { st with lapses := bump 15 st.lapses }).modTurn (fun t => { t with lapsed := true })
      = ({ s with xe := { s.xe with turn := some { t with lapsed := true } } } : State).modSt t.station fun st =>
        { st with lapses := min (st.lapses + 1) 15 } := by
  rw [State.modTurn_of (s := s.modSt t.station fun st => { st with lapses := bump 15 st.lapses }) ht]
  rfl

theorem requestExhausted : Clauses.RequestExhausted := by
  rintro s u t n ht rfl hu
  have hcounts : ((s.doubtRoute t).modSt t.station fun st => { st with lapses := bump 15 st.lapses }).modTurn
      (fun t => { t with lapsed := true }) = u := by
    rw [hu]
    cases hroute : (s.config t.station).route with
    | direct =>
      rw [doubtRoute_eq_self_of_direct hroute, exhausted_counts ht]
    | branch b q =>
      by_cases hdoubt : t.opened = false ∧ ∃ p, s.route b = .opened p
      · obtain ⟨p, hopen⟩ := hdoubt.2
        rw [doubtRoute_eq_setRoute hroute hdoubt.1 hopen, exhausted_counts (s := s.setRoute b .unknown) ht]
        simp only [hdoubt.1, hopen, RouteEntry.opened.injEq, exists_eq', true_and, if_true]
        rfl
      · rw [doubtRoute_eq_self hroute hdoubt, exhausted_counts ht]
        simp only [hdoubt, if_false]
  have hturn : u.xe.turn = some { t with lapsed := true } := by rw [hu]; rfl
  have hconfig : u.config t.station = s.config t.station := by
    rw [hu, State.config, State.st_modSt_self]
    rfl
  refine ⟨fun hk => ?_, fun hk => ?_, fun hk => ?_, fun hk => ?_, fun hk => ?_, fun hk => ?_⟩
  case refine_6 =>
    simp only [State.exhaustRequest, hcounts, hk]
    rw [writeSlot_eq hturn, hconfig, hu]
    simp only [hk]
    rfl
  all_goals
    simp only [State.exhaustRequest, hcounts, hk]
    rfl

/-! ### An OPEN exhausted -/

/-- The turn is that of a cascade: it goes on past the entry of its station into LOST (R151). -/
def State.cascading (s : State) : Prop := s.xe.turn.map Turn.stage = some .cascade

/-- The station made LOST: its context, whatever else the part is about. -/
theorem st_lostTail_congr {u : State} (h : u.st n = s.st n)
    (hj : (s.st n).op.map Operation.job = some .turn → u.cascading ∧ s.cascading) :
    (u.lostTail n).st n = (s.lostTail n).st n := by
  have hop : ∀ v : State, (((v.modSt n fun st => { st with resyncPending := true }).setNotice n).st n).op
      = (v.st n).op := fun v => by simp
  have hturn : ∀ v : State, ((v.modSt n fun st => { st with resyncPending := true }).setNotice n).xe = v.xe :=
    fun _ => rfl
  simp only [State.lostTail, hop, hturn, h]
  split
  · next hjob =>
    obtain ⟨hu, hs⟩ := hj hjob
    rw [State.cascading] at hu hs
    simp only [hu, hs, if_true]
    simp only [State.endOp, State.st_modSt_self, State.setNotice_st, h]
  · simp [State.askStatus, State.setStage, State.modOp, State.enterState, Station.enter, h]

/-- Entry into LOST goes by the station's own context, outside its own turn or in the turn of a cascade. -/
theorem st_enterLost_congr {u : State} {j : Job} (h : u.st n = s.st n) (hj : j = .turn → u.cascading ∧ s.cascading) :
    (u.enterLost n j).st n = (s.enterLost n j).st n := by
  have hbegin : ((u.startOp n j .final).modSt n Station.clearCountdowns).st n
      = ((s.startOp n j .final).modSt n Station.clearCountdowns).st n := by simp [h]
  simp only [State.enterLost]
  rw [hbegin]
  split
  · next f hf => rw [State.st_retireInFlight _ hf, State.st_retireInFlight _ (hbegin ▸ hf), hbegin]
  · refine st_lostTail_congr hbegin fun hjob => hj ?_
    simpa [Station.clearCountdowns] using hjob

/-- A station that the cascade reaches (R152, R153). -/
def State.behind (s : State) (b : Fin 8) (m : Stn) : Prop :=
  (∃ q, (s.config m).route = .branch b q) ∧ (s.st m).state ≠ .absent ∧ (s.st m).state ≠ .lost

theorem cascadeTo_of_not_behind {b : Fin 8} {m : Stn} (h : n = m ∨ ¬s.behind b n) : s.cascadeTo b m n = s := by
  unfold State.cascadeTo
  split
  · next c q hroute =>
    refine if_neg ?_
    rintro ⟨rfl, hne, habsent, hlost⟩
    exact h.elim hne fun hnot => hnot ⟨⟨q, hroute⟩, habsent, hlost⟩
  · rfl

theorem cascadeTo_of_behind {b : Fin 8} {m : Stn} (hne : n ≠ m) (h : s.behind b n) : s.cascadeTo b m n =
    if s.hasOp n then s.modSt n fun st => { st with owedLost := true } else s.enterLost n (.lost false) := by
  obtain ⟨⟨q, hroute⟩, habsent, hlost⟩ := h
  unfold State.cascadeTo
  simp only [hroute]
  exact if_pos ⟨trivial, hne, habsent, hlost⟩

theorem behind_congr {u : State} (b : Fin 8) (h : u.st n = s.st n) : u.behind b n ↔ s.behind b n := by
  simp only [State.behind, State.config, h]

theorem st_cascadeTo_congr {u : State} (b : Fin 8) (m : Stn) (h : u.st n = s.st n) :
    (u.cascadeTo b m n).st n = (s.cascadeTo b m n).st n := by
  by_cases hreached : n ≠ m ∧ s.behind b n
  · obtain ⟨hne, hbehind⟩ := hreached
    rw [cascadeTo_of_behind hne hbehind, cascadeTo_of_behind hne ((behind_congr b h).mpr hbehind)]
    rw [show u.hasOp n = s.hasOp n by rw [State.hasOp, State.hasOp, h]]
    split
    · rw [State.st_modSt_self, State.st_modSt_self, h]
    · exact st_enterLost_congr h nofun
  · have hnot : n = m ∨ ¬s.behind b n := by tauto
    rw [cascadeTo_of_not_behind hnot, cascadeTo_of_not_behind (hnot.imp_right (mt (behind_congr b h).mp)), h]

/-- An exhausted OPEN, as it stands before SM makes the entries into LOST (R151). -/
def State.openExhausted (s : State) (t : Turn) (b : Fin 8) : State :=
  { s.setRoute b .faulty with xe := ⟨some { t with stage := .handed (.exhausted .opening) .unanswered }, []⟩ }

theorem exhaustOpen_eq {b p : Fin 8} (ht : s.xe.turn = some t) (hroute : (s.config t.station).route = .branch b p) :
    s.exhaustOpen t = (forStations (State.cascadeTo b t.station) (s.openExhausted t b)).takeOutcome := by
  simp only [State.exhaustOpen, hroute]
  rw [State.setOutcome_eq (s := s.setRoute b .faulty) ht]
  rfl

/-- SM takes the outcome of an exhausted OPEN, where no operation on its station is under way. -/
theorem takeOutcome_of_openExhausted {v : State} {b : Fin 8} (hxe : v.xe = (s.openExhausted t b).xe) : v.takeOutcome =
    if v.hasOp t.station then v else v.enterLost t.station .turn := by
  simp only [State.takeOutcome, hxe, State.openExhausted]
  rfl

theorem openExhausted : Clauses.OpenExhausted := by
  intro s t b p m ht hroute
  have hcascade := OnStation.forStations (fun n s => OnStation.cascadeTo n s b t.station) (s.openExhausted t b)
  have hst : ∀ n, (forStations (State.cascadeTo b t.station) (s.openExhausted t b)).st n
      = (s.cascadeTo b t.station n).st n := fun n =>
    (OnStation.st_forStations (fun n s => OnStation.cascadeTo n s b t.station)
      (fun _ _ _ h => st_cascadeTo_congr b t.station h) _ n).trans (st_cascadeTo_congr b t.station rfl)
  rw [exhaustOpen_eq ht hroute]
  generalize forStations (State.cascadeTo b t.station) (s.openExhausted t b) = v at hcascade hst
  obtain ⟨hxe, hrm, -⟩ := hcascade
  have hv : v.cascading := by rw [State.cascading, hxe]; rfl
  have htaken : OnStation t.station v v.takeOutcome := by
    rw [takeOutcome_of_openExhausted hxe]
    exact .ite (.refl _ v) (.enterLost _ v _ fun _ => hv)
  have hown : v.st t.station = s.st t.station := by rw [hst, cascadeTo_of_not_behind (.inl rfl)]
  have hop : v.hasOp t.station = s.hasOp t.station := by rw [State.hasOp, State.hasOp, hown]
  have hroutes : ∀ c, v.takeOutcome.route c = (s.setRoute b .faulty).route c := fun c => by
    rw [State.route, htaken.rm, hrm]
    rfl
  refine ⟨?_, fun c hc => ?_, fun hm h => ?_, fun q hq ha hl hm ho => ?_, fun q hq ha hl hm ho => ?_, fun ho => ?_,
    fun ho => ?_, htaken.xe.trans hxe⟩
  · rw [hroutes, State.route_setRoute_self]
  · rw [hroutes, State.route_setRoute_of_ne _ hc]
  · rw [htaken.others m hm, hst, cascadeTo_of_not_behind (.inr _)]
    rintro ⟨⟨q, hq⟩, ha, hl⟩
    exact h.elim (fun h => h q hq) fun h => h.elim ha hl
  · rw [htaken.others m hm, hst, cascadeTo_of_behind hm ⟨⟨q, hq⟩, ha, hl⟩,
      if_pos (State.hasOp_eq_true_iff.mpr ho), State.st_modSt_self]
  · rw [htaken.others m hm, hst, cascadeTo_of_behind hm ⟨⟨q, hq⟩, ha, hl⟩,
      if_neg (by simp [State.hasOp_eq_false_iff.mpr ho])]
  · rw [takeOutcome_of_openExhausted hxe, if_neg (by simp [hop, State.hasOp_eq_false_iff.mpr ho])]
    exact st_enterLost_congr hown fun _ => ⟨hv, rfl⟩
  · rw [takeOutcome_of_openExhausted hxe, if_pos (by simp [hop, State.hasOp_eq_true_iff.mpr ho]), hown]

/-! ### The end of the turn of a cascade -/

theorem endCascade_eq (ht : s.xe.turn = some t) (hstage : t.stage = .cascade) : s.endCascade =
    if s.hasOp t.station = false ∧ s.anyJob (· == .lost false) = false then s.finishTurn .lost else s := by
  simp only [State.endCascade, ht, hstage, true_and]

theorem anyJob_eq_false_iff {p : Job → Bool} :
    s.anyJob p = false ↔ ∀ n o, s.working n o → ¬p o.job = true := by
  rw [← Bool.not_eq_true, State.anyJob_iff]
  simp only [not_exists, not_and, State.working]

theorem cascadeTurnEnds : Clauses.CascadeTurnEnds := by
  intro s t ht hstage hpart
  refine ⟨fun hop hjobs => ?_, fun h => ?_⟩
  · have hmade : s.anyJob (· == .lost false) = false :=
      anyJob_eq_false_iff.mpr fun n o ho hjob => hjobs n o ho (beq_iff_eq.mp hjob)
    obtain ⟨hxe, hrw⟩ := s.finishTurn_keeps ht .lost
    have hended : (s.finishTurn .lost).endCascade = s.finishTurn .lost :=
      State.endCascade_of_none fun t' ht' => by rw [hxe] at ht'; cases ht'
    have hend : s.endCascade = s.finishTurn .lost := by
      rw [endCascade_eq ht hstage, if_pos ⟨State.hasOp_eq_false_iff.mpr hop, hmade⟩]
    simp only [State.settle, hrw, hpart, if_false, hended, hend]
  · refine State.settle_xe s ?_
    rw [endCascade_eq ht hstage, if_neg]
    rintro ⟨hfree, hmade⟩
    obtain hop | ⟨n, o, ho, hjob⟩ := h
    · exact hop (State.hasOp_eq_false_iff.mp hfree)
    · exact anyJob_eq_false_iff.mp hmade n o ho (beq_iff_eq.mpr hjob)

/-- Settles O45. -/
theorem exhaustionConsequences : Obligations.ExhaustionConsequences :=
  ⟨requestExhausted, openExhausted, cascadeTurnEnds⟩

end Sys2Proof.Machine
end

