-- ==== Sys2Proof/Proofs/Watch.lean ====
section
/-! The watch turn: the answers to PEEK, the slot write, and the end of the turn (chapter 9). -/

namespace Sys2Proof.Machine

variable {s : State} {t : Turn} {n : Stn}

theorem modWatch_modWatch (s : State) (n : Stn) (f g : WatchRecord → WatchRecord) :
    (s.modWatch n f).modWatch n g = s.modWatch n fun r => g (f r) := by
  simp only [State.modWatch, State.modWu, get_set_self, set_set]

/-- A slot write on a record that was just changed is one change of the record. -/
theorem writeSlot_modWatch {t' : Turn} (ht : s.xe.turn = some t') (f : WatchRecord → WatchRecord) (status : SlotStatus)
    (notify : Bool) : (s.modWatch t.station f).writeSlot t status notify =
      State.askSlot t.station (s.config t.station).watchLength
        (({ s with xe := { s.xe with turn := some { t' with stage := .slot notify } } } : State).modWatch t.station
          fun r => { f r with status := status }) := by
  rw [State.writeSlot, modWatch_modWatch]
  exact State.modTurn_of (s := (s.modWatch t.station fun r => { f r with status := status }).askSlot t.station
    (s.config t.station).watchLength) ht

/-! ### The end of a watch turn -/

theorem finishWatch_of_not_lapsed (h : t.lapsed = false) : s.finishWatch t = s.handOver .cont .answered := by
  rw [State.finishWatch, if_neg (by simp [h])]

theorem finishWatch_of_lapsed (h : t.lapsed = true) : s.finishWatch t = s.handOver (.exhausted .peek) .unanswered := by
  rw [State.finishWatch, if_pos h]

/-- A watch turn that goes on leaves its station in the state it was granted from (R42). -/
theorem handOver_cont_peek (ht : s.xe.turn = some t) (hk : t.kind = .peek) (hop : (s.st t.station).op = none) :
    s.handOver .cont .answered = s.finishTurn
      (if t.grantedFrom = .holding ∧ (s.st t.station).holdExpired = true then .ready else t.grantedFrom) := by
  rw [State.handOver_acts ht (State.hasOp_eq_false_iff.mpr hop), State.actOn, if_neg (by simp [hk])]
  rw [State.finishTurn_setOutcome ht]
  exact congrArg (fun r => s.finishTurn r) (stateAfter_of_peek hk false (s.st t.station))

/-- An exhausted PEEK: LOST at the lapse limit, else the turn ends as any other watch turn (R132, R164). -/
theorem handOver_exhausted_peek (ht : s.xe.turn = some t) (hk : t.kind = .peek) (hop : (s.st t.station).op = none) :
    s.handOver (.exhausted .peek) .unanswered =
      if t.lapsed = true ∧ s.header.lapseLimit ≤ (s.st t.station).lapses then
        State.enterLost t.station .turn
          { s with xe := ⟨some { t with stage := .handed (.exhausted .peek) .unanswered }, []⟩ }
      else s.finishTurn
        (if t.grantedFrom = .holding ∧ (s.st t.station).holdExpired = true then .ready else t.grantedFrom) := by
  have hset := State.setOutcome_eq ht (.exhausted .peek) .unanswered
  have hlapsed : (s.setOutcome (.exhausted .peek) .unanswered).lapsedOut t.station = true ↔
      t.lapsed = true ∧ s.header.lapseLimit ≤ (s.st t.station).lapses :=
    lapsedOut_of_turn (t := { t with stage := .handed (.exhausted .peek) .unanswered }) (by rw [hset])
  have hblock : ∀ u : State, u.countsInBlock { t with stage := .handed (.exhausted .peek) .unanswered } = false :=
    fun u => by rw [State.countsInBlock, hk]
  rw [State.handOver_acts ht (State.hasOp_eq_false_iff.mpr hop), actOn_exhausted, if_neg (by decide),
    if_neg (by simp [hblock])]
  by_cases h : t.lapsed = true ∧ s.header.lapseLimit ≤ (s.st t.station).lapses
  · rw [if_pos (hlapsed.mpr h), if_pos h, hset]
  · rw [if_neg (mt hlapsed.mp h), if_neg h, State.finishTurn_setOutcome ht]
    exact congrArg (fun r => s.finishTurn r) (stateAfter_of_peek hk false (s.st t.station))

theorem watchTurnEnds : Clauses.WatchTurnEnds := by
  rintro s t n ht rfl hk
  refine ⟨finishWatch_of_not_lapsed, finishWatch_of_lapsed, fun hop h => ?_, fun hop hl hlimit => ?_,
    lapsedOut_of_turn ht, rfl⟩
  · cases hl : t.lapsed with
    | false => rw [finishWatch_of_not_lapsed hl, handOver_cont_peek ht hk hop]
    | true =>
      rw [finishWatch_of_lapsed hl, handOver_exhausted_peek ht hk hop, if_neg]
      rintro ⟨-, hlimit⟩
      obtain h | h := h
      · rw [hl] at h; cases h
      · omega
  · rw [finishWatch_of_lapsed hl, handOver_exhausted_peek ht hk hop, if_pos ⟨hl, hlimit⟩]

/-! ### The answers to PEEK -/

/-- A value as the last one seen ends the turn, or makes the slot VALID again (R161). -/
theorem stateTaken_same {u : State} {value : List Byte} (hu : (s.modXe fun x => { x with staging := value }) = u)
    (hlast : (s.watch t.station).last = some value) : s.stateTaken t value =
      if (s.watch t.station).status = .valid then (u.leaveDue t.station).finishWatch t
      else u.writeSlot t .valid false := by
  have hwatch : u.watch t.station = s.watch t.station := by rw [← hu]; rfl
  simp only [State.stateTaken, hu, hwatch, if_pos hlast]

/-- A new value is kept and counted, and the slot written (R161). -/
theorem stateTaken_changed {u : State} {value : List Byte} (hu : (s.modXe fun x => { x with staging := value }) = u)
    (hlast : (s.watch t.station).last ≠ some value) : s.stateTaken t value =
      (u.modWatch t.station fun r => { r with last := some value, changes := r.changes + 1 }).writeSlot t .valid
        (u.config t.station).watchNotify := by
  have hwatch : u.watch t.station = s.watch t.station := by rw [← hu]; rfl
  simp only [State.stateTaken, hu, hwatch, if_neg hlast]

theorem watchAnswers : Clauses.WatchAnswers := by
  rintro s u t parity quiet value n ht rfl hstage hopen hk hu
  have hanswer := fun k d => takeFinding_of_answer (s := s) hstage hopen k parity d quiet
  have hstaged : ((s.modSt t.station fun st => { st with lapses := 0 }).modXe fun x => { x with staging := value }) = u := by
    rw [hu, ← ht]
    rfl
  have hxe : u.xe = ⟨some t, value⟩ := by rw [hu]; rfl
  have hturn : u.xe.turn = some t := by rw [hxe]
  have hconfig : u.config t.station = s.config t.station := by
    rw [← hstaged]
    exact config_lapses s t.station
  have hstate : s.takeFinding t (.answer .state parity value) quiet =
      (s.modSt t.station fun st => { st with lapses := 0 }).stateTaken t value := by
    rw [hanswer]
    simp only [State.answered, hk]
  refine ⟨fun hlast hvalid => ?_, fun hlast hvalid => ?_, fun hlast => ?_, ?_, ?_⟩
  · rw [hstate, stateTaken_same hstaged hlast]
    exact if_pos hvalid
  · rw [hstate, stateTaken_same hstaged hlast]
    refine (if_neg hvalid).trans ?_
    rw [writeSlot_eq hturn, hconfig, hxe]
  · rw [hstate, stateTaken_changed hstaged hlast, hconfig, writeSlot_modWatch hturn, hconfig, hxe]
    rfl
  · rw [hanswer]
    simp only [State.answered, hk, State.heldPeek, State.modSt_modSt]
    rfl
  · have hrefused : s.answered t .refuse parity [] quiet =
        (s.modSt t.station fun st => { st with lapses := 0 }).writeSlot t .refused false := by
      simp only [State.answered, hk]
    rw [hanswer, hrefused, writeSlot_eq (s := s.modSt t.station fun st => { st with lapses := 0 }) ht, config_lapses]
    rfl

/-- Settles O46. -/
theorem watchAnswersTaken : Obligations.WatchAnswersTaken := ⟨watchAnswers, watchTurnEnds⟩

/-! ### The slot write -/

theorem slotWrite_of_turn {r : Request} {notify : Bool} (hr : s.inProgress .slotWrite r) (hn : r.station = some n)
    (ht : s.xe.turn = some t) (hstation : t.station = n) (hstage : t.stage = .slot notify) :
    exec .slotWrite s = .next ((s.afterWrite r).slotWritten t notify).settle := by
  have hturn : (s.afterWrite r).xe.turn = some t := ht
  change execSlotWrite s = _
  rw [execSlotWrite, State.whenDone_of hr.1 hr.2 rfl]
  simp only [hturn, hn, hstation, if_true, hstage]

theorem slotWrite_of_application {r : Request} {o : Operation} (hr : s.inProgress .slotWrite r)
    (hn : r.station = some n) (ho : s.working n o) (hturn : ∀ t, s.xe.turn = some t → t.station ≠ n) :
    exec .slotWrite s = (s.afterWrite r).slotOfApplication n o := by
  have hop : ((s.afterWrite r).whenOp r fun n o s => s.slotOfApplication n o)
      = (s.afterWrite r).slotOfApplication n o := State.whenOp_of hn ho
  change execSlotWrite s = _
  rw [execSlotWrite, State.whenDone_of hr.1 hr.2 rfl]
  cases ht : s.xe.turn with
  | none =>
    have ht' : (s.afterWrite r).xe.turn = none := ht
    simp only [ht', hop]
  | some t =>
    have ht' : (s.afterWrite r).xe.turn = some t := ht
    have hother : ¬r.station = some t.station := fun h => hturn t ht (Option.some.inj (h.symm.trans hn))
    simp only [ht', hother, if_false, hop]

/-- Settles O47. -/
theorem slotWriteGoesOn : Obligations.SlotWriteGoesOn := by
  intro s r n hr hn
  refine ⟨fun t notify ht hstation hstage => ?_, fun o hturn ho => ?_⟩
  · rw [slotWrite_of_turn hr hn ht hstation hstage, State.slotWritten, hstation]
  have hwork : (s.afterWrite r).working n o := ho
  have hslot : (s.afterWrite r).modOp n (fun o => { o with slotDue := false })
      = (s.afterWrite r).modSt n fun st => { st with op := some { o with slotDue := false } } :=
    State.modSt_congr _ _ (by rw [show ((s.afterWrite r).st n).op = some o from ho]; rfl)
  rw [slotWrite_of_application hr hn ho hturn]
  refine ⟨fun hstage => ?_, fun hstage => ?_, fun hup hdown hdue => ?_⟩
  · simp only [State.slotOfApplication, hstage, hslot, State.finalApplication_modSt, Option.map_some]
  · simp only [State.slotOfApplication, hstage, endTakeDown_eq hwork]
  · unfold State.slotOfApplication
    split
    · next h => exact absurd h hup
    · next h => exact absurd h hdown
    · rw [if_pos hdue, hslot]

end Sys2Proof.Machine
end

