-- ==== Sys2Proof/Proofs/Timers.lean ====
section
/-! The millisecond expiry, and the countdowns that reach 0 (R18, R19, R43, R143, R158, R159). -/

namespace Sys2Proof.Machine

variable {s : State} {n : Stn}

/-! ### The Interval Timer -/

theorem timerRuns_iff : s.timerRuns = true ↔ s.rw.part = .running ∨ s.rw.part = .stopping := by
  simp only [State.timerRuns, Bool.or_eq_true, beq_iff_eq]

theorem intervalOwed_iff : s.intervalOwed n = true ↔ (s.watch n).active = true ∧ (s.watch n).countdown = 0 := by
  simp only [State.intervalOwed, Bool.and_eq_true, beq_iff_eq]

theorem watchTick_eq (state : StationState) (r : WatchRecord) : r.tick state = { r with
    countdown := if r.active = true ∧ state ≠ .lost then r.countdown - 1 else r.countdown } := by
  unfold WatchRecord.tick
  split <;> rfl

/-! ### All countdowns at an expiry -/

/-- The context and the watch record of every station, after every station has ticked. -/
theorem ticked (s : State) (n : Stn) : (forStations State.tickStation s).st n = (s.st n).tick
    ∧ (forStations State.tickStation s).watch n = (s.watch n).tick (s.st n).state := by
  have hown : ∀ (n : Stn) (s : State), (s.tickStation n).st n = (s.st n).tick
      ∧ (s.tickStation n).watch n = (s.watch n).tick (s.st n).state := fun n s =>
    ⟨State.st_modSt_self .., State.watch_modWatch_self ..⟩
  have hat := forStations_at (fun _ => ()) (fun n s => (s.st n, s.watch n)) (f := State.tickStation) (fun _ _ => rfl)
    (fun n m s hm => Prod.ext (State.st_modSt_of_ne _ hm _) (State.watch_modWatch_of_ne _ hm _))
    (fun n s t _ h => by
      obtain ⟨hst, hwatch⟩ := Prod.mk.inj h
      simp only [hown, hst, hwatch]) s n
  obtain ⟨hst, hwatch⟩ := Prod.mk.inj hat
  exact ⟨hst.trans (hown n s).1, hwatch.trans (hown n s).2⟩

/-- Ticks change contexts and watch records only. -/
theorem ticked_keeps (s : State) : ∃ c w, forStations State.tickStation s
    = { s with ctx := c, wu := { s.wu with records := w } } :=
  forStations_keeps (P := fun u => ∃ c w, u = { s with ctx := c, wu := { s.wu with records := w } })
    (fun n u h => by
      obtain ⟨c, w, rfl⟩ := h
      exact ⟨_, _, rfl⟩) s ⟨s.ctx, s.wu.records, rfl⟩

theorem millisecondExpiry_of_running (hrun : s.timerRuns = true) (hnone : ∀ n, s.intervalOwed n = false) :
    exec .millisecondExpiry s = .next (((forStations State.tickStation s).modLs fun l =>
      { l with due := l.due.map fun e => { e with deferred := false } }).setElapsed 0) := by
  have hany : allStations.any s.intervalOwed = false := List.any_eq_false.mpr fun n _ => by simp [hnone n]
  change execMillisecondExpiry s = _
  simp only [execMillisecondExpiry, hrun, hany, Bool.true_eq_false, Bool.false_eq_true, if_false]

/-- Settles O48. -/
theorem millisecondExpiryCountsDown : Obligations.MillisecondExpiryCountsDown := by
  intro s
  refine ⟨fun hp hnone => ⟨_, millisecondExpiry_of_running (timerRuns_iff.mpr hp) hnone, ?_⟩, fun hp howed => ?_,
    fun hp => ?_, fun n => intervalOwed_iff⟩
  · have hticked := ticked s
    obtain ⟨c, w, hkeeps⟩ := ticked_keeps s
    rw [hkeeps] at hticked ⊢
    exact ⟨fun n => (hticked n).1, fun n => ((hticked n).2).trans (watchTick_eq ..), rfl, rfl, rfl, rfl⟩
  · obtain ⟨n, howed⟩ := howed
    have hany : allStations.any s.intervalOwed = true := List.any_eq_true.mpr ⟨n, by simp [allStations], howed⟩
    change execMillisecondExpiry s = _
    simp only [execMillisecondExpiry, timerRuns_iff.mpr hp, hany, Bool.true_eq_false, if_false, if_true]
  · have hhalted : s.timerRuns = false := by
      rw [← Bool.not_eq_true, timerRuns_iff]
      simp only [List.mem_cons, List.not_mem_nil, or_false] at hp
      obtain hp | hp | hp := hp <;> simp [hp]
    exact if_pos hhalted

/-! ### Countdowns at 0 -/

theorem inPeek_iff : s.inPeek n = true ↔ ∃ t, s.xe.turn = some t ∧ t.station = n ∧ t.kind = .peek := by
  unfold State.inPeek
  cases s.xe.turn <;> simp

/-- The end of an interval reloads the countdown; the station's own watch turn holds the rest back (R158, R159). -/
theorem intervalEnd_of_owed (howed : s.intervalOwed n = true) (hlower : ∀ m < n, s.intervalOwed m = false)
    (hpart : s.rw.part ≠ .faulted) {u : State}
    (hu : u = s.modWatch n fun r => { r with countdown := (s.config n).watchInterval }) :
    exec (.intervalEnd n) s = .next (if s.inPeek n = true then u.modWatch n fun r => { r with held := true }
      else u.endInterval n) := by
  have hany : (allStations.any fun m => decide (m < n) && s.intervalOwed m) = false :=
    List.any_eq_false.mpr fun m _ => by
      by_cases hm : m < n
      · simp [hlower m hm]
      · simp [hm]
  change execIntervalEnd n s = _
  simp only [execIntervalEnd, howed, hany, hpart, Bool.true_eq_false, Bool.false_eq_true, if_false, hu]

theorem enterState_ready : s.enterState n .ready = s.modSt n fun st => { st.withoutCountdowns with state := .ready } :=
  State.modSt_congr _ _ rfl

/-- Settles O49. -/
theorem countdownsReachZero : Obligations.CountdownsReachZero := by
  intro s n hp
  have hrun := timerRuns_iff.mpr hp
  have hnot : ¬s.timerRuns = false := by simp [hrun]
  refine ⟨fun h hs ho => ?_, fun h hs ho => ?_, fun h hs => ?_, fun h hs hr ho => ?_, fun h hs hr => ?_, fun h hs => ?_,
    fun u howed hlower hu => ?_⟩
  · change execHoldDelayExpiry n s = _
    simp only [execHoldDelayExpiry, h, hs, hrun, State.hasOp_eq_false_iff.mpr ho, enterState_ready, ne_eq, not_true,
      Bool.true_eq_false, Bool.false_eq_true, if_false]
  · change execHoldDelayExpiry n s = _
    simp only [execHoldDelayExpiry, h, hs, hrun, State.hasOp_eq_true_iff.mpr ho, enterState_ready, ne_eq, not_true,
      Bool.true_eq_false, if_false, if_true]
  · change execHoldDelayExpiry n s = _
    simp only [execHoldDelayExpiry, h, hs, hrun, ne_eq, not_true, Bool.true_eq_false, if_false, if_true]
  · change execRereadExpiry n s = _
    simp only [execRereadExpiry, h, hs, hrun, hr, State.hasOp_eq_false_iff.mpr ho, ne_eq, not_true, reduceCtorEq,
      Bool.true_eq_false, Bool.false_eq_true, if_false]
  · change execRereadExpiry n s = _
    simp only [execRereadExpiry, h, hs, hrun, hr, ne_eq, not_true, Bool.true_eq_false, if_false, if_true]
  · change execRereadExpiry n s = _
    simp only [execRereadExpiry, h, hs, hrun, ne_eq, not_true, Bool.true_eq_false, if_false, if_true]
  · have hpart : s.rw.part ≠ .faulted := by rintro h; rw [h] at hp; simp at hp
    have hdue : (u.watch n).due = (s.watch n).due := by rw [hu, State.watch_modWatch_self]
    have hend := intervalEnd_of_owed howed hlower hpart hu
    refine ⟨fun t ht hstation hk => ?_, fun hturn hnone => ?_, fun hturn hwas => ?_⟩
    · rw [hend, if_pos (inPeek_iff.mpr ⟨t, ht, hstation, hk⟩)]
    all_goals
      have hpeek : ¬s.inPeek n = true := fun h => by
        obtain ⟨t, ht, hown⟩ := inPeek_iff.mp h
        exact hturn t ht hown
      rw [hend, if_neg hpeek, State.endInterval, hdue]
    · rw [hnone, if_neg (by decide), hu]
      rfl
    · rw [hwas, if_pos rfl]
      rfl

end Sys2Proof.Machine
end

