-- ==== Sys2Proof/Proofs/MemoryPort.lean ====
section
/-! The Memory Port: the rotation, requests on their way, the bytes that writes leave, and bus errors
(R167 to R174). -/

namespace Sys2Proof.Machine

variable {s : State} {n : Stn}

/-! ### The bytes of a write -/

theorem isWrite_iff (k : RequestKind) : k.isWrite = true ↔
    k ∈ [.takenWrite, .resultWrite, .doneWrite, .statusWrite, .drain, .slotWrite] := by
  cases k <;> decide

theorem landed_iff (r : Request) (cut : Cut) (x : Nat) : r.landed cut x = true ↔
    x / 8 - r.address.toNat / 8 < cut.full
      ∨ (x / 8 - r.address.toNat / 8 = cut.full ∧ cut.part.getLsbD (x % 8) = true) := by
  simp only [Request.landed, Bool.or_eq_true, decide_eq_true_eq, Bool.and_eq_true, beq_iff_eq]

/-- Settles O51. -/
theorem writesReachTheirSpanOnly : Obligations.WritesReachTheirSpanOnly := by
  intro m a x data r cut
  refine ⟨Memory.peek_store data a m x, fun h => ?_, fun h => ?_, isWrite_iff r.kind⟩
  · rw [Request.land, if_neg (by simp [h])]
  · rw [Request.land, if_pos h, Memory.peek_storeIf]
    simp only [landed_iff]

/-! ### The rotation -/

theorem arbitrate_of_busy {m : MemoryPort} {q : Requester} (h : m.inProgress = some q) : m.arbitrate = m := by
  simp only [MemoryPort.arbitrate, h]

theorem arbitrate_of_first {m : MemoryPort} {q : Requester} (h : m.inProgress = none)
    (hq : (MemoryPort.preference m.last).find? (fun q => (m.slot q).isSome) = some q) :
    m.arbitrate = { m with inProgress := some q, last := q } := by
  simp only [MemoryPort.arbitrate, h, hq]

/-- Settles O52: the first in the rotation after the last served of those that wait. -/
theorem memoryPortServesInRotation : Obligations.MemoryPortServesInRotation := by
  intro m
  refine ⟨fun q h => arbitrate_of_busy h, fun hsm hxe hwu => ?_, fun hfree => ⟨fun hw h => ?_, fun hw h => ?_,
    fun hw h => ?_⟩⟩
  · cases hp : m.inProgress with
    | some q => exact arbitrate_of_busy hp
    | none =>
      have hnone : (MemoryPort.preference m.last).find? (fun q => (m.slot q).isSome) = none :=
        List.find?_eq_none.mpr fun q _ => by cases q <;> simp [MemoryPort.slot, hsm, hxe, hwu]
      simp only [MemoryPort.arbitrate, hp, hnone]
  all_goals
    refine arbitrate_of_first hfree ?_
    obtain hl | ⟨hother, hl⟩ | ⟨hfirst, hsecond⟩ := h
    · simp [hl, MemoryPort.preference, MemoryPort.slot, hw]
    · simp [hl, MemoryPort.preference, MemoryPort.slot, hw, hother]
    · cases hl : m.last <;> simp [MemoryPort.preference, MemoryPort.slot, hw, hfirst, hsecond]

/-! ### Requests on their way -/

/-- A request that begins leaves what waits where it is, and displaces none in progress (R169). -/
theorem arbitrate_keeps (m : MemoryPort) : m.arbitrate.sm = m.sm ∧ m.arbitrate.xe = m.xe ∧ m.arbitrate.wu = m.wu
    ∧ ∀ q, m.inProgress = some q → m.arbitrate.inProgress = some q := by
  unfold MemoryPort.arbitrate
  split
  · exact ⟨rfl, rfl, rfl, fun _ h => h⟩
  · next hnone =>
    have hfree : ∀ {p : Prop} (q : Requester), m.inProgress = some q → p := fun q h => by rw [hnone] at h; cases h
    split
    · exact ⟨rfl, rfl, rfl, fun q h => hfree q h⟩
    · exact ⟨rfl, rfl, rfl, fun q h => hfree q h⟩

namespace State

theorem Served.refl (s : State) : s.Served s := ⟨rfl, .refl _, rfl, rfl, fun _ h => h⟩

theorem Served.trans {s t u : State} (a : s.Served t) (b : t.Served u) : s.Served u := by
  obtain ⟨a1, a2, a3, a4, a5⟩ := a
  obtain ⟨b1, b2, b3, b4, b5⟩ := b
  exact ⟨b1.trans a1, b2.trans a2, b3.trans a3, b4.trans a4, fun q h => b5 q (a5 q h)⟩

theorem handSm_of_picked {r : Request} {drawn : Bool} (hfree : s.mp.sm = none)
    (hpick : pickRequest s.choices s.sm.queue = some (r, drawn)) : s.handSm =
      ((s.modSm fun m => { m with queue := m.queue.erase r }).modMp fun m => { m with sm := some r }).setChoices
        (if drawn then s.choices + 1 else s.choices) := by
  simp only [handSm, hfree, hpick]

theorem handWu_of_first {r : Request} {rest : List Request} (hfree : s.mp.wu = none) (hq : s.wu.queue = r :: rest) :
    s.handWu = (s.modWu fun w => { w with queue := rest }).modMp fun m => { m with wu := some r } := by
  simp only [handWu, hfree, hq]

theorem handSm_served (s : State) : s.Served s.handSm := by
  cases hsm : s.mp.sm with
  | some x => simp only [handSm, hsm]; exact .refl s
  | none =>
    cases hpick : pickRequest s.choices s.sm.queue with
    | none => simp only [handSm, hsm, hpick]; exact .refl s
    | some p =>
      rw [handSm_of_picked hsm hpick]
      refine ⟨rfl, ?_, rfl, rfl, fun _ h => h⟩
      have herase : (p.1 :: s.sm.queue.erase p.1).Perm s.sm.queue := (List.perm_cons_erase (pickRequest_mem hpick)).symm
      have hbefore : s.smRequests = s.sm.queue := by rw [smRequests, hsm]; rfl
      rw [hbefore]
      exact herase

theorem handWu_served (s : State) : s.Served s.handWu := by
  cases hwu : s.mp.wu with
  | some x => simp only [handWu, hwu]; exact .refl s
  | none =>
    cases hq : s.wu.queue with
    | nil => simp only [handWu, hwu, hq]; exact .refl s
    | cons r rest =>
      rw [handWu_of_first hwu hq]
      refine ⟨rfl, .refl _, ?_, rfl, fun _ h => h⟩
      simp [wuRequests, hwu, hq]

theorem arbitrate_served (s : State) : s.Served (s.modMp MemoryPort.arbitrate) := by
  obtain ⟨hsm, hxe, hwu, hkeep⟩ := arbitrate_keeps s.mp
  refine ⟨rfl, ?_, ?_, hxe, hkeep⟩
  · simp only [smRequests, modMp_mp, modMp_sm, hsm, List.Perm.refl]
  · simp only [wuRequests, modMp_mp, modMp_wu, hwu]

theorem serveMemory_of_not_faulted (h : s.rw.part ≠ .faulted) :
    s.serveMemory = s.handSm.handWu.modMp MemoryPort.arbitrate := if_neg h

theorem serveMemory_served (s : State) : s.Served s.serveMemory := by
  by_cases h : s.rw.part = .faulted
  · rw [serveMemory_of_faulted h]
    exact .refl s
  · rw [serveMemory_of_not_faulted h]
    exact (handSm_served s).trans ((handWu_served _).trans (arbitrate_served _))

theorem handWu_mp_sm (s : State) : s.handWu.mp.sm = s.mp.sm := by
  obtain ⟨q, m, h⟩ := s.handWu_rest
  rw [h]
  rfl

theorem handSm_wu (s : State) : s.handSm.mp.wu = s.mp.wu ∧ s.handSm.wu = s.wu := by
  obtain ⟨q, m, c, h⟩ := s.handSm_rest
  rw [h]
  exact ⟨rfl, rfl⟩

theorem partStep_of_calm (h : s.calm) : s.partStep = s := by
  obtain ⟨-, -, -, hp | ⟨hp, hrest⟩⟩ := h
  · simp only [partStep, hp]
  · simp only [partStep, hp, hrest, Bool.false_eq_true, if_false]

/-- A calm part has nothing to go on with but its requests. -/
theorem settle_of_calm (h : s.calm) : s.settle = s.serveMemory := by
  have hpart : s.rw.part ≠ .faulted := by
    obtain ⟨-, -, -, hp | ⟨hp, -⟩⟩ := h <;> rw [hp] <;> decide
  have hstep := partStep_of_calm h
  obtain ⟨hbusy, hdue, hcascade, -⟩ := h
  rw [settle, if_neg hpart, endCascade_of_none hcascade, beginRestarts_of_not_busy hbusy,
    restartFollows_of_not_due hdue, hstep]

end State

/-- Settles O53. -/
theorem onlyRequestsGoOnInCalm : Obligations.OnlyRequestsGoOnInCalm := by
  intro s
  refine ⟨s.serveMemory_served, State.settle_of_calm,
    fun h => ⟨State.serveMemory_of_faulted h, State.settle_of_faulted h⟩, fun hp hsm hq => ?_,
    fun hp hwu r rest hq => ?_⟩
  · obtain ⟨r, drawn, hpick⟩ := pickRequest_isSome (k := s.choices) hq
    refine ⟨r, pickRequest_mem hpick, ?_⟩
    rw [State.serveMemory_of_not_faulted hp, State.modMp_mp, (arbitrate_keeps _).1, State.handWu_mp_sm,
      State.handSm_of_picked hsm hpick]
    rfl
  · obtain ⟨hfree, hqueue⟩ := s.handSm_wu
    obtain ⟨-, -, hkeep, -⟩ := arbitrate_keeps s.handSm.handWu.mp
    rw [State.serveMemory_of_not_faulted hp, State.modMp_mp, hkeep,
      State.handWu_of_first (hfree.trans hwu) (by rw [hqueue, hq])]
    rfl

/-! ### Bus errors -/

/-- A request in progress that fails is dealt with by its requester (R172, R173). -/
theorem busError_of {r : Request} {cut : Cut} (hr : s.mp.current = some r) (hcut : cut.full < r.transactions) :
    exec (.busError cut) s = (s.failRequest r cut).dealWithError r (r.transactionAddr cut.full) := by
  change execBusError cut s = _
  simp only [execBusError, hr, hcut, if_true]

theorem faulted_eq (p : LinkPort) : p.faulted = if p.state = .sending ∨ p.state = .breaking then p else .reset := by
  unfold LinkPort.faulted
  split <;> simp_all

/-- LP runs on with a packet of the staging buffer, so that it is on the line as before (R88). -/
theorem sendsStaging_of_faulted {u : State} (h : u.lp = s.lp.faulted) : u.sendsStaging = s.sendsStaging := by
  rw [faulted_eq] at h
  by_cases hd : s.lp.state = .sending ∨ s.lp.state = .breaking
  · rw [if_pos hd] at h
    rw [State.sendsStaging, State.sendsStaging, h]
  · rw [if_neg hd] at h
    rw [not_or] at hd
    rw [State.sendsStaging_of_not_sending hd.1, State.sendsStaging_of_not_sending (by rw [h]; decide)]

theorem packetOnLine_of_faulted {u : State} (hlp : u.lp = s.lp.faulted)
    (hxe : u.xe.staging = if s.sendsStaging then s.xe.staging else []) : u.packetOnLine = s.packetOnLine := by
  rw [faulted_eq] at hlp
  by_cases hsend : s.lp.state = .sending
  · rw [if_pos (.inl hsend)] at hlp
    simp only [State.packetOnLine, hlp, hsend, if_true]
    refine Option.map_congr fun p hp => ?_
    have hpayload : u.payloadOf p = s.payloadOf p := by
      unfold State.payloadOf
      split
      · next hstaged =>
        rw [hxe, if_pos]
        rw [State.sendsStaging, hsend, hp]
        simpa using hstaged
      · rfl
    rw [hpayload]
  · have hnot : u.lp.state ≠ .sending := by
      rw [hlp]
      split
      · exact hsend
      · decide
    simp only [State.packetOnLine, hsend, hnot, if_false]

theorem release_inProgress (m : MemoryPort) : m.release.inProgress = none := by
  unfold MemoryPort.release
  split
  · rfl
  · assumption

/-- A part whose own record failed stands still at once (R174, R88, R117, R182). -/
theorem portFault_atRest {addr : Addr} (h : s.mp.inProgress = none) : (s.portFault addr).faultedAtRest := by
  have hlp : (s.portFault addr).lp = s.lp.faulted := rfl
  refine ⟨rfl, h, rfl, ?_, fun hsends => ?_⟩
  · rw [hlp, faulted_eq]
    split
    · next hd => exact .inr hd
    · exact .inl ⟨rfl, rfl⟩
  · rw [sendsStaging_of_faulted hlp] at hsends
    exact if_neg (by simp [hsends])

theorem transactionAddr_eq (r : Request) (k : Nat) : r.transactionAddr k =
    if k = 0 then r.address else BitVec.ofNat 32 (8 * (r.address.toNat / 8 + k)) := rfl

/-- Settles O50. -/
theorem busErrorConsequences : Obligations.BusErrorConsequences := by
  intro s u r cut addr hr hcut hu haddr
  have hfail : s.failRequest r cut = u := hu ▸ rfl
  have hexec : exec (.busError cut) s = u.dealWithError r addr := by
    rw [busError_of hr hcut, hfail, haddr, transactionAddr_eq]
  have hwork : ∀ {n o}, s.working n o → u.working n o := fun h => by rw [hu]; exact h
  have hcandidate : ∀ n o, r.kind ∈ [.chainHeadRead, .linkRead, .blockRead] → r.station = some n → s.working n o →
      exec (.busError cut) s = .next (u.failCandidate n).settle := fun n o hk hn ho => by
    have hop := State.whenOp_of (go := fun n _ s => .next (s.failCandidate n).settle) hn (hwork ho)
    rw [hexec]
    simp only [List.mem_cons, List.not_mem_nil, or_false] at hk
    obtain hk | hk | hk := hk <;> simp only [State.dealWithError, hk, hop]
  have hrecord : r.kind ∈ [.takenWrite, .resultWrite, .doneWrite, .statusWrite, .slotWrite] →
      exec (.busError cut) s = .next (u.portFault addr) := fun hk => by
    rw [hexec]
    simp only [List.mem_cons, List.not_mem_nil, or_false] at hk
    obtain hk | hk | hk | hk | hk := hk <;> simp only [State.dealWithError, hk]
  refine ⟨fun hk => ?_, fun n o hk hn ho => ?_, fun n o hk hn ho => ⟨fun hw => ?_, fun hw => ?_⟩, fun t hk ht => ?_,
    fun hk => ?_, State.sendsStaging_iff, fun t ht hk => ?_⟩
  · rw [hexec]
    simp only [State.dealWithError, hk]
    rw [hu]
    rfl
  · rw [hexec]
    simp only [State.dealWithError, hk]
    rw [State.whenOp_of hn (hwork ho), State.finalApplication_eq (hwork ho)]
  · rw [hcandidate n o hk hn ho, State.failCandidate]
    simp only [show (u.st n).op = some o from hwork ho, hw, Bool.false_eq_true, if_false]
  · rw [hcandidate n o hk hn ho, State.failCandidate]
    simp only [show (u.st n).op = some o from hwork ho, hw, if_true]
  · have hturn : u.xe.turn = some t := by rw [hu]; exact ht
    rw [hexec]
    simp only [List.mem_cons, List.not_mem_nil, or_false] at hk
    obtain hk | hk := hk <;> simp only [State.dealWithError, hk, hturn]
  · rw [hrecord hk, ← faulted_eq, hu]
    rfl
  · rw [hrecord hk] at ht
    obtain rfl := Host.Outcome.next.inj ht
    have hfree : u.mp.inProgress = none := by rw [hu]; exact release_inProgress s.mp
    refine ⟨portFault_atRest hfree, (packetOnLine_of_faulted rfl rfl).trans ?_⟩
    rw [hu]
    rfl

end Sys2Proof.Machine
end

