-- ==== Sys2Proof/Proofs/Records.lean ====
section
/-! The records the part writes: a record is its fields one after the other, so that each is read back at the sum of
the widths before it (R7, R34, R165, R185). -/

namespace Sys2Proof.Machine

/-! ### Fields one after the other -/

/-- The bytes of a run of fields, each a value and its width. -/
def fieldBytes (fs : List (Nat × Nat)) : List Byte := fs.flatMap fun f => leBytes f.1 f.2

/-- Where field `j` begins. -/
def fieldOffset (fs : List (Nat × Nat)) (j : Nat) : Nat := ((fs.take j).map Prod.snd).sum

theorem byteAt_append (a b : List Byte) (i : Nat) : byteAt (a ++ b) (a.length + i) = byteAt b i := by
  simp [byteAt, List.getElem?_append_right]

theorem leField_append (a b : List Byte) (i k : Nat) : leField (a ++ b) (a.length + i) k = leField b i k := by
  induction k generalizing i with
  | zero => rfl
  | succ k ih => rw [leField, leField, byteAt_append, Nat.add_assoc, ih]

/-- A value written in `k` bytes is read back as far as they hold it. -/
theorem leField_leBytes (n k : Nat) (rest : List Byte) : leField (leBytes n k ++ rest) 0 k = n % 256 ^ k := by
  induction k generalizing n with
  | zero => simp [leField, Nat.mod_one]
  | succ k ih =>
    have hrest := (leField_append [BitVec.ofNat 8 n] (leBytes (n / 256) k ++ rest) 0 k).trans (ih (n / 256))
    have hbyte : (byteAt (leBytes n (k + 1) ++ rest) 0).toNat = n % 256 := rfl
    calc leField (leBytes n (k + 1) ++ rest) 0 (k + 1)
        = n % 256 + 256 * (n / 256 % 256 ^ k) := by rw [leField, hbyte]; exact congrArg (n % 256 + 256 * ·) hrest
      _ = n % 256 ^ (k + 1) := by rw [Nat.pow_succ', Nat.mod_mul]

theorem fieldBytes_length (fs : List (Nat × Nat)) : (fieldBytes fs).length = (fs.map Prod.snd).sum := by
  simp [fieldBytes, List.length_flatMap, leBytes_length]

/-- Field `j` of a record is read back at the sum of the widths before it. -/
theorem leField_fieldBytes {fs : List (Nat × Nat)} {rest : List Byte} {j x k : Nat} (hj : fs[j]? = some (x, k)) :
    leField (fieldBytes fs ++ rest) (fieldOffset fs j) k = x % 256 ^ k := by
  induction fs generalizing j with
  | nil => simp at hj
  | cons f fs ih =>
    have hcons : fieldBytes (f :: fs) ++ rest = leBytes f.1 f.2 ++ (fieldBytes fs ++ rest) := by simp [fieldBytes]
    rw [hcons]
    cases j with
    | zero =>
      obtain rfl : f = (x, k) := Option.some.inj hj
      exact leField_leBytes ..
    | succ j =>
      have hoffset : fieldOffset (f :: fs) (j + 1) = (leBytes f.1 f.2).length + fieldOffset fs j := by
        simp [fieldOffset, leBytes_length]
      rw [hoffset, leField_append]
      exact ih hj

/-- Field `j` of a record `d`, whose value its width holds. -/
theorem leField_record {d rest : List Byte} {fs : List (Nat × Nat)} {j i x k : Nat} (hd : d = fieldBytes fs ++ rest)
    (hj : fs[j]? = some (x, k)) (hi : fieldOffset fs j = i) (hx : x < 256 ^ k) : leField d i k = x := by
  rw [hd, ← hi, leField_fieldBytes hj, Nat.mod_eq_of_lt hx]

theorem byteAt_of_leField {d : List Byte} {i x : Nat} (h : leField d i 1 = x) : byteAt d i = BitVec.ofNat 8 x := by
  refine BitVec.eq_of_toNat_eq ?_
  have hbyte : (byteAt d i).toNat = x := by rw [← h]; rfl
  rw [BitVec.toNat_ofNat, ← hbyte, Nat.mod_eq_of_lt (byteAt d i).isLt]

/-! ### Values that their fields hold -/

theorem StationState.code_lt (x : StationState) : x.code < 256 := by cases x <;> decide

theorem AttentionResult.code_lt (x : AttentionResult) : x.code < 256 := by cases x <;> decide

theorem ChainCode.code_lt (x : ChainCode) : x.code < 256 := by cases x <;> decide

theorem Condition.code_lt (x : Condition) : x.code < 256 := by cases x <;> decide

theorem Phase.code_lt (x : Phase) : x.code < 256 := by cases x <;> decide

theorem SlotStatus.code_lt (x : SlotStatus) : x.code < 256 := by cases x <;> decide

theorem toNat_getD_lt (a : Option Addr) : (a.map BitVec.toNat).getD 0 < 256 ^ 4 := by
  cases a with
  | none => decide
  | some a => exact a.isLt

/-- The three flags of a status half, and the bits reserved beside them (R34). -/
theorem flagBits (p g r : Bool) : bit p 0 + bit g 1 + bit r 2 < 256
    ∧ (BitVec.ofNat 8 (bit p 0 + bit g 1 + bit r 2)).getLsbD 0 = p
    ∧ (BitVec.ofNat 8 (bit p 0 + bit g 1 + bit r 2)).getLsbD 1 = g
    ∧ (BitVec.ofNat 8 (bit p 0 + bit g 1 + bit r 2)).getLsbD 2 = r
    ∧ ∀ i < 8, 3 ≤ i → (BitVec.ofNat 8 (bit p 0 + bit g 1 + bit r 2)).getLsbD i = false := by
  revert p g r
  decide

/-! ### The three records -/

/-- The fields of a status half (R34). -/
def Station.statusFields (st : Station) : List (Nat × Nat) :=
  [(st.state.code, 1), (st.lastResult.code, 1), (st.code.code, 1), (st.lastCondition.code, 1),
    (((st.inFlight.map (·.address)).map BitVec.toNat).getD 0, 4), ((st.parked.map BitVec.toNat).getD 0, 4),
    (st.retireCount.toNat, 2), (st.lapses, 1), (bit st.putParity 0 + bit st.getParity 1 + bit st.resyncPending 2, 1),
    (st.totalHolds, 2), (st.totalFailed, 2)]

theorem statusHalf_eq (st : Station) : st.statusHalf = fieldBytes st.statusFields ++ List.replicate 12 0#8 := by
  simp [Station.statusHalf, fieldBytes, Station.statusFields, zeroBytes, Option.map_map, Function.comp_def]

theorem record_length {d rest : List Byte} {fs : List (Nat × Nat)} (hd : d = fieldBytes fs ++ rest) :
    d.length = (fs.map Prod.snd).sum + rest.length := by
  rw [hd, List.length_append, fieldBytes_length]

theorem record_drop {d rest : List Byte} {fs : List (Nat × Nat)} (hd : d = fieldBytes fs ++ rest) :
    d.drop (fs.map Prod.snd).sum = rest := by
  rw [hd]
  exact List.drop_left' (fieldBytes_length fs)

/-- The fields of a result section (R7, R8). -/
def resultFields (c : Condition) (p : Phase) (attempts holds moved length residue : Nat) (k : BitVec 16) :
    List (Nat × Nat) :=
  [(c.code, 1), (p.code, 1), (attempts, 1), (holds, 1), (moved, 4), (length - moved, 4), (residue, 4), (k.toNat, 2)]

theorem resultSection_eq (c : Condition) (p : Phase) (attempts holds moved length residue : Nat) (k : BitVec 16)
    (copy : List Byte) : resultSection c p attempts holds moved length residue k copy =
      fieldBytes (resultFields c p attempts holds moved length residue k) ++ (List.replicate 14 0#8 ++ copy) := by
  simp [resultSection, fieldBytes, resultFields, zeroBytes]

/-- The fields of a watch slot after its value (R165). -/
def WatchRecord.slotFields (r : WatchRecord) (length : Nat) : List (Nat × Nat) :=
  [(r.changes.toNat, 4), (r.missed, 2), (r.status.code, 1), (length, 1)]

theorem slot_eq {r : WatchRecord} (length : Nat) (h : (r.last.getD []).length ≤ 8) : r.slot length =
    (r.last.getD [] ++ List.replicate (8 - (r.last.getD []).length) 0#8)
      ++ (fieldBytes (r.slotFields length) ++ []) := by
  simp [WatchRecord.slot, fieldBytes, WatchRecord.slotFields, zeroBytes, List.take_of_length_le h]

theorem recordLayouts : Clauses.RecordLayouts := by
  refine ⟨?_, ?_, ?_⟩
  · rintro st d rfl hlapses hholds hfailed
    have hd := statusHalf_eq st
    have haddress : ((st.inFlight.map fun f => f.address.toNat).getD 0)
        = (((st.inFlight.map (·.address)).map BitVec.toNat).getD 0) := by simp [Function.comp_def]
    obtain ⟨hflags, hput, hget, hresync, hreserved⟩ := flagBits st.putParity st.getParity st.resyncPending
    have hbyte := byteAt_of_leField (leField_record (j := 8) (i := 15) hd rfl rfl hflags)
    rw [haddress, hbyte]
    exact ⟨record_length hd, leField_record (j := 0) hd rfl rfl st.state.code_lt,
      leField_record (j := 1) hd rfl rfl st.lastResult.code_lt, leField_record (j := 2) hd rfl rfl st.code.code_lt,
      leField_record (j := 3) hd rfl rfl st.lastCondition.code_lt, leField_record (j := 4) hd rfl rfl (toNat_getD_lt _),
      leField_record (j := 5) hd rfl rfl (toNat_getD_lt _), leField_record (j := 6) hd rfl rfl st.retireCount.isLt,
      leField_record (j := 7) hd rfl rfl (by omega), hput, hget, hresync, hreserved,
      leField_record (j := 9) hd rfl rfl (by omega), leField_record (j := 10) hd rfl rfl (by omega), record_drop hd⟩
  · rintro c p attempts holds moved length residue k copy d rfl hattempts hholds hmoved hlength hresidue hcopy
    have hd := resultSection_eq c p attempts holds moved length residue k copy
    have hrest := record_drop hd
    have htail := congrArg (List.drop 14) hrest
    rw [List.drop_drop, List.drop_left' (List.length_replicate ..)] at htail
    refine ⟨(record_length hd).trans (by rw [List.length_append, hcopy]; rfl),
      leField_record (j := 0) hd rfl rfl c.code_lt, leField_record (j := 1) hd rfl rfl p.code_lt,
      leField_record (j := 2) hd rfl rfl (by omega), leField_record (j := 3) hd rfl rfl (by omega),
      leField_record (j := 4) hd rfl rfl (by omega), leField_record (j := 5) hd rfl rfl (by omega),
      leField_record (j := 6) hd rfl rfl (by omega), leField_record (j := 7) hd rfl rfl k.isLt, ?_, htail⟩
    exact (congrArg (List.take 14) hrest).trans (List.take_left' (List.length_replicate ..))
  · rintro r length d rfl hlength hmissed hlast
    have hd := slot_eq length hlast
    have hvalue : (r.last.getD [] ++ List.replicate (8 - (r.last.getD []).length) 0#8).length = 8 := by
      rw [List.length_append, List.length_replicate]
      omega
    have hfield : ∀ i k, leField (r.slot length) (8 + i) k = leField (fieldBytes (r.slotFields length) ++ []) i k :=
      fun i k => by
        have happend := leField_append (r.last.getD [] ++ List.replicate (8 - (r.last.getD []).length) 0#8)
          (fieldBytes (r.slotFields length) ++ []) i k
        rwa [hvalue, ← hd] at happend
    refine ⟨?_, ?_, (hfield 0 4).trans (leField_record (j := 0) rfl rfl rfl r.changes.isLt),
      (hfield 4 2).trans (leField_record (j := 1) rfl rfl rfl (by omega)),
      (hfield 6 1).trans (leField_record (j := 2) rfl rfl rfl r.status.code_lt),
      (hfield 7 1).trans (leField_record (j := 3) rfl rfl rfl (by omega))⟩
    · rw [hd, List.length_append, hvalue, record_length rfl]
      rfl
    · rw [hd]
      exact List.take_left' hvalue

/-! ### Where they go -/

theorem recordWritesAskedFor : Clauses.RecordWritesAskedFor := by
  intro s n length
  exact ⟨State.modSt_congr _ _ rfl, State.modSt_congr _ _ rfl, rfl, rfl, fun l h => by rw [State.header, h]; rfl⟩

/-- Settles O54. -/
theorem writtenRecordLayouts : Obligations.WrittenRecordLayouts :=
  ⟨⟨rfl, rfl, rfl, rfl, rfl, rfl, rfl⟩, recordLayouts, recordWritesAskedFor⟩

end Sys2Proof.Machine
end

