-- ==== Sys2Proof/Proofs/Registers.lean ====
section
/-! Resets, and the register window as the host writes and reads it (R48, R52, R177 to R184). -/

namespace Sys2Proof.Machine

variable {s : State}

/-! ### Resets -/

/-- The directory base that a reset leaves (R183). -/
def State.dirbaseAfter (s : State) (c : Instr) (cut : Cut) : Addr :=
  if c = .powerOnReset cut then 0#32 else s.rw.dirbase

theorem exec_reset {c : Instr} {cut : Cut} (s : State) (hc : c = .powerOnReset cut ∨ c = .deviceReset cut) :
    exec c s = .next (s.resetBlocks (s.dirbaseAfter c cut) cut) := by
  obtain rfl | rfl := hc
  · rw [State.dirbaseAfter, if_pos rfl]
    rfl
  · rw [State.dirbaseAfter, if_neg (by simp)]
    rfl

/-- Host memory after a reset: a write in progress is there as far as it got (R176). -/
theorem resetBlocks_mem (s : State) (a : Addr) (cut : Cut) :
    (s.resetBlocks a cut).mem = (s.mp.current.map fun r => r.land cut s.mem).getD s.mem := rfl

/-- Settles O2. -/
theorem resetContexts : Obligations.ResetContexts := by
  intro c cut s hc
  refine ⟨_, exec_reset s hc, fun n => ?_, fun h => ?_, fun r h => ?_, fun r h hr => ?_⟩
  · rw [State.resetBlocks, st_resetWith]
    exact ⟨rfl, rfl, rfl, rfl, rfl, rfl, rfl, rfl, rfl, rfl, rfl, rfl, rfl, rfl, rfl, rfl, rfl, rfl⟩
  · rw [resetBlocks_mem, h]
    rfl
  · rw [resetBlocks_mem, h]
    rfl
  · rw [resetBlocks_mem, h]
    exact if_neg (by simp [hr])

/-- Settles O3. -/
theorem resetRegistersAndBlocks : Obligations.ResetRegistersAndBlocks := by
  intro c cut s hc
  have hflags : ∀ n, (s.resetBlocks (s.dirbaseAfter c cut) cut).nu.flags.get n = false := fun n => get_replicate ..
  have hop : ∀ n, ((s.resetBlocks (s.dirbaseAfter c cut) cut).st n).op = none := fun n => by
    rw [State.resetBlocks, st_resetWith]
    rfl
  have hwatch : ∀ n, (s.resetBlocks (s.dirbaseAfter c cut) cut).watch n = .reset := fun n => get_replicate ..
  have hroute : ∀ b, (s.resetBlocks (s.dirbaseAfter c cut) cut).route b = .unknown := fun b => get_replicate ..
  refine ⟨_, exec_reset s hc, rfl, rfl, rfl, rfl, rfl, rfl, rfl, rfl, rfl, rfl, rfl, hflags, rfl, hop, rfl, rfl, rfl,
    rfl, hroute, fun n => ?_, rfl, rfl, rfl, rfl, rfl, rfl, rfl, rfl, rfl, rfl, rfl, rfl, rfl, rfl, rfl, rfl⟩
  rw [hwatch]
  exact ⟨rfl, rfl, rfl, rfl, rfl, rfl, rfl⟩

/-! ### ATTENTION writes -/

theorem attentionCode_lt (w : Word) : attentionCode w < 8 := Nat.mod_lt _ (by decide)

/-- Of the eight codes, 0 alone names no action (R52). -/
theorem ofCode_isSome_iff {k : Nat} (h : k < 8) : k ≠ 0 ↔ ∃ a, Action.ofCode k = some a := by
  interval_cases k <;> simp [Action.ofCode]

theorem attentionWrite_of_action {w : Word} {a : Action} (ha : Action.ofCode (attentionCode w) = some a) :
    exec (.attentionWrite w) s = .next (if s.au.length < 16
      then s.setAu (s.au ++ [⟨attentionStation w, a⟩]) else s.modRw fun r => { r with attnLost := true }) := by
  change execAttentionWrite w s = _
  simp only [execAttentionWrite, ha, apply_ite Host.Outcome.next]
  rfl

/-- Settles O4. -/
theorem attentionWriteJoinsQueue : Obligations.AttentionWriteJoinsQueue := by
  intro w s
  refine ⟨fun h => ?_, fun a ha hl => ?_, fun h hl => ?_, ofCode_isSome_iff (attentionCode_lt w), rfl, rfl, rfl⟩
  · change execAttentionWrite w s = _
    simp only [execAttentionWrite, h]
    rfl
  · rw [attentionWrite_of_action ha, if_pos hl]
    rfl
  · obtain ⟨a, ha⟩ := (ofCode_isSome_iff (attentionCode_lt w)).mp h
    rw [attentionWrite_of_action ha, if_neg (Nat.not_lt_of_le hl)]
    rfl

/-! ### Writes -/

theorem statusWriteClearsStickies : Clauses.StatusWriteClearsStickies := by
  intro w s
  have hclear : ∀ b c : Bool, (b && !c) = if c then false else b := by decide
  change execStatusWriteClear w s = _
  simp only [execStatusWriteClear, hclear]
  rfl

theorem ignoredWrite_iff (offset : Nat) (enables : BitVec 4) : ignoredWrite offset enables = true ↔
    offset ∈ [0x00, 0x04, 0x08, 0x0C, 0x10, 0x14, 0x18, 0x1C]
      ∧ (enables ≠ 15#4 ∨ offset ∈ [0x00, 0x14, 0x18, 0x1C]) := by
  have hwindow : offset ∈ [0x00, 0x04, 0x08, 0x0C, 0x10, 0x14, 0x18, 0x1C] ↔ offset < 32 ∧ offset % 4 = 0 := by
    simp only [List.mem_cons, List.not_mem_nil, or_false]
    omega
  rw [hwindow]
  simp only [ignoredWrite, Bool.and_eq_true, Bool.or_eq_true, decide_eq_true_eq, beq_iff_eq, bne_iff_ne, or_assoc,
    List.mem_cons, List.not_mem_nil, or_false, ne_eq]

theorem extractLsb'_low {w k : Nat} (x : BitVec w) : x.setWidth k = x.extractLsb' 0 k := by
  refine BitVec.eq_of_getLsbD_eq fun i hi => ?_
  simp [hi]

theorem extractLsb'_high {w k j : Nat} (x : BitVec w) : (x >>> j).setWidth k = x.extractLsb' j k := by
  refine BitVec.eq_of_getLsbD_eq fun i hi => ?_
  simp [hi]

theorem accessesMakeCommands : Clauses.AccessesMakeCommands := by
  intro cut offset enables enables64 w w64
  have hcontrol : commandsOfWrite cut 0x04 15#4 w = controlCommands cut w := rfl
  refine ⟨fun h => if_pos h, rfl, rfl, rfl, fun h => ?_, fun h => ?_, ?_, rfl, ?_⟩
  · rw [hcontrol, controlCommands, if_pos h]
  · rw [hcontrol, controlCommands, if_neg (Bool.not_eq_true _ ▸ h)]
  · rw [commandsOfWrite64, extractLsb'_low, extractLsb'_low, extractLsb'_high, extractLsb'_high]
  · rw [commandsOfRead64, extractLsb'_low, extractLsb'_high]

/-! ### Reads -/

theorem noticeRead_readData {t : State} (h : exec .noticeRead s = .next t) : t.readData = s.noticeWord := by
  change execNoticeRead s = _ at h
  unfold execNoticeRead at h
  dsimp only at h
  split at h <;> (obtain rfl := Host.Outcome.next.inj h; rfl)

/-- CONTROL as read, bit by bit (R179). -/
theorem controlBits (r n f : Bool) : ∀ i < 32, (BitVec.ofNat 32 (bit r 0 + bit n 1 + bit f 2)).getLsbD i =
    if i = 0 then r else if i = 1 then n else if i = 2 then f else false := by
  revert r n f
  decide

/-- The sticky bits of STATUS, from bit 16 on (R184). -/
def stickyBits (attnLost attnBad headerFault portFault : Bool) : Nat :=
  bit attnLost 0 + bit attnBad 1 + bit headerFault 2 + bit portFault 3

theorem stickyBits_testBit (a b c d : Bool) : stickyBits a b c d < 16 ∧ ∀ i < 16, (stickyBits a b c d).testBit i =
    if i = 0 then a else if i = 1 then b else if i = 2 then c else if i = 3 then d else false := by
  revert a b c d
  decide

theorem bit_add (b : Bool) (j k : Nat) : bit b (j + k) = 2 ^ j * bit b k := by
  cases b
  · rfl
  · exact Nat.pow_add 2 j k

/-- STATUS as read: the part state, the queue count and the sticky bits, one above the other (R184). -/
theorem statusWord_toNat (h : s.au.length ≤ 16) : s.statusWord.toNat = s.rw.part.code + 2 ^ 8 * s.au.length
    + 2 ^ 16 * stickyBits s.rw.attnLost s.rw.attnBad s.rw.headerFault s.rw.portFault ∧ s.rw.part.code < 5 := by
  have hcode : s.rw.part.code < 5 := by cases s.rw.part <;> decide
  obtain ⟨hsticky, -⟩ := stickyBits_testBit s.rw.attnLost s.rw.attnBad s.rw.headerFault s.rw.portFault
  have h0 := bit_add s.rw.attnLost 16 0
  have h1 := bit_add s.rw.attnBad 16 1
  have h2 := bit_add s.rw.headerFault 16 2
  have h3 := bit_add s.rw.portFault 16 3
  simp only [stickyBits, Nat.add_zero, Nat.reduceAdd] at h0 h1 h2 h3 hsticky ⊢
  rw [State.statusWord, BitVec.toNat_ofNat, h0, h1, h2, h3, Nat.mod_eq_of_lt (by omega)]
  exact ⟨by omega, hcode⟩

theorem masked_getLsbD (b : Bool) (w m : Word) (i : Nat) :
    (if b then w &&& m else 0#32).getLsbD i = (b && (w.getLsbD i && m.getLsbD i)) := by
  cases b <;> simp

/-- A byte lane carries the register's byte where its enable is set (R177). -/
theorem addressedBytes_getLsbD (enables : BitVec 4) (w : Word) {i : Nat} (hi : i < 32) :
    (State.addressedBytes enables w).getLsbD i = (enables.getLsbD (i / 8) && w.getLsbD i) := by
  have hmasks : ∀ i < 32, (0xFF#32).getLsbD i = decide (i / 8 = 0) ∧ (0xFF00#32).getLsbD i = decide (i / 8 = 1)
      ∧ (0xFF0000#32).getLsbD i = decide (i / 8 = 2) ∧ (0xFF000000#32).getLsbD i = decide (i / 8 = 3) := by decide
  obtain ⟨h0, h1, h2, h3⟩ := hmasks i hi
  simp only [State.addressedBytes, BitVec.getLsbD_or, masked_getLsbD, h0, h1, h2, h3]
  have hlane : i / 8 = 0 ∨ i / 8 = 1 ∨ i / 8 = 2 ∨ i / 8 = 3 := by omega
  obtain h | h | h | h := hlane <;> simp [h]

theorem readBytes64_getLsbD (s : State) (offset : Nat) (enables : BitVec 8) {i : Nat} (hi : i < 64) :
    (s.readBytes64 offset enables).getLsbD i = (enables.getLsbD (i / 8)
      && (s.readRegister (offset / 8 * 8 + 4 * (i / 32))).getLsbD (i % 32)) := by
  rw [State.readBytes64, BitVec.getLsbD_append]
  by_cases hlow : i < 32
  · have hlane : i / 8 < 4 := by omega
    rw [if_pos hlow, State.readBytes, addressedBytes_getLsbD _ _ hlow, Nat.div_eq_of_lt hlow, Nat.mod_eq_of_lt hlow]
    simp [hlane]
  · have hhigh : i - 32 < 32 := by omega
    have hlane : (i - 32) / 8 < 4 := by omega
    have hbyte : 4 + (i - 32) / 8 = i / 8 := by omega
    rw [if_neg hlow, State.readBytes, addressedBytes_getLsbD _ _ hhigh, show i / 32 = 1 by omega,
      show i % 32 = i - 32 by omega]
    simp [hlane, hbyte]

theorem registersAsRead : Clauses.RegistersAsRead := by
  intro s
  refine ⟨rfl, rfl, rfl, fun offset h => ?_, fun t h => (noticeRead_readData h).symm, controlBits _ _ _,
    fun hl => ⟨?_, ?_, fun i hi => ?_⟩, rfl, fun offset enables i hi => addressedBytes_getLsbD _ _ hi,
    fun offset enables i hi => readBytes64_getLsbD s offset enables hi⟩
  · simp only [List.mem_cons, List.not_mem_nil, or_false, not_or] at h
    simp only [State.readRegister, h, if_false]
  all_goals
    obtain ⟨hword, hcode⟩ := statusWord_toNat hl
    have hread : s.readRegister 0x08 = s.statusWord := rfl
    rw [hread]
  · rw [hword]
    omega
  · rw [hword]
    omega
  · obtain ⟨-, hbits⟩ := stickyBits_testBit s.rw.attnLost s.rw.attnBad s.rw.headerFault s.rw.portFault
    have hshift : s.statusWord.toNat / 2 ^ 16
        = stickyBits s.rw.attnLost s.rw.attnBad s.rw.headerFault s.rw.portFault := by
      rw [hword]
      omega
    rw [← hbits i hi, ← hshift, BitVec.getLsbD, Nat.testBit_div_two_pow, Nat.add_comm]

/-- Settles O7. -/
theorem hostRegisterAccesses : Obligations.HostRegisterAccesses :=
  ⟨fun _ _ => ⟨rfl, rfl⟩, statusWriteClearsStickies, fun _ _ => ⟨fun h => congrArg Host.Outcome.next (if_pos h),
    fun h => congrArg Host.Outcome.next (if_neg h)⟩, fun _ _ _ _ => ⟨rfl, ignoredWrite_iff ..⟩, registersAsRead,
    accessesMakeCommands⟩

end Sys2Proof.Machine
end

