-- ==== Sys2Proof/Proofs/OfItself.lean ====
section
/-! What goes on of itself after a command, part by part: restart changes, restart followings, the part state. -/

namespace Sys2Proof.Machine

variable {s : State} {n : Stn}

namespace State

/-! ### Restart changes -/

theorem restartHeld_iff : s.restartHeld = true ↔
    s.sm.restartPending = true ∧ s.rw.restartHolds = true ∧ s.applying = true := by
  simp only [restartHeld, Bool.and_eq_true, and_assoc]

theorem restartBusy_of_pending (h : s.sm.restartPending = true) : s.restartBusy = true := by
  simp [restartBusy, h]

theorem beginRestarts_of_held (h : s.restartHeld = true) : s.beginRestarts = s := if_pos h

theorem oweRestarts_sm (s : State) : s.oweRestarts.sm.restartPending = false
    ∧ s.oweRestarts.sm.followDue = s.sm.followDue := by
  by_cases h : s.sm.restartPending = true
  · have hdue := forStations_same (fun s => s.sm.followDue) (f := fun n s => if (s.st n).state = .absent then s
      else s.modSt n fun st => { st with restartOwed := true }) (fun n s => by split <;> rfl) s
    simp only [oweRestarts, h, if_true, modRw_sm, modSm_sm, true_and]
    exact hdue
  · simp only [oweRestarts, h, Bool.false_eq_true, if_false, and_true]

/-- Restart changes that begin are no longer called for, and change no register but the hold's (R50, R54). -/
theorem beginRestarts_keeps (h : s.restartHeld = false) : s.beginRestarts.sm.restartPending = false
    ∧ s.beginRestarts.sm.followDue = s.sm.followDue ∧ s.beginRestarts.rw = { s.rw with
      restartHolds := if s.sm.restartPending then false else s.rw.restartHolds } := by
  obtain ⟨-, -, hrw, hpending, hdue⟩ := OnStation.forStations OnStation.takeRestart s.oweRestarts
  obtain ⟨hpending', hdue'⟩ := s.oweRestarts_sm
  simp only [beginRestarts, h, Bool.false_eq_true, if_false]
  exact ⟨hpending.trans hpending', hdue.trans hdue', hrw.trans s.oweRestarts_keeps.2.2⟩

/-- Restart changes that begin or wait leave the registers but the hold's. -/
theorem beginRestarts_rw (s : State) : ∃ h, s.beginRestarts.rw = { s.rw with restartHolds := h } := by
  cases hheld : s.restartHeld with
  | true => exact ⟨s.rw.restartHolds, by rw [beginRestarts_of_held hheld]⟩
  | false => exact ⟨_, (beginRestarts_keeps hheld).2.2⟩

theorem takeRestart_of_working (h : (s.st n).op ≠ none) : s.takeRestart n = s := by
  unfold takeRestart
  rw [if_neg]
  rintro ⟨-, hop, -⟩
  exact h (hasOp_eq_false_iff.mp hop)

theorem takeRestart_of_not_owed (h : (s.st n).restartOwed = false) : s.takeRestart n = s := by
  rw [takeRestart, if_neg (by simp [h])]

theorem takeRestart_of_owed (howed : (s.st n).restartOwed = true) (hop : (s.st n).op = none)
    (hs : (s.st n).state ≠ .engaged) : s.takeRestart n = if (s.st n).state = .absent
      then s.modSt n fun st => { st with restartOwed := false } else s.beginRestart n :=
  if_pos ⟨howed, hasOp_eq_false_iff.mpr hop, hs⟩

/-- Changes owed to a station that is not ABSENT stay owed or begin: the part is busy with them. -/
theorem takeRestart_busy (h : ((s.st n).restartOwed = true ∧ (s.st n).state ≠ .absent)
      ∨ (s.st n).op.map (·.job) = some .restart) :
    ((s.takeRestart n).st n).restartOwed = true ∨ ((s.takeRestart n).st n).op.map (·.job) = some .restart := by
  obtain ⟨howed, habsent⟩ | hjob := h
  · by_cases htake : s.hasOp n = false ∧ (s.st n).state ≠ .engaged
    · rw [takeRestart_of_owed howed (hasOp_eq_false_iff.mp htake.1) htake.2, if_neg habsent]
      exact .inr (beginRestart_job s n)
    · rw [takeRestart, if_neg fun h => htake h.2]
      exact .inl howed
  · rw [takeRestart_of_working (by rintro h; rw [h] at hjob; cases hjob)]
    exact .inr hjob

/-- Restart changes are under way for station `n`, or owed to it or called for while it is not ABSENT. -/
def restartsAt (s : State) (n : Stn) : Prop := (s.st n).op.map (·.job) = some .restart
  ∨ ((s.st n).restartOwed = true ∧ (s.st n).state ≠ .absent)
  ∨ (s.sm.restartPending = true ∧ (s.st n).state ≠ .absent)

/-- Restart changes that are called for, owed or under way keep the part busy when they begin (R181). -/
theorem beginRestarts_busy (h : s.restartsAt n) : s.beginRestarts.restartBusy = true := by
  cases hheld : s.restartHeld with
  | true =>
    rw [beginRestarts_of_held hheld]
    exact restartBusy_of_pending (restartHeld_iff.mp hheld).1
  | false =>
    refine restartBusy_of (n := n) ?_
    rw [st_beginRestarts hheld]
    have howe := s.st_oweRestarts n
    refine takeRestart_busy ?_
    split at howe
    · next hpending =>
      exact .inl ⟨by rw [howe], by rw [howe]; exact hpending.2⟩
    · next hnot =>
      rw [howe]
      obtain hjob | hown | hpending := h
      · exact .inr hjob
      · exact .inl hown
      · exact absurd hpending hnot

/-! ### Restart followings -/

theorem restartFollow_of_working (h : (s.st n).op ≠ none) : s.restartFollow n = s := by
  unfold restartFollow
  rw [if_neg]
  rintro ⟨-, hop, -⟩
  exact h (hasOp_eq_false_iff.mp hop)

theorem restartFollow_of_not_flagged (h : (s.st n).restartFollow = false) : s.restartFollow n = s := by
  rw [restartFollow, if_neg (by simp [h])]

theorem restartFollow_of_flagged (hflag : (s.st n).restartFollow = true) (hop : (s.st n).op = none)
    (hs : (s.st n).state ≠ .engaged) : s.restartFollow n = if (s.st n).state = .idle then s.follow n .own
      else s.modSt n fun st => { st with restartFollow := false } :=
  if_pos ⟨hflag, hasOp_eq_false_iff.mpr hop, hs⟩

theorem st_follow (s : State) (n : Stn) (job : Job) : (s.follow n job).st n = { s.st n with
    op := some ⟨job, .candidate, (s.st n).parked, false, false, (s.st n).snapshot⟩
    restartFollow := false
    rereadOwed := false } := by
  rw [follow_eq, asksCandidate_st, st_modSt_self]

theorem st_restartFollow_congr {u : State} (h : u.st n = s.st n) :
    (u.restartFollow n).st n = (s.restartFollow n).st n := by
  unfold restartFollow hasOp
  rw [h]
  split
  · split
    · rw [st_follow, st_follow, h]
    · rw [st_modSt_self, st_modSt_self, h]
  · exact h

theorem st_restartFollowings (s : State) (n : Stn) : (forStations restartFollow s).st n = (s.restartFollow n).st n :=
  OnStation.st_forStations OnStation.restartFollow (fun _ _ _ h => st_restartFollow_congr h) s n

/-- The restart followings are made now (R49, R50). -/
def followsNow (s : State) : Prop :=
  s.sm.followDue = true ∧ s.restartBusy = false ∧ (s.rw.part = .running ∨ s.rw.part = .starting)

theorem restartFollows_of_now (h : s.followsNow) : s.restartFollows = (forStations restartFollow s).modSm fun m =>
    { m with followDue := allStations.any fun n => ((forStations restartFollow s).st n).restartFollow } := by
  obtain ⟨hdue, hbusy, hpart⟩ := h
  simp only [restartFollows, hdue, hbusy, hpart, Bool.true_eq_false, Bool.false_eq_true, or_self, if_false, if_true]

/-- Where the part is neither RUNNING nor starting, followings that are due are not made (R181). -/
theorem restartFollows_of_halted (hbusy : s.restartBusy = false)
    (hpart : ¬(s.rw.part = .running ∨ s.rw.part = .starting)) :
    s.restartFollows = s.modSm fun m => { m with followDue := false } := by
  cases hdue : s.sm.followDue with
  | true => simp only [restartFollows, hdue, hbusy, hpart, Bool.true_eq_false, Bool.false_eq_true, or_self, if_false]
  | false =>
    rw [restartFollows_of_not_due hdue, modSm, ← hdue]

/-- Followings change no context but those of the flagged stations. -/
theorem st_restartFollows (s : State) (n : Stn) :
    (s.followsNow → s.restartFollows.st n = (s.restartFollow n).st n)
      ∧ (¬s.followsNow → s.restartFollows.st n = s.st n) := by
  refine ⟨fun h => ?_, fun h => ?_⟩
  · rw [restartFollows_of_now h, modSm_st, st_restartFollowings]
  · by_cases hidle : s.sm.followDue = false ∨ s.restartBusy = true
    · rw [restartFollows, if_pos hidle]
    · rw [not_or, Bool.not_eq_false, Bool.not_eq_true] at hidle
      rw [restartFollows_of_halted hidle.2 fun hpart => h ⟨hidle.1, hidle.2, hpart⟩, modSm_st]

theorem restartFollows_keeps (s : State) : s.restartFollows.rw = s.rw
    ∧ s.restartFollows.sm.restartPending = s.sm.restartPending := by
  unfold restartFollows
  split
  · exact ⟨rfl, rfl⟩
  · split
    · obtain ⟨-, -, hrw, hpending, -⟩ := OnStation.forStations OnStation.restartFollow s
      simp only [modSm_rw, modSm_sm, hrw, hpending, and_self]
    · exact ⟨rfl, rfl⟩

/-! ### The part state -/

/-- A change of the part state leaves the contexts and what a restart still calls for. -/
def PartStateOnly (s t : State) : Prop :=
  (∀ n, t.st n = s.st n) ∧ t.sm.restartPending = s.sm.restartPending ∧ t.sm.followDue = s.sm.followDue
    ∧ t.rw.restartHolds = s.rw.restartHolds

theorem startPart_partStateOnly (s : State) : s.PartStateOnly s.startPart := by
  unfold startPart
  dsimp only
  split <;> exact ⟨fun _ => rfl, rfl, rfl, rfl⟩

theorem partStep_partStateOnly (s : State) : s.PartStateOnly s.partStep := by
  have hself : s.PartStateOnly s := ⟨fun _ => rfl, rfl, rfl, rfl⟩
  unfold partStep
  split
  · split
    · exact ⟨fun _ => rfl, rfl, rfl, rfl⟩
    · exact hself
  · split
    · dsimp only
      split
      · exact startPart_partStateOnly (s.modRw fun r => { r with part := .stopped })
      · exact ⟨fun _ => rfl, rfl, rfl, rfl⟩
    · exact hself
  · split
    · exact startPart_partStateOnly s
    · exact hself
  · exact hself
  · exact hself

@[simp] theorem serveMemory_followDue (s : State) : s.serveMemory.sm.followDue = s.sm.followDue := by
  obtain ⟨_, _, _, _, h⟩ := s.serveMemory_rest
  rw [h]
  rfl

/-! ### All of it, with no turn of a cascade -/

theorem settle_of_no_cascade (hpart : s.rw.part ≠ .faulted) (hturn : ∀ t, s.xe.turn = some t → t.stage ≠ .cascade) :
    s.settle = s.beginRestarts.restartFollows.partStep.serveMemory := by
  rw [settle, if_neg hpart, endCascade_of_none hturn]

theorem settle_of_not_busy (hpart : s.rw.part ≠ .faulted) (hturn : ∀ t, s.xe.turn = some t → t.stage ≠ .cascade)
    (hbusy : s.restartBusy = false) : s.settle = s.restartFollows.partStep.serveMemory := by
  rw [settle_of_no_cascade hpart hturn, beginRestarts_of_not_busy hbusy]

/-- The contexts and the restart's calls after it are those the changes and followings leave. -/
theorem settle_partStateOnly (hpart : s.rw.part ≠ .faulted) (hturn : ∀ t, s.xe.turn = some t → t.stage ≠ .cascade) :
    s.beginRestarts.restartFollows.PartStateOnly s.settle := by
  obtain ⟨hst, hpending, hdue, hholds⟩ := s.beginRestarts.restartFollows.partStep_partStateOnly
  rw [settle_of_no_cascade hpart hturn]
  exact ⟨fun n => (serveMemory_st ..).trans (hst n), (serveMemory_restartPending ..).trans hpending,
    (serveMemory_followDue ..).trans hdue, by rw [serveMemory_rw, hholds]⟩

end State

end Sys2Proof.Machine
end

