-- ==== Sys2Proof/Proofs/LinkRestart.lean ====
section
/-! The link restart: judged at the write, carried out without a turn, its context changes and followings
(R50, R54, R86, R144, R182). -/

namespace Sys2Proof.Machine

variable {s : State} {n : Stn}

/-! ### Judged and carried out -/

theorem working_iff_job (s : State) (j : Job) : s.anyJob (· == j) = true ↔ ∃ n o, s.working n o ∧ o.job = j := by
  simp only [State.anyJob_iff, beq_iff_eq, State.working]

theorem linkRestart_of_stopped (hp : s.rw.part = .stopped) : exec .linkRestart s =
    if s.lp.state = .breaking ∨ s.lp.state = .settling then .next s else .next (restartCarriedOut s).settle := by
  change execLinkRestart s = _
  simp only [execLinkRestart, hp]
  rfl

theorem linkRestart_of_running (hp : s.rw.part = .running) : exec .linkRestart s =
    if s.lp.state = .breaking ∨ s.lp.state = .settling ∨ s.restartBusy = true ∨ s.rw.restartRequest = true then .next s
    else .next (s.modRw fun r => { r with restartRequest := true, restartHolds := s.applying }) := by
  change execLinkRestart s = _
  simp only [execLinkRestart, hp]

theorem linkRestart_elsewhere (hp : s.rw.part = .starting ∨ s.rw.part = .stopping ∨ s.rw.part = .faulted) :
    exec .linkRestart s = .next s := by
  change execLinkRestart s = _
  obtain hp | hp | hp := hp <;> simp only [execLinkRestart, hp]

theorem linkRestartJudgedByPartState : Clauses.LinkRestartJudgedByPartState := by
  intro s
  refine ⟨linkRestart_elsewhere, fun hl => ?_, fun hp h => ?_, fun hp hb hs hbusy hreq => ?_, fun hp hb hs => ?_,
    working_iff_job s .application⟩
  · cases hp : s.rw.part with
    | stopped => rw [linkRestart_of_stopped hp, if_pos hl]
    | running => rw [linkRestart_of_running hp, if_pos (hl.imp_right .inl)]
    | starting => exact linkRestart_elsewhere (.inl hp)
    | stopping => exact linkRestart_elsewhere (.inr (.inl hp))
    | faulted => exact linkRestart_elsewhere (.inr (.inr hp))
  · rw [linkRestart_of_running hp, if_pos (.inr (.inr h))]
  · rw [linkRestart_of_running hp, if_neg (by simp [hb, hs, hbusy, hreq])]
    rfl
  · rw [linkRestart_of_stopped hp, if_neg (by simp [hb, hs])]

theorem requestedRestartCarriedOut : Clauses.RequestedRestartCarriedOut := by
  intro s
  refine ⟨fun hreq ht => if_pos (.inr (Option.isSome_iff_ne_none.mpr ht)), fun hreq ht => if_neg ?_,
    fun hreq => if_pos (.inl hreq)⟩
  simp [hreq, ht]

/-- Settles O10. -/
theorem linkRestartJudgedThenCarriedOut : Obligations.LinkRestartJudgedThenCarriedOut :=
  ⟨linkRestartJudgedByPartState, requestedRestartCarriedOut⟩

theorem breakEnd_of_breaking (h : s.lp.state = .breaking) : exec .breakEnd s = .next (s.modLp fun l =>
    if s.rw.part = .faulted then .reset
    else { l with state := .settling, breakTimer := none, settleTimer := some 5 }) := by
  change execBreakEnd s = _
  simp only [execBreakEnd, h]
  rfl

theorem settlingEnd_of_settling (h : s.lp.state = .settling) : exec .settlingEnd s = .next (if s.rw.part = .running
    then State.settle { s with lp := .reset, sm := { s.sm with followDue := true } } else { s with lp := .reset }) := by
  change execSettlingEnd s = _
  simp only [execSettlingEnd, h]
  rfl

/-- Settles O11. -/
theorem breakAndSettlingEnd : Obligations.BreakAndSettlingEnd := by
  intro s
  refine ⟨fun h hp => ?_, fun h hp => ?_, fun h => ?_, fun h hp => ?_, fun h hp => ?_, fun h => ?_⟩
  · rw [breakEnd_of_breaking h]
    simp only [hp, if_false]
    rfl
  · rw [breakEnd_of_breaking h]
    simp only [hp, if_true]
    rfl
  · change execBreakEnd s = _
    unfold execBreakEnd
    split
    · next hl => exact absurd hl h
    · rfl
  · rw [settlingEnd_of_settling h, if_pos hp]
  · rw [settlingEnd_of_settling h, if_neg hp]
  · change execSettlingEnd s = _
    unfold execSettlingEnd
    split
    · next hl => exact absurd hl h
    · rfl

/-! ### The changes of one context -/

/-- What begins a station's restart changes: the operation, and nothing owed any longer (R50). -/
def State.restartBegun (s : State) (n : Stn) : State :=
  (s.startOp n .restart .final).modSt n fun st => { st with restartOwed := false }

theorem restartBegun_inFlight (s : State) (n : Stn) : ((s.restartBegun n).st n).inFlight = (s.st n).inFlight := by
  simp [State.restartBegun]

theorem beginRestart_of_moving {f : InFlight} (hf : (s.st n).inFlight = some f) (hphase : f.phase ≠ .nothing) :
    s.beginRestart n = (s.restartBegun n).retireInFlight n .abandoned 0 noReport .restart := by
  have hbegun := (restartBegun_inFlight s n).trans hf
  unfold State.restartBegun at hbegun ⊢
  simp only [State.beginRestart, hbegun, hphase, if_false]

theorem beginRestart_of_still (h : ∀ f, (s.st n).inFlight = some f → f.phase = .nothing) :
    s.beginRestart n = (s.restartBegun n).endRestart n false := by
  have hbegun := restartBegun_inFlight s n
  unfold State.restartBegun at hbegun ⊢
  cases hf : (s.st n).inFlight with
  | none =>
    rw [hf] at hbegun
    simp only [State.beginRestart, hbegun]
  | some f =>
    rw [hf] at hbegun
    simp only [State.beginRestart, hbegun, h f hf, if_true]

theorem restartChangesOneContext : Clauses.RestartChangesOneContext := by
  intro s n
  refine ⟨fun f hf hphase => beginRestart_of_moving hf hphase,
    fun retired => ⟨fun hretired h => beginRestart_of_still h,
    fun hs => ?_, fun hs hf => ?_, fun hs hf => ?_⟩⟩
  all_goals
    have hstate : ∀ f : Station → Station, ((s.modSt n f).st n).state = (f (s.st n)).state := fun f => by
      rw [State.st_modSt_self]
    have hflight : ∀ f : Station → Station, ((s.modSt n f).st n).inFlight = (f (s.st n)).inFlight := fun f => by
      rw [State.st_modSt_self]
    simp only [State.endRestart, hstate, hflight]
  · simp only [hs.1, hs.2, or_self, if_false]
  · simp only [hs, if_true, Option.isSome_iff_ne_none.mpr hf, State.enterState_modSt]
    exact congrArg (fun s => ((State.setStage n .final s).askStatus n)) (State.modSt_congr _ _ rfl)
  · simp only [hs, if_true, hf, Option.isSome_none, Bool.false_eq_true, if_false, State.enterState_modSt,
      State.modSt_modSt]
    exact congrArg (fun s => ((State.setStage n .final s).askStatus n)) (State.modSt_congr _ _ rfl)

/-! ### All stations -/

theorem no_cascade (ht : s.xe.turn = none) : ∀ t, s.xe.turn = some t → t.stage ≠ .cascade := fun t h => by
  rw [ht] at h
  cases h

/-- An application under way holds the changes of a restart that was requested while it ran (R54). -/
theorem settle_of_held (ht : s.xe.turn = none) (hheld : s.restartHeld = true) : s.settle = s.serveMemory := by
  obtain ⟨hpending, -, happlying⟩ := State.restartHeld_iff.mp hheld
  have hbusy := State.restartBusy_of_pending hpending
  by_cases hpart : s.rw.part = .faulted
  · rw [State.settle_of_faulted hpart, State.serveMemory_of_faulted hpart]
  · have hstep : s.partStep = s := by
      by_cases hstarting : s.rw.part = .starting
      · have hops : s.noOps = false := by
          obtain ⟨n, o, ho, -⟩ := (State.anyJob_iff s _).mp happlying
          rw [← Bool.not_eq_true, State.noOps_iff]
          intro h
          rw [h n] at ho
          cases ho
        simp only [State.partStep, hstarting, hops, Bool.and_false, Bool.false_and, Bool.false_eq_true, if_false]
      · exact State.partStep_of_busy hbusy hstarting
    rw [State.settle_of_no_cascade hpart (no_cascade ht), State.beginRestarts_of_held hheld,
      State.restartFollows_of_busy hbusy, hstep]

/-- A station with restart changes owed or under way is followed only when they are done. -/
theorem settle_st_of_restarting (hpart : s.rw.part ≠ .faulted) (ht : s.xe.turn = none)
    (h : (s.beginRestarts.st n).restartOwed = true ∨ (s.beginRestarts.st n).op.map (·.job) = some .restart) :
    s.settle.st n = s.beginRestarts.st n := by
  rw [(State.settle_partStateOnly hpart (no_cascade ht)).1 n]
  exact (State.st_restartFollows _ n).2 fun hnow => by
    obtain ⟨-, hfree, -⟩ := hnow
    rw [State.restartBusy_of h] at hfree
    cases hfree

/-- A station whose flag is clear is not followed. -/
theorem settle_st_of_not_flagged (hpart : s.rw.part ≠ .faulted) (ht : s.xe.turn = none)
    (h : (s.beginRestarts.st n).restartFollow = false) : s.settle.st n = s.beginRestarts.st n := by
  rw [(State.settle_partStateOnly hpart (no_cascade ht)).1 n]
  by_cases hnow : s.beginRestarts.followsNow
  · rw [(State.st_restartFollows _ n).1 hnow, State.restartFollow_of_not_flagged h]
  · exact (State.st_restartFollows _ n).2 hnow

theorem oweRestarts_of_none (h : s.sm.restartPending = false) : s.oweRestarts = s := by
  simp only [State.oweRestarts, h, Bool.false_eq_true, if_false]

theorem restartChangesBegin : Clauses.RestartChangesBegin := by
  intro s n ht
  refine ⟨fun hpending hholds happlying => ?_, fun hp hs => ⟨fun hpending hfree => ?_, fun hpending howed => ?_⟩⟩
  · rw [settle_of_held ht (State.restartHeld_iff.mpr ⟨hpending, hholds, happlying⟩)]
    exact ⟨(State.serveMemory_restartPending s).trans hpending, by rw [State.serveMemory_rw, hholds],
      State.serveMemory_st s n⟩
  all_goals
    have hpart : s.rw.part ≠ .faulted := by
      rintro h
      rw [h] at hp
      revert hp
      decide
  · have hheld : s.restartHeld = false := by
      rw [← Bool.not_eq_true, State.restartHeld_iff]
      rintro ⟨-, hholds, happlying⟩
      obtain h | h := hfree
      · rw [h] at hholds; cases hholds
      · rw [h] at happlying; cases happlying
    obtain ⟨hdone, -, hrw⟩ := State.beginRestarts_keeps hheld
    obtain ⟨-, hpendingKept, -, hholdsKept⟩ := State.settle_partStateOnly hpart (no_cascade ht)
    obtain ⟨hrwKept, hpendingKept'⟩ := State.restartFollows_keeps s.beginRestarts
    have howe := s.st_oweRestarts n
    have hst := State.st_beginRestarts hheld n
    refine ⟨hpendingKept.trans (hpendingKept'.trans hdone), ?_, fun habsent howed hflag => ?_, fun habsent hop => ?_,
      fun habsent hop => ?_⟩
    · rw [hholdsKept, hrwKept, hrw, hpending]
      rfl
    · rw [if_neg (by simp [habsent])] at howe
      rw [State.takeRestart_of_not_owed (by rw [howe, howed]), howe] at hst
      rw [settle_st_of_not_flagged hpart ht (by rw [hst, hflag]), hst]
    · rw [if_pos ⟨hpending, habsent⟩] at howe
      rw [State.takeRestart_of_owed (by rw [howe]) (by rw [howe, hop]) (by rw [howe]; exact hs),
        if_neg (by rw [howe]; exact habsent)] at hst
      have hbegun : (s.oweRestarts.beginRestart n).st n
          = ((s.modSt n fun st => { st with restartOwed := true }).beginRestart n).st n :=
        State.st_beginRestart_congr (by rw [howe, State.st_modSt_self])
      rw [settle_st_of_restarting hpart ht (.inr (by rw [hst]; exact State.beginRestart_job ..)), hst, hbegun]
    · rw [if_pos ⟨hpending, habsent⟩] at howe
      rw [State.takeRestart_of_working (by rw [howe]; exact hop), howe] at hst
      rw [settle_st_of_restarting hpart ht (.inl (by rw [hst])), hst]
  · have hheld : s.restartHeld = false := by
      rw [← Bool.not_eq_true, State.restartHeld_iff]
      rintro ⟨h, -⟩
      rw [hpending] at h
      cases h
    have hst := State.st_beginRestarts hheld n
    rw [oweRestarts_of_none hpending] at hst
    refine ⟨fun hop => ?_, fun hop habsent => ?_, fun hop habsent hflag => ?_⟩
    · rw [State.takeRestart_of_working hop] at hst
      rw [settle_st_of_restarting hpart ht (.inl (by rw [hst, howed])), hst]
    · rw [State.takeRestart_of_owed howed hop hs, if_neg habsent] at hst
      rw [settle_st_of_restarting hpart ht (.inr (by rw [hst]; exact State.beginRestart_job ..)), hst]
    · rw [State.takeRestart_of_owed howed hop hs, if_pos habsent, State.st_modSt_self] at hst
      rw [settle_st_of_not_flagged hpart ht (by rw [hst]; exact hflag), hst]

theorem restartFollowingsMade : Clauses.RestartFollowingsMade := by
  intro s n hdue hbusy ht hp hflag
  have hpart : s.rw.part ≠ .faulted := by obtain h | h := hp <;> rw [h] <;> decide
  have hnow : s.followsNow := ⟨hdue, hbusy, hp⟩
  obtain ⟨hst, -, hdueKept, -⟩ := State.settle_partStateOnly hpart (no_cascade ht)
  rw [State.beginRestarts_of_not_busy hbusy] at hst hdueKept
  have hfollow := (hst n).trans ((State.st_restartFollows s n).1 hnow)
  refine ⟨fun hop hs => ?_, fun hop hs => ?_, fun hop => ⟨?_, ?_⟩⟩
  · rw [hfollow, State.restartFollow_of_flagged hflag hop (by rw [hs]; decide), if_pos hs]
  · have hne : (s.st n).state ≠ .engaged ∧ (s.st n).state ≠ .idle := by
      constructor <;> rintro h <;> (rw [h] at hs; revert hs; decide)
    rw [hfollow, State.restartFollow_of_flagged hflag hop hne.1, if_neg hne.2, State.st_modSt_self]
  · rw [hfollow, State.restartFollow_of_working hop]
  · rw [hdueKept, State.restartFollows_of_now hnow, State.modSm_sm]
    dsimp only
    refine List.any_eq_true.mpr ⟨n, by simp [allStations], ?_⟩
    rw [State.st_restartFollowings, State.restartFollow_of_working hop]
    exact hflag

/-- Settles O12. -/
theorem restartChangesAndFollowings : Obligations.RestartChangesAndFollowings :=
  ⟨restartChangesOneContext, restartChangesBegin, restartFollowingsMade⟩

end Sys2Proof.Machine
end

