-- ==== Sys2Proof/Proofs/PartState.lean ====
section
/-! The part state: started and stopped by the host, stepping on of itself, and the header read between
(R29, R180, R181). -/

namespace Sys2Proof.Machine

variable {s : State} {n : Stn}

theorem dirbaseLegal_iff (a : Addr) : dirbaseLegal a = true ↔ a.toNat % 64 = 0 ∧ a.toNat + 4160 ≤ 2 ^ 32 := by
  simp only [dirbaseLegal, Bool.and_eq_true, decide_eq_true_eq, alignedTo_iff]

theorem startPart_of_legal (h : dirbaseLegal s.rw.dirbase = true) : s.startPart =
    State.askSm .headerRead none s.rw.dirbase 64 []
      { s with rw := { s.rw with part := .starting, headerPassed := false } } := if_pos h

theorem startPart_of_illegal (h : dirbaseLegal s.rw.dirbase = false) : s.startPart =
    { s with rw := { s.rw with
      part := .stopped, run := false, headerFault := true, headerPassed := false, faultAddr := s.rw.dirbase } } :=
  if_neg (show ¬dirbaseLegal s.rw.dirbase = true by simp [h])

/-! ### One step of the part state -/

theorem partStep_of_stopped (hp : s.rw.part = .stopped) (hbusy : s.restartBusy = false) :
    s.partStep = if s.rw.run = true then s.startPart else s := by
  simp only [State.partStep, hp, hbusy, Bool.not_false, Bool.and_true]

theorem partStep_of_stopping (hp : s.rw.part = .stopping) (hrest : s.atRest = true) : s.partStep =
    if s.rw.run = true then (s.modRw fun r => { r with part := .stopped }).startPart
    else s.modRw fun r => { r with part := .stopped } := by
  simp only [State.partStep, hp, hrest, if_true]
  rfl

theorem partStep_of_not_at_rest (hp : s.rw.part = .stopping) (hrest : s.atRest = false) : s.partStep = s := by
  simp only [State.partStep, hp, hrest, Bool.false_eq_true, if_false]

theorem partStep_of_started (hp : s.rw.part = .starting) (hpassed : s.rw.headerPassed = true) (hops : s.noOps = true)
    (hdue : s.sm.followDue = false) : s.partStep =
      s.modRw fun r => { r with part := if r.run then .running else .stopped, headerPassed := false } := by
  simp only [State.partStep, hp, hpassed, hops, hdue, Bool.not_false, Bool.and_true, if_true]

theorem atRest_iff : s.atRest = true ↔ s.xe.turn = none ∧ (∀ n o, ¬s.working n o) ∧ s.rw.restartRequest = false
    ∧ s.restartBusy = false := by
  have hops : s.noOps = true ↔ ∀ n o, ¬s.working n o := by
    rw [State.noOps_iff]
    exact forall_congr' fun n => Option.eq_none_iff_forall_ne_some
  simp only [State.atRest, Bool.and_eq_true, Bool.not_eq_true', Option.isNone_iff_eq_none, hops, and_assoc]

/-- The restart followings that were due are not made any more (R181). -/
def State.unfollowed (s : State) : State := { s with sm := { s.sm with followDue := false } }

theorem unfollowed_of_not_due (h : s.sm.followDue = false) : s.unfollowed = s := by
  rw [State.unfollowed, ← h]

/-- Where the part is neither RUNNING nor starting and no restart is busy, it drops what followings are due, and its
state steps on. -/
theorem settle_of_halted (hp : s.rw.part = .stopping ∨ s.rw.part = .stopped)
    (hturn : ∀ t, s.xe.turn = some t → t.stage ≠ .cascade) (hbusy : s.restartBusy = false) :
    s.settle = s.unfollowed.partStep.serveMemory := by
  have hnot : s.rw.part ≠ .faulted ∧ ¬(s.rw.part = .running ∨ s.rw.part = .starting) := by
    obtain h | h := hp <;> rw [h] <;> decide
  rw [State.settle_of_not_busy hnot.1 hturn hbusy, State.restartFollows_of_halted hbusy hnot.2]
  rfl

theorem settle_of_stopped (hp : s.rw.part = .stopped) (ht : s.xe.turn = none) (hbusy : s.restartBusy = false) :
    s.settle = (if s.rw.run = true then s.unfollowed.startPart else s.unfollowed).serveMemory := by
  rw [settle_of_halted (.inr hp) (no_cascade ht) hbusy, partStep_of_stopped (s := s.unfollowed) hp hbusy]
  rfl

theorem settle_of_stopping (hp : s.rw.part = .stopping) (hrest : s.atRest = true) :
    s.settle = (if s.rw.run = true then (s.unfollowed.modRw fun r => { r with part := .stopped }).startPart
      else s.unfollowed.modRw fun r => { r with part := .stopped }).serveMemory := by
  obtain ⟨ht, -, -, hbusy⟩ := atRest_iff.mp hrest
  rw [settle_of_halted (.inl hp) (no_cascade ht) hbusy, partStep_of_stopping (s := s.unfollowed) hp hrest]
  rfl

theorem settle_of_start (hp : s.rw.part = .stopped) (hrun : s.rw.run = true) (ht : s.xe.turn = none)
    (hbusy : s.restartBusy = false) (hdue : s.sm.followDue = false) : s.settle = s.startPart.serveMemory := by
  rw [settle_of_stopped hp ht hbusy, if_pos hrun, unfollowed_of_not_due hdue]

theorem served_of_eq {u v : State} (h : v = u.serveMemory) : u.Served v := h ▸ u.serveMemory_served

/-! ### RUN written as 1 -/

/-- A STOPPED part stays so while restart changes are under way (R181). -/
theorem settle_of_stopped_restarting (hp : s.rw.part = .stopped) (ht : s.xe.turn = none)
    (h : s.anyJob (· == .restart) = true) : s.settle.rw.part = .stopped ∧ s.settle.rw.run = s.rw.run := by
  obtain ⟨n, o, ho, hjob⟩ := (working_iff_job s .restart).mp h
  have hbusy : s.beginRestarts.restartBusy = true :=
    State.beginRestarts_busy (n := n) (.inl (by rw [show (s.st n).op = some o from ho, Option.map_some, hjob]))
  obtain ⟨holds, hrw⟩ := s.beginRestarts_rw
  rw [State.settle_of_no_cascade (by rw [hp]; decide) (no_cascade ht), State.restartFollows_of_busy hbusy,
    State.partStep_of_busy hbusy (by rw [hrw, hp]; decide), State.serveMemory_rw, hrw]
  exact ⟨hp, rfl⟩

/-- Settles O8. -/
theorem runStartStartsStoppedPart : Obligations.RunStartStartsStoppedPart := by
  intro s
  have hexec : s.rw.part = .stopped → exec .runStart s = .next (s.modRw fun r => { r with run := true }).settle :=
    fun hp => congrArg Host.Outcome.next (if_pos hp)
  have hstart := @settle_of_start (s.modRw fun r => { r with run := true })
  refine ⟨fun hp => congrArg Host.Outcome.next (if_neg hp), fun hp ht hbusy hdue halign hfits => ⟨_, hexec hp, ?_⟩,
    fun hp ht hbusy hdue hnot => ⟨_, hexec hp, ?_⟩, fun hp ht hjob => ⟨_, hexec hp, ?_⟩⟩
  · refine served_of_eq ((hstart hp rfl ht hbusy hdue).trans (congrArg State.serveMemory ?_))
    exact startPart_of_legal (s := s.modRw fun r => { r with run := true }) ((dirbaseLegal_iff _).mpr ⟨halign, hfits⟩)
  · refine served_of_eq ((hstart hp rfl ht hbusy hdue).trans (congrArg State.serveMemory ?_))
    exact startPart_of_illegal (s := s.modRw fun r => { r with run := true })
      (Bool.eq_false_iff.mpr (mt (dirbaseLegal_iff _).mp hnot))
  · exact settle_of_stopped_restarting (s := s.modRw fun r => { r with run := true }) hp ht hjob

/-! ### The part state steps on -/

theorem noOps_of_idle (h : ∀ n o, ¬s.working n o) : s.noOps = true :=
  (State.noOps_iff s).mpr fun n => Option.eq_none_iff_forall_ne_some.mpr (h n)

/-- Followings that are due of no flagged station are made at once. -/
theorem restartFollows_of_none_flagged (hbusy : s.restartBusy = false)
    (hp : s.rw.part = .running ∨ s.rw.part = .starting)
    (h : s.sm.followDue = false ∨ ∀ n, (s.st n).restartFollow = false) : s.restartFollows = s.unfollowed := by
  by_cases hdue : s.sm.followDue = false
  · rw [State.restartFollows_of_not_due hdue, unfollowed_of_not_due hdue]
  · have hflags := h.resolve_left hdue
    have hnone : (allStations.any fun n => (s.st n).restartFollow) = false :=
      List.any_eq_false.mpr fun n _ => by simp [hflags n]
    rw [State.restartFollows_of_now ⟨Bool.not_eq_false _ ▸ hdue, hbusy, hp⟩,
      forStations_id fun n => State.restartFollow_of_not_flagged (hflags n), hnone]
    rfl

/-- Settles O14. -/
theorem partStateStepsOn : Obligations.PartStateStepsOn := by
  intro s ht hidle hbusy
  have hrest : s.rw.restartRequest = false → s.atRest = true := fun h => atRest_iff.mpr ⟨ht, hidle, h, hbusy⟩
  refine ⟨fun hp hreq hrun => ?_, fun hp hreq hrun hlegal => ?_, fun hp hreq hrun hlegal => ?_,
    fun hp hrun hlegal => ?_, fun hp hrun hlegal => ?_, fun hp hrun => ?_, fun hp hpassed hdue => ?_⟩
  · refine served_of_eq ((settle_of_stopping hp (hrest hreq)).trans (congrArg State.serveMemory ?_))
    exact if_neg (by simp [hrun])
  · refine served_of_eq ((settle_of_stopping hp (hrest hreq)).trans (congrArg State.serveMemory ?_))
    exact (if_pos hrun).trans (startPart_of_legal (s := s.unfollowed.modRw fun r => { r with part := .stopped }) hlegal)
  · refine served_of_eq ((settle_of_stopping hp (hrest hreq)).trans (congrArg State.serveMemory ?_))
    exact (if_pos hrun).trans
      (startPart_of_illegal (s := s.unfollowed.modRw fun r => { r with part := .stopped }) hlegal)
  · refine served_of_eq ((settle_of_stopped hp ht hbusy).trans (congrArg State.serveMemory ?_))
    exact (if_pos hrun).trans (startPart_of_legal (s := s.unfollowed) hlegal)
  · refine served_of_eq ((settle_of_stopped hp ht hbusy).trans (congrArg State.serveMemory ?_))
    exact (if_pos hrun).trans (startPart_of_illegal (s := s.unfollowed) hlegal)
  · refine served_of_eq ((settle_of_stopped hp ht hbusy).trans (congrArg State.serveMemory ?_))
    exact if_neg (by simp [hrun])
  · refine served_of_eq ?_
    rw [State.settle_of_not_busy (by rw [hp]; decide) (no_cascade ht) hbusy,
      restartFollows_of_none_flagged hbusy (.inr hp) hdue,
      partStep_of_started (s := s.unfollowed) hp hpassed (noOps_of_idle (s := s.unfollowed) hidle) rfl]
    rfl

/-! ### RUN written as 0 -/

/-- The part right after RUN is written as 0 in RUNNING. -/
def State.runStopped (s : State) : State := { s with rw := { s.rw with run := false, part := .stopping } }

theorem runStop_of_running (hp : s.rw.part = .running) : exec .runStop s = .next s.runStopped.settle :=
  congrArg Host.Outcome.next (if_pos hp)

theorem OnStation.releaseHeld (n : Stn) (s : State) : OnStation n s (s.releaseHeld n) := by
  unfold State.releaseHeld State.endInterval
  split
  · split <;> exact ⟨rfl, rfl, rfl, ⟨rfl, rfl⟩, fun _ _ => rfl⟩
  · exact .refl n s

theorem releaseHeld_st (s : State) (n m : Stn) : (s.releaseHeld n).st m = s.st m := by
  unfold State.releaseHeld State.endInterval
  split
  · split <;> rfl
  · rfl

theorem OnStation.reportStatus (n : Stn) (s : State) : OnStation n s (s.reportStatus n) :=
  (startOp n s _ _).trans (askStatus n _)

/-- What follows a turn that left its station LOST is at most the write of its status half. -/
theorem afterTurn_of_lost {t : Turn} (hs : (s.st t.station).state = .lost) : OnStation t.station s (s.afterTurn t)
    ∧ ((s.afterTurn t).st t.station).restartOwed = (s.st t.station).restartOwed
    ∧ ((s.afterTurn t).st t.station).state = .lost := by
  have hheld : OnStation t.station s (if t.kind = .peek then s.releaseHeld t.station else s) :=
    .ite (.releaseHeld _ s) (.refl _ s)
  have hst : (if t.kind = .peek then s.releaseHeld t.station else s).st t.station = s.st t.station := by
    split
    · exact releaseHeld_st ..
    · rfl
  simp only [State.afterTurn]
  generalize (if t.kind = .peek then s.releaseHeld t.station else s) = u at hheld hst
  split
  · rw [takeReread_of_not (by rintro ⟨-, h⟩; rw [hst, hs] at h; cases h), hst]
    exact ⟨hheld, rfl, hs⟩
  · refine ⟨hheld.trans (.reportStatus _ u), ?_, ?_⟩
    · simp [State.reportStatus, State.askStatus, hst]
    · simp [State.reportStatus, State.askStatus, hst, hs]

/-- The end of a turn that leaves its station LOST works on that station alone, and what is owed to it stays owed. -/
theorem finishTurn_lost {t : Turn} (ht : s.xe.turn = some t) : OnStation t.station (s.modXe fun _ => ⟨none, []⟩)
      (s.finishTurn .lost) ∧ ((s.finishTurn .lost).st t.station).restartOwed = (s.st t.station).restartOwed
      ∧ ((s.finishTurn .lost).st t.station).state = .lost := by
  have hleave : OnStation t.station (s.modXe fun _ => ⟨none, []⟩) ((s.modXe fun _ => ⟨none, []⟩).leaveTurn t .lost) :=
    .ite (.modSt _ _ _) (.enterState _ _ _)
  have hown : (((s.modXe fun _ => ⟨none, []⟩).leaveTurn t .lost).st t.station).state = .lost
      ∧ (((s.modXe fun _ => ⟨none, []⟩).leaveTurn t .lost).st t.station).restartOwed
        = (s.st t.station).restartOwed := by
    unfold State.leaveTurn
    split <;> simp [State.enterState, Station.enter]
  obtain ⟨hafter, howed, hlost⟩ := afterTurn_of_lost hown.1
  simp only [State.finishTurn, ht]
  exact ⟨hleave.trans hafter, howed.trans hown.2, hlost⟩

theorem endCascade_cases (s : State) : s.endCascade = s
    ∨ ∃ t, s.xe.turn = some t ∧ s.hasOp t.station = false ∧ s.endCascade = s.finishTurn .lost := by
  unfold State.endCascade
  split
  · exact .inl rfl
  · next t ht =>
    split
    · next h => exact .inr ⟨t, ht, h.2.1, rfl⟩
    · exact .inl rfl

/-- The end of a cascade's turn takes no restart changes back, and leaves the registers. -/
theorem endCascade_restartsAt (h : s.restartsAt n) : s.endCascade.restartsAt n ∧ s.endCascade.rw = s.rw := by
  obtain hend | ⟨t, ht, hfree, hend⟩ := endCascade_cases s
  · rw [hend]
    exact ⟨h, rfl⟩
  · obtain ⟨honly, howed, hlost⟩ := finishTurn_lost ht
    have hpending : (s.finishTurn .lost).sm.restartPending = s.sm.restartPending := honly.restart.1
    rw [hend]
    refine ⟨?_, honly.rw⟩
    by_cases hn : n = t.station
    · subst hn
      have hnotabsent : ((s.finishTurn .lost).st t.station).state ≠ .absent := by rw [hlost]; decide
      obtain hjob | ⟨hown, -⟩ | ⟨hcalled, -⟩ := h
      · rw [State.hasOp_eq_false_iff.mp hfree] at hjob
        cases hjob
      · exact .inr (.inl ⟨howed.trans hown, hnotabsent⟩)
      · exact .inr (.inr ⟨hpending.trans hcalled, hnotabsent⟩)
    · have hst : (s.finishTurn .lost).st n = s.st n := honly.others n hn
      rw [State.restartsAt, hst, hpending]
      exact h

/-- A STOPPING part stays so while restart changes are called for, owed or under way (R181). -/
theorem settle_of_stopping_restarting (hp : s.rw.part = .stopping) (h : s.restartsAt n) :
    s.settle.rw.part = .stopping ∧ s.settle.rw.run = s.rw.run := by
  obtain ⟨hstill, hrw⟩ := endCascade_restartsAt h
  have hbusy := State.beginRestarts_busy hstill
  obtain ⟨holds, hrw'⟩ := s.endCascade.beginRestarts_rw
  rw [State.settle, if_neg (by rw [hp]; decide), State.restartFollows_of_busy hbusy,
    State.partStep_of_busy hbusy (by rw [hrw', hrw, hp]; decide), State.serveMemory_rw, hrw', hrw]
  exact ⟨hp, rfl⟩

/-- Settles O9. -/
theorem runStopStopsRunningPart : Obligations.RunStopStopsRunningPart := by
  intro s
  refine ⟨fun hp => congrArg Host.Outcome.next (if_neg hp), runStop_of_running,
    fun hp hbusy hturn hwork => ⟨_, runStop_of_running hp, ?_⟩, fun hp h => ⟨_, runStop_of_running hp, ?_⟩,
    fun hp hbusy ht hidle hreq => ⟨_, runStop_of_running hp, ?_⟩⟩
  · have hrest : s.runStopped.unfollowed.atRest = false := by
      rw [← Bool.not_eq_true, atRest_iff]
      rintro ⟨ht, hidle, hreq, -⟩
      obtain h | ⟨n, o, ho⟩ | h := hwork
      · exact h ht
      · exact hidle n o ho
      · exact Bool.eq_false_iff.mp hreq h
    refine served_of_eq ((settle_of_halted (s := s.runStopped) (.inl rfl) hturn hbusy).trans
      (congrArg State.serveMemory ?_))
    exact partStep_of_not_at_rest (s := s.runStopped.unfollowed) rfl hrest
  · have hrestarts : ∃ n, s.runStopped.restartsAt n := by
      obtain ⟨n, o, ho, hjob⟩ | ⟨n, h⟩ | ⟨h, n, habsent⟩ := h
      · exact ⟨n, .inl (by rw [show (s.runStopped.st n).op = some o from ho, Option.map_some, hjob])⟩
      · exact ⟨n, .inr (.inl h)⟩
      · exact ⟨n, .inr (.inr ⟨h, habsent⟩)⟩
    obtain ⟨n, hn⟩ := hrestarts
    exact settle_of_stopping_restarting (s := s.runStopped) rfl hn
  · have hrest : s.runStopped.atRest = true := atRest_iff.mpr ⟨ht, hidle, hreq, hbusy⟩
    refine served_of_eq ((settle_of_stopping (s := s.runStopped) rfl hrest).trans (congrArg State.serveMemory ?_))
    exact if_neg Bool.false_ne_true

/-! ### The header read -/

theorem headerFits_iff (l : Latched) (c : StationConfig) : headerFits l c = true ↔
    (∀ b p, c.route = .branch b p → b.val < l.branchCount)
      ∧ c.linkAddress ∉ l.branchAddresses.take l.branchCount ∧ (c.watchInterval ≠ 0 → l.watchPage ≠ 0#32) := by
  cases hroute : c.route <;>
    simp [headerFits, hroute, Latched.branchesInUse, List.contains_eq_mem, and_assoc, ← or_iff_not_imp_left]

theorem headerFitsAll_iff (s : State) (l : Latched) : s.headerFitsAll l = true ↔
    ∀ n : Stn, (s.st n).state ≠ .absent → headerFits l (s.config n) = true := by
  simp only [State.headerFitsAll, List.all_eq_true, allStations, List.mem_finRange, true_implies, Bool.or_eq_true,
    beq_iff_eq, ← or_iff_not_imp_left]

theorem headerLegal_iff (d : List Byte) (l : Latched) : headerLegal d l = true ↔
    leField d 0 4 = 0x4B4C4449 ∧ l.linkRate ≤ 3 ∧ 8 ≤ l.responseTimeout ∧ 1 ≤ l.holdDelay ∧ 1 ≤ l.lapseLimit
      ∧ l.lapseLimit ≤ 15 ∧ l.branchCount ≤ 8 ∧ (∀ a ∈ l.branchAddresses.take l.branchCount, 1 ≤ a ∧ a ≤ 119)
      ∧ (l.branchAddresses.take l.branchCount).Nodup
      ∧ (l.watchPage = 0#32 ∨ (l.watchPage.toNat % 16 = 0 ∧ l.watchPage.toNat + 1024 ≤ 2 ^ 32)) := by
  simp only [headerLegal, Config.headerMark, Bool.and_eq_true, Bool.or_eq_true, beq_iff_eq,
    decide_eq_true_eq, List.all_eq_true, alignedTo_iff, and_assoc]
  exact Iff.rfl

theorem headerChecks : Clauses.HeaderChecks := by
  intro dirbase d s
  refine ⟨_, rfl, rfl, rfl, rfl, rfl, rfl, rfl, rfl, fun hd b hb => ?_, headerLegal_iff .., ?_⟩
  · have hbyte : ((d.drop 0x10).take 8)[b]? = some (byteAt d (16 + b)) := getElem?_slice hd hb
    rw [Latched.ofHeader, List.getElem?_map, hbyte]
    rfl
  · rw [headerFitsAll_iff]
    simp only [headerFits_iff]

theorem headerRead_of {r : Request} {data : List Byte} (hr : s.inProgress .headerRead r) (hl : data.length = r.length)
    (hp : s.rw.part = .starting) : exec (.headerRead data) s = .next (s.afterRead.takeHeader data).settle := by
  change execHeaderRead data s = _
  rw [execHeaderRead, State.whenRead_of hr.1 hr.2 rfl hl]
  exact if_pos hp

theorem headerReadJudgesHeader : Clauses.HeaderReadJudgesHeader := by
  intro s r data hr hl hp
  rw [headerRead_of hr hl hp]
  refine ⟨fun hlegal hfits => congrArg (fun s => Host.Outcome.next (State.settle s)) (if_pos ?_),
    fun hnot => congrArg (fun s => Host.Outcome.next (State.settle s)) (if_neg ?_)⟩
  · exact Bool.and_eq_true_iff.mpr ⟨hlegal, hfits⟩
  · exact fun h => hnot (Bool.and_eq_true_iff.mp h)

/-- Settles O13. -/
theorem headerReadLatchesOrFaults : Obligations.HeaderReadLatchesOrFaults := ⟨headerReadJudgesHeader, headerChecks⟩

end Sys2Proof.Machine
end
